-- ==== Sys2Proof/Word.lean ====
section
/-! DEFINITION. The word and byte types of the DPD: registers and addresses are 64 bits wide (spec rule R6, REG_BITS and
ADDR_BITS), the unit of every memory access is the byte (R65). -/

namespace Sys2Proof

/-- A register or an address: 64 bits (R6). Address arithmetic wraps modulo 2^64 (R60). -/
abbrev Word := BitVec 64

/-- A byte of external memory (R60, R65). -/
abbrev Byte := BitVec 8

end Sys2Proof
end

