-- ==== Sys2Proof/Syntax.lean ====
section
/-! DEFINITION. The commands of DPD-CS v1 (R81, R84), one constructor per row of spec/opcode_table.json. Operands are not in the
command word: they are in ARG0 to ARG3 (R80, R86), so only CONFIG carries a field. -/

namespace Sys2Proof

/-- A command. -/
inductive Instr where
  /-- CONFIG (OPC 0x01), with the element type code of bits 15:8 (R82, R141). -/
  | config (type : Byte)
  /-- SETDATA (OPC 0x02), R143. -/
  | setdata
  /-- DECODE (OPC 0x03), R146. -/
  | decode
  deriving DecidableEq, Repr

end Sys2Proof
end

