-- ==== Sys2Proof/Decode.lean ====
section
/-! DEFINITION. The command word (R80 to R84, R87): its fields, the decoder, total on every 64-bit word and rejecting by name,
and the encoder, both from the encoding tables of spec/30_encoding.md Part A. -/

namespace Sys2Proof

/-- Why a word is no legal command: one name for each bullet of R87. -/
inductive IllegalWord where
  /-- OPC is 0x00 or lies in 0x04 to 0xFF. -/
  | reservedOpcode
  /-- RSV is not 0 (R83). -/
  | reservedBitsSet
  /-- OPC is 0x02 or 0x03 and TYPE is not 0. -/
  | typeNotZero
  deriving DecidableEq, Repr

/-- OPC, bits 7:0 (R80). -/
def opcField (c : Word) : Byte := c.extractLsb' 0 8

/-- TYPE, bits 15:8 (R80). -/
def typeField (c : Word) : Byte := c.extractLsb' 8 8

/-- RSV, bits 63:16 (R80). -/
def rsvField (c : Word) : BitVec 48 := c.extractLsb' 16 48

/-- The decoder (R80 to R84, R87). -/
def decode (c : Word) : Except IllegalWord Instr :=
  if rsvField c ≠ 0 then .error .reservedBitsSet
  else if opcField c = 0x01 then .ok (.config (typeField c))
  else if opcField c = 0x02 then
    if typeField c = 0 then .ok .setdata else .error .typeNotZero
  else if opcField c = 0x03 then
    if typeField c = 0 then .ok .decode else .error .typeNotZero
  else .error .reservedOpcode

/-- The command word of RSV = 0 and the given TYPE and OPC (R80). -/
def commandWord (type opc : Byte) : Word := 0#48 ++ type ++ opc

/-- The encoder (R81, R84). -/
def encode : Instr → Word
  | .config t => commandWord t 0x01
  | .setdata => commandWord 0 0x02
  | .decode => commandWord 0 0x03

/-- A row of the map of legal command words (R84): match and mask. -/
structure OpcodeRow where
  mnemonic : String
  matchBits : Word
  mask : Word
  deriving DecidableEq, Repr

/-- The three rows of R84. -/
def opcodeRows : List OpcodeRow :=
  [⟨"CONFIG", 0x0000000000000001, 0xFFFFFFFFFFFF00FF⟩,
   ⟨"SETDATA", 0x0000000000000002, 0xFFFFFFFFFFFFFFFF⟩,
   ⟨"DECODE", 0x0000000000000003, 0xFFFFFFFFFFFFFFFF⟩]

/-- "A word c is CONFIG when c & mask = match, and likewise for the others" (R84). -/
def OpcodeRow.selects (r : OpcodeRow) (c : Word) : Bool := c &&& r.mask == r.matchBits

/-- The mnemonic of a command, as R81 has it. -/
def Instr.mnemonic : Instr → String
  | .config _ => "CONFIG"
  | .setdata => "SETDATA"
  | .decode => "DECODE"

/-- The word whose low `nbits` bits are those of `w`, every higher bit 0, numbered as spec/opcode_table.json numbers them. -/
def tableWord (nbits w : Nat) : Word := BitVec.ofNat 64 (w % 2 ^ nbits)

/-- The command that the decoder reads from an opcode-table word. -/
def decodeTableWord (nbits w : Nat) : Option Instr :=
  match decode (tableWord nbits w) with
  | .ok i => some i
  | .error _ => none

end Sys2Proof
end

