-- ==== Sys2Proof/Config.lean ====
section
/-! DEFINITION. What an implementation or its platform fixes (the OPEN parameters of R6, plain data that a state carries and
no step changes), and the free values: constants with no body, so that nothing can be proved of their values. -/

namespace Sys2Proof.Machine

/-- The kind of a memory access of the unit, the second argument of `MemOK` (R6). -/
inductive AccessKind where
  | read
  | write
  deriving DecidableEq, Repr

/-- A run of byte addresses: `len` bytes from `base`, each address modulo 2^64 (R60). -/
structure Region where
  base : Word
  len : Nat
  deriving DecidableEq, Repr

/-- A range of addresses for which the platform does not complete accesses of one kind. -/
structure Denial where
  region : Region
  kind : AccessKind
  deriving DecidableEq, Repr

/-- The OPEN parameters of R6, and the address ranges whose reads have side effects (R66).
`MemOK(addr, kind)` is false exactly on the ranges of `memDeny`: the addresses are finitely many, so every predicate has such a
list. WORD_BITS, ADDR_BITS and REG_BITS are fixed at 64 by R6. -/
structure Params where
  maxMiniBlocks : Nat
  prevCap : Nat
  fastWidthA : Nat
  fastWidthB : Nat
  implId : Word
  dpdBase : Word
  memDeny : List Denial
  readEffects : List Region
  deriving DecidableEq, Repr

/-- The parameters that `State.reset` carries, one machine among all those R6 allows.
DESIGN CHOICE (log entry 2), unsafe for a claim about `State.reset` alone: every claim of the package is about all parameters. -/
def Params.representative : Params where
  maxMiniBlocks := 8
  prevCap := 64
  fastWidthA := 6
  fastWidthB := 8
  implId := 0
  dpdBase := 0x40000000
  memDeny := []
  readEffects := []

/-- What the `n`-th register read of an unspecified value returns (R49, R54). Safe: nothing is known of it. -/
opaque Config.freeWord : Nat → Word

/-- The `n`-th free choice of the host's side, taken modulo the number of alternatives: what a host load sees (R65, R69), which prefix
of an abandoned command's writes stands (R261). Safe. -/
opaque Config.freeChoice : Nat → Nat

/-- Which of the values that a racing byte has held a read of the unit returns (R74), taken modulo their number: for the count of the
unit's draws, the address, and which of the command's reads of that byte it is. Safe. -/
opaque Config.freePick : Nat → Word → Nat → Nat

/-- The value of BITPOS where its number does not fit the register (DESIGN CHOICE, log entry 8), for the count of the unit's draws. Safe. -/
opaque Config.freeCursor : Nat → Word

end Sys2Proof.Machine
end

