-- ==== Sys2Proof/Machine/State.lean ====
section
/-! DEFINITION. The DPD's state as plain data (spec/10_state.md), the two reason types of a stop, and the reset state (R51).
Registers keep the spec's names. One home each: STATUS is the fields `command` (BUSY), `failed`, `ovr`, `baEmpty`, `mode`,
`errcode`; PREV_LEN is the length of `prev`; ID is `params.implId`; CMD holds nothing (R24). -/

namespace Sys2Proof.Machine

/-- STATUS.MODE (R26). -/
inductive Mode where
  | none
  | int32
  | int64
  | byteArray
  deriving DecidableEq, Repr

/-- The error kinds, a closed set (R230). Their codes are in Machine/Flags.lean. -/
inductive ErrKind where
  | none
  | typeError
  | eofError
  /-- Reserved, never raised (R176, R230). -/
  | notImplemented
  | formatError
  | overflowError
  | capacityError
  | stateError
  | illegalCommand
  | busError
  deriving DecidableEq, Repr

/-- External memory: the listed bytes, addresses strictly rising, no entry equal to what an unlisted address reads as. -/
abbrev Memory := List Host.Cell

/-- The integer decoder context (R28 to R40). -/
structure IntContext where
  vrem : Word
  last : Word
  minDelta : Word
  bitw : BitVec 7
  vcmb : Word
  vcb : Word
  mbidx : Word
  nmb : Word
  vpmb : Word
  bitpos : Word
  bufBase : Word
  bufLen : Word
  /-- WIDTH[j] for j in [0, MAX_MINI_BLOCKS), in order (R40). -/
  width : List Byte
  deriving DecidableEq, Repr

/-- The byte-array decoder context (R41 to R47). -/
structure ByteArrayContext where
  baVrem : Word
  sufBase : Word
  sufLen : Word
  sufPos : Word
  prev : List Byte
  first : Bool
  heapUsed : Word
  deriving DecidableEq, Repr

/-- One byte write of the unit: the address, the byte there before, the byte written (R70, R261). -/
structure ByteWrite where
  addr : Word
  old : Byte
  new : Byte
  deriving DecidableEq, Repr

/-- One access of the host or the platform. Window offsets have 14 bits: the window is 0x4000 bytes long (R20). -/
inductive HostOp where
  /-- WR (R89): a host write of `width` bytes at a window offset. -/
  | writeReg (offset : BitVec 14) (width : Nat) (value : Word)
  /-- RD (R89): a host read of `width` bytes at a window offset. -/
  | readReg (offset : BitVec 14) (width : Nat)
  /-- WAIT (R89): the host reads STATUS repeatedly until BUSY = 0. -/
  | wait
  /-- A host store of one byte into external memory, by the host's own means (R60). -/
  | writeMem (addr : Word) (value : Byte)
  /-- A host load of one byte from external memory, by the host's own means (R60). -/
  | readMem (addr : Word)
  /-- The platform asserts the reset input and releases it again (R260), as one event: DESIGN CHOICE, log entry 17. R260 tells the two
  apart and does not say what an access of the host does in between, so none lands there. -/
  | reset
  deriving DecidableEq, Repr

/-- An access still to come. While a command runs (BUSY = 1) it lands before the command's step exactly when `whileBusy`;
otherwise it waits for the completion. DESIGN CHOICE (log entry 4), safe: the schedule is data, and every schedule is a state. -/
structure HostEvent where
  whileBusy : Bool
  op : HostOp
  deriving DecidableEq, Repr

/-- The machine's state. -/
structure State where
  /-- The OPEN parameters (R6): constant. -/
  params : Params
  arg0 : Word
  arg1 : Word
  arg2 : Word
  arg3 : Word
  /-- The captured command word (R24, R53): present exactly while STATUS.BUSY = 1. -/
  command : Option Word
  failed : Bool
  ovr : Bool
  baEmpty : Bool
  mode : Mode
  errcode : ErrKind
  result : Word
  ictx : IntContext
  bctx : ByteArrayContext
  /-- The bound input buffer, the last SETDATA's `[base, base+len)` (R73, R74); empty when nothing is bound (DEDUCED, log
  entry 10). -/
  bound : Region
  mem : Memory
  /-- Values that bytes overwritten by the host held since the last SETDATA was issued (R74). -/
  stale : List Host.Cell
  /-- The unit's memory writes since the host last read STATUS with BUSY = 0, newest first, of every command since (R70): those that
  the host may not see yet (R65, R69). -/
  writes : List ByteWrite
  /-- The model's own: names the free values of the running command (R74; log entries 3, 8). Each CMD write that is taken, and each free
  cursor value, advances it; the host's accesses to a running command do not. -/
  draws : Nat
  /-- The model's own: how many free values the host's side has drawn (log entry 3). -/
  hostDraws : Nat
  /-- The model's own: the host's accesses still to come, next first (R22, R89). -/
  host : List HostEvent
  /-- The model's own: what the host's reads returned, newest first. -/
  readLog : List Word
  deriving DecidableEq, Repr

/-- Machine faults. There are none: every error of the DPD ends its command, is reported in STATUS, and the machine goes on
(R230, R237). -/
inductive Fault where
  deriving DecidableEq, Repr

/-- Why a step has no meaning. -/
inductive Refusal where
  /-- An instruction with no meaning yet, by its mnemonic. Raised by an arm of exec only. Safe. -/
  | notModelled (mnemonic : String)
  /-- A SETDATA or DECODE whose regions are not pairwise disjoint: "the command has no meaning in this spec, and a model
  refuses it" (R73). Raised by execSetdata and execDecode. Safe. -/
  | regionsOverlap
  /-- A SETDATA of a buffer in a region with read side effects: "outside this spec, and a model refuses it" (R66).
  Raised by execSetdata. Safe. -/
  | bufferReadEffects
  /-- A host access to the window that is not a naturally aligned 8-byte access: "A model refuses such an access (no
  meaning)" (R64). Raised by the host access, not by a command. Safe. -/
  | windowAccessForm
  deriving DecidableEq, Repr

/-- The integer context with every register 0 (R51). -/
def IntContext.zero (p : Params) : IntContext where
  vrem := 0
  last := 0
  minDelta := 0
  bitw := 0
  vcmb := 0
  vcb := 0
  mbidx := 0
  nmb := 0
  vpmb := 0
  bitpos := 0
  bufBase := 0
  bufLen := 0
  width := List.replicate p.maxMiniBlocks 0

/-- The byte-array context with every register 0 and PREV empty (R51). -/
def ByteArrayContext.zero : ByteArrayContext where
  baVrem := 0
  sufBase := 0
  sufLen := 0
  sufPos := 0
  prev := []
  first := false
  heapUsed := 0

/-- The machine of parameters `p` right after reset (R51, R260), nothing queued, memory with nothing listed. -/
def State.resetWith (p : Params) : State where
  params := p
  arg0 := 0
  arg1 := 0
  arg2 := 0
  arg3 := 0
  command := .none
  failed := false
  ovr := false
  baEmpty := false
  mode := .none
  errcode := .none
  result := 0
  ictx := IntContext.zero p
  bctx := ByteArrayContext.zero
  bound := ⟨0, 0⟩
  mem := []
  stale := []
  writes := []
  draws := 0
  hostDraws := 0
  host := []
  readLog := []

/-- The reset state (R51), of the representative parameters (log entry 2). -/
def State.reset : State := State.resetWith Params.representative

end Sys2Proof.Machine
end

