-- ==== Sys2Proof/Machine/Flags.lean ====
section
/-! DEFINITION. STATUS: its fields' codes (R26, R230) and the word that a host read returns (R26), and which error kinds set
FAILED (R232). The DPD has no other flags (R52). -/

namespace Sys2Proof.Machine

/-- The value of STATUS.MODE (R26). -/
def Mode.code : Mode → BitVec 2
  | .none => 0
  | .int32 => 1
  | .int64 => 2
  | .byteArray => 3

/-- The value of STATUS.ERRCODE (R230). -/
def ErrKind.code : ErrKind → BitVec 4
  | .none => 0
  | .typeError => 1
  | .eofError => 2
  | .notImplemented => 3
  | .formatError => 4
  | .overflowError => 5
  | .capacityError => 6
  | .stateError => 7
  | .illegalCommand => 8
  | .busError => 9

/-- The kinds that set STATUS.FAILED (R147, R232). -/
def ErrKind.fatal : ErrKind → Bool
  | .eofError => true
  | .formatError => true
  | .overflowError => true
  | .capacityError => true
  | .busError => true
  | .none => false
  | .typeError => false
  | .notImplemented => false
  | .stateError => false
  | .illegalCommand => false

/-- STATUS.BUSY: 1 while a command is captured and not completed (R24, R26). -/
def State.busy (s : State) : Bool := s.command.isSome

/-- STATUS as a word: bits 63:12 and 7:6 read 0 (R26). -/
def State.statusWord (s : State) : Word :=
  0#52 ++ s.errcode.code ++ 0#2 ++ s.mode.code ++ BitVec.ofBool s.baEmpty ++ BitVec.ofBool s.ovr ++
    BitVec.ofBool s.failed ++ BitVec.ofBool s.busy

end Sys2Proof.Machine
end

