-- ==== Sys2Proof/Machine/Operands.lean ====
section
/-! DEFINITION. The operands of each command (R85, R86): whole ARG registers, none extended, scaled or shifted. And the numeric
rules of the element types: size (R99, R160), range (R165), truncation (R9, R166), the zig-zag mapping (R96). -/

namespace Sys2Proof.Machine

/-- SETDATA's `count`: ARG0 (R86). -/
def State.opCount (s : State) : Word := s.arg0

/-- SETDATA's `base`: ARG1 (R86). -/
def State.opBase (s : State) : Word := s.arg1

/-- SETDATA's `len`: ARG2 (R86). -/
def State.opLen (s : State) : Word := s.arg2

/-- DECODE's `max`: ARG0 (R86). -/
def State.opMax (s : State) : Word := s.arg0

/-- DECODE's `out` in the integer modes: ARG1 (R86). -/
def State.opOut (s : State) : Word := s.arg1

/-- DECODE's `desc` in BYTE_ARRAY mode: ARG1 (R86). -/
def State.opDesc (s : State) : Word := s.arg1

/-- DECODE's `heap` in BYTE_ARRAY mode: ARG2 (R86). -/
def State.opHeap (s : State) : Word := s.arg2

/-- DECODE's `cap` in BYTE_ARRAY mode: ARG3 (R86). -/
def State.opCap (s : State) : Word := s.arg3

/-- The mode that CONFIG's TYPE selects, none for a TYPE that gives TYPE_ERROR (R82, R141). -/
def typeMode (t : Byte) : Option Mode :=
  if t = 0x01 then some .int32
  else if t = 0x02 then some .int64
  else if t = 0x06 then some .byteArray
  else none

/-- `esize`: 4 in INT32 mode, else 8 (R160). -/
def Mode.esize : Mode → Nat
  | .int32 => 4
  | .int64 => 8
  | .byteArray => 8
  | .none => 8

/-- `InRange(v, esize)` (R165). -/
def inRange (v : Int) (esize : Nat) : Bool :=
  decide (-(2 ^ (8 * esize - 1) : Int) ≤ v ∧ v < (2 ^ (8 * esize - 1) : Int))

/-- `trunc_N(v)`: v mod 2^N (R9). -/
def trunc (n : Nat) (v : Int) : Nat := (v % (2 ^ n : Int)).toNat

/-- The zig-zag mapping `zz(u)` (R96). -/
def zz (u : Nat) : Int := if u % 2 = 0 then (u / 2 : Nat) else -((u / 2 : Nat) : Int) - 1

end Sys2Proof.Machine
end

