-- ==== Sys2Proof/Machine/Ops.lean ====
section
/-! DEFINITION. The shared operations: the memory as a list in canonical form, address regions, MemOK, the unit's memory
primitives (R11), raising an error (R12), and how every command begins and ends (R140, R147): `finish` is the one operation
that records an error (R232, R233, R237). -/

namespace Sys2Proof.Machine

/-! ## Memory as data -/

/-- What a byte that nothing has written reads as: 0. DESIGN CHOICE (log entry 1), unsafe: the spec gives external memory no
reset contents; 95_test_vectors.md takes "Memory not listed holds 0". -/
def Memory.unlisted : Byte := 0

/-- The canonical form: addresses strictly rising, within 2^64, no entry equal to what an unlisted address reads as. -/
abbrev Memory.wf (m : Memory) : Prop :=
  m.Pairwise (fun c d => c.1 < d.1) ∧ ∀ c ∈ m, c.1 < 2 ^ 64 ∧ c.2 ≠ Memory.unlisted

/-- The byte at an address. -/
def Memory.read : Memory → Nat → Byte
  | [], _ => Memory.unlisted
  | c :: m, a => if c.1 = a then c.2 else Memory.read m a

/-- The memory with the byte at one address replaced; it keeps the canonical form. -/
def Memory.write : Memory → Nat → Byte → Memory
  | [], a, b => if b = Memory.unlisted then [] else [(a, b)]
  | c :: m, a, b =>
    if a < c.1 then (if b = Memory.unlisted then c :: m else (a, b) :: c :: m)
    else if a = c.1 then (if b = Memory.unlisted then m else (a, b) :: m)
    else c :: Memory.write m a b

/-- The memory after a list of byte writes, first first. -/
def Memory.apply : Memory → List ByteWrite → Memory
  | m, [] => m
  | m, w :: ws => Memory.apply (Memory.write m w.addr.toNat w.new) ws

/-- The memory with the bytes `bs` written from address `a` on, each address modulo 2^64 (a launch premise `MEM`, R89). -/
def Memory.load : Memory → Word → List Byte → Memory
  | m, _, [] => m
  | m, a, b :: bs => Memory.load (Memory.write m a.toNat b) (a + 1) bs

/-! ## Little-endian numbers (R61) -/

/-- The `n` least significant bytes of `v`, least significant first. -/
def leBytes : Nat → Nat → List Byte
  | 0, _ => []
  | n + 1, v => BitVec.ofNat 8 v :: leBytes n (v / 256)

/-- The little-endian value of a byte string. -/
def leValue : List Byte → Nat
  | [] => 0
  | b :: bs => b.toNat + 256 * leValue bs

/-! ## Regions and the platform's predicates -/

/-- Whether an address lies in a region, modulo 2^64 (R60). -/
def Region.contains (r : Region) (a : Word) : Bool := decide ((a - r.base).toNat < r.len)

/-- Whether two regions share an address. Two runs of addresses modulo 2^64 meet exactly when neither is empty and one begins
inside the other. -/
def Region.overlaps (r q : Region) : Bool :=
  decide (0 < r.len) && decide (0 < q.len) && (r.contains q.base || q.contains r.base)

/-- Not all pairwise disjoint (R73). -/
def anyOverlap : List Region → Bool
  | [] => false
  | r :: rs => rs.any (fun q => r.overlaps q) || anyOverlap rs

/-- `MemOK(addr, kind)` (R6, R11). -/
def memOk (p : Params) (a : Word) (k : AccessKind) : Bool :=
  !(p.memDeny.any fun d => decide (d.kind = k) && d.region.contains a)

/-- The register window: 0x4000 bytes at DPD_BASE (R20, R67). -/
def windowRegion (p : Params) : Region := ⟨p.dpdBase, 0x4000⟩

/-! ## Sub-steps of a command -/

/-- A sub-step of a command: it goes on with a value, or raises an error kind (R12). What it did before the raise stands. -/
abbrev Sub (α : Type) := EStateM ErrKind State α

/-- `raise E` (R12). -/
def raise (e : ErrKind) : Sub Unit := fun s => .error e s

/-- A check that raises: `if c: raise E`. -/
def raiseIf (c : Bool) (e : ErrKind) : Sub Unit := fun s => if c then .error e s else .ok () s

/-- Read the state. -/
def look {α : Type} (f : State → α) : Sub α := fun s => .ok (f s) s

/-- Write the state. -/
def update (f : State → State) : Sub Unit := fun s => .ok () (f s)

/-- The values other than the present one that a byte may be read as: those it has held since the SETDATA (R74). -/
def staleAt (s : State) (a : Word) : List Byte := (s.stale.filter fun c => c.1 == a.toNat).map (·.2)

/-- One of `current :: others`, by a free choice; the present value where there is no other. -/
def chooseByte (current : Byte) (others : List Byte) (choice : Nat) : Byte :=
  match others with
  | [] => current
  | _ :: _ => (current :: others).getD (choice % (others.length + 1)) current

/-- What the unit's read number `k` of the byte at an address returns (R74): the present value, or one it has held since the SETDATA. The
choice is the running command's own: a read of the same byte in a trial run of the same command makes the same choice. -/
def pickedByte (s : State) (k : Nat) (a : Word) : Byte :=
  chooseByte (s.mem.read a.toNat) (staleAt s a) (Config.freePick s.draws a k)

/-- A byte read of the unit (R11, R231): BUS_ERROR and nothing performed where MemOK fails. A byte the host has overwritten
since the SETDATA reads as any value it has held since (R74); `k` tells apart the reads that one command makes of one byte. -/
def readByte (k : Nat) (a : Word) : Sub Byte := fun s =>
  if memOk s.params a .read then .ok (pickedByte s k a) s else .error .busError s

/-- A byte write of the unit (R11, R231). -/
def writeByte (a : Word) (b : Byte) : Sub Unit := fun s =>
  if memOk s.params a .write then
    .ok () { s with
      mem := s.mem.write a.toNat b
      writes := ⟨a, s.mem.read a.toNat, b⟩ :: s.writes }
  else .error .busError s

/-- `MemReadBytes(addr, n)` (R11): `n` bytes in address order, addresses modulo 2^64. -/
def memReadBytes : Word → Nat → Sub (List Byte)
  | _, 0 => pure []
  | a, n + 1 => do
    let b ← readByte 0 a
    let bs ← memReadBytes (a + 1) n
    pure (b :: bs)

/-- `MemRead(addr, n)` (R11), little-endian. -/
def memRead (a : Word) (n : Nat) : Sub Nat := do
  let bs ← memReadBytes a n
  pure (leValue bs)

/-- `MemWriteBytes(addr, s)` (R11), in address order. -/
def memWriteBytes : Word → List Byte → Sub Unit
  | _, [] => pure ()
  | a, b :: bs => do
    writeByte a b
    memWriteBytes (a + 1) bs

/-- `MemWrite(addr, n, v)` (R11), little-endian. -/
def memWrite (a : Word) (n : Nat) (v : Nat) : Sub Unit := memWriteBytes a (leBytes n v)

/-! ## The beginning and the end of every command -/

/-- The start of `Execute` (R140): RESULT is 0. -/
def State.begin (s : State) : State := { s with result := 0 }

/-- `Finish(e)` (R147), the one operation that records how a command ended: ERRCODE, FAILED for the fatal kinds (R232), BUSY
cleared. An error saves no state and vectors nowhere (R237). -/
def State.finish (e : ErrKind) (s : State) : State :=
  { s with errcode := e, failed := s.failed || e.fatal, command := none }

/-- A whole command (R140): its body from the begun state, ended by what it raised, or by NONE. -/
def complete (body : Sub Unit) (s : State) : State :=
  match body s.begin with
  | .ok _ t => t.finish .none
  | .error e t => t.finish e

/-! ## The clearing helpers (R142) -/

/-- `ClearInt(count, base, len)` (R142). -/
def State.clearInt (count base len : Word) (s : State) : State :=
  { s with ictx := { IntContext.zero s.params with vrem := count, bufBase := base, bufLen := len } }

/-- `ClearBA()` (R142). -/
def State.clearBA (s : State) : State := { s with bctx := ByteArrayContext.zero }

end Sys2Proof.Machine
end

