-- ==== Sys2Proof/Machine/BitReader.lean ====
section
/-! DEFINITION. The bit-reader primitives (spec/40_bitreader.md): sub-steps over the integer context's cursor BITPOS and the
buffer `[BUF_BASE, BUF_BASE + BUF_LEN)`. Cursor arithmetic is exact, on Nat; addresses wrap (R9, R60). -/

namespace Sys2Proof.Machine

/-- `BITPOS <- n`. Where `n` does not fit the 64-bit register the spec states no value: a free one (DESIGN CHOICE, log entry 8,
safe). -/
def setBitpos (n : Nat) : Sub Unit := fun s =>
  if n < 2 ^ 64 then .ok () { s with ictx := { s.ictx with bitpos := BitVec.ofNat 64 n } }
  else .ok () { s with ictx := { s.ictx with bitpos := Config.freeCursor s.draws }, draws := s.draws + 1 }

/-- The bits of the bound buffer: `8*BUF_LEN`. -/
def State.bufBits (s : State) : Nat := 8 * s.ictx.bufLen.toNat

/-- The address of the byte that holds stream bit `p` (R37). -/
def State.bitAddr (s : State) (p : Nat) : Word := s.ictx.bufBase + BitVec.ofNat 64 (p / 8)

/-- `bit(p)` (R120): each evaluation reads one byte. -/
def bit (p : Nat) : Sub Nat := do
  let a ← look (·.bitAddr p)
  let b ← readByte (p % 8) a
  pure (b.toNat / 2 ^ (p % 8) % 2)

/-- `sum over k in [0, w) of bit(p + k) * 2^k` (R94, R121). -/
def bitsFrom : Nat → Nat → Sub Nat
  | _, 0 => pure 0
  | p, w + 1 => do
    let b ← bit p
    let rest ← bitsFrom (p + 1) w
    pure (b + 2 * rest)

/-- `ReadBits(w)` (R121, R122). -/
def readBits (w : Nat) : Sub Nat := do
  let p ← look (·.ictx.bitpos.toNat)
  let size ← look (·.bufBits)
  raiseIf (decide (p + w > size)) .eofError
  let v ← bitsFrom p w
  setBitpos (p + w)
  pure v

/-- A bit position rounded up to the next byte boundary (R123). -/
def roundUp (p : Nat) : Nat := 8 * ((p + 7) / 8)

/-- `AlignedByte()` (R123). -/
def alignedByte : Sub Nat := do
  let p ← look fun s => roundUp s.ictx.bitpos.toNat
  let size ← look (·.bufBits)
  raiseIf (decide (p + 8 > size)) .eofError
  let a ← look (·.bitAddr p)
  let v ← readByte 0 a
  setBitpos (p + 8)
  pure v.toNat

/-- `VarUInt()` from the byte of index `10 - left` on, with `v` gathered so far (R124). At `left = 0` no byte is left to read:
the loop returns or raises within ten bytes, so that line is never reached from `varUInt`. -/
def varUIntFrom : Nat → Nat → Sub Nat
  | 0, v => pure v
  | left + 1, v => do
    let b ← alignedByte
    raiseIf (decide (left = 0) && decide (b > 0x01)) .formatError
    if b < 0x80 then pure (v + b % 0x80 * 2 ^ (7 * (9 - left)))
    else varUIntFrom left (v + b % 0x80 * 2 ^ (7 * (9 - left)))

/-- `VarUInt()` (R124). -/
def varUInt : Sub Nat := varUIntFrom 10 0

/-- `ZigZag()` (R125). -/
def zigZag : Sub Int := do
  let u ← varUInt
  pure (zz u)

end Sys2Proof.Machine
end

