-- ==== Sys2Proof/Machine/IntDecode.lean ====
section
/-! DEFINITION. One output slot of the integer context and the integer-mode DECODE (spec/42_int_decode.md). -/

namespace Sys2Proof.Machine

/-- The width bytes of a header, `n` of them (R162): a byte above 64 raises FORMAT_ERROR as it is read. -/
def readWidths : Nat → Sub (List Byte)
  | 0 => pure []
  | n + 1 => do
    let b ← alignedByte
    raiseIf (decide (b > 64)) .formatError
    let bs ← readWidths n
    pure (BitVec.ofNat 8 b :: bs)

/-- The integer context after a header has been read (the last lines of `ParseHeader`, R162): every register but VREM, BITPOS and
the buffer's. `WIDTH[j]` is 0 from `nmb` on. -/
def IntContext.withHeader (c : IntContext) (p : Params) (bs nmb vcb : Nat) (fv md : Int) (ws : List Byte) : IntContext :=
  { c with
    nmb := BitVec.ofNat 64 nmb
    vpmb := BitVec.ofNat 64 (bs / nmb)
    vcb := BitVec.ofNat 64 vcb
    last := BitVec.ofInt 64 fv
    minDelta := BitVec.ofInt 64 md
    mbidx := 0
    bitw := (ws.getD 0 0).setWidth 7
    vcmb := BitVec.ofNat 64 (bs / nmb)
    width := ws ++ List.replicate (p.maxMiniBlocks - nmb) 0 }

/-- `ParseHeader(esize)` (R162): the block's first value. -/
def parseHeader (esize : Nat) : Sub Int := do
  let bs ← varUInt
  let nmb ← varUInt
  let vcb ← varUInt
  let fv ← zigZag
  let md ← zigZag
  raiseIf (decide (nmb = 0)) .formatError
  let most ← look (·.params.maxMiniBlocks)
  raiseIf (decide (nmb > most)) .capacityError
  raiseIf (decide (bs = 0) || decide (bs % nmb ≠ 0)) .formatError
  let ws ← readWidths nmb
  raiseIf (!inRange fv esize) .overflowError
  update fun s => { s with ictx := s.ictx.withHeader s.params bs nmb vcb fv md ws }
  pure fv

/-- The running value after a delta: `LAST + MIN_DELTA + raw`, exact (R164). -/
def IntContext.sum (c : IntContext) (raw : Nat) : Int := c.last.toInt + c.minDelta.toInt + (raw : Int)

/-- `NextDelta(esize)`, the general path (R163). -/
def nextDelta (esize : Nat) : Sub Int := do
  let w ← look (·.ictx.bitw.toNat)
  let raw ← readBits w
  let t ← look (·.ictx.sum raw)
  raiseIf (!inRange t esize) .overflowError
  update fun s => { s with ictx := { s.ictx with last := BitVec.ofInt 64 t, vcmb := s.ictx.vcmb - 1 } }
  pure t

/-- `WIDTH[j]` (R40). -/
def IntContext.widthAt (c : IntContext) (j : Nat) : Byte := c.width.getD j 0

/-- Entering the mini-block that MBIDX now names: BITW and VCMB are loaded (R161). -/
def IntContext.enter (c : IntContext) : IntContext :=
  { c with bitw := (c.widthAt c.mbidx.toNat).setWidth 7, vcmb := c.vpmb }

/-- `IdeNext(esize)`, one output slot (R161). -/
def ideNext (esize : Nat) : Sub Int := do
  let exhausted ← look fun s => decide (s.ictx.vcmb = 0)
  if exhausted then
    update fun s => { s with ictx := { s.ictx with mbidx := s.ictx.mbidx + 1 } }
    let more ← look fun s => decide (s.ictx.mbidx.toNat < s.ictx.nmb.toNat)
    if more then
      update fun s => { s with ictx := s.ictx.enter }
      nextDelta esize
    else parseHeader esize
  else nextDelta esize

/-- The slots of an integer DECODE: `left` more, the next one being slot `k`. RESULT counts the completed slots, the `DONE` of R160
and R233. The element write is R166. -/
def decodeIntLoop (esize : Nat) (out : Word) : Nat → Nat → Sub Unit
  | 0, _ => pure ()
  | left + 1, k => do
    let v ← ideNext esize
    memWrite (out + BitVec.ofNat 64 (esize * k)) esize (trunc (8 * esize) v)
    update fun s => { s with result := BitVec.ofNat 64 (k + 1) }
    decodeIntLoop esize out left (k + 1)

/-- The count of an integer DECODE: `min(max, VREM)` (R160). -/
def State.intCount (s : State) : Nat := min s.opMax.toNat s.ictx.vrem.toNat

/-- `DecodeInt(max, out)` (R160). -/
def decodeInt : Sub Unit := do
  let esize ← look (·.mode.esize)
  let n ← look (·.intCount)
  let out ← look (·.opOut)
  decodeIntLoop esize out n 0
  update fun s => { s with
    ictx := { s.ictx with vrem := s.ictx.vrem - BitVec.ofNat 64 n }
    result := BitVec.ofNat 64 n }

end Sys2Proof.Machine
end

