-- ==== Sys2Proof/Machine/ByteArray.lean ====
section
/-! DEFINITION. The byte-array mode's SETDATA body (R145) and DECODE (spec/43_bytearray_decode.md). -/

namespace Sys2Proof.Machine

/-- `SetDataBA(count, base, len)` (R145). -/
def setDataBA (count base len : Word) : Sub Unit := do
  update fun s => { (s.clearInt 0 0 0).clearBA with baEmpty := false }
  if len.toNat = 0 then update fun s => { s with baEmpty := true }
  else do
    raiseIf (decide (len.toNat < 4)) .eofError
    let l ← memRead base 4
    raiseIf (decide (l > len.toNat - 4)) .eofError
    update fun s => s.clearInt count (base + 4) (BitVec.ofNat 64 l)
    update fun s => { s with bctx :=
      { baVrem := count
        sufBase := base + 4 + BitVec.ofNat 64 l
        sufLen := BitVec.ofNat 64 (len.toNat - 4 - l)
        sufPos := 0
        prev := []
        first := true
        heapUsed := s.bctx.heapUsed } }

/-- `PrefixNext()` (R201): one slot of the nested 32-bit integer decoder. -/
def prefixNext : Sub Int := do
  let p ← ideNext 4
  update fun s => { s with ictx := { s.ictx with vrem := s.ictx.vrem - 1 } }
  pure p

/-- `SuffixNext()` (R203). -/
def suffixNext : Sub (List Byte) := do
  let pos ← look (·.bctx.sufPos.toNat)
  let size ← look (·.bctx.sufLen.toNat)
  let base ← look (·.bctx.sufBase)
  raiseIf (decide (pos + 4 > size)) .eofError
  let m ← memRead (base + BitVec.ofNat 64 pos) 4
  raiseIf (decide (pos + 4 + m > size)) .eofError
  let suf ← memReadBytes (base + BitVec.ofNat 64 (pos + 4)) m
  update fun s => { s with bctx := { s.bctx with sufPos := BitVec.ofNat 64 (pos + 4 + m) } }
  pure suf

/-- `Reconstruct(p, suf)` (R204, R205). -/
def reconstruct (p : Int) (suf : List Byte) : Sub (List Byte) := do
  let first ← look (·.bctx.first)
  let prev ← look (·.bctx.prev)
  if first then pure suf
  else do
    raiseIf (decide (p < 0) || decide (p > (prev.length : Int))) .formatError
    pure (prev.take p.toNat ++ suf)

/-- `CheckCapacity(l, cap)` (R206). -/
def checkCapacity (l : Nat) (cap : Word) : Sub Unit := do
  let most ← look (·.params.prevCap)
  raiseIf (decide (l > most)) .capacityError
  let used ← look (·.bctx.heapUsed.toNat)
  raiseIf (decide (used + l > cap.toNat)) .capacityError

/-- `EmitValue(v, desc, heap, k)` (R207), in the layout of R100. -/
def emitValue (v : List Byte) (desc heap : Word) (k : Nat) : Sub Unit := do
  let a ← look fun s => heap + s.bctx.heapUsed
  memWriteBytes a v
  memWrite (desc + BitVec.ofNat 64 (16 * k)) 8 a.toNat
  memWrite (desc + BitVec.ofNat 64 (16 * k + 8)) 4 v.length
  memWrite (desc + BitVec.ofNat 64 (16 * k + 12)) 4 0
  update fun s => { s with bctx := { s.bctx with heapUsed := s.bctx.heapUsed + BitVec.ofNat 64 v.length } }

/-- `UpdatePrev(v)` (R208). -/
def updatePrev (v : List Byte) : Sub Unit :=
  update fun s => { s with bctx := { s.bctx with prev := v, first := false } }

/-- The value of one slot: the checks and reads of R200's loop body that come before any write, in the order of R234. -/
def baValue (cap : Word) : Sub (List Byte) := do
  let p ← prefixNext
  let suf ← suffixNext
  let v ← reconstruct p suf
  checkCapacity v.length cap
  pure v

/-- One slot of a byte-array DECODE (the loop body of R200). -/
def baSlot (desc heap cap : Word) (k : Nat) : Sub Unit := do
  let v ← baValue cap
  emitValue v desc heap k
  updatePrev v

/-- The slots of a byte-array DECODE: `left` more, the next one being slot `k`. RESULT counts the completed slots (R200, R233). -/
def decodeBALoop (desc heap cap : Word) : Nat → Nat → Sub Unit
  | 0, _ => pure ()
  | left + 1, k => do
    baSlot desc heap cap k
    update fun s => { s with result := BitVec.ofNat 64 (k + 1) }
    decodeBALoop desc heap cap left (k + 1)

/-- The count of a byte-array DECODE: `min(max, BA_VREM)` (R200). -/
def State.baCount (s : State) : Nat := min s.opMax.toNat s.bctx.baVrem.toNat

/-- `DecodeBA(max, desc, heap, cap)` (R200). -/
def decodeBA : Sub Unit := do
  let n ← look (·.baCount)
  let desc ← look (·.opDesc)
  let heap ← look (·.opHeap)
  let cap ← look (·.opCap)
  update fun s => { s with bctx := { s.bctx with heapUsed := 0 } }
  decodeBALoop desc heap cap n 0
  update fun s => { s with
    bctx := { s.bctx with baVrem := s.bctx.baVrem - BitVec.ofNat 64 n }
    result := BitVec.ofNat 64 n }

end Sys2Proof.Machine
end

