-- ==== Sys2Proof/Machine/Commands.lean ====
section
/-! DEFINITION. The meanings of the three commands and of an illegal word (spec/41_config_setdata.md): `Execute`'s branches (R140),
each one whole command. -/

namespace Sys2Proof.Machine

/-- An illegal command word (R87, R140): ILLEGAL_COMMAND, RESULT = 0, nothing else. -/
def execIllegal (s : State) : Host.Outcome State Fault Refusal := .next (complete (raise .illegalCommand) s)

/-- What CONFIG clears (R141): both contexts, FAILED, BA_EMPTY; it also ends the binding of the input buffer (R74; DEDUCED,
log entry 10). -/
def State.configClear (s : State) : State :=
  { (s.clearInt 0 0 0).clearBA with failed := false, baEmpty := false, bound := ⟨0, 0⟩, stale := [] }

/-- `CONFIG(t)` (R141). -/
def configBody (t : Byte) : Sub Unit := do
  update State.configClear
  match typeMode t with
  | some m => update fun s => { s with mode := m }
  | none => do
    update fun s => { s with mode := .none }
    raise .typeError

/-- CONFIG (R141). -/
def execConfig (t : Byte) (s : State) : Host.Outcome State Fault Refusal := .next (complete (configBody t) s)

/-- `SETDATA(count, base, len)` (R143, R144, R145). The buffer `[base, base+len)` is bound from here on (R73, R74). -/
def setdataBody : Sub Unit := do
  let count ← look (·.opCount)
  let base ← look (·.opBase)
  let len ← look (·.opLen)
  update fun s => { s with failed := false, bound := ⟨base, len.toNat⟩ }
  let mode ← look (·.mode)
  match mode with
  | .int32 => update fun s => s.clearInt count base len
  | .int64 => update fun s => s.clearInt count base len
  | .byteArray => setDataBA count base len
  | .none => setDataBA count base len

/-- The buffer that a SETDATA would bind. -/
def State.newBuffer (s : State) : Region := ⟨s.opBase, s.opLen.toNat⟩

/-- SETDATA (R143). STATE_ERROR in mode NONE (R140). A buffer that meets the register window (R73) or a region with read side
effects (R66) has no meaning: refused (DEDUCED, log entry 9). -/
def execSetdata (s : State) : Host.Outcome State Fault Refusal :=
  if s.mode = .none then .next (complete (raise .stateError) s)
  else if anyOverlap [s.newBuffer, windowRegion s.params] then .refused .regionsOverlap
  else if s.params.readEffects.any fun r => s.newBuffer.overlaps r then .refused .bufferReadEffects
  else .next (complete setdataBody s)

/-- The regions of a DECODE (R73): its output arrays, the bound buffer, the register window; the whole heap `[ARG2, ARG2 + ARG3)`,
however much of it is used. -/
def State.decodeRegions (s : State) : List Region :=
  match s.mode with
  | .byteArray =>
    [⟨s.opDesc, 16 * s.baCount⟩, ⟨s.opHeap, s.opCap.toNat⟩, s.bound, windowRegion s.params]
  | .int32 => [⟨s.opOut, s.mode.esize * s.intCount⟩, s.bound, windowRegion s.params]
  | .int64 => [⟨s.opOut, s.mode.esize * s.intCount⟩, s.bound, windowRegion s.params]
  | .none => []

/-- `DECODE()` (R146): by mode. -/
def decodeBody : Sub Unit := do
  let mode ← look (·.mode)
  match mode with
  | .int32 => decodeInt
  | .int64 => decodeInt
  | .byteArray => decodeBA
  | .none => decodeBA

/-- DECODE (R146). STATE_ERROR in mode NONE (R140) and after a failure (R146). Overlapping regions have no meaning (R73): refused
(where the check stands is DEDUCED, log entry 10). -/
def execDecode (s : State) : Host.Outcome State Fault Refusal :=
  if s.mode = .none then .next (complete (raise .stateError) s)
  else if s.failed then .next (complete (raise .stateError) s)
  else if anyOverlap s.decodeRegions then .refused .regionsOverlap
  else .next (complete decodeBody s)

end Sys2Proof.Machine
end

