-- ==== Sys2Proof/Machine/Dispatch.lean ====
section
/-! DEFINITION. The meaning of every command: one arm per constructor of Instr. -/

namespace Sys2Proof.Machine

/-- What a command does (R140). -/
def exec (i : Instr) (s : State) : Host.Outcome State Fault Refusal :=
  match i with
  | .config t => Sys2Proof.Machine.execConfig t s
  | .setdata => Sys2Proof.Machine.execSetdata s
  | .decode => Sys2Proof.Machine.execDecode s

end Sys2Proof.Machine
end

