-- ==== Sys2Proof/Machine/HostAccess.lean ====
section
/-! DEFINITION. The host's side: the register window (R20, R54, R55), the host's loads and stores of external memory (R60, R65, R69,
R74), WAIT (R89), reset (R260, R261), and which agent moves next. -/

namespace Sys2Proof.Machine

/-- A register of the window (R20). -/
inductive WindowReg where
  | id | cmd | arg0 | arg1 | arg2 | arg3 | status | result
  | vrem | last | minDelta | bitw | vcmb | vcb | mbidx | nmb | vpmb | bitpos | bufBase | bufLen
  | baVrem | sufBase | sufLen | sufPos | prevLen | first | heapUsed
  | width (j : Nat)
  deriving DecidableEq, Repr

/-- The map of R20, but for the WIDTH table. -/
def windowMap : List (Nat × WindowReg) :=
  [(0x000, .id), (0x008, .cmd), (0x010, .arg0), (0x018, .arg1), (0x020, .arg2), (0x028, .arg3), (0x030, .status),
   (0x038, .result), (0x040, .vrem), (0x048, .last), (0x050, .minDelta), (0x058, .bitw), (0x060, .vcmb), (0x068, .vcb),
   (0x070, .mbidx), (0x078, .nmb), (0x080, .vpmb), (0x088, .bitpos), (0x090, .bufBase), (0x098, .bufLen)] ++
  [(0x0A0, .baVrem), (0x0A8, .sufBase), (0x0B0, .sufLen), (0x0B8, .sufPos), (0x0C0, .prevLen), (0x0C8, .first),
   (0x0D0, .heapUsed)]

/-- The register at a window offset; none where the offset is unmapped (R20). -/
def regAt (p : Params) (off : BitVec 14) : Option WindowReg :=
  if 0x1000 ≤ off.toNat then
    if (off.toNat - 0x1000) % 8 = 0 ∧ (off.toNat - 0x1000) / 8 < p.maxMiniBlocks then
      some (.width ((off.toNat - 0x1000) / 8))
    else none
  else windowMap.lookup off.toNat

/-- "Width used" (R20): how many low bits of a register are not always 0. -/
def WindowReg.usedBits : WindowReg → Nat
  | .bitw => 7
  | .prevLen => 32
  | .first => 1
  | .width _ => 8
  | .status => 12
  | _ => 64

/-- The registers of the two contexts (R28 to R47). -/
def WindowReg.isContext : WindowReg → Bool
  | .id | .cmd | .arg0 | .arg1 | .arg2 | .arg3 | .status | .result => false
  | _ => true

/-- The registers that read as unspecified values while FAILED = 1 (R49): the context but for the four that SETDATA gave. -/
def WindowReg.lostOnFailure : WindowReg → Bool
  | .bufBase | .bufLen | .sufBase | .sufLen => false
  | r => r.isContext

/-- The stored value of a register, as a 64-bit word with its unused bits 0 (R20, R23 to R47). CMD reads 0 (R24). -/
def State.regValue (s : State) : WindowReg → Word
  | .id => s.params.implId
  | .cmd => 0
  | .arg0 => s.arg0
  | .arg1 => s.arg1
  | .arg2 => s.arg2
  | .arg3 => s.arg3
  | .status => s.statusWord
  | .result => s.result
  | .vrem => s.ictx.vrem
  | .last => s.ictx.last
  | .minDelta => s.ictx.minDelta
  | .bitw => s.ictx.bitw.setWidth 64
  | .vcmb => s.ictx.vcmb
  | .vcb => s.ictx.vcb
  | .mbidx => s.ictx.mbidx
  | .nmb => s.ictx.nmb
  | .vpmb => s.ictx.vpmb
  | .bitpos => s.ictx.bitpos
  | .bufBase => s.ictx.bufBase
  | .bufLen => s.ictx.bufLen
  | .baVrem => s.bctx.baVrem
  | .sufBase => s.bctx.sufBase
  | .sufLen => s.bctx.sufLen
  | .sufPos => s.bctx.sufPos
  | .prevLen => BitVec.ofNat 64 (s.bctx.prev.length % 2 ^ 32)
  | .first => BitVec.setWidth 64 (BitVec.ofBool s.bctx.first)
  | .heapUsed => s.bctx.heapUsed
  | .width j => (s.ictx.widthAt j).setWidth 64

/-- The bits of STATUS that a read while BUSY = 1 leaves unspecified: every field but BUSY (R54); reserved bits read 0 (R26). -/
def statusFreeBits : Word := 0xF3E

/-- A register read of the host (R49, R54): the value and the state after it. It changes nothing but the count of the host's draws. The unused
bits of a register whose value is unspecified still read 0 (R20; DEDUCED, log entry 3). -/
def State.readRegister (s : State) (r : WindowReg) : Word × State :=
  let free : Word := (Config.freeWord s.hostDraws) &&& BitVec.ofNat 64 (2 ^ r.usedBits - 1)
  let drawn : State := { s with hostDraws := s.hostDraws + 1 }
  if s.busy then
    if r = .status then ((Config.freeWord s.hostDraws &&& statusFreeBits) ||| 1, drawn)
    else if r = .result ∨ r.isContext then (free, drawn)
    else (s.regValue r, s)
  else if s.failed && r.lostOnFailure then (free, drawn)
  else (s.regValue r, s)

/-- CMD captures a word (R24): BUSY = 1, and the command has its own free values from here on. The capture of a SETDATA begins a new
history of the bytes it will bind (R74; DEDUCED, log entry 5). -/
def State.capture (s : State) (c : Word) : State :=
  { s with command := some c, draws := s.draws + 1, stale := if c = encode .setdata then [] else s.stale }

/-- A host write of a whole register (R24, R25, R54, R55). -/
def State.writeRegister (s : State) (r : WindowReg) (v : Word) : State :=
  match r with
  | .cmd =>
    if s.busy then { s with ovr := true } else s.capture v
  | .arg0 => if s.busy then { s with ovr := true } else { s with arg0 := v }
  | .arg1 => if s.busy then { s with ovr := true } else { s with arg1 := v }
  | .arg2 => if s.busy then { s with ovr := true } else { s with arg2 := v }
  | .arg3 => if s.busy then { s with ovr := true } else { s with arg3 := v }
  | _ => s

/-- An access the window takes: 8 bytes, naturally aligned (R54, R64). -/
def windowAccessOk (off : BitVec 14) (width : Nat) : Bool := decide (width = 8) && decide (off.toNat % 8 = 0)

/-- The unit runs the captured word `c` (R140): the command it decodes to, or the completion of an illegal word. -/
def runCommand (c : Word) (s : State) : Host.Outcome State Fault Refusal :=
  match decode c with
  | .ok i => exec i s
  | .error _ => execIllegal s

/-- A host write at a window offset. Writes to unmapped offsets are ignored (R54). -/
def hostWrite (off : BitVec 14) (width : Nat) (v : Word) (s : State) : Host.Outcome State Fault Refusal :=
  if windowAccessOk off width then
    match regAt s.params off with
    | some r => .next (s.writeRegister r v)
    | none => .next s
  else .refused .windowAccessForm

/-- The host has read STATUS with BUSY = 0: every write of the commands so far is visible to it from here on (R69(b)). -/
def State.sync (s : State) : State := { s with writes := [] }

/-- What a register read means for the order of the host's later loads: a read of STATUS with BUSY = 0 orders them (R69(b), R71). -/
def State.noteRead (s : State) (r : WindowReg) : State := if r = .status ∧ s.busy = false then s.sync else s

/-- A host read at a window offset; the value goes to the read log. Unmapped offsets read 0 (R54). -/
def hostRead (off : BitVec 14) (width : Nat) (s : State) : Host.Outcome State Fault Refusal :=
  if windowAccessOk off width then
    match regAt s.params off with
    | some r =>
      let read := s.readRegister r
      .next { read.2.noteRead r with readLog := read.1 :: s.readLog }
    | none => .next { s with readLog := 0 :: s.readLog }
  else .refused .windowAccessForm

/-- A host store of a byte (R60). The value it overwrites is one that a later read of the unit may still return while the
buffer is bound (R74). -/
def hostStore (a : Word) (b : Byte) (s : State) : State :=
  { s with mem := s.mem.write a.toNat b, stale := (a.toNat, s.mem.read a.toNat) :: s.stale }

/-- The bytes that a list of writes put at an address. -/
def newAt (ws : List ByteWrite) (a : Word) : List Byte := (ws.filter (·.addr == a)).map (·.new)

/-- The bytes that a list of writes replaced at an address. -/
def oldAt (ws : List ByteWrite) (a : Word) : List Byte := (ws.filter (·.addr == a)).map (·.old)

/-- The writes made between a state and a later one of the same command, newest first. -/
def newWrites (s t : State) : List ByteWrite := t.writes.take (t.writes.length - s.writes.length)

/-- The log entry of a host load that may see `current` or any of `others`. -/
def State.logLoad (s : State) (current : Byte) (others : List Byte) : State :=
  { s with
    readLog := (chooseByte current others (Config.freeChoice s.hostDraws)).setWidth 64 :: s.readLog
    hostDraws := s.hostDraws + 1 }

/-- A host load of a byte (R60, R65, R69). It may see any subset of the writes of the commands since the host last read BUSY = 0: the byte
as it is, or as it was before any of those writes, or, while a command runs, as that command will leave it (DEDUCED, log entry 6). -/
def hostLoad (a : Word) (s : State) : Host.Outcome State Fault Refusal :=
  let current := s.mem.read a.toNat
  match s.command with
  | none => .next (s.logLoad current (oldAt s.writes a))
  | some c =>
    match runCommand c s with
    | .next t => .next (s.logLoad current (oldAt s.writes a ++ newAt (newWrites s t) a))
    | .fault f => .fault f
    | .refused r => .refused r

/-- Every register at its reset value (R51, R260), after the writes `ws` of an abandoned command (newest first); they are not yet
certain to be seen (R71). The host's own list and log, and the counts of draws, stay; the binding of the buffer ends (R74; log
entry 7). -/
def State.afterReset (s : State) (ws : List ByteWrite) : State :=
  { State.resetWith s.params with
    mem := s.mem.apply ws.reverse
    writes := ws ++ s.writes
    draws := s.draws
    hostDraws := s.hostDraws
    host := s.host
    readLog := s.readLog }

/-- The oldest `n` of a list of writes, newest first. -/
def firstWrites (n : Nat) (ws : List ByteWrite) : List ByteWrite :=
  match ws with
  | [] => []
  | _ :: _ => ws.drop (ws.length - n)

/-- The reset input is asserted and released (R260), at once: no access of the host lands while reset is held, a case for which the spec
says nothing (DESIGN CHOICE, unsafe for such accesses, log entry 17). A command in progress is abandoned with a free prefix of its write sequence made (R261); one
that has no meaning (R73) has none here either (DESIGN CHOICE, log entry 7). The whole prefix lands at the reset, so after every store that
the host made while the command ran, though R69(c) orders neither (DESIGN CHOICE, unsafe, log entries 5 and 7). -/
def resetMachine (s : State) : Host.Outcome State Fault Refusal :=
  match s.command with
  | none => .next (s.afterReset [])
  | some c =>
    match runCommand c s with
    | .next t =>
      .next { (s.afterReset
          (firstWrites (Config.freeChoice s.hostDraws % ((newWrites s t).length + 1)) (newWrites s t))) with
        hostDraws := s.hostDraws + 1 }
    | .fault f => .fault f
    | .refused r => .refused r

/-- One access of the host or the platform. WAIT is here only with BUSY = 0: it has read that. -/
def hostStep (op : HostOp) (s : State) : Host.Outcome State Fault Refusal :=
  match op with
  | .writeReg off width v => hostWrite off width v s
  | .readReg off width => hostRead off width s
  | .wait => .next s.sync
  | .writeMem a b => .next (hostStore a b s)
  | .readMem a => hostLoad a s
  | .reset => resetMachine s

/-- Whether the next access lands before a running command's step. WAIT never does: it polls until BUSY = 0. -/
def HostEvent.landsWhileBusy (e : HostEvent) : Bool := e.whileBusy && !decide (e.op = .wait)

/-- One step of the whole: with a command running, the unit runs it whole (R8) unless the host's next access lands first; else the
host's next access; with neither, the unit idles and all state is retained (R246). -/
def advance (s : State) : Host.Outcome State Fault Refusal :=
  match s.command, s.host with
  | some c, [] => runCommand c s
  | some c, e :: rest => if e.landsWhileBusy then hostStep e.op { s with host := rest } else runCommand c s
  | none, e :: rest => hostStep e.op { s with host := rest }
  | none, [] => .next s

/-- The host's next access waits for the running command's completion. -/
def State.holdHost (s : State) : State :=
  { s with
    host := match s.host with
      | [] => []
      | e :: rest => { e with whileBusy := false } :: rest }

end Sys2Proof.Machine
end

