-- ==== Sys2Proof/Machine/Step.lean ====
section
/-! DEFINITION. The step, and where it takes its next command from: the DPD fetches nothing (R22), the host's CMD write captures
the word (R24). -/

namespace Sys2Proof.Machine

/-- One step: a whole command of the unit (R8), or one access of the host or the platform. -/
def step (s : State) : Host.Outcome State Fault Refusal := advance s

/-- `s` with the opcode-table word captured in CMD (R24), BUSY = 1, and no access of the host landing first (DESIGN CHOICE, log entry 4),
so that the very next step runs it. -/
def State.withFetchWord (s : State) (nbits w : Nat) : State := (s.capture (tableWord nbits w)).holdHost

end Sys2Proof.Machine
end

