-- ==== Sys2Proof/Machine/Program.lean ====
section
/-! DEFINITION. DPD programs as host accesses: the primitive operations of R89 by register name, and the pseudo-instructions of R90 with
their expansions. -/

namespace Sys2Proof.Machine

/-- The window offset of a register (R20). -/
def WindowReg.offset : WindowReg → BitVec 14
  | .width j => BitVec.ofNat 14 (0x1000 + 8 * j)
  | r => match windowMap.find? (fun e => decide (e.2 = r)) with
    | some e => BitVec.ofNat 14 e.1
    | none => 0

/-- `WR <reg>, <value>` (R89). -/
def wr (r : WindowReg) (v : Word) : HostOp := .writeReg r.offset 8 v

/-- `RD <reg>` (R89). -/
def rd (r : WindowReg) : HostOp := .readReg r.offset 8

/-- The pseudo-instructions (R90). The operand `T` of CONFIG is 1 for INT32, 2 for INT64, 6 for BYTE_ARRAY, or "a number", whose range
R90 leaves open. DEDUCED (log entry 16), safe: it is any number for which `0x01 + 256*T` is a 64-bit value that WR can write (R89), so
`T < 2^56`; one above 255 gives an illegal word (R87). -/
inductive Pseudo where
  | config (type : BitVec 56)
  | setdata (count base len : Word)
  | decodeInt (max out : Word)
  | decodeBA (max desc heap cap : Word)
  | issue (word : Word)
  deriving DecidableEq, Repr

/-- Their expansions (R90). -/
def Pseudo.expand : Pseudo → List HostOp
  | .config t => [wr .cmd (0x01 + 256 * t.setWidth 64), .wait]
  | .setdata count base len => [wr .arg0 count, wr .arg1 base, wr .arg2 len, wr .cmd 0x02, .wait]
  | .decodeInt max out => [wr .arg0 max, wr .arg1 out, wr .cmd 0x03, .wait]
  | .decodeBA max desc heap cap => [wr .arg0 max, wr .arg1 desc, wr .arg2 heap, wr .arg3 cap, wr .cmd 0x03, .wait]
  | .issue word => [wr .cmd word]

/-- A program (R89): its pseudo-instructions' expansions, in order. -/
def expandAll : List Pseudo → List HostOp
  | [] => []
  | p :: ps => p.expand ++ expandAll ps

/-- A program's accesses with their landing times, which the program does not say (an access after an ISSUE may land before or after the
command's step: R90, R270): the `k`-th lands while a command runs where entry `k` of `early` says so. DESIGN CHOICE (log entry 4), safe:
every list `early` is admitted, and where it has no entry the access waits. -/
def schedule : List HostOp → List Bool → List HostEvent
  | [], _ => []
  | op :: ops, [] => ⟨false, op⟩ :: schedule ops []
  | op :: ops, b :: early => ⟨b, op⟩ :: schedule ops early

end Sys2Proof.Machine
end

