-- ==== Sys2Proof/Machine/FastPath.lean ====
section
/-! DEFINITION. The fast path (R170 to R174): the unpack table, the eligibility test, the unpack of one slot and the sequence of 32
slots. "The architectural result of a DECODE is the result of the general loop" (R175), so the step runs the general loop (DEDUCED, log entry 13); these
definitions are the table of R48 and what the statements about R172 and R175 are about. -/

namespace Sys2Proof.Machine

/-- `off_w[i]` of the table ROM (R48, R170). -/
def fastOff (w i : Nat) : Nat := i * w / 8

/-- `sh_w[i]` of the table ROM (R48, R170). -/
def fastShift (w i : Nat) : Nat := i * w % 8

/-- FAST_WIDTHS (R6). -/
def Params.isFastWidth (p : Params) (w : Nat) : Bool := w == p.fastWidthA || w == p.fastWidthB

/-- `(w', c')` of R171, none where slot 0 would parse a header (condition (b)). -/
def IntContext.fastRun (c : IntContext) : Option (Nat × Nat) :=
  if c.vcmb ≠ 0 then some (c.bitw.toNat, c.vcmb.toNat)
  else if c.mbidx.toNat + 1 < c.nmb.toNat then some ((c.widthAt (c.mbidx.toNat + 1)).toNat, c.vpmb.toNat)
  else none

/-- Fast-path eligibility at the start of `DecodeInt`, conditions (a) to (f) of R171. -/
def fastEligible (s : State) : Bool :=
  match s.ictx.fastRun with
  | none => false
  | some (w, c) =>
    decide (s.intCount = 32) && s.params.isFastWidth w && decide (32 ≤ c) && decide (s.ictx.bitpos.toNat % 8 = 0) &&
      decide (s.ictx.bitpos.toNat + 32 * w ≤ s.bufBits)

/-- `CurrentBytePointer()` (R126). -/
def State.currentBytePointer (s : State) : Word := s.bitAddr s.ictx.bitpos.toNat

/-- `SkipBytes(n)` (R126): it reads no memory. -/
def skipBytes (n : Nat) : Sub Unit := do
  let p ← look (·.ictx.bitpos.toNat)
  setBitpos (p + 8 * n)

/-- `B(x)`, byte `x` of a fast-path run of width `w`: a read inside the run, 0 without a read beyond it (R172, R174). -/
def fastByte (base : Word) (w x : Nat) : Sub Byte := if x < 4 * w then readByte 0 (base + BitVec.ofNat 64 x) else pure 0

/-- `B(x), B(x + 1), …`, `n` of them, in order. -/
def fastBytes (base : Word) (w : Nat) : Nat → Nat → Sub (List Byte)
  | _, 0 => pure []
  | x, n + 1 => do
    let b ← fastByte base w x
    let bs ← fastBytes base w (x + 1) n
    pure (b :: bs)

/-- `raw_i` (R172). -/
def fastRaw (base : Word) (w i : Nat) : Sub Nat := do
  let bs ← fastBytes base w (fastOff w i) 8
  pure (leValue bs / 2 ^ fastShift w i % 2 ^ w)

/-- The slots of the fast path (the loop of R173): `left` more, the next one being slot `i`. -/
def fastLoop (base out : Word) (w esize : Nat) : Nat → Nat → Sub Unit
  | 0, _ => pure ()
  | left + 1, i => do
    let raw ← fastRaw base w i
    let t ← look (·.ictx.sum raw)
    raiseIf (!inRange t esize) .overflowError
    update fun s => { s with ictx := { s.ictx with last := BitVec.ofInt 64 t } }
    memWrite (out + BitVec.ofNat 64 (esize * i)) esize (trunc (8 * esize) t)
    fastLoop base out w esize left (i + 1)

/-- `FastDecode32(out, esize)` (R173), taken only where R171 holds. -/
def fastDecode32 : Sub Unit := do
  let esize ← look (·.mode.esize)
  let out ← look (·.opOut)
  update fun s => if s.ictx.vcmb = 0 then
    { s with ictx := { s.ictx with mbidx := s.ictx.mbidx + 1 }.enter } else s
  let base ← look (·.currentBytePointer)
  let w ← look (·.ictx.bitw.toNat)
  fastLoop base out w esize 32 0
  skipBytes (4 * w)
  update fun s => { s with
    ictx := { s.ictx with vcmb := s.ictx.vcmb - 32, vrem := s.ictx.vrem - 32 }
    result := 32 }

end Sys2Proof.Machine
end

