-- ==== Sys2Proof/WellFormed.lean ====
section
/-! DEFINITION. Well-formedness: of a command (every one is: its only field has its encoding's width), of the parameters
(the ranges of R6), of a host access to the window (R54, R64). -/

namespace Sys2Proof

/-- Every command is well formed: TYPE takes every value of its 8 bits (R82), and no other field exists (R80). -/
abbrev Instr.WellFormed : Instr → Prop
  | .config _ => True
  | .setdata => True
  | .decode => True

namespace Machine

/-- A width that the fast-path table may cover (R6, FAST_WIDTHS): in [1, 64], a 32-value run is a whole number of 64-bit words,
and no value's bits leave the word that its first byte starts. -/
abbrev fastWidthOk (w : Nat) : Prop :=
  1 ≤ w ∧ w ≤ 64 ∧ 32 * w % 64 = 0 ∧ ∀ i < 32, i * w % 8 + w ≤ 64

/-- The ranges of R6. -/
abbrev Params.WellFormed (p : Params) : Prop :=
  (8 ≤ p.maxMiniBlocks ∧ p.maxMiniBlocks ≤ 1024) ∧
  (64 ≤ p.prevCap ∧ p.prevCap ≤ 2 ^ 32 - 1) ∧
  (fastWidthOk p.fastWidthA ∧ fastWidthOk p.fastWidthB ∧ p.fastWidthA ≠ p.fastWidthB) ∧
  p.dpdBase.toNat % 0x4000 = 0

/-- A host access that the window takes: 8 bytes wide and naturally aligned (R54, R64). Operations that access no
window offset are well formed. -/
abbrev HostOp.WellFormed : HostOp → Prop
  | .writeReg off width _ => width = 8 ∧ off.toNat % 8 = 0
  | .readReg off width => width = 8 ∧ off.toNat % 8 = 0
  | .wait => True
  | .writeMem _ _ => True
  | .readMem _ => True
  | .reset => True

end Machine

end Sys2Proof
end

