-- ==== Sys2Proof/Safety.lean ====
section
/-! DEFINITION. What is promised of every state: the invariants of R50, the model's own shape, and where the bound buffer lies; and the
words in which statements speak of a command's outcome and of the bytes of a stream. -/

namespace Sys2Proof.Machine

/-- R50, (a) to (g), of a state with FAILED = 0. -/
structure ContextInvariant (s : State) : Prop where
  /-- (a) `BITPOS <= 8*BUF_LEN`. -/
  cursor : s.ictx.bitpos.toNat ≤ 8 * s.ictx.bufLen.toNat
  /-- (b) No block, or a block with a current mini-block in it. -/
  block : (s.ictx.nmb = 0 ∧ s.ictx.mbidx = 0 ∧ s.ictx.vcmb = 0) ∨
    (1 ≤ s.ictx.nmb.toNat ∧ s.ictx.nmb.toNat ≤ s.params.maxMiniBlocks ∧ s.ictx.mbidx.toNat < s.ictx.nmb.toNat ∧
      s.ictx.vcmb.toNat ≤ s.ictx.vpmb.toNat)
  /-- (c) `BITW = WIDTH[MBIDX] <= 64` when `NMB >= 1`. -/
  width : 1 ≤ s.ictx.nmb.toNat →
    s.ictx.bitw.toNat = (s.ictx.widthAt s.ictx.mbidx.toNat).toNat ∧ s.ictx.bitw.toNat ≤ 64
  /-- (d) In INT32 and BYTE_ARRAY mode LAST lies in s32. -/
  last : s.mode = .int32 ∨ s.mode = .byteArray → -(2 ^ 31 : Int) ≤ s.ictx.last.toInt ∧ s.ictx.last.toInt < 2 ^ 31
  /-- (e) In BYTE_ARRAY mode with BA_EMPTY = 0, `VREM = BA_VREM`. -/
  counts : s.mode = .byteArray → s.baEmpty = false → s.ictx.vrem = s.bctx.baVrem
  /-- (f) `SUF_POS <= SUF_LEN`. -/
  suffix : s.bctx.sufPos.toNat ≤ s.bctx.sufLen.toNat
  /-- (g) `len(PREV) <= PREV_CAP`. -/
  prev : s.bctx.prev.length ≤ s.params.prevCap

/-- What R50 rests on, of a state with FAILED = 0: every width byte is at most 64, a block's mini-blocks hold at least one value
(R162), and with BA_EMPTY = 1 no value remains (R145, R202). -/
structure ContextSupport (s : State) : Prop where
  widths : ∀ w ∈ s.ictx.width, w.toNat ≤ 64
  values : 1 ≤ s.ictx.nmb.toNat → 1 ≤ s.ictx.vpmb.toNat
  empty : s.mode = .byteArray → s.baEmpty = true → s.ictx.vrem = 0 ∧ s.bctx.baVrem = 0

/-- The bytes that commands read lie in the bound buffer (R73, R97, R128): in the integer modes the reader's buffer is the bound
one, and there is no suffix sub-stream; in BYTE_ARRAY mode the two sub-streams are its bytes from 4 on, or nothing is bound to
them; in mode NONE nothing is. -/
def BufferInvariant (s : State) : Prop :=
  match s.mode with
  | .none => s.ictx.bufLen = 0 ∧ s.bctx.sufLen = 0
  | .int32 => s.bound = ⟨s.ictx.bufBase, s.ictx.bufLen.toNat⟩ ∧ s.bctx.sufLen = 0
  | .int64 => s.bound = ⟨s.ictx.bufBase, s.ictx.bufLen.toNat⟩ ∧ s.bctx.sufLen = 0
  | .byteArray =>
    (s.ictx.bufLen = 0 ∧ s.bctx.sufLen = 0) ∨
    (s.ictx.bufBase = s.bound.base + 4 ∧ s.bctx.sufBase = s.bound.base + 4 + s.ictx.bufLen ∧
      4 + s.ictx.bufLen.toNat + s.bctx.sufLen.toNat = s.bound.len)

/-- The access that this step lands: the host's next one, with no command running or where its schedule says so. -/
def State.landing (s : State) : Option HostOp :=
  match s.host with
  | [] => none
  | e :: _ => if s.busy = false ∨ e.landsWhileBusy = true then some e.op else none

/-- The invariant of the machine. -/
structure MachineInvariant (s : State) : Prop where
  params : s.params.WellFormed
  mem : s.mem.wf
  /-- The width table has MAX_MINI_BLOCKS entries (R40). -/
  table : s.ictx.width.length = s.params.maxMiniBlocks
  /-- Outside BYTE_ARRAY mode the byte-array context is as CONFIG or reset left it (R51, R141, R144). -/
  unused : s.mode ≠ .byteArray → s.bctx = ByteArrayContext.zero
  buffer : BufferInvariant s
  context : s.failed = false → ContextInvariant s
  support : s.failed = false → ContextSupport s

/-- The command ended and was recorded: what every completed command leaves (R147, R233). -/
structure Completed (s : State) (e : ErrKind) (t : State) : Prop where
  errcode : t.errcode = e
  busy : t.busy = false
  failed : t.failed = (s.failed || e.fatal)

/-! ## The bytes of a stream, as statements write them -/

/-- The bytes from an address on hold a byte string, are readable, and the host has not overwritten them since the SETDATA. -/
def State.holds (s : State) (a : Word) (bs : List Byte) : Prop :=
  ∀ i (h : i < bs.length), s.mem.read (a + BitVec.ofNat 64 i).toNat = bs[i] ∧
    memOk s.params (a + BitVec.ofNat 64 i) .read = true ∧ staleAt s (a + BitVec.ofNat 64 i) = []

/-- Every byte of a region is readable, and the host has not overwritten it since the SETDATA. -/
def State.readable (s : State) (r : Region) : Prop :=
  ∀ a, r.contains a = true → memOk s.params a .read = true ∧ staleAt s a = []

/-- Every byte of a region is writable. -/
def State.writable (s : State) (r : Region) : Prop := ∀ a, r.contains a = true → memOk s.params a .write = true

/-- Bit `p` of the stream, as memory holds it (R94, R120). -/
def State.bitAt (s : State) (p : Nat) : Nat := (s.mem.read (s.bitAddr p).toNat).toNat / 2 ^ (p % 8) % 2

/-- The value of width `w` at bit position `p`, as memory holds it: its first bit is its least significant (R94). -/
def State.rawAt (s : State) (p : Nat) : Nat → Nat
  | 0 => 0
  | w + 1 => s.bitAt p + 2 * State.rawAt s (p + 1) w

/-- The value of the 7-bit groups of a byte string, least significant group first (R95). -/
def groupValue : List Byte → Nat
  | [] => 0
  | b :: bs => b.toNat % 0x80 + 0x80 * groupValue bs

/-- A byte string is an unsigned varint of a value (R95): at most 10 bytes, bit 7 set on every byte but the last, the tenth 0x00
or 0x01. -/
def IsVarint (bs : List Byte) (v : Nat) : Prop :=
  bs ≠ [] ∧ bs.length ≤ 10 ∧ (∀ i (h : i < bs.length), 0x80 ≤ bs[i].toNat ↔ i + 1 < bs.length) ∧
    (∀ h : 9 < bs.length, bs[9].toNat ≤ 1) ∧ v = groupValue bs

/-- The unsigned number whose zig-zag value is `v` (R96). -/
def unzz (v : Int) : Nat := if 0 ≤ v then 2 * v.toNat else 2 * (-v).toNat - 1

/-- A byte string is a block header with these fields (R92). -/
def IsHeader (bytes : List Byte) (blockSize numMiniBlocks valueCount : Nat) (firstValue minDelta : Int) (widths : List Byte) :
    Prop :=
  ∃ b n c f m, IsVarint b blockSize ∧ IsVarint n numMiniBlocks ∧ IsVarint c valueCount ∧ IsVarint f (unzz firstValue) ∧
    IsVarint m (unzz minDelta) ∧ bytes = b ++ n ++ c ++ f ++ m ++ widths

/-- The next `n` values of the integer context, read and not written anywhere (R161, R167). -/
def intValues (esize : Nat) : Nat → Sub (List Int)
  | 0 => pure []
  | n + 1 => do
    let v ← ideNext esize
    let vs ← intValues esize n
    pure (v :: vs)

/-- The running value after `k` deltas of the current mini-block, as memory holds them: `LAST`, and `MIN_DELTA + raw` added `k`
times, exactly (R163, R164). -/
def State.running (s : State) : Nat → Int
  | 0 => s.ictx.last.toInt
  | k + 1 => State.running s k + s.ictx.minDelta.toInt +
      (s.rawAt (s.ictx.bitpos.toNat + k * s.ictx.bitw.toNat) s.ictx.bitw.toNat : Int)

/-- The next `n` values of the byte-array context, found and not written to memory (R200 to R208). -/
def baValues (cap : Word) : Nat → Sub (List (List Byte))
  | 0 => pure []
  | n + 1 => do
    let v ← baValue cap
    update fun s => { s with bctx := { s.bctx with heapUsed := s.bctx.heapUsed + BitVec.ofNat 64 v.length } }
    updatePrev v
    let vs ← baValues cap n
    pure (v :: vs)

/-- Memory holds a byte string from an address on. -/
def State.bytesAt (s : State) (a : Word) (bs : List Byte) : Prop :=
  ∀ i (h : i < bs.length), s.mem.read (a + BitVec.ofNat 64 i).toNat = bs[i]

/-- How many bytes the values before the `k`-th take together. -/
def lengthsBefore (vs : List (List Byte)) (k : Nat) : Nat := ((vs.take k).map List.length).sum

/-- A descriptor (R100). -/
def descriptorBytes (a : Word) (len : Nat) : List Byte := leBytes 8 a.toNat ++ leBytes 4 len ++ leBytes 4 0

/-! ## Where a command's regions lie -/

/-- Two regions share no address. -/
def Region.apart (r q : Region) : Prop := ∀ a, ¬ (r.contains a = true ∧ q.contains a = true)

/-- The array that an integer DECODE writes (R73). -/
def State.outArray (s : State) : Region := ⟨s.arg1, s.mode.esize * s.intCount⟩

/-- The descriptor array that a byte-array DECODE writes (R73). -/
def State.descArray (s : State) : Region := ⟨s.arg1, 16 * s.baCount⟩

/-- The heap that a byte-array DECODE writes into (R73). -/
def State.heapArea (s : State) : Region := ⟨s.arg2, s.arg3.toNat⟩

/-- The regions of the DECODE that would run are pairwise disjoint (R73). -/
def State.regionsApart (s : State) : Prop :=
  match s.mode with
  | .none => True
  | .int32 => [s.outArray, s.bound, windowRegion s.params].Pairwise Region.apart
  | .int64 => [s.outArray, s.bound, windowRegion s.params].Pairwise Region.apart
  | .byteArray => [s.descArray, s.heapArea, s.bound, windowRegion s.params].Pairwise Region.apart

/-- SETDATA may bind this buffer (R66, R73): it meets neither the register window nor a region with read side effects. -/
def State.bufferAllowed (s : State) : Prop :=
  Region.apart ⟨s.arg1, s.arg2.toNat⟩ (windowRegion s.params) ∧
    ∀ r ∈ s.params.readEffects, Region.apart ⟨s.arg1, s.arg2.toNat⟩ r

/-! ## What the host cannot tell apart after a failure (R49) -/

/-- Two failed states that differ in nothing but the registers whose values R49 leaves unspecified, and PREV. The byte-array
context is lost in BYTE_ARRAY mode only: in the other modes no command has used it. -/
def AgreeAfterFailure (s t : State) : Prop :=
  s.failed = true ∧ t = { s with
    ictx := { t.ictx with bufBase := s.ictx.bufBase, bufLen := s.ictx.bufLen }
    bctx := if s.mode = .byteArray then { t.bctx with sufBase := s.bctx.sufBase, sufLen := s.bctx.sufLen } else s.bctx }

/-- The operands of an integer DECODE in place (R86). -/
def State.withOperands (s : State) (max out : Word) : State := { s with arg0 := max, arg1 := out }

/-- The operands of a byte-array DECODE in place (R86). -/
def State.withByteArrayOperands (s : State) (max desc heap cap : Word) : State :=
  { s with arg0 := max, arg1 := desc, arg2 := heap, arg3 := cap }

end Sys2Proof.Machine
end

