-- ==== Sys2Proof/Certificates/Slice0/Obligations.lean ====
section
/-! DEFINITION. The statements for the provers, in the order of the spec's files: encoding, host interface, command execution,
CONFIG and SETDATA, the bit reader, integer DECODE, byte-array DECODE, memory, reset, whole-machine promises. Each docstring names the
rules it is about. -/

open Sys2Proof Sys2Proof.Machine

/-! ## Encoding (spec/30_encoding.md) -/

/-- Decoding and encoding agree on every word and every command (R80 to R84): no bit of an encoding is dropped, and each legal word has one
meaning. -/
def Obligations.DecodeAndEncodeAgree : Prop :=
  ∀ (c : Word) (i : Instr), decode c = .ok i ↔ encode i = c

/-- R84: the map of legal command words, its free field, its worked encodings, and that every other word is illegal. -/
def Obligations.OpcodeMap : Prop :=
  (∀ c : Word,
    (c &&& 0xFFFFFFFFFFFF00FF = 0x0000000000000001 ↔ ∃ t, decode c = .ok (.config t)) ∧
    (c &&& 0xFFFFFFFFFFFFFFFF = 0x0000000000000002 ↔ decode c = .ok .setdata) ∧
    (c &&& 0xFFFFFFFFFFFFFFFF = 0x0000000000000003 ↔ decode c = .ok .decode) ∧
    (∀ t, decode c = .ok (.config t) → t.toNat = c.toNat / 2 ^ 8 % 2 ^ 8) ∧
    (¬ c &&& 0xFFFFFFFFFFFF00FF = 0x0000000000000001 → ¬ c &&& 0xFFFFFFFFFFFFFFFF = 0x0000000000000002 →
      ¬ c &&& 0xFFFFFFFFFFFFFFFF = 0x0000000000000003 → ∃ x, decode c = .error x)) ∧
  encode (.config 0x01) = 0x0101 ∧ encode (.config 0x02) = 0x0201 ∧ encode (.config 0x06) = 0x0601 ∧
  encode .setdata = 0x0002 ∧ encode .decode = 0x0003

/-- R87: which words are illegal, and that one completes with ILLEGAL_COMMAND and changes nothing else than R140 says. -/
def Obligations.IllegalWordsExactly : Prop :=
  ∀ (c : Word) (s : State),
    ((∃ x, decode c = .error x) ↔
      (c.toNat % 2 ^ 8 = 0x00 ∨ 0x04 ≤ c.toNat % 2 ^ 8) ∨ c.toNat / 2 ^ 16 ≠ 0 ∨
        ((c.toNat % 2 ^ 8 = 0x02 ∨ c.toNat % 2 ^ 8 = 0x03) ∧ c.toNat / 2 ^ 8 % 2 ^ 8 ≠ 0)) ∧
    ((∃ x, decode c = .error x) →
      runCommand c s = .next { s with result := 0, errcode := .illegalCommand, command := none })

/-- Words written out from R80 and R81 decode to the commands they stand for. -/
def Obligations.WordsWrittenOut : Prop :=
  decode 0b0000000100000001 = .ok (.config 0x01) ∧ decode 0b0000001000000001 = .ok (.config 0x02) ∧
  decode 0b0000011000000001 = .ok (.config 0x06) ∧ decode 0b1111111100000001 = .ok (.config 0xFF) ∧
  decode 0b0000000000000010 = .ok .setdata ∧ decode 0b0000000000000011 = .ok .decode ∧
  decodeTableWord 64 0x0601 = some (.config 0x06) ∧ decodeTableWord 64 0x10003 = none

/-! ## The step and the host's side (spec/10_state.md, spec/20_memory.md) -/

/-- A step runs the captured command: where no access of the host lands first, it is `exec` of the command that the captured word
decodes to, and nothing is added around it (R8, R22, R140); an illegal word completes as R140 says. The word that
`withFetchWord` captures is run by the very next step. That an access of the host may land first, when its schedule says so, and that
`withFetchWord` makes the next access wait, are the model's (DESIGN CHOICE, log entry 4). -/
def Obligations.StepRunsTheCapturedCommand : Prop :=
  (∀ (s : State) (c : Word), s.command = some c → (∀ e rest, s.host = e :: rest → e.landsWhileBusy = false) →
    (∀ i, decode c = .ok i → step s = exec i s) ∧
    (∀ x, decode c = .error x →
      step s = .next { s with result := 0, errcode := .illegalCommand, command := none })) ∧
  (∀ (s : State) (nbits w : Nat) (i : Instr), decodeTableWord nbits w = some i →
    step (s.withFetchWord nbits w) = exec i (s.withFetchWord nbits w))

/-- With no command running the host's next access is the step; while one runs, it is when the schedule says so and it is no WAIT; with
neither, the unit idles and all state is retained (R246). The schedule is the model's (log entry 4). -/
def Obligations.StepOfTheHost : Prop :=
  ∀ s : State,
    (∀ e rest, s.host = e :: rest → s.command = none ∨ (e.whileBusy = true ∧ e.op ≠ .wait) →
      step s = hostStep e.op { s with host := rest }) ∧
    (s.command = none → s.host = [] → step s = .next s)

/-- A write of CMD with BUSY = 0 captures the word (R24), a write of an ARG register with BUSY = 0 stores the whole value, and a
later read returns it (R25). That the capture of a SETDATA begins the history of R74's racing bytes anew (`stale`) is the model's reading
(DEDUCED, log entry 5); that it advances the count of draws is the model's own (log entry 3), and that writes not yet seen stay unseen
is its reading of R69 (log entry 6). -/
def Obligations.WritesWithBusyClear : Prop :=
  ∀ (s : State) (v : Word), s.busy = false →
    (∃ t, hostWrite 0x008 8 v s = .next t ∧ t.command = some v ∧ t.busy = true ∧
      t = { s with command := some v, draws := t.draws, stale := if v = 0x0002 then [] else s.stale }) ∧
    hostWrite 0x010 8 v s = .next { s with arg0 := v } ∧ hostWrite 0x018 8 v s = .next { s with arg1 := v } ∧
    hostWrite 0x020 8 v s = .next { s with arg2 := v } ∧ hostWrite 0x028 8 v s = .next { s with arg3 := v } ∧
    (∀ u : State, hostRead 0x008 8 u = .next { u with readLog := 0 :: u.readLog } ∧
      hostRead 0x010 8 u = .next { u with readLog := u.arg0 :: u.readLog } ∧
      hostRead 0x018 8 u = .next { u with readLog := u.arg1 :: u.readLog } ∧
      hostRead 0x020 8 u = .next { u with readLog := u.arg2 :: u.readLog } ∧
      hostRead 0x028 8 u = .next { u with readLog := u.arg3 :: u.readLog })

/-- R55: a write of CMD or of an ARG register with BUSY = 1 changes nothing but OVR, and OVR stays set until a reset. -/
def Obligations.WritesWhileBusy : Prop :=
  (∀ (s : State) (v : Word) (off : BitVec 14), s.busy = true →
    off = 0x008 ∨ off = 0x010 ∨ off = 0x018 ∨ off = 0x020 ∨ off = 0x028 →
    hostWrite off 8 v s = .next { s with ovr := true }) ∧
  (∀ s t : State, step s = .next t → s.ovr = true → t.ovr = true ∨ s.landing = some .reset) ∧
  (∀ s t : State, step s = .next t → s.ovr = false → t.ovr = true → s.busy = true)

/-- The window's map (R20) is one to one: every register has one offset, that offset is a multiple of 8, and no other offset is
mapped. -/
def Obligations.RegisterMapIsOneToOne : Prop :=
  ∀ p : Params, p.WellFormed →
    (∀ r : WindowReg, (∀ j, r = .width j → j < p.maxMiniBlocks) → regAt p r.offset = some r) ∧
    (∀ (off : BitVec 14) (r : WindowReg), regAt p off = some r →
      off = r.offset ∧ off.toNat % 8 = 0 ∧ ∀ j, r = .width j → j < p.maxMiniBlocks)

/-- What a host read of each mapped offset returns (R20, R23 to R47, R49, R54), with no side effect but on what the host's later loads
may see (R69(b), log entry 6). ID, CMD and the ARG registers read normally in every state. With BUSY = 0 so do STATUS, RESULT and the
four registers that SETDATA gave, also after a fatal error; and with FAILED = 0 all others. -/
def Obligations.ReadsWithBusyClear : Prop :=
  ∀ s : State,
    (∀ x ∈ [((0x000 : BitVec 14), s.params.implId), (0x008, 0), (0x010, s.arg0), (0x018, s.arg1), (0x020, s.arg2),
        (0x028, s.arg3)],
      hostRead x.1 8 s = .next { s with readLog := x.2 :: s.readLog }) ∧
    (s.busy = false →
      hostRead 0x030 8 s = .next { s with readLog := s.statusWord :: s.readLog, writes := [] } ∧
      ∀ x ∈ [((0x038 : BitVec 14), s.result), (0x090, s.ictx.bufBase), (0x098, s.ictx.bufLen), (0x0A8, s.bctx.sufBase),
          (0x0B0, s.bctx.sufLen)],
        hostRead x.1 8 s = .next { s with readLog := x.2 :: s.readLog }) ∧
    (s.busy = false → s.failed = false →
      (∀ x ∈ [((0x040 : BitVec 14), s.ictx.vrem), (0x048, s.ictx.last), (0x050, s.ictx.minDelta),
          (0x058, s.ictx.bitw.setWidth 64), (0x060, s.ictx.vcmb), (0x068, s.ictx.vcb), (0x070, s.ictx.mbidx),
          (0x078, s.ictx.nmb), (0x080, s.ictx.vpmb), (0x088, s.ictx.bitpos), (0x0A0, s.bctx.baVrem), (0x0B8, s.bctx.sufPos),
          (0x0C0, BitVec.ofNat 64 (s.bctx.prev.length % 2 ^ 32)), (0x0C8, if s.bctx.first then 1 else 0),
          (0x0D0, s.bctx.heapUsed)],
        hostRead x.1 8 s = .next { s with readLog := x.2 :: s.readLog }) ∧
      ∀ j, j < s.params.maxMiniBlocks → s.params.maxMiniBlocks ≤ 1024 →
        hostRead (BitVec.ofNat 14 (0x1000 + 8 * j)) 8 s =
          .next { s with readLog := (s.ictx.width.getD j 0).setWidth 64 :: s.readLog })

/-- The fields of STATUS, with the codes of MODE (R26) and of ERRCODE (R230). -/
def Obligations.StatusFields : Prop :=
  ∀ s : State,
    (s.statusWord.toNat % 2 = if s.busy then 1 else 0) ∧
    (s.statusWord.toNat / 2 ^ 1 % 2 = if s.failed then 1 else 0) ∧
    (s.statusWord.toNat / 2 ^ 2 % 2 = if s.ovr then 1 else 0) ∧
    (s.statusWord.toNat / 2 ^ 3 % 2 = if s.baEmpty then 1 else 0) ∧
    (s.statusWord.toNat / 2 ^ 4 % 4 =
      match s.mode with | .none => 0 | .int32 => 1 | .int64 => 2 | .byteArray => 3) ∧
    s.statusWord.toNat / 2 ^ 6 % 4 = 0 ∧
    (s.statusWord.toNat / 2 ^ 8 % 16 =
      match s.errcode with
      | .none => 0 | .typeError => 1 | .eofError => 2 | .notImplemented => 3 | .formatError => 4 | .overflowError => 5
      | .capacityError => 6 | .stateError => 7 | .illegalCommand => 8 | .busError => 9) ∧
    s.statusWord.toNat / 2 ^ 12 = 0

/-- Host accesses at unmapped offsets and to read-only registers (R54): a read of an unmapped offset returns 0, and a write to either is
ignored, whatever BUSY is. -/
def Obligations.ReadOnlyAndUnmappedOffsets : Prop :=
  ∀ (s : State) (off : BitVec 14) (v : Word), off.toNat % 8 = 0 →
    (regAt s.params off = none →
      hostRead off 8 s = .next { s with readLog := 0 :: s.readLog } ∧ hostWrite off 8 v s = .next s) ∧
    ((∀ x ∈ [(0x008 : BitVec 14), 0x010, 0x018, 0x020, 0x028], off ≠ x) → hostWrite off 8 v s = .next s)

/-- Reads have no side effect (R54), also while BUSY = 1 or FAILED = 1: whatever a read returns, the state after it differs in the model's
own fields only: the count of the host's draws, the read log, and, for a STATUS read that sees BUSY = 0, that no write is unseen any more
(R69(b), log entry 6). A read of STATUS while BUSY = 1 returns BUSY = 1. -/
def Obligations.ReadsHaveNoSideEffect : Prop :=
  ∀ (s : State) (off : BitVec 14), off.toNat % 8 = 0 →
    ∃ t v, hostRead off 8 s = .next t ∧
      t = { s with hostDraws := t.hostDraws, readLog := v :: s.readLog, writes := t.writes } ∧
      (t.writes = s.writes ∨ (off = 0x030 ∧ s.busy = false)) ∧
      (s.busy = true → off = 0x030 → v.toNat % 2 = 1)

/-- R49: while FAILED = 1 no step depends on the registers whose values are unspecified, or on PREV: two states that differ in nothing
else answer alike, and stay alike until SETDATA or CONFIG makes the contexts equal again. That a failure in an integer mode leaves the
byte-array context alone is the model's reading (log entry 11). -/
def Obligations.FailedContextIsNeverObserved : Prop :=
  ∀ s t : State, AgreeAfterFailure s t →
    (∀ s', step s = .next s' → ∃ t', step t = .next t' ∧ (t' = s' ∨ AgreeAfterFailure s' t')) ∧
    (∀ r, step s = .refused r → step t = .refused r)

/-- A host access to the window that is not 8 bytes wide and naturally aligned has no meaning: it is refused (R64). -/
def Obligations.WindowAccessForm : Prop :=
  ∀ (s : State) (off : BitVec 14) (width : Nat) (v : Word),
    (¬ (width = 8 ∧ off.toNat % 8 = 0) →
      hostWrite off width v s = .refused .windowAccessForm ∧ hostRead off width s = .refused .windowAccessForm) ∧
    (width = 8 ∧ off.toNat % 8 = 0 → (∃ t, hostWrite off width v s = .next t) ∧ ∃ t, hostRead off width s = .next t)

/-- R69(b): once the host has read BUSY = 0, by a read of STATUS or by WAIT, its loads return memory as it is. Before that (R65, R69(c);
the model's reading, log entry 6) a load returns the byte as it is, or as one of the unit's writes that the host may not have seen yet
found it, of whichever command; and while a command runs, or as that command will leave it. A load changes nothing but its log. -/
def Obligations.CompletionMakesWritesVisible : Prop :=
  ∀ s : State,
    (s.busy = false → ∀ t, hostRead 0x030 8 s = .next t ∨ hostStep .wait s = .next t → ∀ a,
      ∃ u, hostLoad a t = .next u ∧ u.readLog = (s.mem.read a.toNat).setWidth 64 :: t.readLog) ∧
    (s.command = none → ∀ a, ∃ u b, hostLoad a s = .next u ∧
      u = { s with hostDraws := u.hostDraws, readLog := BitVec.setWidth 64 b :: s.readLog } ∧
      (b = s.mem.read a.toNat ∨ ∃ w ∈ s.writes, w.addr = a ∧ b = w.old)) ∧
    (∀ c r ws, s.command = some c → runCommand c s = .next r → r.writes = ws ++ s.writes → ∀ a, ∃ u b,
      hostLoad a s = .next u ∧ u = { s with hostDraws := u.hostDraws, readLog := BitVec.setWidth 64 b :: s.readLog } ∧
      (b = s.mem.read a.toNat ∨ (∃ w ∈ s.writes, w.addr = a ∧ b = w.old) ∨ ∃ w ∈ ws, w.addr = a ∧ b = w.new))

/-- R74, for any number of host stores: a read of a byte by the unit returns the byte as it is or one of its older values, and changes
nothing; a host store to it makes its present value one of the older values, and adds none to any other byte. A byte with no older
value reads as memory holds it. -/
def Obligations.RacingBytes : Prop :=
  ∀ (s : State) (k : Nat) (a : Word),
    (memOk s.params a .read = true →
      ∃ v, readByte k a s = .ok v s ∧ v ∈ s.mem.read a.toNat :: staleAt s a) ∧
    (∀ b : Byte, staleAt (hostStore a b s) a = s.mem.read a.toNat :: staleAt s a ∧
      (s.mem.wf → (hostStore a b s).mem.read a.toNat = b)) ∧
    (∀ (x : Word) (b : Byte), x ≠ a → staleAt (hostStore x b s) a = staleAt s a ∧
      (hostStore x b s).mem.read a.toNat = s.mem.read a.toNat)

/-! ## CONFIG and SETDATA (spec/41_config_setdata.md) -/

/-- CONFIG (R141, R142, R82): for every TYPE and in every state it completes, clears both contexts, FAILED and BA_EMPTY, and leaves the
mode and the error code that its TYPE gives. That it also ends the binding of the buffer is the model's reading of R74
(log entry 10). -/
def Obligations.ConfigCompletes : Prop :=
  ∀ (t : Byte) (s : State), exec (.config t) s = .next { s with
    ictx := { vrem := 0, last := 0, minDelta := 0, bitw := 0, vcmb := 0, vcb := 0, mbidx := 0, nmb := 0, vpmb := 0,
              bitpos := 0, bufBase := 0, bufLen := 0, width := List.replicate s.params.maxMiniBlocks 0 }
    bctx := { baVrem := 0, sufBase := 0, sufLen := 0, sufPos := 0, prev := [], first := false, heapUsed := 0 }
    failed := false
    baEmpty := false
    bound := ⟨0, 0⟩
    stale := []
    mode := if t = 0x01 then .int32 else if t = 0x02 then .int64 else if t = 0x06 then .byteArray else .none
    errcode := if t = 0x01 ∨ t = 0x02 ∨ t = 0x06 then .none else .typeError
    result := 0
    command := none }

/-- SETDATA in an integer mode (R143, R144): it completes, binds the buffer, clears the integer context and FAILED, and reads no
memory. What it binds for R73 (`bound`) and which buffers it refuses are the model's reading (log entries 9 and 10). -/
def Obligations.SetdataInt : Prop :=
  ∀ s : State, s.mode = .int32 ∨ s.mode = .int64 → s.bufferAllowed →
    exec .setdata s = .next { s with
      ictx := { vrem := s.arg0, last := 0, minDelta := 0, bitw := 0, vcmb := 0, vcb := 0, mbidx := 0, nmb := 0, vpmb := 0,
                bitpos := 0, bufBase := s.arg1, bufLen := s.arg2, width := List.replicate s.params.maxMiniBlocks 0 }
      failed := false
      bound := ⟨s.arg1, s.arg2.toNat⟩
      errcode := .none
      result := 0
      command := none }

/-- SETDATA in BYTE_ARRAY mode (R145): an empty buffer, and a buffer whose first four bytes give the length of the prefix-length
sub-stream. What it binds for R73 (`bound`) and which buffers it refuses are the model's reading (log entries 9 and 10). -/
def Obligations.SetdataByteArray : Prop :=
  ∀ s : State, s.mode = .byteArray → s.bufferAllowed →
    (s.arg2 = 0 → exec .setdata s = .next { s with
      ictx := IntContext.zero s.params
      bctx := ByteArrayContext.zero
      baEmpty := true
      failed := false
      bound := ⟨s.arg1, 0⟩
      errcode := .none
      result := 0
      command := none }) ∧
    (∀ bs : List Byte, bs.length = 4 → 4 ≤ s.arg2.toNat → s.holds s.arg1 bs → leValue bs ≤ s.arg2.toNat - 4 →
      exec .setdata s = .next { s with
        ictx := { IntContext.zero s.params with
          vrem := s.arg0, bufBase := s.arg1 + 4, bufLen := BitVec.ofNat 64 (leValue bs) }
        bctx := { baVrem := s.arg0
                  sufBase := s.arg1 + 4 + BitVec.ofNat 64 (leValue bs)
                  sufLen := BitVec.ofNat 64 (s.arg2.toNat - 4 - leValue bs)
                  sufPos := 0
                  prev := []
                  first := true
                  heapUsed := 0 }
        baEmpty := false
        failed := false
        bound := ⟨s.arg1, s.arg2.toNat⟩
        errcode := .none
        result := 0
        command := none })

/-- The errors of SETDATA in BYTE_ARRAY mode (R145, R234): a buffer of 1 to 3 bytes, a length that cannot be read, a length beyond the
buffer. Each sets FAILED, with both contexts cleared. What is bound for R73 (`bound`) and which buffers are refused are the model's reading
(log entries 9 and 10), and so is that the context fields and PREV keep what the command left in them, when R49 leaves their values
unspecified (log entry 11). -/
def Obligations.SetdataByteArrayErrors : Prop :=
  ∀ s : State, s.mode = .byteArray → s.bufferAllowed →
    (∀ e : ErrKind,
      ((0 < s.arg2.toNat ∧ s.arg2.toNat < 4) ∧ e = .eofError) ∨
      (4 ≤ s.arg2.toNat ∧ (∃ i < 4, memOk s.params (s.arg1 + BitVec.ofNat 64 i) .read = false) ∧ e = .busError) ∨
      (4 ≤ s.arg2.toNat ∧ e = .eofError ∧
        ∃ bs : List Byte, bs.length = 4 ∧ s.holds s.arg1 bs ∧ s.arg2.toNat - 4 < leValue bs) →
      exec .setdata s = .next { s with
        ictx := IntContext.zero s.params
        bctx := ByteArrayContext.zero
        baEmpty := false
        failed := true
        bound := ⟨s.arg1, s.arg2.toNat⟩
        errcode := e
        result := 0
        command := none })

/-- STATE_ERROR (R140, R146): SETDATA and DECODE in mode NONE, and DECODE while FAILED = 1, change nothing but the completion record. -/
def Obligations.StateErrors : Prop :=
  ∀ (i : Instr) (s : State),
    ((i = .setdata ∨ i = .decode) ∧ s.mode = .none) ∨ (i = .decode ∧ s.failed = true) →
    exec i s = .next { s with result := 0, errcode := .stateError, command := none }

/-- R73: SETDATA and DECODE are refused when their regions are not pairwise disjoint, and for that reason only then. The regions of a
SETDATA are the buffer and the register window (log entry 9), and that a DECODE is refused only where it does not end with STATE_ERROR
(MODE = NONE, FAILED = 1) is the model's reading too (DEDUCED, log entry 10). -/
def Obligations.RegionsMustBeDisjoint : Prop :=
  ∀ s : State,
    (exec .setdata s = .refused .regionsOverlap ↔
      s.mode ≠ .none ∧ ¬ Region.apart ⟨s.arg1, s.arg2.toNat⟩ ⟨s.params.dpdBase, 0x4000⟩) ∧
    (exec .decode s = .refused .regionsOverlap ↔ s.mode ≠ .none ∧ s.failed = false ∧ ¬ s.regionsApart)

/-- Beside a region overlap, a buffer in a region with read side effects is the only ground on which a command is refused (R66), and no
command faults. That SETDATA is the command refused is the model's reading (log entry 9). -/
def Obligations.OnlyTheseRefusals : Prop :=
  ∀ (i : Instr) (s : State),
    (∀ f, exec i s ≠ .fault f) ∧
    (∀ r, exec i s = .refused r → (r = .regionsOverlap ∧ (i = .setdata ∨ i = .decode)) ∨
      (r = .bufferReadEffects ∧ i = .setdata)) ∧
    (exec .setdata s = .refused .bufferReadEffects ↔
      s.mode ≠ .none ∧ Region.apart ⟨s.arg1, s.arg2.toNat⟩ ⟨s.params.dpdBase, 0x4000⟩ ∧
        ∃ q ∈ s.params.readEffects, ¬ Region.apart ⟨s.arg1, s.arg2.toNat⟩ q)

/-! ## What every command records and leaves alone (spec/41, spec/60) -/

/-- Which error kinds each command ends with (R230): the set is closed, NOT_IMPLEMENTED is never raised (R176), and a command's fatal
kinds, and no others, set FAILED (R232). -/
def Obligations.ErrorKindsOfEachCommand : Prop :=
  ∀ (s t : State),
    (∀ ty, exec (.config ty) s = .next t → (t.errcode = .none ∨ t.errcode = .typeError) ∧ t.failed = false) ∧
    (exec .setdata s = .next t →
      (t.errcode = .none ∨ t.errcode = .stateError ∨ t.errcode = .eofError ∨ t.errcode = .busError) ∧
      (t.errcode = .stateError → s.mode = .none ∧ t.failed = s.failed) ∧
      (t.errcode ≠ .stateError → (t.failed = true ↔ t.errcode = .eofError ∨ t.errcode = .busError))) ∧
    (exec .decode s = .next t →
      (t.errcode = .none ∨ t.errcode = .stateError ∨ t.errcode = .eofError ∨ t.errcode = .formatError ∨
        t.errcode = .overflowError ∨ t.errcode = .capacityError ∨ t.errcode = .busError) ∧
      (t.errcode = .stateError ↔ s.mode = .none ∨ s.failed = true) ∧
      (t.errcode = .none → t.failed = false) ∧
      (t.errcode ≠ .none → t.errcode ≠ .stateError → t.failed = true))

/-- What no command changes (R21, R23, R55): the parameters (ID among them), the ARG registers and OVR; nor the host's own side. Every
command that answers has cleared BUSY (R147). Only DECODE writes memory, only CONFIG changes MODE, and only CONFIG and SETDATA change what
is bound. -/
def Obligations.WhatCommandsLeaveAlone : Prop :=
  ∀ (i : Instr) (s t : State), exec i s = .next t →
    t = { s with
      command := none, failed := t.failed, baEmpty := t.baEmpty, mode := t.mode, errcode := t.errcode, result := t.result,
      ictx := t.ictx, bctx := t.bctx, bound := t.bound, mem := t.mem, stale := t.stale, writes := t.writes,
      draws := t.draws } ∧
    (i = .decode ∨ (t.mem = s.mem ∧ t.writes = s.writes ∧ t.result = 0)) ∧
    ((∃ ty, i = .config ty) ∨ t.mode = s.mode) ∧
    (i ≠ .decode ∨ (t.bound = s.bound ∧ t.baEmpty = s.baEmpty ∧ t.ictx.bufBase = s.ictx.bufBase ∧
      t.ictx.bufLen = s.ictx.bufLen ∧ t.bctx.sufBase = s.bctx.sufBase ∧ t.bctx.sufLen = s.bctx.sufLen))

/-- R233, of a DECODE: without error RESULT is the count it wrote and the counts of values left go down by it; with a fatal error, a
BUS_ERROR on a write included, RESULT is the number `k` of slots completed, below the count: the first `k` slots complete, and the loop
over `k + 1` slots raises that error; with STATE_ERROR it is 0. -/
def Obligations.DecodeRecord : Prop :=
  ∀ s t : State, exec .decode s = .next t →
    (t.errcode = .stateError → t.result = 0) ∧
    (s.mode = .int32 ∨ s.mode = .int64 →
      (t.errcode = .none → t.result.toNat = min s.arg0.toNat s.ictx.vrem.toNat ∧
        t.ictx.vrem.toNat = s.ictx.vrem.toNat - t.result.toNat) ∧
      (t.errcode ≠ .none → t.errcode ≠ .stateError →
        ∃ k < min s.arg0.toNat s.ictx.vrem.toNat, t.result.toNat = k ∧
          (∃ u, decodeIntLoop s.mode.esize s.arg1 k 0 { s with result := 0 } = .ok () u) ∧
          ∃ u, decodeIntLoop s.mode.esize s.arg1 (k + 1) 0 { s with result := 0 } = .error t.errcode u)) ∧
    (s.mode = .byteArray →
      (t.errcode = .none → t.result.toNat = min s.arg0.toNat s.bctx.baVrem.toNat ∧
        t.bctx.baVrem.toNat = s.bctx.baVrem.toNat - t.result.toNat ∧ t.ictx.vrem = s.ictx.vrem - t.result) ∧
      (t.errcode ≠ .none → t.errcode ≠ .stateError →
        ∃ k < min s.arg0.toNat s.bctx.baVrem.toNat, t.result.toNat = k ∧
          ∀ s0, s0 = { s with result := 0, bctx := { s.bctx with heapUsed := 0 } } →
            (∃ u, decodeBALoop s.arg1 s.arg2 s.arg3 k 0 s0 = .ok () u) ∧
            ∃ u, decodeBALoop s.arg1 s.arg2 s.arg3 (k + 1) 0 s0 = .error t.errcode u))

/-- A DECODE of no values (R160, R177, R200, R209(b), R210): with `max = 0`, or with no value left, it completes with RESULT = 0 and reads
and writes nothing; in BYTE_ARRAY mode HEAP_USED is 0. -/
def Obligations.DecodeOfNoValues : Prop :=
  ∀ s : State, s.failed = false → s.regionsApart →
    (s.mode = .int32 ∨ s.mode = .int64 → s.arg0 = 0 ∨ s.ictx.vrem = 0 →
      exec .decode s = .next { s with result := 0, errcode := .none, command := none }) ∧
    (s.mode = .byteArray → s.arg0 = 0 ∨ s.bctx.baVrem = 0 →
      exec .decode s = .next { s with
        bctx := { s.bctx with heapUsed := 0 }, result := 0, errcode := .none, command := none })

/-! ## The bit reader (spec/40_bitreader.md) -/

/-- R121: `ReadBits(w)`. It raises EOF_ERROR with nothing changed when the bits run past the buffer; else it returns the bits from BITPOS on, least
significant first, as an unsigned number of `w` bits, and moves BITPOS. A bit that cannot be read is a BUS_ERROR (R231). Where the new
BITPOS would not fit 64 bits the spec states no value (log entry 8). -/
def Obligations.ReadBits : Prop :=
  ∀ (s : State) (w : Nat),
    (8 * s.ictx.bufLen.toNat < s.ictx.bitpos.toNat + w → readBits w s = .error .eofError s) ∧
    (s.ictx.bitpos.toNat + w ≤ 8 * s.ictx.bufLen.toNat → s.ictx.bitpos.toNat + w < 2 ^ 64 →
      ((∀ q, s.ictx.bitpos.toNat ≤ q → q < s.ictx.bitpos.toNat + w →
          memOk s.params (s.bitAddr q) .read = true ∧ staleAt s (s.bitAddr q) = []) →
        readBits w s = .ok (s.rawAt s.ictx.bitpos.toNat w)
          { s with ictx := { s.ictx with bitpos := BitVec.ofNat 64 (s.ictx.bitpos.toNat + w) } } ∧
        s.rawAt s.ictx.bitpos.toNat w < 2 ^ w) ∧
      ((∃ q, s.ictx.bitpos.toNat ≤ q ∧ q < s.ictx.bitpos.toNat + w ∧ memOk s.params (s.bitAddr q) .read = false) →
        ∃ t, readBits w s = .error .busError t))

/-- R122: `ReadBits(0)` returns 0, reads no memory and changes nothing, at the buffer's end too: so every delta of a width-0 mini-block is 0,
and such a mini-block needs no bytes. -/
def Obligations.ReadBitsOfWidthZero : Prop :=
  (∀ s : State, s.ictx.bitpos.toNat ≤ 8 * s.ictx.bufLen.toNat → readBits 0 s = .ok 0 s) ∧
  (∀ (esize : Nat) (s : State) (v : Int), esize = 4 ∨ esize = 8 → s.ictx.bitw = 0 →
    s.ictx.bitpos.toNat ≤ 8 * s.ictx.bufLen.toNat → v = s.ictx.last.toInt + s.ictx.minDelta.toInt →
    -(2 ^ (8 * esize - 1) : Int) ≤ v → v < (2 ^ (8 * esize - 1) : Int) →
    nextDelta esize s = .ok v { s with ictx := { s.ictx with last := BitVec.ofInt 64 v, vcmb := s.ictx.vcmb - 1 } })

/-- R123: `AlignedByte()` rounds the cursor up to a byte boundary, raises EOF_ERROR with nothing changed when no whole byte is left, and else
returns that byte and moves BITPOS past it. -/
def Obligations.AlignedByte : Prop :=
  ∀ (s : State) (p : Nat), p = 8 * ((s.ictx.bitpos.toNat + 7) / 8) →
    (8 * s.ictx.bufLen.toNat < p + 8 → alignedByte s = .error .eofError s) ∧
    (p + 8 ≤ 8 * s.ictx.bufLen.toNat → ∀ a, a = s.ictx.bufBase + BitVec.ofNat 64 (p / 8) →
      (memOk s.params a .read = false → alignedByte s = .error .busError s) ∧
      (memOk s.params a .read = true → staleAt s a = [] → p + 8 < 2 ^ 64 →
        alignedByte s = .ok (s.mem.read a.toNat).toNat
          { s with ictx := { s.ictx with bitpos := BitVec.ofNat 64 (p + 8) } }))

/-- R124, in the format of R95: `VarUInt()` returns the value of every varint of 1 to 10 bytes, the shortest or not; it raises EOF_ERROR when the
buffer ends inside one, FORMAT_ERROR when the tenth byte is above 0x01, and BUS_ERROR at a byte of it that cannot be read (R231). -/
def Obligations.VarUInt : Prop :=
  ∀ (s : State) (bs : List Byte) (p : Nat), p = (s.ictx.bitpos.toNat + 7) / 8 →
    8 * (p + bs.length) < 2 ^ 64 → s.holds (s.ictx.bufBase + BitVec.ofNat 64 p) bs →
    (∀ v, IsVarint bs v → p + bs.length ≤ s.ictx.bufLen.toNat →
      varUInt s = .ok v { s with ictx := { s.ictx with bitpos := BitVec.ofNat 64 (8 * (p + bs.length)) } } ∧ v < 2 ^ 64) ∧
    (bs.length < 10 → (∀ b ∈ bs, 0x80 ≤ b.toNat) → p + bs.length = s.ictx.bufLen.toNat →
      ∃ t, varUInt s = .error .eofError t) ∧
    (∀ h : bs.length = 10, (∀ i (hi : i < 9), 0x80 ≤ (bs[i]'(by omega)).toNat) → 1 < (bs[9]'(by omega)).toNat →
      p + 10 ≤ s.ictx.bufLen.toNat → ∃ t, varUInt s = .error .formatError t) ∧
    (bs.length < 10 → (∀ b ∈ bs, 0x80 ≤ b.toNat) → p + bs.length < s.ictx.bufLen.toNat →
      memOk s.params (s.ictx.bufBase + BitVec.ofNat 64 (p + bs.length)) .read = false → ∃ t, varUInt s = .error .busError t)

/-- R96: the zig-zag mapping, its listed values, and that it is one to one between u64 and s64. -/
def Obligations.ZigZagMapping : Prop :=
  (∀ u : Nat, zz u = if u % 2 = 0 then ((u / 2 : Nat) : Int) else -((u / 2 : Nat) : Int) - 1) ∧
  (zz 0 = 0 ∧ zz 1 = -1 ∧ zz 2 = 1 ∧ zz 3 = -2 ∧ zz 4 = 2 ∧ zz (2 ^ 64 - 1) = -2 ^ 63 ∧ zz (2 ^ 64 - 2) = 2 ^ 63 - 1) ∧
  (∀ u : Nat, u < 2 ^ 64 → -(2 ^ 63 : Int) ≤ zz u ∧ zz u < 2 ^ 63 ∧ unzz (zz u) = u) ∧
  (∀ v : Int, -(2 ^ 63 : Int) ≤ v → v < 2 ^ 63 → unzz v < 2 ^ 64 ∧ zz (unzz v) = v) ∧
  (∀ (s t : State) (u : Nat), varUInt s = .ok u t → zigZag s = .ok (zz u) t) ∧
  (∀ (s t : State) (e : ErrKind), varUInt s = .error e t → zigZag s = .error e t)

/-- R128, at the level of the command: a DECODE reads no byte outside the bound buffer. Change memory anywhere else, and every register, the error
code and RESULT come out the same, and the command writes the same bytes to the same addresses, in the same order. -/
def Obligations.DecodeReadsOnlyTheBoundBuffer : Prop :=
  ∀ (s : State) (m : Memory), BufferInvariant s →
    (∀ a, s.bound.contains a = true → m.read a.toNat = s.mem.read a.toNat) →
    (∀ t, exec .decode s = .next t → ∃ t', exec .decode { s with mem := m } = .next t' ∧
      t' = { t with mem := t'.mem, writes := t'.writes } ∧
      ∃ ws ws', t.writes = ws ++ s.writes ∧ t'.writes = ws' ++ s.writes ∧
        ws'.map (fun w => (w.addr, w.new)) = ws.map fun w => (w.addr, w.new)) ∧
    (∀ r, exec .decode s = .refused r → exec .decode { s with mem := m } = .refused r)

/-! ## Integer DECODE (spec/42_int_decode.md) -/

/-- R163 to R165: a delta read. It raises EOF_ERROR with nothing changed when the bits run past the buffer; it raises OVERFLOW_ERROR, LAST
unchanged, when the exact sum is out of the element's range; else the sum is the value, LAST takes it and VCMB goes down by 1. A bit within
the buffer that cannot be read is a BUS_ERROR, with nothing changed (R231). -/
def Obligations.DeltaRead : Prop :=
  ∀ (esize : Nat) (s : State) (w : Nat) (v : Int), esize = 4 ∨ esize = 8 → w = s.ictx.bitw.toNat →
    (8 * s.ictx.bufLen.toNat < s.ictx.bitpos.toNat + w → nextDelta esize s = .error .eofError s) ∧
    (s.ictx.bitpos.toNat + w ≤ 8 * s.ictx.bufLen.toNat → s.ictx.bitpos.toNat + w < 2 ^ 64 →
      (∀ q, s.ictx.bitpos.toNat ≤ q → q < s.ictx.bitpos.toNat + w →
        memOk s.params (s.bitAddr q) .read = true ∧ staleAt s (s.bitAddr q) = []) →
      v = s.ictx.last.toInt + s.ictx.minDelta.toInt + (s.rawAt s.ictx.bitpos.toNat w : Int) →
      (-(2 ^ (8 * esize - 1) : Int) ≤ v ∧ v < (2 ^ (8 * esize - 1) : Int) →
        nextDelta esize s = .ok v { s with ictx := { s.ictx with
          bitpos := BitVec.ofNat 64 (s.ictx.bitpos.toNat + w)
          last := BitVec.ofInt 64 v
          vcmb := s.ictx.vcmb - 1 } }) ∧
      (¬ (-(2 ^ (8 * esize - 1) : Int) ≤ v ∧ v < (2 ^ (8 * esize - 1) : Int)) →
        ∃ t, nextDelta esize s = .error .overflowError t ∧ t.ictx.last = s.ictx.last ∧ t.mem = s.mem)) ∧
    (s.ictx.bitpos.toNat + w ≤ 8 * s.ictx.bufLen.toNat →
      (∃ q, s.ictx.bitpos.toNat ≤ q ∧ q < s.ictx.bitpos.toNat + w ∧ memOk s.params (s.bitAddr q) .read = false) →
      nextDelta esize s = .error .busError s)

/-- R161: which way a slot goes. Within the current mini-block it reads a delta; at its end, with a mini-block left, it enters that one and reads a
delta of it; else it parses a header, as the first slot after SETDATA does. -/
def Obligations.SlotGoesOneOfThreeWays : Prop :=
  ∀ (esize : Nat) (s : State),
    (s.ictx.vcmb ≠ 0 → ideNext esize s = nextDelta esize s) ∧
    (s.ictx.vcmb = 0 → s.ictx.mbidx.toNat + 1 < s.ictx.nmb.toNat →
      ideNext esize s = nextDelta esize { s with ictx := { s.ictx with
        mbidx := s.ictx.mbidx + 1
        bitw := (s.ictx.width.getD (s.ictx.mbidx.toNat + 1) 0).setWidth 7
        vcmb := s.ictx.vpmb } }) ∧
    (s.ictx.vcmb = 0 → s.ictx.mbidx.toNat + 1 < 2 ^ 64 → s.ictx.nmb.toNat ≤ s.ictx.mbidx.toNat + 1 →
      ideNext esize s = parseHeader esize { s with ictx := { s.ictx with mbidx := s.ictx.mbidx + 1 } })

/-- R162: a legal block header, in every form of its varints. The slot's value is the header's first value, and the context is that of mini-block
0 with all its values left. -/
def Obligations.HeaderRead : Prop :=
  ∀ (esize : Nat) (s : State) (bytes ws : List Byte) (bs nmb vcb : Nat) (fv md : Int) (p : Nat), esize = 4 ∨ esize = 8 →
    IsHeader bytes bs nmb vcb fv md ws → p = (s.ictx.bitpos.toNat + 7) / 8 →
    s.holds (s.ictx.bufBase + BitVec.ofNat 64 p) bytes → p + bytes.length ≤ s.ictx.bufLen.toNat →
    8 * (p + bytes.length) < 2 ^ 64 → ws.length = nmb → 1 ≤ nmb → nmb ≤ s.params.maxMiniBlocks → bs ≠ 0 → bs % nmb = 0 →
    (∀ w ∈ ws, w.toNat ≤ 64) → -(2 ^ (8 * esize - 1) : Int) ≤ fv → fv < (2 ^ (8 * esize - 1) : Int) →
    parseHeader esize s = .ok fv { s with ictx := { s.ictx with
      bitpos := BitVec.ofNat 64 (8 * (p + bytes.length))
      nmb := BitVec.ofNat 64 nmb
      vpmb := BitVec.ofNat 64 (bs / nmb)
      vcb := BitVec.ofNat 64 vcb
      last := BitVec.ofInt 64 fv
      minDelta := BitVec.ofInt 64 md
      mbidx := 0
      bitw := (ws.getD 0 0).setWidth 7
      vcmb := BitVec.ofNat 64 (bs / nmb)
      width := ws ++ List.replicate (s.params.maxMiniBlocks - nmb) 0 } }

/-- The errors of a block header (R162, R231), in the order of R234. First those of each varint as it is read, before any check: where fewer
than five varints are whole and then come the bytes `r`, the buffer ends before the next varint does, or its next byte cannot be read, or
it is too long. Then the checks: a mini-block count of 0, one above MAX_MINI_BLOCKS, a block size of 0 or no multiple of it; then those of each width
byte as it is read (`ws` being the width bytes so far): the buffer's end, a byte that cannot be read, a byte above 64 (the last of `ws`);
then a first value out of the element's range. -/
def Obligations.HeaderErrors : Prop :=
  (∀ (esize : Nat) (s : State) (whole : List (List Byte)) (r : List Byte) (p q : Nat) (e : ErrKind), esize = 4 ∨ esize = 8 →
    whole.length < 5 → (∀ f ∈ whole, ∃ v, IsVarint f v) → p = (s.ictx.bitpos.toNat + 7) / 8 →
    s.holds (s.ictx.bufBase + BitVec.ofNat 64 p) (whole.flatten ++ r) → q = p + (whole.flatten ++ r).length →
    q ≤ s.ictx.bufLen.toNat → 8 * q < 2 ^ 64 → (∀ i (h : i < r.length), i < 9 → 0x80 ≤ r[i].toNat) →
    (r.length < 10 ∧ q = s.ictx.bufLen.toNat ∧ e = .eofError) ∨
      (r.length < 10 ∧ q < s.ictx.bufLen.toNat ∧ memOk s.params (s.ictx.bufBase + BitVec.ofNat 64 q) .read = false ∧
        e = .busError) ∨
      (r.length = 10 ∧ 1 < (r.getD 9 0).toNat ∧ e = .formatError) →
    ∃ t, parseHeader esize s = .error e t) ∧
  ∀ (esize : Nat) (s : State) (bytes ws : List Byte) (bs nmb vcb : Nat) (fv md : Int) (p : Nat) (e : ErrKind),
    esize = 4 ∨ esize = 8 → IsHeader bytes bs nmb vcb fv md ws → p = (s.ictx.bitpos.toNat + 7) / 8 →
    s.holds (s.ictx.bufBase + BitVec.ofNat 64 p) bytes → p + bytes.length ≤ s.ictx.bufLen.toNat →
    8 * (p + bytes.length) < 2 ^ 64 →
    (nmb = 0 ∧ e = .formatError) ∨ (s.params.maxMiniBlocks < nmb ∧ e = .capacityError) ∨
      (1 ≤ nmb ∧ nmb ≤ s.params.maxMiniBlocks ∧ (bs = 0 ∨ bs % nmb ≠ 0) ∧ e = .formatError) ∨
      (1 ≤ nmb ∧ nmb ≤ s.params.maxMiniBlocks ∧ bs ≠ 0 ∧ bs % nmb = 0 ∧ ws.length < nmb ∧ (∀ w ∈ ws, w.toNat ≤ 64) ∧
        (p + bytes.length = s.ictx.bufLen.toNat ∧ e = .eofError ∨
          p + bytes.length < s.ictx.bufLen.toNat ∧
            memOk s.params (s.ictx.bufBase + BitVec.ofNat 64 (p + bytes.length)) .read = false ∧ e = .busError)) ∨
      (1 ≤ nmb ∧ nmb ≤ s.params.maxMiniBlocks ∧ bs ≠ 0 ∧ bs % nmb = 0 ∧ ws.length ≤ nmb ∧
        (∃ w us, ws = us ++ [w] ∧ (∀ u ∈ us, u.toNat ≤ 64) ∧ 64 < w.toNat) ∧ e = .formatError) ∨
      (1 ≤ nmb ∧ nmb ≤ s.params.maxMiniBlocks ∧ bs ≠ 0 ∧ bs % nmb = 0 ∧ ws.length = nmb ∧ (∀ w ∈ ws, w.toNat ≤ 64) ∧
        ¬ (-(2 ^ (8 * esize - 1) : Int) ≤ fv ∧ fv < (2 ^ (8 * esize - 1) : Int)) ∧ e = .overflowError) →
    ∃ t, parseHeader esize s = .error e t

/-- The entry of a mini-block changes nothing else about a DECODE (R161, R177): a DECODE of at least one value that starts at a mini-block's end, with
one left in the block, is the DECODE from the state in which the next one is entered. -/
def Obligations.DecodeEntersTheNextMiniBlock : Prop :=
  ∀ s : State, s.mode = .int32 ∨ s.mode = .int64 → s.arg0 ≠ 0 → s.ictx.vrem ≠ 0 → s.ictx.vcmb = 0 →
    s.ictx.mbidx.toNat + 1 < s.ictx.nmb.toNat → s.ictx.vpmb ≠ 0 → s.failed = false →
    exec .decode s = exec .decode { s with ictx := { s.ictx with
      mbidx := s.ictx.mbidx + 1
      bitw := (s.ictx.width.getD (s.ictx.mbidx.toNat + 1) 0).setWidth 7
      vcmb := s.ictx.vpmb } }

/-- R167(a) at the level of the command: the slot that parses a header writes the header's first value, with no delta applied. -/
def Obligations.DecodeOfAFirstValue : Prop :=
  ∀ (s : State) (bytes ws : List Byte) (bs nmb vcb : Nat) (fv md : Int) (p : Nat),
    s.mode = .int32 ∨ s.mode = .int64 → s.failed = false → s.mem.wf → s.regionsApart → BufferInvariant s → s.writable s.outArray →
    s.intCount = 1 → s.ictx.vcmb = 0 → s.ictx.mbidx.toNat + 1 < 2 ^ 64 → s.ictx.nmb.toNat ≤ s.ictx.mbidx.toNat + 1 →
    IsHeader bytes bs nmb vcb fv md ws → p = (s.ictx.bitpos.toNat + 7) / 8 →
    s.holds (s.ictx.bufBase + BitVec.ofNat 64 p) bytes → p + bytes.length ≤ s.ictx.bufLen.toNat →
    8 * (p + bytes.length) < 2 ^ 64 → ws.length = nmb → 1 ≤ nmb → nmb ≤ s.params.maxMiniBlocks → bs ≠ 0 → bs % nmb = 0 →
    (∀ w ∈ ws, w.toNat ≤ 64) →
    -(2 ^ (8 * s.mode.esize - 1) : Int) ≤ fv → fv < (2 ^ (8 * s.mode.esize - 1) : Int) →
    ∃ t, exec .decode s = .next t ∧
      t = { s with
        ictx := { s.ictx with
          vrem := s.ictx.vrem - 1
          bitpos := BitVec.ofNat 64 (8 * (p + bytes.length))
          nmb := BitVec.ofNat 64 nmb
          vpmb := BitVec.ofNat 64 (bs / nmb)
          vcb := BitVec.ofNat 64 vcb
          last := BitVec.ofInt 64 fv
          minDelta := BitVec.ofInt 64 md
          mbidx := 0
          bitw := (ws.getD 0 0).setWidth 7
          vcmb := BitVec.ofNat 64 (bs / nmb)
          width := ws ++ List.replicate (s.params.maxMiniBlocks - nmb) 0 }
        mem := t.mem, writes := t.writes, result := 1, errcode := .none, command := none } ∧
      t.bytesAt s.arg1 (leBytes s.mode.esize (trunc (8 * s.mode.esize) fv)) ∧
      ∀ a, s.outArray.contains a = false → t.mem.read a.toNat = s.mem.read a.toNat

/-- R163 to R166 and R167(b) at the level of the command, for any count of values inside one mini-block: DECODE completes, slot `k` holds the running
value after `k + 1` deltas, and nothing else is written. -/
def Obligations.DecodeInsideAMiniBlock : Prop :=
  ∀ (s : State) (n w : Nat), s.mode = .int32 ∨ s.mode = .int64 → s.failed = false → s.mem.wf → s.regionsApart → BufferInvariant s →
    n = s.intCount → w = s.ictx.bitw.toNat → n ≤ s.ictx.vcmb.toNat →
    s.ictx.bitpos.toNat + n * w ≤ 8 * s.ictx.bufLen.toNat → s.ictx.bitpos.toNat + n * w < 2 ^ 64 → s.readable s.bound →
    s.writable s.outArray →
    (∀ k < n, -(2 ^ (8 * s.mode.esize - 1) : Int) ≤ s.running (k + 1) ∧
      s.running (k + 1) < (2 ^ (8 * s.mode.esize - 1) : Int)) →
    ∃ t, exec .decode s = .next t ∧
      t = { s with
        ictx := { s.ictx with
          vrem := s.ictx.vrem - BitVec.ofNat 64 n
          bitpos := BitVec.ofNat 64 (s.ictx.bitpos.toNat + n * w)
          last := BitVec.ofInt 64 (s.running n)
          vcmb := s.ictx.vcmb - BitVec.ofNat 64 n }
        mem := t.mem, writes := t.writes, result := BitVec.ofNat 64 n, errcode := .none, command := none } ∧
      (∀ k < n, t.bytesAt (s.arg1 + BitVec.ofNat 64 (s.mode.esize * k))
        (leBytes s.mode.esize (trunc (8 * s.mode.esize) (s.running (k + 1))))) ∧
      ∀ a, s.outArray.contains a = false → t.mem.read a.toNat = s.mem.read a.toNat

/-- An integer DECODE completes exactly with the stream's values (R160, R166): where the next `n` values of the stream can be read and the output array
written, DECODE answers, the context is the one that reading them leaves with VREM less by `n`, and slot `k` holds value `k`. -/
def Obligations.DecodeIntCompletes : Prop :=
  ∀ (s u : State) (vs : List Int), s.mode = .int32 ∨ s.mode = .int64 → s.failed = false → s.mem.wf → s.regionsApart →
    BufferInvariant s → s.writable s.outArray → intValues s.mode.esize s.intCount s = .ok vs u →
    vs.length = s.intCount ∧ ∃ t, exec .decode s = .next t ∧
      t = { s with
        ictx := { u.ictx with vrem := s.ictx.vrem - BitVec.ofNat 64 s.intCount }
        mem := t.mem, writes := t.writes, draws := u.draws, result := BitVec.ofNat 64 s.intCount, errcode := .none,
        command := none } ∧
      (∀ k (h : k < vs.length), t.bytesAt (s.arg1 + BitVec.ofNat 64 (s.mode.esize * k))
        (leBytes s.mode.esize (trunc (8 * s.mode.esize) vs[k]))) ∧
      ∀ a, s.outArray.contains a = false → t.mem.read a.toNat = s.mem.read a.toNat

/-- R233 and R236 for an integer DECODE that fails at slot `k`. Where the slot's value cannot be read, ERRCODE is the kind raised and `j`
bytes of the slot are written, `j = 0`; where byte `j` of the element cannot be written, it is BUS_ERROR and the `j` bytes before it are
written. RESULT is `k`, the slots before `k` are completely written, and no other byte of memory is. -/
def Obligations.DecodeIntIsPrecise : Prop :=
  ∀ (s u : State) (vs : List Int) (k j : Nat) (e : ErrKind), s.mode = .int32 ∨ s.mode = .int64 → s.failed = false → s.mem.wf →
    s.regionsApart → BufferInvariant s → k < s.intCount → s.writable ⟨s.arg1, s.mode.esize * k + j⟩ →
    (intValues s.mode.esize k s = .ok vs u ∧ (∃ w, ideNext s.mode.esize u = .error e w) ∧ j = 0) ∨
      (intValues s.mode.esize (k + 1) s = .ok vs u ∧ j < s.mode.esize ∧ e = .busError ∧
        memOk s.params (s.arg1 + BitVec.ofNat 64 (s.mode.esize * k + j)) .write = false) →
    ∃ t, exec .decode s = .next t ∧ t.errcode = e ∧ t.failed = true ∧ t.result = BitVec.ofNat 64 k ∧
      (∀ i < k, ∀ v, vs[i]? = some v → t.bytesAt (s.arg1 + BitVec.ofNat 64 (s.mode.esize * i))
        (leBytes s.mode.esize (trunc (8 * s.mode.esize) v))) ∧
      (∀ v, vs[k]? = some v → t.bytesAt (s.arg1 + BitVec.ofNat 64 (s.mode.esize * k))
        ((leBytes s.mode.esize (trunc (8 * s.mode.esize) v)).take j)) ∧
      (k ≤ vs.length) ∧
      ∀ a, Region.contains ⟨s.arg1, s.mode.esize * k + j⟩ a = false → t.mem.read a.toNat = s.mem.read a.toNat

/-- The frame of every integer DECODE that answers (R236): memory outside the slots completed is as before, but for the slot in which a write failed
(BUS_ERROR). The byte-array context stays as it was, and so does the history of the bound buffer's bytes: an integer DECODE names neither
(R160). That the context stays also where the DECODE fails, when R49 leaves its registers unspecified, is the model's reading (DEDUCED, log
entry 11). -/
def Obligations.DecodeIntFrame : Prop :=
  ∀ s t : State, s.mode = .int32 ∨ s.mode = .int64 → exec .decode s = .next t →
    t.bctx = s.bctx ∧ t.stale = s.stale ∧
    ∀ a, Region.contains ⟨s.arg1, s.mode.esize * (t.result.toNat + if t.errcode = .busError then 1 else 0)⟩ a = false →
      t.mem.read a.toNat = s.mem.read a.toNat

/-- R169: a stream decoded in two pieces gives the same values, in the same order, and the same context as in one, each piece to its own array. -/
def Obligations.IncrementalDecoding : Prop :=
  ∀ (s s1 s2 t : State) (m1 m2 a b c : Word), s.mode = .int32 ∨ s.mode = .int64 → s.mem.wf → BufferInvariant s →
    m1.toNat + m2.toNat < 2 ^ 64 →
    exec .decode (s.withOperands m1 a) = .next s1 → s1.errcode = .none →
    exec .decode (s1.withOperands m2 b) = .next s2 → s2.errcode = .none →
    exec .decode (s.withOperands (m1 + m2) c) = .next t → t.errcode = .none →
    t.result.toNat = s1.result.toNat + s2.result.toNat ∧ t.ictx = s2.ictx ∧ t.draws = s2.draws ∧
    (∀ k i, k < s1.result.toNat → i < s.mode.esize →
      t.mem.read (c + BitVec.ofNat 64 (s.mode.esize * k + i)).toNat =
        s1.mem.read (a + BitVec.ofNat 64 (s.mode.esize * k + i)).toNat) ∧
    (∀ k i, k < s2.result.toNat → i < s.mode.esize →
      t.mem.read (c + BitVec.ofNat 64 (s.mode.esize * (s1.result.toNat + k) + i)).toNat =
        s2.mem.read (b + BitVec.ofNat 64 (s.mode.esize * k + i)).toNat)

/-- R172: the fast path's unpack of value `i` of a run is the general path's read of `w` bits at bit `i*w` of the run. -/
def Obligations.FastUnpack : Prop :=
  ∀ (s : State) (w i p : Nat), fastWidthOk w → i < 32 → p % 8 = 0 →
    (∀ x < 4 * w, memOk s.params (s.bitAddr p + BitVec.ofNat 64 x) .read = true ∧
      staleAt s (s.bitAddr p + BitVec.ofNat 64 x) = []) →
    fastRaw (s.bitAddr p) w i s = .ok (s.rawAt (p + i * w) w) s

/-- R175: where the fast path is eligible and does not fail, the general loop gives the same state: every register, every byte of memory, the
order of the writes too. -/
def Obligations.FastPathEquivalence : Prop :=
  ∀ s t : State, s.params.WellFormed → s.mode = .int32 ∨ s.mode = .int64 → fastEligible s = true →
    8 * s.ictx.bufLen.toNat < 2 ^ 64 → s.stale = [] → fastDecode32 s = .ok () t → decodeInt s = .ok () t

/-! ## Byte-array DECODE (spec/43_bytearray_decode.md) -/

/-- R203: `SuffixNext()`, its two bound checks, its reads and its cursor. -/
def Obligations.SuffixRecord : Prop :=
  ∀ (s : State) (pos len : Nat) (a : Word), pos = s.bctx.sufPos.toNat → len = s.bctx.sufLen.toNat →
    a = s.bctx.sufBase + BitVec.ofNat 64 pos →
    (len < pos + 4 → suffixNext s = .error .eofError s) ∧
    (pos + 4 ≤ len →
      ((∃ i < 4, memOk s.params (a + BitVec.ofNat 64 i) .read = false) → ∃ t, suffixNext s = .error .busError t) ∧
      (∀ ls : List Byte, ls.length = 4 → s.holds a ls →
        (len < pos + 4 + leValue ls → suffixNext s = .error .eofError s) ∧
        (pos + 4 + leValue ls ≤ len →
          (∀ suf : List Byte, suf.length = leValue ls → s.holds (a + 4) suf →
            suffixNext s = .ok suf
              { s with bctx := { s.bctx with sufPos := BitVec.ofNat 64 (pos + 4 + leValue ls) } }) ∧
          ((∃ i < leValue ls, memOk s.params (a + 4 + BitVec.ofNat 64 i) .read = false) →
            ∃ t, suffixNext s = .error .busError t))))

/-- R201 and R204 to R206: the value of a slot from its prefix length and its suffix. The first value ignores its prefix length; a later
one takes that many bytes of PREV, or raises FORMAT_ERROR; then PREV_CAP and the heap's capacity are checked. Before these (R200, R234),
an error of the prefix length's slot is the error of the value, and after it an error of the suffix is. -/
def Obligations.ValueOfASlot : Prop :=
  ∀ (s : State) (cap : Word),
    (∀ e u, ideNext 4 s = .error e u → baValue cap s = .error e u) ∧
    (∀ p u e w, ideNext 4 s = .ok p u →
      suffixNext { u with ictx := { u.ictx with vrem := u.ictx.vrem - 1 } } = .error e w → baValue cap s = .error e w) ∧
  ∀ (u w : State) (p : Int) (suf : List Byte), ideNext 4 s = .ok p u →
    suffixNext { u with ictx := { u.ictx with vrem := u.ictx.vrem - 1 } } = .ok suf w →
    (w.bctx.first = false → p < 0 ∨ (w.bctx.prev.length : Int) < p → baValue cap s = .error .formatError w) ∧
    (∀ v : List Byte,
      (w.bctx.first = true ∧ v = suf) ∨
        (w.bctx.first = false ∧ 0 ≤ p ∧ p ≤ (w.bctx.prev.length : Int) ∧ v = w.bctx.prev.take p.toNat ++ suf) →
      (w.params.prevCap < v.length ∨ cap.toNat < w.bctx.heapUsed.toNat + v.length →
        baValue cap s = .error .capacityError w) ∧
      (v.length ≤ w.params.prevCap → w.bctx.heapUsed.toNat + v.length ≤ cap.toNat → baValue cap s = .ok v w))

/-- A byte-array DECODE completes exactly with the stream's values (R200, R207, R208): where the next `n` values can be found and the output
written, DECODE answers, slot `k`'s descriptor and bytes are those of value `k`, the values lie one after another in the heap, and
nothing else is written; PREV is then the last of the values, and FIRST is 0. -/
def Obligations.DecodeByteArrayCompletes : Prop :=
  ∀ (s u : State) (vs : List (List Byte)), s.mode = .byteArray → s.failed = false → s.mem.wf →
    s.regionsApart → BufferInvariant s → s.writable s.descArray → s.writable s.heapArea →
    baValues s.arg3 s.baCount { s with bctx := { s.bctx with heapUsed := 0 } } = .ok vs u →
    vs.length = s.baCount ∧ ∃ t, exec .decode s = .next t ∧
      t = { s with
        ictx := u.ictx
        bctx := { u.bctx with baVrem := s.bctx.baVrem - BitVec.ofNat 64 s.baCount }
        mem := t.mem, writes := t.writes, draws := u.draws, result := BitVec.ofNat 64 s.baCount, errcode := .none,
        command := none } ∧
      t.bctx.heapUsed = BitVec.ofNat 64 (lengthsBefore vs vs.length) ∧
      (∀ v, vs.getLast? = some v → t.bctx.prev = v ∧ t.bctx.first = false) ∧
      (∀ k (h : k < vs.length),
        t.bytesAt (s.arg2 + BitVec.ofNat 64 (lengthsBefore vs k)) vs[k] ∧
        t.bytesAt (s.arg1 + BitVec.ofNat 64 (16 * k))
          (descriptorBytes (s.arg2 + BitVec.ofNat 64 (lengthsBefore vs k)) vs[k].length)) ∧
      ∀ a, s.descArray.contains a = false → Region.contains ⟨s.arg2, lengthsBefore vs vs.length⟩ a = false →
        t.mem.read a.toNat = s.mem.read a.toNat

/-- R233 and R236 for a byte-array DECODE that fails at slot `k`: where the slot's value cannot be found (`hj = dj = 0`), where byte `hj`
of its value cannot be written to the heap, or where byte `dj` of its descriptor cannot be written, after all of its value. RESULT is
`k`; the values before slot `k` lie one after another in the heap and their descriptors are complete; of slot `k` the bytes before the
failing one are written, in the order heap, then descriptor; no other byte of memory is. -/
def Obligations.DecodeByteArrayIsPrecise : Prop :=
  ∀ (s u : State) (vs : List (List Byte)) (v : List Byte) (k hj dj : Nat) (e : ErrKind), s.mode = .byteArray → s.failed = false →
    s.mem.wf → s.regionsApart → BufferInvariant s → k < s.baCount →
    baValues s.arg3 k { s with bctx := { s.bctx with heapUsed := 0 } } = .ok vs u →
    s.writable ⟨s.arg1, 16 * k + dj⟩ → s.writable ⟨s.arg2, lengthsBefore vs k + hj⟩ →
    ((∃ w, baValue s.arg3 u = .error e w) ∧ v = [] ∧ hj = 0 ∧ dj = 0) ∨
      ((∃ w, baValue s.arg3 u = .ok v w) ∧ e = .busError ∧ hj < v.length ∧ dj = 0 ∧
        memOk s.params (s.arg2 + BitVec.ofNat 64 (lengthsBefore vs k + hj)) .write = false) ∨
      ((∃ w, baValue s.arg3 u = .ok v w) ∧ e = .busError ∧ hj = v.length ∧ dj < 16 ∧
        memOk s.params (s.arg1 + BitVec.ofNat 64 (16 * k + dj)) .write = false) →
    vs.length = k ∧ ∃ t, exec .decode s = .next t ∧ t.errcode = e ∧ t.failed = true ∧ t.result = BitVec.ofNat 64 k ∧
      (∀ i (h : i < vs.length),
        t.bytesAt (s.arg2 + BitVec.ofNat 64 (lengthsBefore vs i)) vs[i] ∧
        t.bytesAt (s.arg1 + BitVec.ofNat 64 (16 * i))
          (descriptorBytes (s.arg2 + BitVec.ofNat 64 (lengthsBefore vs i)) vs[i].length)) ∧
      t.bytesAt (s.arg2 + BitVec.ofNat 64 (lengthsBefore vs k)) (v.take hj) ∧
      t.bytesAt (s.arg1 + BitVec.ofNat 64 (16 * k))
        ((descriptorBytes (s.arg2 + BitVec.ofNat 64 (lengthsBefore vs k)) v.length).take dj) ∧
      ∀ a, Region.contains ⟨s.arg1, 16 * k + dj⟩ a = false → Region.contains ⟨s.arg2, lengthsBefore vs k + hj⟩ a = false →
        t.mem.read a.toNat = s.mem.read a.toNat

/-- R209(a): a stream decoded in two pieces gives the same values, in the same order, and the same contexts as in one, each piece to its own arrays:
the heap bytes of the whole are those of the pieces, one after the other, and so are the lengths in the descriptors. -/
def Obligations.IncrementalByteArrayDecoding : Prop :=
  ∀ (s s1 s2 t : State) (m1 m2 d1 h1 c1 d2 h2 c2 d h c : Word), s.mode = .byteArray → s.mem.wf → BufferInvariant s →
    m1.toNat + m2.toNat < 2 ^ 64 →
    exec .decode (s.withByteArrayOperands m1 d1 h1 c1) = .next s1 → s1.errcode = .none →
    exec .decode (s1.withByteArrayOperands m2 d2 h2 c2) = .next s2 → s2.errcode = .none →
    exec .decode (s.withByteArrayOperands (m1 + m2) d h c) = .next t → t.errcode = .none →
    t.result.toNat = s1.result.toNat + s2.result.toNat ∧ t.ictx = s2.ictx ∧
    t.bctx = { s2.bctx with heapUsed := s1.bctx.heapUsed + s2.bctx.heapUsed } ∧
    (∀ i < s1.bctx.heapUsed.toNat,
      t.mem.read (h + BitVec.ofNat 64 i).toNat = s1.mem.read (h1 + BitVec.ofNat 64 i).toNat) ∧
    (∀ i < s2.bctx.heapUsed.toNat,
      t.mem.read (h + s1.bctx.heapUsed + BitVec.ofNat 64 i).toNat = s2.mem.read (h2 + BitVec.ofNat 64 i).toNat) ∧
    (∀ k i, k < s1.result.toNat → 8 ≤ i → i < 16 →
      t.mem.read (d + BitVec.ofNat 64 (16 * k + i)).toNat = s1.mem.read (d1 + BitVec.ofNat 64 (16 * k + i)).toNat) ∧
    (∀ k i, k < s2.result.toNat → 8 ≤ i → i < 16 →
      t.mem.read (d + BitVec.ofNat 64 (16 * (s1.result.toNat + k) + i)).toNat =
        s2.mem.read (d2 + BitVec.ofNat 64 (16 * k + i)).toNat)

/-- The frame of every byte-array DECODE that answers (R236): memory outside the heap and outside the descriptors of the slots completed is as
before, but for the descriptor of the slot in which a write failed. -/
def Obligations.DecodeByteArrayFrame : Prop :=
  ∀ s t : State, s.mode = .byteArray → exec .decode s = .next t →
    t.stale = s.stale ∧
    ∀ a, s.heapArea.contains a = false →
      Region.contains ⟨s.arg1, 16 * (t.result.toNat + if t.errcode = .busError then 1 else 0)⟩ a = false →
      t.mem.read a.toNat = s.mem.read a.toNat

/-! ## Memory (spec/00_scope.md, spec/20_memory.md, spec/60_exceptions.md) -/

/-- R11 and R61: a number written is stored little-endian, at consecutive addresses modulo 2^64, nothing else changes, and reading it back gives
it. A byte that cannot be written ends the write with BUS_ERROR, the bytes before it standing and the others not performed (R231). -/
def Obligations.MemoryPrimitives : Prop :=
  ∀ (s : State) (a : Word) (n v : Nat), s.mem.wf → n ≤ 16 →
    ((∀ i < n, memOk s.params (a + BitVec.ofNat 64 i) .write = true) →
      ∃ t, memWrite a n v s = .ok () t ∧ t = { s with mem := t.mem, writes := t.writes } ∧
        (∀ i < n, t.mem.read (a + BitVec.ofNat 64 i).toNat = BitVec.ofNat 8 (v / 2 ^ (8 * i))) ∧
        (∀ x, Region.contains ⟨a, n⟩ x = false → t.mem.read x.toNat = s.mem.read x.toNat) ∧
        (s.readable ⟨a, n⟩ → memRead a n t = .ok (v % 2 ^ (8 * n)) t)) ∧
    (∀ j < n, (∀ i < j, memOk s.params (a + BitVec.ofNat 64 i) .write = true) →
      memOk s.params (a + BitVec.ofNat 64 j) .write = false →
      ∃ t, memWrite a n v s = .error .busError t ∧
        (∀ i < j, t.mem.read (a + BitVec.ofNat 64 i).toNat = BitVec.ofNat 8 (v / 2 ^ (8 * i))) ∧
        ∀ x, Region.contains ⟨a, j⟩ x = false → t.mem.read x.toNat = s.mem.read x.toNat)

/-- The write sequence of a command (R70, R261) is all it does to memory: the writes it adds to those that the host may not have seen
(R65, log entry 6), applied in order to memory as the command found it, give memory as the command leaves it. -/
def Obligations.WriteSequence : Prop :=
  ∀ (i : Instr) (s t : State), exec i s = .next t →
    ∃ ws, t.writes = ws ++ s.writes ∧ t.mem = s.mem.apply ws.reverse

/-! ## Reset (spec/70_reset_and_hazards.md) -/

/-- Reset with no command running (R260, R51): every register takes its reset value, external memory and the parameters stay. -/
def Obligations.ResetWhileIdle : Prop :=
  ∀ s : State, s.command = none → ∃ t, hostStep .reset s = .next t ∧
    t.params = s.params ∧ t.mem = s.mem ∧ t.arg0 = 0 ∧ t.arg1 = 0 ∧ t.arg2 = 0 ∧ t.arg3 = 0 ∧ t.statusWord = 0 ∧
    t.result = 0 ∧
    t.ictx = { vrem := 0, last := 0, minDelta := 0, bitw := 0, vcmb := 0, vcb := 0, mbidx := 0, nmb := 0, vpmb := 0,
               bitpos := 0, bufBase := 0, bufLen := 0, width := List.replicate s.params.maxMiniBlocks 0 } ∧
    t.bctx = { baVrem := 0, sufBase := 0, sufLen := 0, sufPos := 0, prev := [], first := false, heapUsed := 0 }

/-- R261: reset during a command. Some prefix of the command's write sequence is made (which one is a free value), the rest is not, and every
register takes its reset value. The model's readings (log entry 7): the prefix lands as a whole at the reset, on memory as the reset finds it,
with the host's stores in it (R69(c) orders neither); the binding of the buffer ends (`bound`, `stale`), the writes made
stay unseen by the host as they were (R71), and a command that has no meaning (R66, R73) has none when it is reset either. -/
def Obligations.ResetDuringACommand : Prop :=
  ∀ (s : State) (c : Word), s.command = some c →
    (∀ t ws, runCommand c s = .next t → t.writes = ws ++ s.writes →
      ∃ u n, hostStep .reset s = .next u ∧ n ≤ ws.length ∧ u.mem = s.mem.apply (ws.reverse.take n) ∧
        u = { State.resetWith s.params with
          mem := u.mem, writes := (ws.reverse.take n).reverse ++ s.writes, draws := u.draws, hostDraws := u.hostDraws,
          host := s.host, readLog := s.readLog }) ∧
    (∀ r, runCommand c s = .refused r → hostStep .reset s = .refused r)

/-! ## Whole-machine promises -/

/-- The invariant at reset, for all parameters in the ranges of R6. -/
def Obligations.InvariantAtReset : Prop :=
  ∀ p : Params, p.WellFormed → MachineInvariant (State.resetWith p)

/-- Every step keeps the invariant, from every state that meets it: R50 (a) to (g), the canonical form of memory, the ranges of R6, the size of the
width table, and that commands read nothing but the bound buffer; and, the model's own, that the byte-array context is 0 outside BYTE_ARRAY
mode (log entry 11). -/
def Obligations.InvariantKept : Prop :=
  ∀ s t : State, MachineInvariant s → step s = .next t → MachineInvariant t

/-- What only certain events change, over all steps: the parameters never (R23); an ARG register only by a host write to it with BUSY = 0, or by reset
(R21); MODE only by CONFIG or reset (R26); ERRCODE, RESULT, FAILED, BA_EMPTY and the two contexts only by the step that runs and completes a
command, or by reset (R26 to R47, R147); so no access of the host but a reset touches any of these. That the context
fields stay so also with FAILED = 1, where R49 leaves their values unspecified, is the model's (log entry 11). ERRCODE never becomes
NOT_IMPLEMENTED (R176). -/
def Obligations.OnlyTheseEventsChange : Prop :=
  ∀ s t : State, step s = .next t →
    t.params = s.params ∧
    (∀ r ∈ [((0x010 : BitVec 14), State.arg0), (0x018, State.arg1), (0x020, State.arg2), (0x028, State.arg3)],
      r.2 t = r.2 s ∨ s.landing = some .reset ∨
        (s.busy = false ∧ ∃ v, s.landing = some (.writeReg r.1 8 v) ∧ r.2 t = v)) ∧
    (t.mode = s.mode ∨ s.landing = some .reset ∨
      (s.landing = none ∧ ∃ c ty, s.command = some c ∧ decode c = .ok (.config ty))) ∧
    ((t.errcode = s.errcode ∧ t.result = s.result ∧ t.failed = s.failed ∧ t.baEmpty = s.baEmpty ∧ t.ictx = s.ictx ∧
        t.bctx = s.bctx) ∨
      s.landing = some .reset ∨ (s.landing = none ∧ s.busy = true ∧ t.busy = false)) ∧
    (s.errcode ≠ .notImplemented → t.errcode ≠ .notImplemented)
end

