-- ==== Sys2Proof/Laws/Sub.lean ====
section
/-! SUPPORT. The calculus of sub-steps: what a sequence of sub-steps does, from what each does; and what each shared operation of
Machine/Ops.lean can do, said once. -/

namespace Sys2Proof.Machine

variable {α β : Type}

/-! ## Sequences -/

theorem Sub.bind_run (x : Sub α) (f : α → Sub β) (s : State) :
    (x >>= f) s = match x s with
      | .ok a t => f a t
      | .error e t => .error e t := by
  change EStateM.bind x f s = _
  unfold EStateM.bind
  cases x s <;> rfl

theorem Sub.bind_of_ok {x : Sub α} {f : α → Sub β} {s t : State} {a : α} (h : x s = .ok a t) : (x >>= f) s = f a t := by
  show EStateM.bind x f s = _
  unfold EStateM.bind
  rw [h]

theorem Sub.bind_of_error {x : Sub α} {f : α → Sub β} {s t : State} {e : ErrKind} (h : x s = .error e t) :
    (x >>= f) s = .error e t := by
  show EStateM.bind x f s = _
  unfold EStateM.bind
  rw [h]

theorem Sub.bind_ok_iff {x : Sub α} {f : α → Sub β} {s t : State} {b : β} :
    (x >>= f) s = .ok b t ↔ ∃ a u, x s = .ok a u ∧ f a u = .ok b t := by
  rw [Sub.bind_run]
  cases x s <;> simp

theorem Sub.bind_error_iff {x : Sub α} {f : α → Sub β} {s t : State} {e : ErrKind} :
    (x >>= f) s = .error e t ↔ x s = .error e t ∨ ∃ a u, x s = .ok a u ∧ f a u = .error e t := by
  rw [Sub.bind_run]
  cases x s <;> simp

@[simp] theorem Sub.pure_run (a : α) (s : State) : (pure a : Sub α) s = .ok a s := rfl
@[simp] theorem look_run (f : State → α) (s : State) : look f s = .ok (f s) s := rfl
@[simp] theorem update_run (f : State → State) (s : State) : update f s = .ok () (f s) := rfl
@[simp] theorem raise_run (e : ErrKind) (s : State) : raise e s = .error e s := rfl
theorem raiseIf_run (c : Bool) (e : ErrKind) (s : State) :
    raiseIf c e s = if c then .error e s else .ok () s := rfl
@[simp] theorem raiseIf_true (e : ErrKind) (s : State) : raiseIf true e s = .error e s := rfl
@[simp] theorem raiseIf_false (e : ErrKind) (s : State) : raiseIf false e s = .ok () s := rfl

theorem raiseIf_ok_iff {c : Bool} {e : ErrKind} {s t : State} {u : Unit} :
    raiseIf c e s = .ok u t ↔ c = false ∧ t = s := by
  cases c <;> simp [eq_comm]

theorem raiseIf_error_iff {c : Bool} {e e' : ErrKind} {s t : State} :
    raiseIf c e s = .error e' t ↔ c = true ∧ e' = e ∧ t = s := by
  cases c <;> simp [eq_comm]

/-! The first sub-step of a sequence, run. -/

@[simp] theorem Sub.pure_bind_run (a : α) (f : α → Sub β) (s : State) : ((pure a : Sub α) >>= f) s = f a s := rfl
@[simp] theorem look_bind (g : State → α) (f : α → Sub β) (s : State) : (look g >>= f) s = f (g s) s := rfl
@[simp] theorem update_bind (g : State → State) (f : Unit → Sub β) (s : State) : (update g >>= f) s = f () (g s) := rfl

theorem raiseIf_bind (c : Bool) (e : ErrKind) (f : Unit → Sub β) (s : State) :
    (raiseIf c e >>= f) s = if c then .error e s else f () s := by
  cases c <;> rfl

theorem raiseIf_bind_ok_iff {c : Bool} {e : ErrKind} {f : Unit → Sub β} {s t : State} {b : β} :
    (raiseIf c e >>= f) s = .ok b t ↔ c = false ∧ f () s = .ok b t := by
  cases c <;> simp [raiseIf_bind]

theorem raiseIf_bind_error_iff {c : Bool} {e e' : ErrKind} {f : Unit → Sub β} {s t : State} :
    (raiseIf c e >>= f) s = .error e' t ↔ (c = true ∧ e' = e ∧ t = s) ∨ (c = false ∧ f () s = .error e' t) := by
  cases c <;> simp [raiseIf_bind, eq_comm]

/-! ## What a sub-step leaves: a relation that holds between the state before and after, whether it goes on or raises -/

/-- A relation that sub-steps chain. -/
structure Chains (R : State → State → Prop) : Prop where
  refl : ∀ s, R s s
  trans : ∀ {s t u}, R s t → R t u → R s u

/-- Whether it goes on or raises, the sub-step relates the state before it to the state after it. -/
def Sub.Leaves (R : State → State → Prop) (m : Sub α) : Prop :=
  ∀ s, (∀ a t, m s = .ok a t → R s t) ∧ (∀ e t, m s = .error e t → R s t)

section
variable {R : State → State → Prop} (hR : Chains R)
include hR

theorem Sub.Leaves.pure (a : α) : Sub.Leaves R (pure a : Sub α) := fun s =>
  ⟨fun b t h => by simp only [Sub.pure_run, EStateM.Result.ok.injEq] at h; exact h.2 ▸ hR.refl s, fun e t h => by simp at h⟩

theorem Sub.Leaves.bind {x : Sub α} {f : α → Sub β} (hx : Sub.Leaves R x) (hf : ∀ a, Sub.Leaves R (f a)) :
    Sub.Leaves R (x >>= f) := fun s => by
  refine ⟨fun b t h => ?_, fun e t h => ?_⟩
  · obtain ⟨a, u, h1, h2⟩ := Sub.bind_ok_iff.1 h
    exact hR.trans ((hx s).1 a u h1) ((hf a u).1 b t h2)
  · rcases Sub.bind_error_iff.1 h with h1 | ⟨a, u, h1, h2⟩
    · exact (hx s).2 e t h1
    · exact hR.trans ((hx s).1 a u h1) ((hf a u).2 e t h2)

theorem Sub.Leaves.look (f : State → α) : Sub.Leaves R (look f) := fun s =>
  ⟨fun b t h => by simp only [look_run, EStateM.Result.ok.injEq] at h; exact h.2 ▸ hR.refl s, fun e t h => by simp at h⟩

theorem Sub.Leaves.raiseIf (c : Bool) (e : ErrKind) : Sub.Leaves R (raiseIf c e) := fun s =>
  ⟨fun b t h => by rw [raiseIf_ok_iff] at h; exact h.2 ▸ hR.refl s,
   fun e' t h => by rw [raiseIf_error_iff] at h; exact h.2.2 ▸ hR.refl s⟩

omit hR in
theorem Sub.Leaves.update {f : State → State} (h : ∀ s, R s (f s)) : Sub.Leaves R (update f) := fun s =>
  ⟨fun b t h' => by simp only [update_run, EStateM.Result.ok.injEq] at h'; exact h'.2 ▸ h s, fun e t h' => by simp at h'⟩

omit hR in
theorem Sub.Leaves.mono {Q : State → State → Prop} {m : Sub α} (hm : Sub.Leaves R m) (h : ∀ s t, R s t → Q s t) :
    Sub.Leaves Q m := fun s => ⟨fun a t e => h _ _ ((hm s).1 a t e), fun a t e => h _ _ ((hm s).2 a t e)⟩

end

/-! ## Where a sub-step that goes on leads: from a state that meets P to a value and a state that meet Q -/

/-- From every state that meets `P`, if the sub-step goes on, its value and the state after it meet `Q`. -/
def Sub.Meets (P : State → Prop) (m : Sub α) (Q : α → State → Prop) : Prop :=
  ∀ s, P s → ∀ a t, m s = .ok a t → Q a t

theorem Sub.Meets.pure {Q : α → State → Prop} (a : α) : Sub.Meets (Q a) (pure a : Sub α) Q := fun s h b t e => by
  simp only [Sub.pure_run, EStateM.Result.ok.injEq] at e
  obtain ⟨rfl, rfl⟩ := e
  exact h

theorem Sub.Meets.bind {P : State → Prop} {Q : α → State → Prop} {S : β → State → Prop} {x : Sub α} {f : α → Sub β}
    (hx : Sub.Meets P x Q) (hf : ∀ a, Sub.Meets (Q a) (f a) S) : Sub.Meets P (x >>= f) S := fun s h b t e => by
  obtain ⟨a, u, h1, h2⟩ := Sub.bind_ok_iff.1 e
  exact hf a u (hx s h a u h1) b t h2

theorem Sub.Meets.weaken {P P' : State → Prop} {Q Q' : α → State → Prop} {m : Sub α} (h : Sub.Meets P m Q)
    (hp : ∀ s, P' s → P s) (hq : ∀ a s, Q a s → Q' a s) : Sub.Meets P' m Q' :=
  fun s hs a t e => hq a t (h s (hp s hs) a t e)

theorem Sub.Meets.look {P : State → Prop} (f : State → α) : Sub.Meets P (look f) (fun a s => P s ∧ a = f s) :=
  fun s h a t e => by
    simp only [look_run, EStateM.Result.ok.injEq] at e
    obtain ⟨rfl, rfl⟩ := e
    exact ⟨h, rfl⟩

theorem Sub.Meets.update {Q : State → Prop} (f : State → State) : Sub.Meets (fun s => Q (f s)) (update f) (fun _ s => Q s) :=
  fun s h a t e => by
    simp only [update_run, EStateM.Result.ok.injEq] at e
    exact e.2 ▸ h

theorem Sub.Meets.raiseIf {P : State → Prop} (c : Bool) (e : ErrKind) :
    Sub.Meets P (raiseIf c e) (fun _ s => P s ∧ c = false) := fun s h a t e => by
  rw [raiseIf_ok_iff] at e
  exact ⟨e.2 ▸ h, e.1⟩

/-! ## The shared operations -/

/-- What the memory primitives leave alone: everything but memory and the unseen writes. -/
def OnlyMemory (s t : State) : Prop := t = { s with mem := t.mem, writes := t.writes }

/-- What a read leaves alone: everything. -/
def Unchanged (s t : State) : Prop := t = s

theorem onlyMemory_chains : Chains OnlyMemory where
  refl _ := rfl
  trans {s t u} h1 h2 := by unfold OnlyMemory at *; rw [h2, h1]

theorem unchanged_chains : Chains Unchanged where
  refl _ := rfl
  trans {s t u} h1 h2 := by unfold Unchanged at *; rw [h2, h1]

theorem Unchanged.onlyMemory {s t : State} (h : Unchanged s t) : OnlyMemory s t := by
  unfold Unchanged OnlyMemory at *; rw [h]

/-- A choice is the present value or one of the others. -/
theorem chooseByte_mem (b : Byte) (bs : List Byte) (n : Nat) : chooseByte b bs n ∈ b :: bs := by
  unfold chooseByte
  cases bs with
  | nil => simp
  | cons c cs =>
    have h : n % ((c :: cs).length + 1) < (b :: c :: cs).length := Nat.mod_lt _ (Nat.succ_pos _)
    simp only [List.getD_eq_getElem _ _ h]
    exact List.getElem_mem h

/-- Where there is no other, the choice is the present value. -/
@[simp] theorem chooseByte_nil (b : Byte) (n : Nat) : chooseByte b [] n = b := rfl

/-- Everything a byte read can do (R11, R74, R231). -/
theorem readByte_ok_iff {k : Nat} {a : Word} {s t : State} {b : Byte} :
    readByte k a s = .ok b t ↔ memOk s.params a .read = true ∧ b = pickedByte s k a ∧ t = s := by
  unfold readByte
  split_ifs with h <;> simp [h, eq_comm]

theorem readByte_error_iff {k : Nat} {a : Word} {s t : State} {e : ErrKind} :
    readByte k a s = .error e t ↔ memOk s.params a .read = false ∧ e = .busError ∧ t = s := by
  unfold readByte
  split_ifs with h <;> simp [h, eq_comm]

/-- Where the host has not overwritten the byte since the SETDATA, a readable byte reads as memory holds it. -/
theorem readByte_settled {k : Nat} {a : Word} {s : State} (hok : memOk s.params a .read = true) (hst : staleAt s a = []) :
    readByte k a s = .ok (s.mem.read a.toNat) s := by
  simp [readByte, hok, pickedByte, hst]

theorem readByte_leaves (k : Nat) (a : Word) : Sub.Leaves Unchanged (readByte k a) := fun _ =>
  ⟨fun _ _ h => (readByte_ok_iff.1 h).2.2, fun _ _ h => (readByte_error_iff.1 h).2.2⟩

/-- Everything a byte write can do (R11, R231). -/
theorem writeByte_ok_iff {a : Word} {b : Byte} {s t : State} {u : Unit} :
    writeByte a b s = .ok u t ↔
      memOk s.params a .write = true ∧
        t = { s with mem := s.mem.write a.toNat b, writes := ⟨a, s.mem.read a.toNat, b⟩ :: s.writes } := by
  unfold writeByte
  split_ifs with h <;> simp [h, eq_comm]

theorem writeByte_error_iff {a : Word} {b : Byte} {s t : State} {e : ErrKind} :
    writeByte a b s = .error e t ↔ memOk s.params a .write = false ∧ e = .busError ∧ t = s := by
  unfold writeByte
  split_ifs with h <;> simp [h, eq_comm]

theorem writeByte_leaves (a : Word) (b : Byte) : Sub.Leaves OnlyMemory (writeByte a b) := fun s =>
  ⟨fun u t h => by rw [writeByte_ok_iff] at h; rw [h.2]; rfl,
   fun e t h => by rw [writeByte_error_iff] at h; exact h.2.2 ▸ onlyMemory_chains.refl s⟩

theorem memReadBytes_leaves (a : Word) (n : Nat) : Sub.Leaves Unchanged (memReadBytes a n) := by
  induction n generalizing a with
  | zero => exact Sub.Leaves.pure unchanged_chains _
  | succ n ih =>
    exact Sub.Leaves.bind unchanged_chains (readByte_leaves 0 a) fun b =>
      Sub.Leaves.bind unchanged_chains (ih (a + 1)) fun bs => Sub.Leaves.pure unchanged_chains _

theorem memRead_leaves (a : Word) (n : Nat) : Sub.Leaves Unchanged (memRead a n) :=
  Sub.Leaves.bind unchanged_chains (memReadBytes_leaves a n) fun _ => Sub.Leaves.pure unchanged_chains _

theorem memWriteBytes_leaves (a : Word) (bs : List Byte) : Sub.Leaves OnlyMemory (memWriteBytes a bs) := by
  induction bs generalizing a with
  | nil => exact Sub.Leaves.pure onlyMemory_chains _
  | cons b bs ih => exact Sub.Leaves.bind onlyMemory_chains (writeByte_leaves a b) fun _ => ih (a + 1)

theorem memWrite_leaves (a : Word) (n v : Nat) : Sub.Leaves OnlyMemory (memWrite a n v) := memWriteBytes_leaves a _

/-- A byte string read has the length asked for. -/
theorem memReadBytes_length {a : Word} {n : Nat} {s t : State} {bs : List Byte} (h : memReadBytes a n s = .ok bs t) :
    bs.length = n := by
  induction n generalizing a s bs t with
  | zero => simp only [memReadBytes, Sub.pure_run, EStateM.Result.ok.injEq] at h; simp [← h.1]
  | succ n ih =>
    obtain ⟨b, u, -, h⟩ := Sub.bind_ok_iff.1 h
    obtain ⟨cs, v, h, h'⟩ := Sub.bind_ok_iff.1 h
    simp only [Sub.pure_run, EStateM.Result.ok.injEq] at h'
    simp [← h'.1, ih h]

/-- The memory primitives raise BUS_ERROR and nothing else (R231). -/
theorem memReadBytes_error {a : Word} {n : Nat} {s t : State} {e : ErrKind} (h : memReadBytes a n s = .error e t) :
    e = .busError := by
  induction n generalizing a s t with
  | zero => simp [memReadBytes] at h
  | succ n ih =>
    rcases Sub.bind_error_iff.1 h with h | ⟨b, u, -, h⟩
    · exact (readByte_error_iff.1 h).2.1
    · rcases Sub.bind_error_iff.1 h with h | ⟨bs, v, -, h⟩
      · exact ih h
      · simp at h

theorem memRead_error {a : Word} {n : Nat} {s t : State} {e : ErrKind} (h : memRead a n s = .error e t) :
    e = .busError := by
  rcases Sub.bind_error_iff.1 h with h | ⟨b, u, -, h⟩
  · exact memReadBytes_error h
  · simp at h

theorem memWriteBytes_error {a : Word} {bs : List Byte} {s t : State} {e : ErrKind}
    (h : memWriteBytes a bs s = .error e t) : e = .busError := by
  induction bs generalizing a s t with
  | nil => simp [memWriteBytes] at h
  | cons b bs ih =>
    rcases Sub.bind_error_iff.1 h with h | ⟨u, v, -, h⟩
    · exact (writeByte_error_iff.1 h).2.1
    · exact ih h

/-- Memory stays canonical. -/
def KeepsWf (s t : State) : Prop := s.mem.wf → t.mem.wf

theorem keepsWf_chains : Chains KeepsWf where
  refl _ h := h
  trans h1 h2 h := h2 (h1 h)

theorem Unchanged.keepsWf {s t : State} (h : Unchanged s t) : KeepsWf s t := by
  unfold Unchanged at h; rw [h]; exact id

theorem writeByte_keepsWf (a : Word) (b : Byte) : Sub.Leaves KeepsWf (writeByte a b) := fun s =>
  ⟨fun u t h => by rw [writeByte_ok_iff] at h; rw [h.2]; exact fun hm => Memory.wf_write hm a.isLt b,
   fun e t h => by rw [writeByte_error_iff] at h; exact h.2.2 ▸ id⟩

theorem memWriteBytes_keepsWf (a : Word) (bs : List Byte) : Sub.Leaves KeepsWf (memWriteBytes a bs) := by
  induction bs generalizing a with
  | nil => exact Sub.Leaves.pure keepsWf_chains _
  | cons b bs ih => exact Sub.Leaves.bind keepsWf_chains (writeByte_keepsWf a b) fun _ => ih (a + 1)

/-- Every address outside a set reads as before. -/
def OnlyAt (P : Word → Prop) (s t : State) : Prop := ∀ a : Word, ¬ P a → t.mem.read a.toNat = s.mem.read a.toNat

theorem onlyAt_chains (P : Word → Prop) : Chains (OnlyAt P) where
  refl _ _ _ := rfl
  trans h1 h2 a ha := (h2 a ha).trans (h1 a ha)

theorem Unchanged.onlyAt {s t : State} (h : Unchanged s t) (P : Word → Prop) : OnlyAt P s t := by
  unfold Unchanged at h; rw [h]; exact fun _ _ => rfl

theorem writeByte_onlyAt {P : Word → Prop} {a : Word} (ha : P a) (b : Byte) : Sub.Leaves (OnlyAt P) (writeByte a b) := fun s =>
  ⟨fun u t h => by
    rw [writeByte_ok_iff] at h
    rw [h.2]
    exact fun x hx => Memory.read_write_other _ (fun e => hx ((BitVec.eq_of_toNat_eq e : x = a) ▸ ha)) b,
   fun e t h => by rw [writeByte_error_iff] at h; exact h.2.2 ▸ fun _ _ => rfl⟩

/-- A byte string write touches the addresses of its own bytes only. -/
theorem memWriteBytes_onlyAt {P : Word → Prop} {a : Word} {bs : List Byte}
    (h : ∀ i < bs.length, P (a + BitVec.ofNat 64 i)) : Sub.Leaves (OnlyAt P) (memWriteBytes a bs) := by
  induction bs generalizing a with
  | nil => exact Sub.Leaves.pure (onlyAt_chains P) _
  | cons b bs ih =>
    refine Sub.Leaves.bind (onlyAt_chains P) (writeByte_onlyAt (by simpa using h 0 (by simp)) b) fun _ => ih fun i hi => ?_
    have := h (i + 1) (by simpa using hi)
    have e : a + BitVec.ofNat 64 (i + 1) = a + 1 + BitVec.ofNat 64 i := by
      rw [BitVec.ofNat_add, BitVec.add_comm (BitVec.ofNat 64 i), BitVec.add_assoc]; rfl
    exact e ▸ this

end Sys2Proof.Machine
end

