-- ==== Sys2Proof/Laws/BitReader.lean ====
section
/-! SUPPORT. What the bit-reader primitives can do: they move the cursor and draw free values, nothing else; they raise EOF_ERROR,
FORMAT_ERROR or BUS_ERROR; they keep the cursor in the buffer. -/

namespace Sys2Proof.Machine

/-- What the bit reader leaves alone: everything but BITPOS and the count of draws. -/
def OnlyCursor (s t : State) : Prop :=
  t = { s with ictx := { s.ictx with bitpos := t.ictx.bitpos }, draws := t.draws }

theorem onlyCursor_chains : Chains OnlyCursor where
  refl _ := rfl
  trans {s t u} h1 h2 := by unfold OnlyCursor at *; rw [h2, h1]

theorem Unchanged.onlyCursor {s t : State} (h : Unchanged s t) : OnlyCursor s t := by
  unfold Unchanged OnlyCursor at *; rw [h]

theorem setBitpos_leaves (n : Nat) : Sub.Leaves OnlyCursor (setBitpos n) := fun s => by
  unfold setBitpos
  split_ifs <;> refine ⟨fun a t h => ?_, fun e t h => by simp at h⟩ <;>
    · simp only [EStateM.Result.ok.injEq] at h; rw [← h.2]; rfl

theorem bit_leaves (p : Nat) : Sub.Leaves Unchanged (bit p) :=
  Sub.Leaves.bind unchanged_chains (Sub.Leaves.look unchanged_chains _) fun _ =>
    Sub.Leaves.bind unchanged_chains (readByte_leaves _ _) fun _ => Sub.Leaves.pure unchanged_chains _

theorem bitsFrom_leaves (p w : Nat) : Sub.Leaves Unchanged (bitsFrom p w) := by
  induction w generalizing p with
  | zero => exact Sub.Leaves.pure unchanged_chains _
  | succ w ih =>
    exact Sub.Leaves.bind unchanged_chains (bit_leaves p) fun _ =>
      Sub.Leaves.bind unchanged_chains (ih (p + 1)) fun _ => Sub.Leaves.pure unchanged_chains _

theorem readBits_leaves (w : Nat) : Sub.Leaves OnlyCursor (readBits w) :=
  Sub.Leaves.bind onlyCursor_chains (Sub.Leaves.look onlyCursor_chains _) fun _ =>
    Sub.Leaves.bind onlyCursor_chains (Sub.Leaves.look onlyCursor_chains _) fun _ =>
      Sub.Leaves.bind onlyCursor_chains (Sub.Leaves.raiseIf onlyCursor_chains _ _) fun _ =>
        Sub.Leaves.bind onlyCursor_chains ((bitsFrom_leaves _ _).mono fun _ _ => Unchanged.onlyCursor) fun _ =>
          Sub.Leaves.bind onlyCursor_chains (setBitpos_leaves _) fun _ => Sub.Leaves.pure onlyCursor_chains _

theorem alignedByte_leaves : Sub.Leaves OnlyCursor alignedByte :=
  Sub.Leaves.bind onlyCursor_chains (Sub.Leaves.look onlyCursor_chains _) fun _ =>
    Sub.Leaves.bind onlyCursor_chains (Sub.Leaves.look onlyCursor_chains _) fun _ =>
      Sub.Leaves.bind onlyCursor_chains (Sub.Leaves.raiseIf onlyCursor_chains _ _) fun _ =>
        Sub.Leaves.bind onlyCursor_chains (Sub.Leaves.look onlyCursor_chains _) fun _ =>
          Sub.Leaves.bind onlyCursor_chains ((readByte_leaves _ _).mono fun _ _ => Unchanged.onlyCursor) fun _ =>
            Sub.Leaves.bind onlyCursor_chains (setBitpos_leaves _) fun _ => Sub.Leaves.pure onlyCursor_chains _

theorem varUIntFrom_leaves (left v : Nat) : Sub.Leaves OnlyCursor (varUIntFrom left v) := by
  induction left generalizing v with
  | zero => exact Sub.Leaves.pure onlyCursor_chains _
  | succ left ih =>
    refine Sub.Leaves.bind onlyCursor_chains alignedByte_leaves fun b =>
      Sub.Leaves.bind onlyCursor_chains (Sub.Leaves.raiseIf onlyCursor_chains _ _) fun _ => ?_
    by_cases h : b < 0x80
    · simpa only [h, if_true] using Sub.Leaves.pure onlyCursor_chains _
    · simpa only [h, if_false] using ih _

theorem varUInt_leaves : Sub.Leaves OnlyCursor varUInt := varUIntFrom_leaves 10 0

theorem zigZag_leaves : Sub.Leaves OnlyCursor zigZag :=
  Sub.Leaves.bind onlyCursor_chains varUInt_leaves fun _ => Sub.Leaves.pure onlyCursor_chains _

/-! ## Which kinds are raised -/

/-- Every kind a sub-step raises is in `E`. -/
def Sub.Raises {α : Type} (E : ErrKind → Prop) (m : Sub α) : Prop := ∀ s e t, m s = .error e t → E e

section
variable {α β : Type} {E : ErrKind → Prop}

theorem Sub.Raises.pure (a : α) : Sub.Raises E (pure a : Sub α) := fun s e t h => by simp at h
theorem Sub.Raises.look (f : State → α) : Sub.Raises E (look f) := fun s e t h => by simp at h
theorem Sub.Raises.update (f : State → State) : Sub.Raises E (update f) := fun _ _ _ h => by simp at h
theorem Sub.Raises.raiseIf {c : Bool} {e : ErrKind} (he : E e) : Sub.Raises E (raiseIf c e) := fun s e' t h => by
  rw [raiseIf_error_iff] at h; exact h.2.1 ▸ he
theorem Sub.Raises.bind {x : Sub α} {f : α → Sub β} (hx : Sub.Raises E x) (hf : ∀ a, Sub.Raises E (f a)) :
    Sub.Raises E (x >>= f) := fun s e t h => by
  rcases Sub.bind_error_iff.1 h with h | ⟨a, u, -, h⟩
  · exact hx s e t h
  · exact hf a u e t h
theorem Sub.Raises.mono {E' : ErrKind → Prop} {m : Sub α} (h : Sub.Raises E m) (he : ∀ e, E e → E' e) :
    Sub.Raises E' m := fun s e t h' => he e (h s e t h')
end

/-- What the bit reader raises (R121, R123, R124, R231). -/
def ReaderKind (e : ErrKind) : Prop := e = .eofError ∨ e = .formatError ∨ e = .busError

theorem readByte_raises (k : Nat) (a : Word) : Sub.Raises ReaderKind (readByte k a) := fun _ _ _ h =>
  .inr (.inr (readByte_error_iff.1 h).2.1)

theorem setBitpos_raises (n : Nat) {E : ErrKind → Prop} : Sub.Raises E (setBitpos n) := fun _ _ _ h => by
  unfold setBitpos at h; split_ifs at h

theorem bitsFrom_raises (p w : Nat) : Sub.Raises ReaderKind (bitsFrom p w) := by
  induction w generalizing p with
  | zero => exact Sub.Raises.pure _
  | succ w ih =>
    exact Sub.Raises.bind (Sub.Raises.bind (Sub.Raises.look _) fun _ =>
        Sub.Raises.bind (readByte_raises _ _) fun _ => Sub.Raises.pure _) fun _ =>
      Sub.Raises.bind (ih (p + 1)) fun _ => Sub.Raises.pure _

theorem readBits_raises (w : Nat) : Sub.Raises ReaderKind (readBits w) :=
  Sub.Raises.bind (Sub.Raises.look _) fun _ => Sub.Raises.bind (Sub.Raises.look _) fun _ =>
    Sub.Raises.bind (Sub.Raises.raiseIf (.inl rfl)) fun _ => Sub.Raises.bind (bitsFrom_raises _ _) fun _ =>
      Sub.Raises.bind (setBitpos_raises _) fun _ => Sub.Raises.pure _

theorem alignedByte_raises : Sub.Raises ReaderKind alignedByte :=
  Sub.Raises.bind (Sub.Raises.look _) fun _ => Sub.Raises.bind (Sub.Raises.look _) fun _ =>
    Sub.Raises.bind (Sub.Raises.raiseIf (.inl rfl)) fun _ => Sub.Raises.bind (Sub.Raises.look _) fun _ =>
      Sub.Raises.bind (readByte_raises _ _) fun _ => Sub.Raises.bind (setBitpos_raises _) fun _ => Sub.Raises.pure _

theorem varUIntFrom_raises (left v : Nat) : Sub.Raises ReaderKind (varUIntFrom left v) := by
  induction left generalizing v with
  | zero => exact Sub.Raises.pure _
  | succ left ih =>
    refine Sub.Raises.bind alignedByte_raises fun b =>
      Sub.Raises.bind (Sub.Raises.raiseIf (.inr (.inl rfl))) fun _ => ?_
    by_cases h : b < 0x80
    · simpa only [h, if_true] using Sub.Raises.pure _
    · simpa only [h, if_false] using ih _

theorem varUInt_raises : Sub.Raises ReaderKind varUInt := varUIntFrom_raises 10 0

theorem zigZag_raises : Sub.Raises ReaderKind zigZag :=
  Sub.Raises.bind varUInt_raises fun _ => Sub.Raises.pure _

/-! ## The cursor stays in the buffer, and values stay in range -/

/-- The cursor lies in the buffer (R37, R50(a)). -/
def CursorOk (s : State) : Prop := s.ictx.bitpos.toNat ≤ s.bufBits

theorem setBitpos_ok {n : Nat} {s t : State} {u : Unit} (h : setBitpos n s = .ok u t) (hn : n ≤ s.bufBits) :
    CursorOk t ∧ t.bufBits = s.bufBits := by
  unfold setBitpos at h
  split_ifs at h with hlt <;> simp only [EStateM.Result.ok.injEq] at h <;> rw [← h.2] <;>
    refine ⟨?_, rfl⟩ <;> simp only [CursorOk, State.bufBits] at *
  · rw [BitVec.toNat_ofNat, Nat.mod_eq_of_lt hlt]; exact hn
  · have := (Config.freeCursor s.draws).isLt
    omega

theorem readBits_ok {w : Nat} {s t : State} {v : Nat} (h : readBits w s = .ok v t) :
    s.ictx.bitpos.toNat + w ≤ s.bufBits ∧ CursorOk t ∧
      ∃ u, bitsFrom s.ictx.bitpos.toNat w s = .ok v u ∧ setBitpos (s.ictx.bitpos.toNat + w) u = .ok () t := by
  simp only [readBits, look_bind, raiseIf_bind_ok_iff, gt_iff_lt, decide_eq_false_iff_not, not_lt] at h
  obtain ⟨hw, h⟩ := h
  obtain ⟨x, u, h1, h⟩ := Sub.bind_ok_iff.1 h
  obtain ⟨_u, v', h2, h3⟩ := Sub.bind_ok_iff.1 h
  simp only [Sub.pure_run, EStateM.Result.ok.injEq] at h3
  obtain ⟨rfl, rfl⟩ := h3
  have h4 : u.bufBits = s.bufBits := by
    have := (bitsFrom_leaves _ _ _).1 _ _ h1
    rw [show u = s from this]
  exact ⟨hw, (setBitpos_ok h2 (h4 ▸ hw)).1, u, h1, h2⟩

theorem alignedByte_ok {s t : State} {v : Nat} (h : alignedByte s = .ok v t) :
    roundUp s.ictx.bitpos.toNat + 8 ≤ s.bufBits ∧ CursorOk t ∧ v < 256 ∧
      ∃ b u, readByte 0 (s.bitAddr (roundUp s.ictx.bitpos.toNat)) s = .ok b u ∧ v = b.toNat ∧
        setBitpos (roundUp s.ictx.bitpos.toNat + 8) u = .ok () t := by
  simp only [alignedByte, look_bind, raiseIf_bind_ok_iff, gt_iff_lt, decide_eq_false_iff_not, not_lt] at h
  obtain ⟨hw, h⟩ := h
  obtain ⟨b, u, h1, h⟩ := Sub.bind_ok_iff.1 h
  obtain ⟨_u, v', h2, h3⟩ := Sub.bind_ok_iff.1 h
  simp only [Sub.pure_run, EStateM.Result.ok.injEq] at h3
  obtain ⟨rfl, rfl⟩ := h3
  have h4 : u.bufBits = s.bufBits := by
    have := (readByte_leaves _ _ _).1 _ _ h1
    rw [show u = s from this]
  exact ⟨hw, (setBitpos_ok h2 (h4 ▸ hw)).1, b.isLt, b, u, h1, rfl, h2⟩

/-- One byte of a varint, and the rest (R124). -/
theorem varUIntFrom_succ_ok {left v x : Nat} {s t : State} (h : varUIntFrom (left + 1) v s = .ok x t) :
    ∃ b u, alignedByte s = .ok b u ∧ ¬ (left = 0 ∧ 1 < b) ∧
      ((b < 0x80 ∧ x = v + b % 0x80 * 2 ^ (7 * (9 - left)) ∧ t = u) ∨
        (¬ b < 0x80 ∧ varUIntFrom left (v + b % 0x80 * 2 ^ (7 * (9 - left))) u = .ok x t)) := by
  unfold varUIntFrom at h
  obtain ⟨b, u, h1, h⟩ := Sub.bind_ok_iff.1 h
  obtain ⟨h2, h⟩ := raiseIf_bind_ok_iff.1 h
  refine ⟨b, u, h1, by simpa using h2, ?_⟩
  by_cases hb : b < 0x80
  · simp only [hb, if_true, Sub.pure_run, EStateM.Result.ok.injEq] at h
    exact .inl ⟨hb, h.1.symm, h.2.symm⟩
  · simp only [hb, if_false] at h
    exact .inr ⟨hb, h⟩

theorem varUIntFrom_ok {left v x : Nat} {s t : State} (h : varUIntFrom left v s = .ok x t) (hc : CursorOk s) :
    CursorOk t := by
  induction left generalizing v s with
  | zero => simp only [varUIntFrom, Sub.pure_run, EStateM.Result.ok.injEq] at h; exact h.2 ▸ hc
  | succ left ih =>
    obtain ⟨b, u, h1, -, ⟨-, -, rfl⟩ | ⟨-, h⟩⟩ := varUIntFrom_succ_ok h
    · exact (alignedByte_ok h1).2.1
    · exact ih h (alignedByte_ok h1).2.1

/-- A varint's value is a u64 (R95, R124). -/
theorem varUIntFrom_lt {left v x : Nat} {s t : State} (hl : left ≤ 10) (hl' : 0 < left)
    (hv : v < 2 ^ (7 * (10 - left))) (h : varUIntFrom left v s = .ok x t) : x < 2 ^ 64 := by
  induction left generalizing v s with
  | zero => omega
  | succ left ih =>
    obtain ⟨b, u, h1, h2, h⟩ := varUIntFrom_succ_ok h
    have e : 10 - (left + 1) = 9 - left := by omega
    rw [e] at hv
    have hnext : v + b % 0x80 * 2 ^ (7 * (9 - left)) < 2 ^ (7 * (10 - left)) := by
      have e2 : 7 * (10 - left) = 7 * (9 - left) + 7 := by omega
      rw [e2, Nat.pow_add]
      have : b % 0x80 * 2 ^ (7 * (9 - left)) ≤ 127 * 2 ^ (7 * (9 - left)) := Nat.mul_le_mul_right _ (by omega)
      omega
    by_cases h0 : left = 0
    · subst h0
      have hb : b ≤ 1 := by omega
      rcases h with ⟨-, rfl, -⟩ | ⟨hb', -⟩
      · have := Nat.mul_le_mul_right (2 ^ (7 * (9 - 0))) (show b % 0x80 ≤ 1 by omega)
        norm_num at hv this ⊢
        omega
      · omega
    · rcases h with ⟨-, rfl, -⟩ | ⟨-, h⟩
      · exact lt_of_lt_of_le hnext (Nat.pow_le_pow_right (by omega) (by omega))
      · exact ih (by omega) (by omega) hnext h

theorem varUInt_ok {x : Nat} {s t : State} (h : varUInt s = .ok x t) : x < 2 ^ 64 :=
  varUIntFrom_lt (by omega) (by omega) (by norm_num) h

/-- A zig-zag value is an s64 (R96). -/
theorem zz_range {u : Nat} (h : u < 2 ^ 64) : -(2 ^ 63 : Int) ≤ zz u ∧ zz u < 2 ^ 63 := by
  unfold zz; split_ifs <;> omega

theorem zigZag_ok {x : Int} {s t : State} (h : zigZag s = .ok x t) :
    (CursorOk s → CursorOk t) ∧ -(2 ^ 63 : Int) ≤ x ∧ x < 2 ^ 63 := by
  obtain ⟨u, s1, h1, h2⟩ := Sub.bind_ok_iff.1 h
  simp only [Sub.pure_run, EStateM.Result.ok.injEq] at h2
  obtain ⟨rfl, rfl⟩ := h2
  exact ⟨fun hc => varUIntFrom_ok h1 hc, zz_range (varUInt_ok h1)⟩

end Sys2Proof.Machine
end

