-- ==== Sys2Proof/Laws/IntDecode.lean ====
section
/-! SUPPORT. What one slot of the integer context and the integer-mode loop can do: what they leave alone and which kinds they raise. -/

namespace Sys2Proof.Machine

variable {α β : Type} {R : State → State → Prop}

theorem Sub.Leaves.ite (c : Bool) {x y : Sub α} (hx : Sub.Leaves R x) (hy : Sub.Leaves R y) :
    Sub.Leaves R (if c = true then x else y) := by cases c <;> assumption

theorem Sub.ite_run (c : Bool) (x y : Sub α) (s : State) : (if c = true then x else y) s = if c = true then x s else y s := by
  cases c <;> rfl

theorem Sub.Raises.ite {E : ErrKind → Prop} (c : Bool) {x y : Sub α} (hx : Sub.Raises E x) (hy : Sub.Raises E y) :
    Sub.Raises E (if c = true then x else y) := by cases c <;> assumption

/-- What one slot of the integer context leaves alone: everything but the context's cursor registers and the count of draws. VREM
and the buffer's registers stay too. -/
def OnlyIntSlot (s t : State) : Prop :=
  t = { s with
    ictx := { t.ictx with vrem := s.ictx.vrem, bufBase := s.ictx.bufBase, bufLen := s.ictx.bufLen }
    draws := t.draws }

theorem onlyIntSlot_chains : Chains OnlyIntSlot where
  refl _ := rfl
  trans {s t u} h1 h2 := by unfold OnlyIntSlot at *; rw [h2, h1]

theorem OnlyCursor.onlyIntSlot {s t : State} (h : OnlyCursor s t) : OnlyIntSlot s t := by
  unfold OnlyCursor OnlyIntSlot at *; rw [h]

theorem cursor_slot {m : Sub α} (h : Sub.Leaves OnlyCursor m) : Sub.Leaves OnlyIntSlot m :=
  h.mono fun _ _ => OnlyCursor.onlyIntSlot

theorem readWidths_leaves (n : Nat) : Sub.Leaves OnlyCursor (readWidths n) := by
  induction n with
  | zero => exact Sub.Leaves.pure onlyCursor_chains _
  | succ n ih =>
    exact Sub.Leaves.bind onlyCursor_chains alignedByte_leaves fun b =>
      Sub.Leaves.bind onlyCursor_chains (Sub.Leaves.raiseIf onlyCursor_chains _ _) fun _ =>
        Sub.Leaves.bind onlyCursor_chains ih fun _ => Sub.Leaves.pure onlyCursor_chains _

theorem parseHeader_leaves (esize : Nat) : Sub.Leaves OnlyIntSlot (parseHeader esize) := by
  have c := onlyIntSlot_chains
  refine .bind c (cursor_slot varUInt_leaves) fun bs => .bind c (cursor_slot varUInt_leaves) fun nmb =>
    .bind c (cursor_slot varUInt_leaves) fun vcb => .bind c (cursor_slot zigZag_leaves) fun fv =>
    .bind c (cursor_slot zigZag_leaves) fun md => .bind c (.raiseIf c _ _) fun _ => .bind c (.look c _) fun most =>
    .bind c (.raiseIf c _ _) fun _ => .bind c (.raiseIf c _ _) fun _ =>
    .bind c (cursor_slot (readWidths_leaves nmb)) fun ws => .bind c (.raiseIf c _ _) fun _ =>
    .bind c (.update fun s => rfl) fun _ => .pure c _

theorem nextDelta_leaves (esize : Nat) : Sub.Leaves OnlyIntSlot (nextDelta esize) := by
  have c := onlyIntSlot_chains
  exact .bind c (.look c _) fun w => .bind c (cursor_slot (readBits_leaves w)) fun raw => .bind c (.look c _) fun t =>
    .bind c (.raiseIf c _ _) fun _ => .bind c (.update fun s => rfl) fun _ => .pure c _

theorem ideNext_leaves (esize : Nat) : Sub.Leaves OnlyIntSlot (ideNext esize) := by
  have c := onlyIntSlot_chains
  exact .bind c (.look c _) fun b => .ite b
    (.bind c (.update fun s => rfl) fun _ => .bind c (.look c _) fun more => .ite more
      (.bind c (.update fun s => rfl) fun _ => nextDelta_leaves esize) (parseHeader_leaves esize))
    (nextDelta_leaves esize)

/-- What one slot of the integer context raises (R162, R163, R165). -/
def SlotKind (e : ErrKind) : Prop := ReaderKind e ∨ e = .overflowError ∨ e = .capacityError

theorem reader_slot {m : Sub α} (h : Sub.Raises ReaderKind m) : Sub.Raises SlotKind m := h.mono fun _ => .inl

theorem readWidths_raises (n : Nat) : Sub.Raises ReaderKind (readWidths n) := by
  induction n with
  | zero => exact .pure _
  | succ n ih =>
    exact .bind alignedByte_raises fun b => .bind (.raiseIf (.inr (.inl rfl))) fun _ => .bind ih fun _ => .pure _

theorem parseHeader_raises (esize : Nat) : Sub.Raises SlotKind (parseHeader esize) :=
  .bind (reader_slot varUInt_raises) fun _ => .bind (reader_slot varUInt_raises) fun nmb =>
    .bind (reader_slot varUInt_raises) fun _ => .bind (reader_slot zigZag_raises) fun _ =>
    .bind (reader_slot zigZag_raises) fun _ => .bind (.raiseIf (.inl (.inr (.inl rfl)))) fun _ => .bind (.look _) fun _ =>
    .bind (.raiseIf (.inr (.inr rfl))) fun _ => .bind (.raiseIf (.inl (.inr (.inl rfl)))) fun _ =>
    .bind (reader_slot (readWidths_raises nmb)) fun _ => .bind (.raiseIf (.inr (.inl rfl))) fun _ =>
    .bind (.update _) fun _ => .pure _

theorem nextDelta_raises (esize : Nat) : Sub.Raises SlotKind (nextDelta esize) :=
  .bind (.look _) fun w => .bind (reader_slot (readBits_raises w)) fun _ => .bind (.look _) fun _ =>
    .bind (.raiseIf (.inr (.inl rfl))) fun _ => .bind (.update _) fun _ => .pure _

theorem ideNext_raises (esize : Nat) : Sub.Raises SlotKind (ideNext esize) :=
  .bind (.look _) fun b => .ite b
    (.bind (.update _) fun _ => .bind (.look _) fun more => .ite more
      (.bind (.update _) fun _ => nextDelta_raises esize) (parseHeader_raises esize))
    (nextDelta_raises esize)

/-! ## The loop -/

/-- What an integer DECODE's slots leave alone. -/
def OnlyIntDecode (s t : State) : Prop :=
  t = { s with
    ictx := { t.ictx with vrem := s.ictx.vrem, bufBase := s.ictx.bufBase, bufLen := s.ictx.bufLen }
    mem := t.mem
    writes := t.writes
    draws := t.draws
    result := t.result }

theorem onlyIntDecode_chains : Chains OnlyIntDecode where
  refl _ := rfl
  trans {s t u} h1 h2 := by unfold OnlyIntDecode at *; rw [h2, h1]

theorem OnlyIntSlot.onlyIntDecode {s t : State} (h : OnlyIntSlot s t) : OnlyIntDecode s t := by
  unfold OnlyIntSlot OnlyIntDecode at *; rw [h]

theorem OnlyMemory.onlyIntDecode {s t : State} (h : OnlyMemory s t) : OnlyIntDecode s t := by
  unfold OnlyMemory OnlyIntDecode at *; rw [h]

theorem decodeIntLoop_leaves (esize : Nat) (out : Word) (n k : Nat) :
    Sub.Leaves OnlyIntDecode (decodeIntLoop esize out n k) := by
  have c := onlyIntDecode_chains
  induction n generalizing k with
  | zero => exact .pure c _
  | succ n ih =>
    exact .bind c ((ideNext_leaves esize).mono fun _ _ => OnlyIntSlot.onlyIntDecode) fun v =>
      .bind c ((memWrite_leaves _ _ _).mono fun _ _ => OnlyMemory.onlyIntDecode) fun _ =>
      .bind c (.update fun s => rfl) fun _ => ih (k + 1)

theorem memWrite_raises (a : Word) (n v : Nat) : Sub.Raises SlotKind (memWrite a n v) := fun _ _ _ h =>
  .inl (.inr (.inr (memWriteBytes_error h)))

theorem decodeIntLoop_raises (esize : Nat) (out : Word) (n k : Nat) :
    Sub.Raises SlotKind (decodeIntLoop esize out n k) := by
  induction n generalizing k with
  | zero => exact .pure _
  | succ n ih =>
    exact .bind (ideNext_raises esize) fun v => .bind (memWrite_raises _ _ _) fun _ => .bind (.update _) fun _ => ih (k + 1)

theorem decodeInt_raises : Sub.Raises SlotKind decodeInt :=
  .bind (.look _) fun _ => .bind (.look _) fun _ => .bind (.look _) fun _ =>
    .bind (decodeIntLoop_raises _ _ _ _) fun _ => .update _

/-- One slot leaves memory alone. -/
theorem OnlyIntSlot.mem {s t : State} (h : OnlyIntSlot s t) : t.mem = s.mem := by unfold OnlyIntSlot at h; rw [h]

theorem decodeIntLoop_keepsWf (esize : Nat) (out : Word) (n k : Nat) :
    Sub.Leaves KeepsWf (decodeIntLoop esize out n k) := by
  have c := keepsWf_chains
  induction n generalizing k with
  | zero => exact .pure c _
  | succ n ih =>
    exact .bind c ((ideNext_leaves esize).mono fun _ _ h => by rw [KeepsWf, h.mem]; exact id) fun v =>
      .bind c (memWriteBytes_keepsWf _ _) fun _ => .bind c (.update fun s => id) fun _ => ih (k + 1)

/-! ## The last lines of a header parse -/

/-- Everything a successful header parse gives (R162): the context it leaves is `withHeader` of the values it read, and they meet
R162's checks. -/
theorem parseHeader_ok {esize : Nat} {s t : State} {v : Int} (h : parseHeader esize s = .ok v t) :
    ∃ bs nmb vcb md ws u, bs < 2 ^ 64 ∧ vcb < 2 ^ 64 ∧ (-(2 ^ 63 : Int) ≤ md ∧ md < 2 ^ 63) ∧ nmb ≠ 0 ∧
      nmb ≤ s.params.maxMiniBlocks ∧ bs ≠ 0 ∧ bs % nmb = 0 ∧ ws.length = nmb ∧ (∀ w ∈ ws, BitVec.toNat w ≤ 64) ∧
      inRange v esize = true ∧ OnlyCursor s u ∧ (CursorOk s → CursorOk u) ∧
      t = { u with ictx := u.ictx.withHeader u.params bs nmb vcb v md ws } := by
  unfold parseHeader at h
  obtain ⟨bs, s1, h1, h⟩ := Sub.bind_ok_iff.1 h
  obtain ⟨nmb, s2, h2, h⟩ := Sub.bind_ok_iff.1 h
  obtain ⟨vcb, s3, h3, h⟩ := Sub.bind_ok_iff.1 h
  obtain ⟨fv, s4, h4, h⟩ := Sub.bind_ok_iff.1 h
  obtain ⟨md, s5, h5, h⟩ := Sub.bind_ok_iff.1 h
  simp only [look_bind, raiseIf_bind_ok_iff, decide_eq_false_iff_not, gt_iff_lt, not_lt, Bool.or_eq_false_iff,
    ne_eq, Decidable.not_not] at h
  obtain ⟨hn, hm, ⟨hb, hd⟩, h⟩ := h
  obtain ⟨ws, s6, h6, h⟩ := Sub.bind_ok_iff.1 h
  simp only [raiseIf_bind_ok_iff, Bool.not_eq_false', update_bind, Sub.pure_run, EStateM.Result.ok.injEq] at h
  obtain ⟨hr, rfl, rfl⟩ := h
  have widths : ∀ {n : Nat} {s t : State} {ws : List Byte}, readWidths n s = .ok ws t → CursorOk s →
      CursorOk t := by
    intro n
    induction n with
    | zero => intro s t ws h hc; simp only [readWidths, Sub.pure_run, EStateM.Result.ok.injEq] at h; exact h.2 ▸ hc
    | succ n ih =>
      intro s t ws h hc
      unfold readWidths at h
      obtain ⟨b, u, h1, h⟩ := Sub.bind_ok_iff.1 h
      obtain ⟨-, h⟩ := raiseIf_bind_ok_iff.1 h
      obtain ⟨bs, v, h2, h⟩ := Sub.bind_ok_iff.1 h
      simp only [Sub.pure_run, EStateM.Result.ok.injEq] at h
      exact h.2 ▸ ih h2 (alignedByte_ok h1).2.1
  have list : ∀ {n : Nat} {s t : State} {ws : List Byte}, readWidths n s = .ok ws t →
      ws.length = n ∧ ∀ w ∈ ws, BitVec.toNat w ≤ 64 := by
    intro n
    induction n with
    | zero =>
      intro s t ws h
      simp only [readWidths, Sub.pure_run, EStateM.Result.ok.injEq] at h
      simp [← h.1]
    | succ n ih =>
      intro s t ws h
      unfold readWidths at h
      obtain ⟨b, u, h1, h⟩ := Sub.bind_ok_iff.1 h
      obtain ⟨hb, h⟩ := raiseIf_bind_ok_iff.1 h
      obtain ⟨bs, v, h2, h⟩ := Sub.bind_ok_iff.1 h
      simp only [Sub.pure_run, EStateM.Result.ok.injEq] at h
      obtain ⟨hl, hw⟩ := ih h2
      simp only [gt_iff_lt, decide_eq_false_iff_not, not_lt] at hb
      rw [← h.1]
      refine ⟨by simp [hl], fun w hw' => ?_⟩
      rcases List.mem_cons.1 hw' with rfl | hw'
      · simp only [BitVec.toNat_ofNat]; omega
      · exact hw w hw'
  have c := onlyCursor_chains
  have o1 := (varUInt_leaves s).1 _ _ h1
  have o2 := (varUInt_leaves s1).1 _ _ h2
  have o3 := (varUInt_leaves s2).1 _ _ h3
  have o4 := (zigZag_leaves s3).1 _ _ h4
  have o5 := (zigZag_leaves s4).1 _ _ h5
  have o6 := (readWidths_leaves nmb s5).1 _ _ h6
  have o15 := c.trans o1 (c.trans o2 (c.trans o3 (c.trans o4 o5)))
  have hp : s5.params = s.params := by unfold OnlyCursor at o15; rw [o15]
  refine ⟨bs, nmb, vcb, md, ws, s6, varUInt_ok h1, varUInt_ok h3, (zigZag_ok h5).2, hn, hp ▸ hm, hb, hd, (list h6).1,
    (list h6).2, hr, c.trans o15 o6, fun hc => widths h6 ?_, rfl⟩
  exact (zigZag_ok h5).1 ((zigZag_ok h4).1 (varUIntFrom_ok h3 (varUIntFrom_ok h2 (varUIntFrom_ok h1 hc))))

/-- Everything a successful delta read gives (R163). -/
theorem nextDelta_ok {esize : Nat} {s t : State} {v : Int} (h : nextDelta esize s = .ok v t) :
    ∃ raw u, readBits s.ictx.bitw.toNat s = .ok raw u ∧ v = s.ictx.sum raw ∧ inRange v esize = true ∧
      t = { u with ictx := { u.ictx with last := BitVec.ofInt 64 v, vcmb := u.ictx.vcmb - 1 } } := by
  unfold nextDelta at h
  rw [look_bind] at h
  obtain ⟨raw, u, h1, h⟩ := Sub.bind_ok_iff.1 h
  simp only [look_bind, raiseIf_bind_ok_iff, Bool.not_eq_false', update_bind, Sub.pure_run,
    EStateM.Result.ok.injEq] at h
  obtain ⟨hr, rfl, rfl⟩ := h
  have o := (readBits_leaves _ s).1 _ _ h1
  have e : u.ictx.sum raw = s.ictx.sum raw := by unfold OnlyCursor at o; rw [o]; rfl
  exact ⟨raw, u, h1, e, hr, rfl⟩

/-- The three ways a slot goes (R161): within the mini-block, into the next one, or through a header. -/
theorem ideNext_cases (esize : Nat) (s : State) :
    ideNext esize s =
      if s.ictx.vcmb ≠ 0 then nextDelta esize s
      else if (s.ictx.mbidx + 1).toNat < s.ictx.nmb.toNat then
        nextDelta esize { s with ictx := { s.ictx with mbidx := s.ictx.mbidx + 1 }.enter }
      else parseHeader esize { s with ictx := { s.ictx with mbidx := s.ictx.mbidx + 1 } } := by
  unfold ideNext
  rw [look_bind, Sub.ite_run]
  by_cases h : s.ictx.vcmb = 0
  · rw [if_pos (decide_eq_true h), if_neg (not_not.2 h), update_bind, look_bind, Sub.ite_run]
    by_cases h2 : (s.ictx.mbidx + 1).toNat < s.ictx.nmb.toNat
    · rw [if_pos (decide_eq_true h2), if_pos h2, update_bind]
    · rw [if_neg (by simpa using h2), if_neg h2]
  · rw [if_neg (by simpa using h), if_pos h]

end Sys2Proof.Machine
end

