-- ==== Sys2Proof/Laws/ByteArray.lean ====
section
/-! SUPPORT. What the byte-array sub-steps can do: what they leave alone, which kinds they raise, and what a slot does when it goes
on. -/

namespace Sys2Proof.Machine

/-- What a byte-array DECODE's slots leave alone. -/
def OnlyBADecode (s t : State) : Prop :=
  t = { s with
    ictx := { t.ictx with bufBase := s.ictx.bufBase, bufLen := s.ictx.bufLen }
    bctx := { t.bctx with baVrem := s.bctx.baVrem, sufBase := s.bctx.sufBase, sufLen := s.bctx.sufLen }
    mem := t.mem
    writes := t.writes
    draws := t.draws
    result := t.result }

theorem onlyBADecode_chains : Chains OnlyBADecode where
  refl _ := rfl
  trans {s t u} h1 h2 := by unfold OnlyBADecode at *; rw [h2, h1]

theorem OnlyIntDecode.onlyBADecode {s t : State} (h : OnlyIntDecode s t) : OnlyBADecode s t := by
  unfold OnlyIntDecode OnlyBADecode at *; rw [h]

theorem OnlyMemory.onlyBADecode {s t : State} (h : OnlyMemory s t) : OnlyBADecode s t := h.onlyIntDecode.onlyBADecode

theorem Unchanged.onlyBADecode {s t : State} (h : Unchanged s t) : OnlyBADecode s t := h.onlyMemory.onlyBADecode

theorem prefixNext_leaves : Sub.Leaves OnlyBADecode prefixNext := by
  have c := onlyBADecode_chains
  exact .bind c ((ideNext_leaves 4).mono fun _ _ h => h.onlyIntDecode.onlyBADecode) fun p =>
    .bind c (.update fun s => rfl) fun _ => .pure c _

theorem suffixNext_leaves : Sub.Leaves OnlyBADecode suffixNext := by
  have c := onlyBADecode_chains
  exact .bind c (.look c _) fun pos => .bind c (.look c _) fun size => .bind c (.look c _) fun base =>
    .bind c (.raiseIf c _ _) fun _ => .bind c ((memRead_leaves _ _).mono fun _ _ => Unchanged.onlyBADecode) fun m =>
    .bind c (.raiseIf c _ _) fun _ => .bind c ((memReadBytes_leaves _ _).mono fun _ _ => Unchanged.onlyBADecode) fun suf =>
    .bind c (.update fun s => rfl) fun _ => .pure c _

/-- `Reconstruct` changes nothing. -/
theorem reconstruct_leaves (p : Int) (suf : List Byte) : Sub.Leaves (fun s t => t = s) (reconstruct p suf) := by
  have c : Chains (fun s t : State => t = s) := ⟨fun _ => rfl, fun h1 h2 => h2.trans h1⟩
  exact .bind c (.look c _) fun first => .bind c (.look c _) fun prev => .ite first (.pure c _)
    (.bind c (.raiseIf c _ _) fun _ => .pure c _)

/-- `CheckCapacity` changes nothing. -/
theorem checkCapacity_leaves (l : Nat) (cap : Word) : Sub.Leaves (fun s t => t = s) (checkCapacity l cap) := by
  have c : Chains (fun s t : State => t = s) := ⟨fun _ => rfl, fun h1 h2 => h2.trans h1⟩
  exact .bind c (.look c _) fun most => .bind c (.raiseIf c _ _) fun _ => .bind c (.look c _) fun used => .raiseIf c _ _

theorem emitValue_leaves (v : List Byte) (desc heap : Word) (k : Nat) :
    Sub.Leaves OnlyBADecode (emitValue v desc heap k) := by
  have c := onlyBADecode_chains
  have w : ∀ a bs, Sub.Leaves OnlyBADecode (memWriteBytes a bs) := fun a bs =>
    (memWriteBytes_leaves a bs).mono fun _ _ => OnlyMemory.onlyBADecode
  exact .bind c (.look c _) fun a => .bind c (w _ _) fun _ => .bind c (w _ _) fun _ => .bind c (w _ _) fun _ =>
    .bind c (w _ _) fun _ => .update fun s => rfl

theorem baValue_leaves (cap : Word) : Sub.Leaves OnlyBADecode (baValue cap) := by
  have c := onlyBADecode_chains
  exact .bind c prefixNext_leaves fun p => .bind c suffixNext_leaves fun suf =>
    .bind c ((reconstruct_leaves p suf).mono fun s t h => h ▸ c.refl s) fun v =>
    .bind c ((checkCapacity_leaves _ cap).mono fun s t h => h ▸ c.refl s) fun _ => .pure c _

theorem baSlot_leaves (desc heap cap : Word) (k : Nat) : Sub.Leaves OnlyBADecode (baSlot desc heap cap k) := by
  have c := onlyBADecode_chains
  exact .bind c (baValue_leaves cap) fun v => .bind c (emitValue_leaves v desc heap k) fun _ => .update fun s => rfl

theorem decodeBALoop_leaves (desc heap cap : Word) (n k : Nat) :
    Sub.Leaves OnlyBADecode (decodeBALoop desc heap cap n k) := by
  have c := onlyBADecode_chains
  induction n generalizing k with
  | zero => exact .pure c _
  | succ n ih =>
    exact .bind c (baSlot_leaves desc heap cap k) fun _ => .bind c (.update fun s => rfl) fun _ => ih (k + 1)

theorem memRead_raises (a : Word) (n : Nat) : Sub.Raises SlotKind (memRead a n) := fun _ _ _ h =>
  .inl (.inr (.inr (memRead_error h)))

theorem memReadBytes_raises (a : Word) (n : Nat) : Sub.Raises SlotKind (memReadBytes a n) := fun _ _ _ h =>
  .inl (.inr (.inr (memReadBytes_error h)))

theorem memWriteBytes_raises (a : Word) (bs : List Byte) : Sub.Raises SlotKind (memWriteBytes a bs) := fun _ _ _ h =>
  .inl (.inr (.inr (memWriteBytes_error h)))

theorem baValue_raises (cap : Word) : Sub.Raises SlotKind (baValue cap) := by
  have p : Sub.Raises SlotKind prefixNext := .bind (ideNext_raises 4) fun _ => .bind (.update _) fun _ => .pure _
  have x : Sub.Raises SlotKind suffixNext :=
    .bind (.look _) fun _ => .bind (.look _) fun _ => .bind (.look _) fun _ => .bind (.raiseIf (.inl (.inl rfl))) fun _ =>
      .bind (memRead_raises _ _) fun _ => .bind (.raiseIf (.inl (.inl rfl))) fun _ =>
      .bind (memReadBytes_raises _ _) fun _ => .bind (.update _) fun _ => .pure _
  have r : ∀ i suf, Sub.Raises SlotKind (reconstruct i suf) := fun i suf =>
    .bind (.look _) fun first => .bind (.look _) fun _ => .ite first (.pure _)
      (.bind (.raiseIf (.inl (.inr (.inl rfl)))) fun _ => .pure _)
  have q : ∀ l, Sub.Raises SlotKind (checkCapacity l cap) := fun l =>
    .bind (.look _) fun _ => .bind (.raiseIf (.inr (.inr rfl))) fun _ => .bind (.look _) fun _ =>
      .raiseIf (.inr (.inr rfl))
  exact .bind p fun i => .bind x fun suf => .bind (r i suf) fun v => .bind (q _) fun _ => .pure _

theorem baSlot_raises (desc heap cap : Word) (k : Nat) : Sub.Raises SlotKind (baSlot desc heap cap k) :=
  .bind (baValue_raises cap) fun _ =>
    .bind (.bind (.look _) fun _ => .bind (memWriteBytes_raises _ _) fun _ => .bind (memWriteBytes_raises _ _) fun _ =>
      .bind (memWriteBytes_raises _ _) fun _ => .bind (memWriteBytes_raises _ _) fun _ => .update _) fun _ => .update _

theorem decodeBALoop_raises (desc heap cap : Word) (n k : Nat) :
    Sub.Raises SlotKind (decodeBALoop desc heap cap n k) := by
  induction n generalizing k with
  | zero => exact .pure _
  | succ n ih => exact .bind (baSlot_raises desc heap cap k) fun _ => .bind (.update _) fun _ => ih (k + 1)

theorem decodeBA_raises : Sub.Raises SlotKind decodeBA :=
  .bind (.look _) fun _ => .bind (.look _) fun _ => .bind (.look _) fun _ => .bind (.look _) fun _ =>
    .bind (.update _) fun _ => .bind (decodeBALoop_raises _ _ _ _ _) fun _ => .update _

theorem emitValue_keepsWf (v : List Byte) (desc heap : Word) (k : Nat) :
    Sub.Leaves KeepsWf (emitValue v desc heap k) := by
  have c := keepsWf_chains
  have w := memWriteBytes_keepsWf
  exact .bind c (.look c _) fun a => .bind c (w _ _) fun _ => .bind c (w _ _) fun _ => .bind c (w _ _) fun _ =>
    .bind c (w _ _) fun _ => .update fun s => id

theorem prefixNext_keepsMem : Sub.Leaves (fun s t => t.mem = s.mem) prefixNext := by
  have c : Chains (fun s t : State => t.mem = s.mem) := ⟨fun _ => rfl, fun h1 h2 => h2.trans h1⟩
  exact .bind c ((ideNext_leaves 4).mono fun _ _ h => h.mem) fun p => .bind c (.update fun s => rfl) fun _ => .pure c _

theorem suffixNext_keepsMem : Sub.Leaves (fun s t => t.mem = s.mem) suffixNext := by
  have c : Chains (fun s t : State => t.mem = s.mem) := ⟨fun _ => rfl, fun h1 h2 => h2.trans h1⟩
  have d : ∀ s t : State, Unchanged s t → t.mem = s.mem := fun s t h => by unfold Unchanged at h; rw [h]
  exact .bind c (.look c _) fun pos => .bind c (.look c _) fun size => .bind c (.look c _) fun base =>
    .bind c (.raiseIf c _ _) fun _ => .bind c ((memRead_leaves _ _).mono d) fun m =>
    .bind c (.raiseIf c _ _) fun _ => .bind c ((memReadBytes_leaves _ _).mono d) fun suf =>
    .bind c (.update fun s => rfl) fun _ => .pure c _

/-- The value of a slot is found without writing memory. -/
theorem baValue_keepsMem (cap : Word) : Sub.Leaves (fun s t => t.mem = s.mem) (baValue cap) := by
  have c : Chains (fun s t : State => t.mem = s.mem) := ⟨fun _ => rfl, fun h1 h2 => h2.trans h1⟩
  exact .bind c prefixNext_keepsMem fun p => .bind c suffixNext_keepsMem fun suf =>
    .bind c ((reconstruct_leaves p suf).mono fun s t h => h ▸ rfl) fun v =>
    .bind c ((checkCapacity_leaves _ cap).mono fun s t h => h ▸ rfl) fun _ => .pure c _

theorem decodeBALoop_keepsWf (desc heap cap : Word) (n k : Nat) :
    Sub.Leaves KeepsWf (decodeBALoop desc heap cap n k) := by
  have c := keepsWf_chains
  have m : ∀ s t : State, t.mem = s.mem → KeepsWf s t := fun s t h => by rw [KeepsWf, h]; exact id
  induction n generalizing k with
  | zero => exact .pure c _
  | succ n ih =>
    exact .bind c (.bind c ((baValue_keepsMem cap).mono m) fun v =>
      .bind c (emitValue_keepsWf v desc heap k) fun _ => .update fun s => id) fun _ =>
      .bind c (.update fun s => id) fun _ => ih (k + 1)

/-! ## What a sub-step does when it goes on -/

theorem prefixNext_ok {s t : State} {p : Int} (h : prefixNext s = .ok p t) :
    ∃ u, ideNext 4 s = .ok p u ∧ t = { u with ictx := { u.ictx with vrem := u.ictx.vrem - 1 } } := by
  unfold prefixNext at h
  obtain ⟨q, u, h1, h⟩ := Sub.bind_ok_iff.1 h
  simp only [update_bind, Sub.pure_run, EStateM.Result.ok.injEq] at h
  obtain ⟨rfl, rfl⟩ := h
  exact ⟨u, h1, rfl⟩

/-- A suffix record that is read (R203): its two bounds hold and the cursor moves past it. -/
theorem suffixNext_ok {s t : State} {suf : List Byte} (h : suffixNext s = .ok suf t) :
    s.bctx.sufPos.toNat + 4 + suf.length ≤ s.bctx.sufLen.toNat ∧
      ∃ u, Unchanged s u ∧
        t = { u with bctx := { u.bctx with sufPos := BitVec.ofNat 64 (s.bctx.sufPos.toNat + 4 + suf.length) } } := by
  unfold suffixNext at h
  simp only [look_bind, raiseIf_bind_ok_iff, gt_iff_lt, decide_eq_false_iff_not, not_lt] at h
  obtain ⟨-, h⟩ := h
  obtain ⟨m, u, h1, h⟩ := Sub.bind_ok_iff.1 h
  simp only [raiseIf_bind_ok_iff, decide_eq_false_iff_not, not_lt] at h
  obtain ⟨hm, h⟩ := h
  obtain ⟨x, w, h2, h⟩ := Sub.bind_ok_iff.1 h
  simp only [update_bind, Sub.pure_run, EStateM.Result.ok.injEq] at h
  obtain ⟨rfl, rfl⟩ := h
  have hl := memReadBytes_length h2
  exact ⟨hl ▸ hm, w, unchanged_chains.trans ((memRead_leaves _ _ _).1 _ _ h1) ((memReadBytes_leaves _ _ _).1 _ _ h2),
    by rw [hl]⟩

theorem reconstruct_ok {s t : State} {p : Int} {suf v : List Byte} (h : reconstruct p suf s = .ok v t) :
    t = s ∧ ((s.bctx.first = true ∧ v = suf) ∨
      (s.bctx.first = false ∧ 0 ≤ p ∧ p ≤ (s.bctx.prev.length : Int) ∧ v = s.bctx.prev.take p.toNat ++ suf)) := by
  unfold reconstruct at h
  rw [look_bind, look_bind, Sub.ite_run] at h
  cases hf : s.bctx.first with
  | true =>
    simp only [hf, if_true, Sub.pure_run, EStateM.Result.ok.injEq] at h
    exact ⟨h.2.symm, .inl ⟨rfl, h.1.symm⟩⟩
  | false =>
    simp only [hf, Bool.false_eq_true, if_false, raiseIf_bind_ok_iff, Bool.or_eq_false_iff, decide_eq_false_iff_not,
      not_lt, gt_iff_lt, Sub.pure_run, EStateM.Result.ok.injEq] at h
    exact ⟨h.2.2.symm, .inr ⟨rfl, h.1.1, h.1.2, h.2.1.symm⟩⟩

/-- Everything a value that is found gives (R200's loop body before the writes). -/
theorem baValue_ok {cap : Word} {s t : State} {v : List Byte} (h : baValue cap s = .ok v t) :
    ∃ p s1 suf, prefixNext s = .ok p s1 ∧ suffixNext s1 = .ok suf t ∧ reconstruct p suf t = .ok v t ∧
      checkCapacity v.length cap t = .ok () t := by
  unfold baValue at h
  obtain ⟨p, s1, h1, h⟩ := Sub.bind_ok_iff.1 h
  obtain ⟨suf, s2, h2, h⟩ := Sub.bind_ok_iff.1 h
  obtain ⟨w, s3, h3, h⟩ := Sub.bind_ok_iff.1 h
  obtain ⟨u, s4, h4, h⟩ := Sub.bind_ok_iff.1 h
  simp only [Sub.pure_run, EStateM.Result.ok.injEq] at h
  have e3 : s3 = s2 := (reconstruct_leaves p suf s2).1 _ _ h3
  have e4 : s4 = s3 := (checkCapacity_leaves _ cap s3).1 _ _ h4
  obtain ⟨rfl, rfl⟩ := h
  subst e4
  subst e3
  exact ⟨p, s1, suf, h1, h2, h3, h4⟩

theorem checkCapacity_ok {s t : State} {l : Nat} {cap : Word} {u : Unit} (h : checkCapacity l cap s = .ok u t) :
    t = s ∧ l ≤ s.params.prevCap ∧ s.bctx.heapUsed.toNat + l ≤ cap.toNat := by
  unfold checkCapacity at h
  simp only [look_bind, raiseIf_bind_ok_iff, raiseIf_ok_iff, gt_iff_lt, decide_eq_false_iff_not, not_lt] at h
  exact ⟨h.2.2, h.1, h.2.1⟩

end Sys2Proof.Machine
end

