-- ==== Sys2Proof/Laws/Region.lean ====
section
/-! SUPPORT. Regions: overlapping means sharing an address, and what is apart stays apart. Byte strings written to and read from a
region. -/

namespace Sys2Proof.Machine

theorem Region.contains_iff {r : Region} {a : Word} : r.contains a = true ↔ (a - r.base).toNat < r.len := by
  simp [Region.contains]

theorem Region.not_contains_iff {r : Region} {a : Word} : r.contains a = false ↔ r.len ≤ (a - r.base).toNat := by
  simp [Region.contains]

/-- The addresses of a region are its base and an offset below its length. -/
theorem Region.contains_offset {r : Region} {i : Nat} (h : i < r.len) : r.contains (r.base + BitVec.ofNat 64 i) = true := by
  rw [Region.contains_iff]
  have e : r.base + BitVec.ofNat 64 i - r.base = BitVec.ofNat 64 i := by
    rw [BitVec.add_comm, BitVec.add_sub_cancel]
  rw [e, BitVec.toNat_ofNat]
  exact (Nat.mod_le _ _).trans_lt h

/-- An address of a region as its base and an offset. -/
theorem Region.eq_offset (r : Region) (a : Word) : a = r.base + BitVec.ofNat 64 (a - r.base).toNat := by
  rw [BitVec.ofNat_toNat, BitVec.setWidth_eq, BitVec.add_comm, BitVec.sub_add_cancel]

/-- A part of a region, by its offset and length. -/
theorem Region.contains_part {r : Region} {off len : Nat} (h : off + len ≤ r.len) {a : Word}
    (ha : Region.contains ⟨r.base + BitVec.ofNat 64 off, len⟩ a = true) : r.contains a = true := by
  have e := Region.eq_offset ⟨r.base + BitVec.ofNat 64 off, len⟩ a
  rw [Region.contains_iff] at ha
  simp only at e ha
  rw [e, BitVec.add_assoc, ← BitVec.ofNat_add]
  exact Region.contains_offset (by omega)

theorem Region.overlaps_eq_false_iff {r q : Region} : r.overlaps q = false ↔ r.apart q := by
  constructor
  · intro h a ⟨hr, hq⟩
    have pr : 0 < r.len := by rw [Region.contains_iff] at hr; omega
    have pq : 0 < q.len := by rw [Region.contains_iff] at hq; omega
    simp only [Region.overlaps, pr, pq, decide_true, Bool.and_self, Bool.true_and, Bool.or_eq_false_iff,
      Region.not_contains_iff] at h
    rw [Region.contains_iff] at hr hq
    bv_omega
  · intro h
    by_contra hc
    rw [Bool.not_eq_false] at hc
    simp only [Region.overlaps, Bool.and_eq_true, Bool.or_eq_true, decide_eq_true_eq] at hc
    obtain ⟨⟨pr, pq⟩, hc | hc⟩ := hc
    · refine h q.base ⟨hc, ?_⟩
      rw [Region.contains_iff, BitVec.sub_self]; exact pq
    · refine h r.base ⟨?_, hc⟩
      rw [Region.contains_iff, BitVec.sub_self]; exact pr

theorem Region.overlaps_iff {r q : Region} : r.overlaps q = true ↔ ¬ r.apart q := by
  rw [← Region.overlaps_eq_false_iff, Bool.not_eq_false]

theorem anyOverlap_eq_false_iff {rs : List Region} : anyOverlap rs = false ↔ rs.Pairwise Region.apart := by
  induction rs with
  | nil => simp [anyOverlap]
  | cons r rs ih =>
    rw [anyOverlap, Bool.or_eq_false_iff, ih, List.pairwise_cons, List.any_eq_false]
    refine and_congr_left fun _ => forall₂_congr fun q _ => ?_
    rw [Bool.not_eq_true, Region.overlaps_eq_false_iff]

theorem anyOverlap_iff {rs : List Region} : anyOverlap rs = true ↔ ¬ rs.Pairwise Region.apart := by
  rw [← anyOverlap_eq_false_iff, Bool.not_eq_false]

theorem Region.apart_symm {r q : Region} (h : r.apart q) : q.apart r := fun a ha => h a ⟨ha.2, ha.1⟩

/-- The regions of a DECODE, as the machine tests them and as statements say it (R73). -/
theorem State.regionsApart_iff (s : State) : anyOverlap s.decodeRegions = false ↔ s.regionsApart := by
  rw [anyOverlap_eq_false_iff]
  unfold State.decodeRegions State.regionsApart
  cases h : s.mode <;>
    simp only [State.outArray, State.descArray, State.heapArea, State.opOut, State.opDesc, State.opHeap, State.opCap, h,
      List.Pairwise.nil]

theorem anyOverlap_pair_iff {r q : Region} : anyOverlap [r, q] = false ↔ r.apart q := by
  rw [anyOverlap_eq_false_iff]; simp

/-- A region apart from one that is not empty has at most 2^64 bytes. -/
theorem Region.apart_len {r q : Region} (h : r.apart q) (hq : 0 < q.len) : r.len ≤ 2 ^ 64 := by
  by_contra hc
  refine h q.base ⟨?_, ?_⟩
  · rw [Region.contains_iff]; have := (q.base - r.base).isLt; omega
  · rw [Region.contains_iff, BitVec.sub_self]; exact hq

/-- Two parts of one run of addresses, one before the other, share no address. -/
theorem Region.parts_apart (b : Word) {off len off' len' : Nat} (h : off + len ≤ off') (h' : off' + len' ≤ 2 ^ 64) :
    Region.apart ⟨b + BitVec.ofNat 64 off, len⟩ ⟨b + BitVec.ofNat 64 off', len'⟩ := by
  intro a ⟨h1, h2⟩
  have e1 := Region.eq_offset ⟨b + BitVec.ofNat 64 off, len⟩ a
  have e2 := Region.eq_offset ⟨b + BitVec.ofNat 64 off', len'⟩ a
  rw [Region.contains_iff] at h1 h2
  simp only at e1 e2 h1 h2
  generalize (a - (b + BitVec.ofNat 64 off)).toNat = x at *
  generalize (a - (b + BitVec.ofNat 64 off')).toNat = y at *
  rw [BitVec.add_assoc, ← BitVec.ofNat_add] at e1 e2
  have e3 : BitVec.ofNat 64 (off + x) = BitVec.ofNat 64 (off' + y) := by
    have := e1.symm.trans e2
    exact add_left_cancel this
  have e4 := congrArg BitVec.toNat e3
  simp only [BitVec.toNat_ofNat] at e4
  rw [Nat.mod_eq_of_lt (by omega), Nat.mod_eq_of_lt (by omega)] at e4
  omega

/-- An address outside a region is outside every part of it. -/
theorem Region.not_contains_part {r : Region} {off len : Nat} (h : off + len ≤ r.len) {a : Word} (ha : r.contains a = false) :
    Region.contains ⟨r.base + BitVec.ofNat 64 off, len⟩ a = false := by
  by_contra hc
  rw [Bool.not_eq_false] at hc
  rw [Region.contains_part h hc] at ha
  cases ha

/-- Bytes that are not written stay. -/
theorem State.bytesAt_of_outside {s t : State} {a : Word} {bs : List Byte} {r : Region} (hs : s.bytesAt a bs)
    (hr : Region.apart ⟨a, bs.length⟩ r) (h : ∀ x, r.contains x = false → t.mem.read x.toNat = s.mem.read x.toNat) :
    t.bytesAt a bs := fun i hi => by
  rw [h _ ?_]
  · exact hs i hi
  · by_contra hc
    rw [Bool.not_eq_false] at hc
    exact hr _ ⟨Region.contains_offset (r := ⟨a, bs.length⟩) hi, hc⟩

/-! ## Byte strings -/

/-- A byte string write whose addresses can all be written (R11): what it leaves, and that nothing outside its addresses changes. -/
theorem memWriteBytes_ok {a : Word} {bs : List Byte} {s : State} (hw : s.writable ⟨a, bs.length⟩) (hm : s.mem.wf)
    (hl : bs.length ≤ 2 ^ 64) :
    ∃ t, memWriteBytes a bs s = .ok () t ∧ t = { s with mem := t.mem, writes := t.writes } ∧ t.mem.wf ∧ t.bytesAt a bs ∧
      ∀ x, Region.contains ⟨a, bs.length⟩ x = false → t.mem.read x.toNat = s.mem.read x.toNat := by
  induction bs generalizing a s with
  | nil => exact ⟨s, rfl, rfl, hm, fun i h => absurd h (by simp), fun _ _ => rfl⟩
  | cons b bs ih =>
    have h0 : memOk s.params a .write = true := hw a (by rw [Region.contains_iff, BitVec.sub_self]; simp)
    set s1 : State := { s with mem := s.mem.write a.toNat b, writes := ⟨a, s.mem.read a.toNat, b⟩ :: s.writes } with hs1
    have e1 : writeByte a b s = .ok () s1 := by simp [writeByte, h0, hs1]
    have hw1 : s1.writable ⟨a + 1, bs.length⟩ := fun x hx =>
      hw x (Region.contains_part (r := ⟨a, (b :: bs).length⟩) (off := 1) (len := bs.length) (by simp; omega) hx)
    have hm1 : s1.mem.wf := Memory.wf_write hm a.isLt b
    obtain ⟨t, e2, ht, hwf, hb, ho⟩ := ih hw1 hm1 (by simp at hl; omega)
    have hout : Region.contains ⟨a + 1, bs.length⟩ a = false := by
      rw [Region.not_contains_iff]
      simp only [List.length_cons] at hl ⊢
      have : a - (a + 1) = BitVec.ofNat 64 (2 ^ 64 - 1) := by bv_omega
      rw [this]
      simp only [BitVec.toNat_ofNat]
      omega
    refine ⟨t, ?_, ?_, hwf, ?_, ?_⟩
    · unfold memWriteBytes
      rw [Sub.bind_ok_iff]
      exact ⟨(), s1, e1, e2⟩
    · rw [ht]
    · intro i hi
      cases i with
      | zero =>
        simp only [List.getElem_cons_zero]
        rw [show a + BitVec.ofNat 64 0 = a by simp, ho a hout]
        exact Memory.read_write_same hm.1 _ _
      | succ i =>
        have := hb i (by simpa using hi)
        simp only [List.getElem_cons_succ]
        rw [← this]
        congr 2
        rw [BitVec.add_assoc]
        congr 1
        rw [Nat.add_comm, BitVec.ofNat_add]
        rfl
    · intro x hx
      have hx1 : Region.contains ⟨a + 1, bs.length⟩ x = false := by
        by_contra hc
        rw [Bool.not_eq_false] at hc
        have := Region.contains_part (r := ⟨a, (b :: bs).length⟩) (off := 1) (len := bs.length) (by simp; omega) hc
        rw [this] at hx; cases hx
      rw [ho x hx1]
      refine Memory.read_write_other _ (fun e => ?_) b
      have : x = a := BitVec.eq_of_toNat_eq e
      rw [this, Region.not_contains_iff, BitVec.sub_self] at hx
      simp at hx

/-- A byte string is written in two parts. -/
theorem memWriteBytes_append (cs ds : List Byte) (a : Word) (s : State) :
    memWriteBytes a (cs ++ ds) s =
      (memWriteBytes a cs >>= fun _ => memWriteBytes (a + BitVec.ofNat 64 cs.length) ds) s := by
  induction cs generalizing a s with
  | nil => simp [memWriteBytes]
  | cons c cs ih =>
    simp only [List.cons_append, memWriteBytes, Sub.bind_run]
    cases writeByte a c s with
    | error e t => rfl
    | ok x t =>
      simp only
      rw [ih, Sub.bind_run, List.length_cons, Nat.add_comm, BitVec.ofNat_add, ← BitVec.add_assoc]
      rfl

/-- Where a byte of a string cannot be written, the bytes before it are, and no other (R231, R236). -/
theorem memWriteBytes_stops {a : Word} {bs : List Byte} {s : State} (hm : s.mem.wf) (hl : bs.length ≤ 2 ^ 64)
    (j : Nat) (hj : j < bs.length) (hok : ∀ i < j, memOk s.params (a + BitVec.ofNat 64 i) .write = true)
    (hbad : memOk s.params (a + BitVec.ofNat 64 j) .write = false) :
    ∃ t, memWriteBytes a bs s = .error .busError t ∧ t.bytesAt a (bs.take j) ∧
      ∀ x, Region.contains ⟨a, j⟩ x = false → t.mem.read x.toNat = s.mem.read x.toNat := by
  have htl : (bs.take j).length = j := by simp; omega
  obtain ⟨t, e, ht, hw, hb, ho⟩ := memWriteBytes_ok (a := a) (bs := bs.take j) (s := s) (by
    intro x hx
    rw [Region.eq_offset ⟨a, (bs.take j).length⟩ x]
    refine hok _ ?_
    rw [Region.contains_iff, htl] at hx; exact hx) hm (by omega)
  refine ⟨t, ?_, hb, by rwa [htl] at ho⟩
  rw [← List.take_append_drop j bs, memWriteBytes_append, Sub.bind_of_ok e, htl, List.drop_eq_getElem_cons hj]
  unfold memWriteBytes
  refine Sub.bind_of_error ?_
  rw [writeByte_error_iff]
  exact ⟨by rw [ht]; exact hbad, rfl, rfl⟩

/-- A byte string that memory holds, readable and untouched by the host, is read as it stands (R11). -/
theorem memReadBytes_holds {a : Word} {bs : List Byte} {s : State} (h : s.holds a bs) :
    memReadBytes a bs.length s = .ok bs s := by
  induction bs generalizing a with
  | nil => rfl
  | cons b bs ih =>
    have h0 := h 0 (by simp)
    simp only [List.getElem_cons_zero] at h0
    rw [show a + BitVec.ofNat 64 0 = a by simp] at h0
    have h1 : s.holds (a + 1) bs := fun i hi => by
      have := h (i + 1) (by simpa using hi)
      simp only [List.getElem_cons_succ] at this
      rw [show a + 1 + BitVec.ofNat 64 i = a + BitVec.ofNat 64 (i + 1) by
        rw [BitVec.add_assoc, Nat.add_comm, BitVec.ofNat_add]; rfl]
      exact this
    simp only [List.length_cons]
    unfold memReadBytes
    rw [Sub.bind_ok_iff]
    refine ⟨b, s, ?_, ?_⟩
    · rw [readByte_settled h0.2.1 h0.2.2, h0.1]
    · rw [Sub.bind_ok_iff]
      exact ⟨bs, s, ih h1, rfl⟩

theorem memRead_holds {a : Word} {bs : List Byte} {s : State} (h : s.holds a bs) {n : Nat} (hn : n = bs.length) :
    memRead a n s = .ok (leValue bs) s := by
  unfold memRead
  rw [Sub.bind_ok_iff]
  exact ⟨bs, s, hn ▸ memReadBytes_holds h, rfl⟩

end Sys2Proof.Machine
end

