-- ==== Sys2Proof/Laws/Twins.lean ====
section
/-! SUPPORT. What the slots read (R128, R203): two states that agree on the contexts and on the bytes of the two buffers go through a slot
alike, whatever the rest of memory holds. -/

namespace Sys2Proof.Machine

/-- The bytes that slots may read: the bit reader's buffer and the suffix sub-stream. -/
def State.readArea (s : State) (a : Word) : Prop :=
  Region.contains ⟨s.ictx.bufBase, s.ictx.bufLen.toNat⟩ a = true ∨
    Region.contains ⟨s.bctx.sufBase, s.bctx.sufLen.toNat⟩ a = true

/-- Two states that agree on all that slots look at. -/
structure Twin (s t : State) : Prop where
  params : t.params = s.params
  ictx : t.ictx = s.ictx
  bctx : t.bctx = s.bctx
  stale : t.stale = s.stale
  draws : t.draws = s.draws
  mem : ∀ a, s.readArea a → t.mem.read a.toNat = s.mem.read a.toNat

theorem Twin.refl (s : State) : Twin s s := ⟨rfl, rfl, rfl, rfl, rfl, fun _ _ => rfl⟩

theorem Twin.symm {s t : State} (h : Twin s t) : Twin t s :=
  ⟨h.params.symm, h.ictx.symm, h.bctx.symm, h.stale.symm, h.draws.symm, fun a ha => (h.mem a (by
    unfold State.readArea at *; rw [h.ictx, h.bctx] at ha; exact ha)).symm⟩

/-- The two end alike: in the same value or the same error, in states that agree again. -/
def Matched {α : Type} (x y : EStateM.Result ErrKind State α) : Prop :=
  match x, y with
  | .ok a s, .ok b t => a = b ∧ Twin s t
  | .error e s, .error f t => e = f ∧ Twin s t
  | .ok _ _, .error _ _ => False
  | .error _ _, .ok _ _ => False

theorem Matched.of_ok {α : Type} {x y : EStateM.Result ErrKind State α} (h : Matched x y) {a : α} {s : State} (e : x = .ok a s) :
    ∃ t, y = .ok a t ∧ Twin s t := by
  subst e
  cases y with
  | ok b t => obtain ⟨rfl, h⟩ := h; exact ⟨t, rfl, h⟩
  | error f t => exact h.elim

theorem Matched.of_error {α : Type} {x y : EStateM.Result ErrKind State α} (h : Matched x y) {k : ErrKind} {s : State}
    (e : x = .error k s) : ∃ t, y = .error k t ∧ Twin s t := by
  subst e
  cases y with
  | ok b t => exact h.elim
  | error f t => obtain ⟨rfl, h⟩ := h; exact ⟨t, rfl, h⟩

section
variable {α β : Type} {s t : State}

theorem Matched.pure (h : Twin s t) (a : α) : Matched ((pure a : Sub α) s) ((pure a : Sub α) t) := ⟨rfl, h⟩

theorem Matched.bind {x : Sub α} {f : α → Sub β} (h : Matched (x s) (x t))
    (hf : ∀ a u v, x s = .ok a u → Twin u v → Matched (f a u) (f a v)) : Matched ((x >>= f) s) ((x >>= f) t) := by
  cases e : x s with
  | ok a u =>
    obtain ⟨v, e', hv⟩ := h.of_ok e
    have h1 : (x >>= f) s = f a u := Sub.bind_of_ok e
    have h2 : (x >>= f) t = f a v := Sub.bind_of_ok e'
    rw [h1, h2]
    exact hf a u v e hv
  | error k u =>
    obtain ⟨v, e', hv⟩ := h.of_error e
    have h1 : (x >>= f) s = .error k u := Sub.bind_of_error e
    have h2 : (x >>= f) t = .error k v := Sub.bind_of_error e'
    rw [h1, h2]
    exact ⟨rfl, hv⟩

theorem Matched.raiseIf (h : Twin s t) (c : Bool) (e : ErrKind) : Matched (raiseIf c e s) (raiseIf c e t) := by
  cases c <;> exact ⟨rfl, h⟩

end

/-- A byte that slots may read is read alike. -/
theorem Twin.readByte {s t : State} (h : Twin s t) {a : Word} (ha : s.readArea a) (k : Nat) :
    Matched (readByte k a s) (readByte k a t) := by
  unfold Sys2Proof.Machine.readByte pickedByte
  rw [h.params]
  cases memOk s.params a .read with
  | false => exact ⟨rfl, h⟩
  | true =>
    have e1 : staleAt t a = staleAt s a := by unfold staleAt; rw [h.stale]
    simp only [if_true, e1, h.mem a ha, h.draws]
    exact ⟨rfl, h⟩

theorem Unchanged.readArea {s t : State} (h : Unchanged s t) (a : Word) : t.readArea a ↔ s.readArea a := by
  unfold Unchanged at h; rw [h]

/-- The address of a stream bit inside the buffer. -/
theorem State.bitAddr_area {s : State} {p : Nat} (h : p < s.bufBits) : s.readArea (s.bitAddr p) := by
  left
  exact Region.contains_offset (r := ⟨s.ictx.bufBase, s.ictx.bufLen.toNat⟩) (by
    unfold State.bufBits at h; show p / 8 < s.ictx.bufLen.toNat; omega)

theorem Twin.bitAddr {s t : State} (h : Twin s t) (p : Nat) : t.bitAddr p = s.bitAddr p := by
  unfold State.bitAddr; rw [h.ictx]

theorem Twin.bitsFrom {s t : State} (h : Twin s t) {p w : Nat} (hp : p + w ≤ s.bufBits) :
    Matched (bitsFrom p w s) (bitsFrom p w t) := by
  induction w generalizing s t p with
  | zero => exact Matched.pure h _
  | succ w ih =>
    unfold Sys2Proof.Machine.bitsFrom
    refine Matched.bind ?_ fun b u v hb huv => ?_
    · unfold bit
      rw [look_bind, look_bind, h.bitAddr]
      exact Matched.bind (h.readByte (State.bitAddr_area (by omega)) _) fun b u v _ huv => Matched.pure huv _
    · have o : Unchanged s u := (bit_leaves p s).1 _ _ hb
      have e : u.bufBits = s.bufBits := by unfold Unchanged at o; rw [o]
      exact Matched.bind (ih huv (by omega)) fun r u v _ huv => Matched.pure huv _

theorem Twin.setBitpos {s t : State} (h : Twin s t) (n : Nat) : Matched (setBitpos n s) (setBitpos n t) := by
  unfold Sys2Proof.Machine.setBitpos
  split_ifs
  · exact ⟨rfl, ⟨h.params, by simp only [h.ictx], h.bctx, h.stale, h.draws, h.mem⟩⟩
  · exact ⟨rfl, ⟨h.params, by simp only [h.ictx, h.draws], h.bctx, h.stale, by simp only [h.draws], h.mem⟩⟩

theorem Twin.readBits {s t : State} (h : Twin s t) (w : Nat) : Matched (readBits w s) (readBits w t) := by
  unfold Sys2Proof.Machine.readBits
  simp only [look_bind]
  have e1 : t.ictx.bitpos.toNat = s.ictx.bitpos.toNat := by rw [h.ictx]
  have e2 : t.bufBits = s.bufBits := by unfold State.bufBits; rw [h.ictx]
  rw [e1, e2]
  refine Matched.bind (Matched.raiseIf h _ _) fun _ u v hc huv => ?_
  rw [raiseIf_ok_iff] at hc
  obtain ⟨hc, rfl⟩ := hc
  simp only [gt_iff_lt, decide_eq_false_iff_not, not_lt] at hc
  refine Matched.bind (huv.bitsFrom hc) fun x u' v' _ h' => ?_
  exact Matched.bind (h'.setBitpos _) fun _ u v _ h => Matched.pure h _

theorem Twin.alignedByte {s t : State} (h : Twin s t) : Matched (alignedByte s) (alignedByte t) := by
  unfold Sys2Proof.Machine.alignedByte
  simp only [look_bind]
  have e1 : roundUp t.ictx.bitpos.toNat = roundUp s.ictx.bitpos.toNat := by rw [h.ictx]
  have e2 : t.bufBits = s.bufBits := by unfold State.bufBits; rw [h.ictx]
  rw [e1, e2]
  refine Matched.bind (Matched.raiseIf h _ _) fun _ u v hc huv => ?_
  rw [raiseIf_ok_iff] at hc
  obtain ⟨hc, rfl⟩ := hc
  simp only [gt_iff_lt, decide_eq_false_iff_not, not_lt] at hc
  simp only [look_bind]
  rw [huv.bitAddr]
  refine Matched.bind (huv.readByte (State.bitAddr_area (by omega)) _) fun x u' v' _ h' => ?_
  exact Matched.bind (h'.setBitpos _) fun _ u v _ h => Matched.pure h _

theorem Twin.varUIntFrom {s t : State} (h : Twin s t) (left v : Nat) :
    Matched (varUIntFrom left v s) (varUIntFrom left v t) := by
  induction left generalizing s t v with
  | zero => exact Matched.pure h _
  | succ left ih =>
    unfold Sys2Proof.Machine.varUIntFrom
    refine Matched.bind h.alignedByte fun b u v _ huv => Matched.bind (Matched.raiseIf huv _ _) fun _ u v _ huv => ?_
    by_cases hb : b < 0x80
    · simp only [hb, if_true]; exact Matched.pure huv _
    · simp only [hb, if_false]; exact ih huv _

theorem Twin.varUInt {s t : State} (h : Twin s t) : Matched (varUInt s) (varUInt t) := h.varUIntFrom 10 0

theorem Twin.zigZag {s t : State} (h : Twin s t) : Matched (zigZag s) (zigZag t) :=
  Matched.bind h.varUInt fun _ _ _ _ h => Matched.pure h _

theorem Twin.readWidths {s t : State} (h : Twin s t) (n : Nat) : Matched (readWidths n s) (readWidths n t) := by
  induction n generalizing s t with
  | zero => exact Matched.pure h _
  | succ n ih =>
    exact Matched.bind h.alignedByte fun b _ _ _ h => Matched.bind (Matched.raiseIf h _ _) fun _ _ _ _ h =>
      Matched.bind (ih h) fun _ _ _ _ h => Matched.pure h _

theorem Twin.parseHeader {s t : State} (h : Twin s t) (esize : Nat) : Matched (parseHeader esize s) (parseHeader esize t) := by
  unfold Sys2Proof.Machine.parseHeader
  refine Matched.bind h.varUInt fun bs _ _ _ h => Matched.bind h.varUInt fun nmb _ _ _ h =>
    Matched.bind h.varUInt fun vcb _ _ _ h => Matched.bind h.zigZag fun fv _ _ _ h => Matched.bind h.zigZag fun md _ _ _ h =>
    Matched.bind (Matched.raiseIf h _ _) fun _ u v _ h => ?_
  simp only [look_bind, h.params]
  refine Matched.bind (Matched.raiseIf h _ _) fun _ _ _ _ h => Matched.bind (Matched.raiseIf h _ _) fun _ _ _ _ h =>
    Matched.bind (h.readWidths nmb) fun ws _ _ _ h => Matched.bind (Matched.raiseIf h _ _) fun _ u v _ h => ?_
  simp only [update_bind]
  exact ⟨rfl, ⟨h.params, by simp only [h.ictx, h.params], h.bctx, h.stale, h.draws, h.mem⟩⟩

theorem Twin.nextDelta {s t : State} (h : Twin s t) (esize : Nat) : Matched (nextDelta esize s) (nextDelta esize t) := by
  unfold Sys2Proof.Machine.nextDelta
  simp only [look_bind]
  rw [h.ictx]
  refine Matched.bind (h.readBits _) fun raw u v _ h => ?_
  simp only [look_bind]
  rw [h.ictx]
  refine Matched.bind (Matched.raiseIf h _ _) fun _ u v _ h => ?_
  simp only [update_bind]
  exact ⟨rfl, ⟨h.params, by simp only [h.ictx], h.bctx, h.stale, h.draws, h.mem⟩⟩

/-- One slot of the integer context goes alike. -/
theorem Twin.ideNext {s t : State} (h : Twin s t) (esize : Nat) : Matched (ideNext esize s) (ideNext esize t) := by
  rw [ideNext_cases, ideNext_cases, h.ictx]
  split_ifs
  · exact h.nextDelta esize
  · apply Twin.nextDelta
    exact ⟨h.params, rfl, h.bctx, h.stale, h.draws, h.mem⟩
  · apply Twin.parseHeader
    exact ⟨h.params, rfl, h.bctx, h.stale, h.draws, h.mem⟩

/-! ## The byte-array slot -/

theorem Twin.memReadBytes {s t : State} (h : Twin s t) {a : Word} {n : Nat}
    (ha : ∀ i < n, s.readArea (a + BitVec.ofNat 64 i)) : Matched (memReadBytes a n s) (memReadBytes a n t) := by
  induction n generalizing s t a with
  | zero => exact Matched.pure h _
  | succ n ih =>
    unfold Sys2Proof.Machine.memReadBytes
    refine Matched.bind (h.readByte (by simpa using ha 0 (by omega)) _) fun b u v hb huv => ?_
    have o : Unchanged s u := (readByte_leaves _ a s).1 _ _ hb
    refine Matched.bind (ih huv fun i hi => ?_) fun _ _ _ _ h => Matched.pure h _
    rw [o.readArea]
    have := ha (i + 1) (by omega)
    rwa [show a + 1 + BitVec.ofNat 64 i = a + BitVec.ofNat 64 (i + 1) by
      rw [BitVec.add_assoc, Nat.add_comm, BitVec.ofNat_add]; rfl]

theorem Twin.memRead {s t : State} (h : Twin s t) {a : Word} {n : Nat}
    (ha : ∀ i < n, s.readArea (a + BitVec.ofNat 64 i)) : Matched (memRead a n s) (memRead a n t) :=
  Matched.bind (h.memReadBytes ha) fun _ _ _ _ h => Matched.pure h _

theorem State.suffix_area {s : State} {off n : Nat} (h : off + n ≤ s.bctx.sufLen.toNat) {i : Nat} (hi : i < n) :
    s.readArea (s.bctx.sufBase + BitVec.ofNat 64 off + BitVec.ofNat 64 i) := by
  right
  rw [BitVec.add_assoc, ← BitVec.ofNat_add]
  exact Region.contains_offset (r := ⟨s.bctx.sufBase, s.bctx.sufLen.toNat⟩) (by simp only; omega)

theorem Twin.suffixNext {s t : State} (h : Twin s t) : Matched (suffixNext s) (suffixNext t) := by
  unfold Sys2Proof.Machine.suffixNext
  simp only [look_bind]
  rw [h.bctx]
  refine Matched.bind (Matched.raiseIf h _ _) fun _ u v hc h1 => ?_
  rw [raiseIf_ok_iff] at hc
  obtain ⟨hc, rfl⟩ := hc
  simp only [gt_iff_lt, decide_eq_false_iff_not, not_lt] at hc
  refine Matched.bind (h1.memRead fun i hi => State.suffix_area hc hi) fun m w x hm hwx => ?_
  have o : Unchanged u w := (memRead_leaves _ _ u).1 _ _ hm
  refine Matched.bind (Matched.raiseIf hwx _ _) fun _ y z hc' h' => ?_
  rw [raiseIf_ok_iff] at hc'
  obtain ⟨hc', rfl⟩ := hc'
  simp only [decide_eq_false_iff_not, not_lt] at hc'
  refine Matched.bind (h'.memReadBytes fun i hi => ?_) fun suf w x _ h => ?_
  · rw [o.readArea]; exact State.suffix_area hc' hi
  · simp only [update_bind]
    exact ⟨rfl, ⟨h.params, h.ictx, by simp only [h.bctx], h.stale, h.draws, h.mem⟩⟩

theorem Twin.baValue {s t : State} (h : Twin s t) (cap : Word) : Matched (baValue cap s) (baValue cap t) := by
  unfold Sys2Proof.Machine.baValue
  refine Matched.bind ?_ fun p _ _ _ h => Matched.bind h.suffixNext fun suf u v _ h =>
    Matched.bind ?_ fun v _ _ _ h => Matched.bind ?_ fun _ _ _ _ h => Matched.pure h _
  · unfold prefixNext
    refine Matched.bind (h.ideNext 4) fun p u v _ h => ?_
    simp only [update_bind]
    exact ⟨rfl, ⟨h.params, by simp only [h.ictx], h.bctx, h.stale, h.draws, h.mem⟩⟩
  · unfold reconstruct
    simp only [look_bind]
    rw [h.bctx, Sub.ite_run, Sub.ite_run]
    split_ifs
    · exact Matched.pure h _
    · exact Matched.bind (Matched.raiseIf h _ _) fun _ _ _ _ h => Matched.pure h _
  · unfold checkCapacity
    simp only [look_bind]
    rw [h.params]
    refine Matched.bind (Matched.raiseIf h _ _) fun _ _ _ _ h => ?_
    simp only [look_bind]
    rw [h.bctx]
    exact Matched.raiseIf h _ _

end Sys2Proof.Machine
end

