-- ==== Sys2Proof/Laws/IntLoop.lean ====
section
/-! SUPPORT. What the loop of an integer DECODE writes: slot by slot the values that reading the stream gives (R160, R166, R236). -/

namespace Sys2Proof.Machine

theorem OnlyIntSlot.readArea {s t : State} (h : OnlyIntSlot s t) (a : Word) : t.readArea a ↔ s.readArea a := by
  unfold OnlyIntSlot at h; rw [h]; rfl

/-- A write outside what slots read leaves twins twins. -/
theorem Twin.of_write {s t u : State} (h : Twin s t) (hu : u = { t with mem := u.mem, writes := u.writes, result := u.result })
    (hm : ∀ a, s.readArea a → u.mem.read a.toNat = t.mem.read a.toNat) : Twin s u := by
  rw [hu]
  exact ⟨h.params, h.ictx, h.bctx, h.stale, h.draws, fun a ha => (hm a ha).trans (h.mem a ha)⟩

theorem intValues_leaves (esize n : Nat) : Sub.Leaves OnlyIntSlot (intValues esize n) := by
  have c := onlyIntSlot_chains
  induction n with
  | zero => exact .pure c _
  | succ n ih => exact .bind c (ideNext_leaves esize) fun _ => .bind c ih fun _ => .pure c _

theorem intValues_length {esize n : Nat} {s u : State} {vs : List Int} (h : intValues esize n s = .ok vs u) : vs.length = n := by
  induction n generalizing s vs u with
  | zero => simp only [intValues, Sub.pure_run, EStateM.Result.ok.injEq] at h; simp [← h.1]
  | succ n ih =>
    unfold intValues at h
    obtain ⟨v, u1, -, h⟩ := Sub.bind_ok_iff.1 h
    obtain ⟨ws, u2, h2, h⟩ := Sub.bind_ok_iff.1 h
    simp only [Sub.pure_run, EStateM.Result.ok.injEq] at h
    rw [← h.1, List.length_cons, ih h2]

/-- The element write of a slot (R166), outside what slots read. -/
theorem memWrite_ok {a : Word} {n v : Nat} {s : State} (hw : s.writable ⟨a, n⟩) (hm : s.mem.wf) (hn : n ≤ 2 ^ 64) :
    ∃ t, memWrite a n v s = .ok () t ∧ t = { s with mem := t.mem, writes := t.writes } ∧ t.mem.wf ∧
      t.bytesAt a (leBytes n v) ∧ ∀ x, Region.contains ⟨a, n⟩ x = false → t.mem.read x.toNat = s.mem.read x.toNat := by
  have := memWriteBytes_ok (a := a) (bs := leBytes n v) (s := s) (by rwa [leBytes_length]) hm (by rwa [leBytes_length])
  unfold memWrite
  simpa only [leBytes_length] using this

/-- Where the values can be read and the slots written, the loop goes through: it leaves the context that reading leaves, and slot
`k + j` holds value `j`. -/
theorem decodeIntLoop_follows {esize : Nat} {out : Word} {n k : Nat} {s₀ s u : State} {vs : List Int} (h : Twin s₀ s)
    (hm : s.mem.wf) (hl : esize * n ≤ 2 ^ 64)
    (hw : s.writable ⟨out + BitVec.ofNat 64 (esize * k), esize * n⟩)
    (hr : ∀ a, Region.contains ⟨out + BitVec.ofNat 64 (esize * k), esize * n⟩ a = true → ¬ s₀.readArea a)
    (hv : intValues esize n s₀ = .ok vs u) :
    ∃ t, decodeIntLoop esize out n k s = .ok () t ∧ Twin u t ∧ t.mem.wf ∧
      t.result = (if n = 0 then s.result else BitVec.ofNat 64 (k + n)) ∧
      (∀ j (h : j < vs.length), t.bytesAt (out + BitVec.ofNat 64 (esize * (k + j)))
        (leBytes esize (trunc (8 * esize) vs[j]))) ∧
      ∀ a, Region.contains ⟨out + BitVec.ofNat 64 (esize * k), esize * n⟩ a = false →
        t.mem.read a.toNat = s.mem.read a.toNat := by
  induction n generalizing k s₀ s vs with
  | zero =>
    simp only [intValues, Sub.pure_run, EStateM.Result.ok.injEq] at hv
    obtain ⟨rfl, rfl⟩ := hv
    exact ⟨s, rfl, h, hm, rfl, fun j hj => absurd hj (by simp), fun _ _ => rfl⟩
  | succ n ih =>
    unfold intValues at hv
    obtain ⟨v, u1, h1, hv⟩ := Sub.bind_ok_iff.1 hv
    obtain ⟨ws, u2, h2, hv⟩ := Sub.bind_ok_iff.1 hv
    simp only [Sub.pure_run, EStateM.Result.ok.injEq] at hv
    obtain ⟨rfl, rfl⟩ := hv
    have hlen : esize * (n + 1) = esize + esize * n := by ring
    rw [hlen] at hl hw hr
    set b : Word := out + BitVec.ofNat 64 (esize * k) with hb
    have hb1 : out + BitVec.ofNat 64 (esize * (k + 1)) = b + BitVec.ofNat 64 esize := by
      rw [hb, BitVec.add_assoc, ← BitVec.ofNat_add, Nat.mul_succ]
    have part0 : ∀ a, Region.contains ⟨b, esize⟩ a = true → Region.contains ⟨b, esize + esize * n⟩ a = true := fun a ha =>
      Region.contains_part (r := ⟨b, esize + esize * n⟩) (off := 0) (len := esize) (by simp)
        (by simpa using ha)
    have part1 : ∀ a, Region.contains ⟨b + BitVec.ofNat 64 esize, esize * n⟩ a = true →
        Region.contains ⟨b, esize + esize * n⟩ a = true := fun a ha =>
      Region.contains_part (r := ⟨b, esize + esize * n⟩) (off := esize) (len := esize * n) (by simp) ha
    have o1 : OnlyIntSlot s₀ u1 := (ideNext_leaves esize s₀).1 _ _ h1
    obtain ⟨s1, e1, t1⟩ := (h.ideNext esize).of_ok h1
    have os1 : OnlyIntSlot s s1 := (ideNext_leaves esize s).1 _ _ e1
    have hp1 : s1.params = s.params := by unfold OnlyIntSlot at os1; rw [os1]
    have hmem1 : s1.mem = s.mem := os1.mem
    have hres1 : s1.result = s.result := by unfold OnlyIntSlot at os1; rw [os1]
    obtain ⟨s2, e2, ht2, hm2, hb2, ho2⟩ := memWrite_ok (a := b) (n := esize) (v := trunc (8 * esize) v) (s := s1)
      (fun a ha => by rw [hp1]; exact hw a (part0 a ha)) (hmem1 ▸ hm) (by omega)
    set s3 : State := { s2 with result := BitVec.ofNat 64 (k + 1) } with hs3
    have t3 : Twin u1 s3 := t1.of_write (by rw [hs3, ht2]) fun a ha => by
      show s2.mem.read a.toNat = s1.mem.read a.toNat
      refine ho2 a ?_
      by_contra hc
      rw [Bool.not_eq_false] at hc
      exact hr a (part0 a hc) ((o1.readArea a).1 ha)
    have hp3 : s3.params = s.params := by rw [hs3, ht2]; exact hp1
    obtain ⟨t, e, tt, hmt, hrt, hbt, hot⟩ := ih (k := k + 1) (s₀ := u1) (s := s3) (vs := ws) t3 hm2 (by omega)
      (fun a ha => by rw [hp3]; exact hw a (part1 a (hb1 ▸ ha)))
      (fun a ha hra => hr a (part1 a (hb1 ▸ ha)) ((o1.readArea a).1 hra)) h2
    refine ⟨t, ?_, tt, hmt, ?_, ?_, ?_⟩
    · unfold decodeIntLoop
      rw [Sub.bind_of_ok e1, Sub.bind_of_ok (by exact e2), update_bind]
      exact e
    · rw [hrt, if_neg (Nat.succ_ne_zero n)]
      split_ifs with h0
      · rw [hs3, h0]
      · rw [show k + 1 + n = k + (n + 1) by omega]
    · intro j hj
      cases j with
      | zero =>
        simp only [List.getElem_cons_zero, Nat.add_zero]
        rw [← hb]
        refine State.bytesAt_of_outside (s := s3) (r := ⟨b + BitVec.ofNat 64 esize, esize * n⟩) hb2 ?_ (by rw [← hb1]; exact hot)
        rw [leBytes_length]
        have := Region.parts_apart b (off := 0) (len := esize) (off' := esize) (len' := esize * n) (by omega) (by omega)
        simpa using this
      | succ j =>
        have := hbt j (by simpa using hj)
        simp only [List.getElem_cons_succ]
        rw [show k + (j + 1) = k + 1 + j by omega]
        exact this
    · intro a ha
      rw [hlen] at ha
      rw [hot a ?_]
      · show s2.mem.read a.toNat = _
        rw [ho2 a ?_, hmem1]
        by_contra hc
        rw [Bool.not_eq_false] at hc
        rw [part0 a hc] at ha; cases ha
      · by_contra hc
        rw [Bool.not_eq_false] at hc
        rw [part1 a (hb1 ▸ hc)] at ha; cases ha

/-- One slot of the loop, and the rest. -/
theorem decodeIntLoop_succ (esize : Nat) (out : Word) (n k : Nat) (s : State) :
    decodeIntLoop esize out (n + 1) k s = (ideNext esize >>= fun v =>
      memWrite (out + BitVec.ofNat 64 (esize * k)) esize (trunc (8 * esize) v) >>= fun _ =>
      update (fun s => { s with result := BitVec.ofNat 64 (k + 1) }) >>= fun _ => decodeIntLoop esize out n (k + 1)) s := rfl

/-- The loop in two parts. -/
theorem decodeIntLoop_add (esize : Nat) (out : Word) (m n k : Nat) (s : State) :
    decodeIntLoop esize out (m + n) k s = (decodeIntLoop esize out m k >>= fun _ => decodeIntLoop esize out n (k + m)) s := by
  induction m generalizing k s with
  | zero => rw [Nat.zero_add]; rfl
  | succ m ih =>
    rw [show m + 1 + n = (m + n) + 1 by omega, Sub.bind_run, decodeIntLoop_succ, decodeIntLoop_succ]
    simp only [Sub.bind_run, update_run]
    cases ideNext esize s with
    | error e t => rfl
    | ok v t =>
      simp only
      cases memWrite (out + BitVec.ofNat 64 (esize * k)) esize (trunc (8 * esize) v) t with
      | error e u => rfl
      | ok x u =>
        simp only
        rw [ih (k + 1), Sub.bind_run, show k + 1 + m = k + (m + 1) by omega]

/-- How a loop ends, whatever memory allows (R233, R236): all slots done, or the number of slots done is in RESULT, and only the slots done
are written, but for one whose write failed. -/
theorem decodeIntLoop_ends (esize : Nat) (out : Word) (n k : Nat) (s : State) :
    (∀ t, decodeIntLoop esize out n k s = .ok () t →
      t.result = (if n = 0 then s.result else BitVec.ofNat 64 (k + n)) ∧
      OnlyAt (fun a => Region.contains ⟨out + BitVec.ofNat 64 (esize * k), esize * n⟩ a = true) s t) ∧
    (∀ e t, decodeIntLoop esize out n k s = .error e t →
      ∃ j < n, t.result = (if j = 0 then s.result else BitVec.ofNat 64 (k + j)) ∧
        OnlyAt (fun a => Region.contains ⟨out + BitVec.ofNat 64 (esize * k),
          esize * (j + if e = .busError then 1 else 0)⟩ a = true) s t) := by
  induction n generalizing k s with
  | zero =>
    refine ⟨fun t h => ?_, fun e t h => ?_⟩
    · simp only [decodeIntLoop, Sub.pure_run, EStateM.Result.ok.injEq, true_and] at h
      subst h; exact ⟨rfl, fun _ _ => rfl⟩
    · simp [decodeIntLoop] at h
  | succ n ih =>
    set b : Word := out + BitVec.ofNat 64 (esize * k) with hb
    have hb1 : out + BitVec.ofNat 64 (esize * (k + 1)) = b + BitVec.ofNat 64 esize := by
      rw [hb, BitVec.add_assoc, ← BitVec.ofNat_add, Nat.mul_succ]
    have part0 : ∀ m a, 1 ≤ m → Region.contains ⟨b, esize⟩ a = true → Region.contains ⟨b, esize * m⟩ a = true := fun m a hm ha =>
      Region.contains_part (r := ⟨b, esize * m⟩) (off := 0) (len := esize)
        (by simpa using Nat.le_mul_of_pos_right esize hm) (by simpa using ha)
    have part1 : ∀ m a, Region.contains ⟨b + BitVec.ofNat 64 esize, esize * m⟩ a = true →
        Region.contains ⟨b, esize * (m + 1)⟩ a = true := fun m a ha =>
      Region.contains_part (r := ⟨b, esize * (m + 1)⟩) (off := esize) (len := esize * m)
        (by simp only [Nat.mul_succ]; omega) ha
    have slotAt : ∀ v, Sub.Leaves (OnlyAt fun a => Region.contains ⟨b, esize⟩ a = true) (memWrite b esize v) := fun v =>
      memWriteBytes_onlyAt fun i hi => Region.contains_offset (r := ⟨b, esize⟩) (by simpa using hi)
    have memKeep : ∀ (s t : State), OnlyMemory s t → t.result = s.result := fun s t h => by unfold OnlyMemory at h; rw [h]
    have slotKeep : ∀ (s t : State), OnlyIntSlot s t → t.result = s.result := fun s t h => by unfold OnlyIntSlot at h; rw [h]
    refine ⟨fun t h => ?_, fun e t h => ?_⟩
    · unfold decodeIntLoop at h
      obtain ⟨v, s1, h1, h⟩ := Sub.bind_ok_iff.1 h
      obtain ⟨_u, s2, h2, h⟩ := Sub.bind_ok_iff.1 h
      rw [update_bind] at h
      obtain ⟨hr, ho⟩ := (ih (k + 1) _).1 t h
      have m1 := ((ideNext_leaves esize s).1 _ _ h1).mem
      refine ⟨?_, fun a ha => ?_⟩
      · rw [hr, if_neg (Nat.succ_ne_zero n)]
        split_ifs with h0
        · rw [h0]
        · rw [show k + 1 + n = k + (n + 1) by omega]
      · rw [ho a fun hc => ha (part1 n a (hb1 ▸ hc))]
        have := (slotAt _ s1).1 _ _ h2 a fun hc => ha (part0 _ a (by omega) hc)
        exact this.trans (by rw [m1])
    · unfold decodeIntLoop at h
      rcases Sub.bind_error_iff.1 h with h | ⟨v, s1, h1, h⟩
      · refine ⟨0, by omega, ?_, fun a ha => ?_⟩
        · rw [if_pos rfl, slotKeep _ _ ((ideNext_leaves esize s).2 _ _ h)]
        · rw [((ideNext_leaves esize s).2 _ _ h).mem]
      · have m1 := ((ideNext_leaves esize s).1 _ _ h1).mem
        rcases Sub.bind_error_iff.1 h with h | ⟨_u, s2, h2, h⟩
        · have hbus : e = .busError := memWriteBytes_error h
          refine ⟨0, by omega, ?_, fun a ha => ?_⟩
          · rw [if_pos rfl, memKeep _ _ ((memWrite_leaves _ _ _ s1).2 _ _ h), slotKeep _ _ ((ideNext_leaves esize s).1 _ _ h1)]
          · have := (slotAt _ s1).2 _ _ h a fun hc => ha (by simpa [hbus] using hc)
            exact this.trans (by rw [m1])
        · rw [update_bind] at h
          obtain ⟨j, hj, hr, ho⟩ := (ih (k + 1) _).2 e t h
          refine ⟨j + 1, by omega, ?_, fun a ha => ?_⟩
          · rw [hr, if_neg (Nat.succ_ne_zero j)]
            split_ifs with h0
            · rw [h0]
            · rw [show k + 1 + j = k + (j + 1) by omega]
          · have e1 : j + 1 + (if e = .busError then 1 else 0) = (j + if e = .busError then 1 else 0) + 1 := by omega
            rw [e1] at ha
            rw [ho a fun hc => ha (part1 _ a (hb1 ▸ hc))]
            have := (slotAt _ s1).1 _ _ h2 a fun hc => ha (part0 _ a (by omega) hc)
            exact this.trans (by rw [m1])

end Sys2Proof.Machine
end

