-- ==== Sys2Proof/Laws/ByteArrayLoop.lean ====
section
/-! SUPPORT. What the loop of a byte-array DECODE writes: slot by slot the values that reading the stream gives, one after another in the
heap, and their descriptors (R200, R207, R236). -/

namespace Sys2Proof.Machine

theorem Region.not_contains_of_apart {r q : Region} (h : r.apart q) {a : Word} (ha : r.contains a = true) : q.contains a = false := by
  by_contra hc
  rw [Bool.not_eq_false] at hc
  exact h a ⟨ha, hc⟩

theorem Region.apart_mono {r q r' q' : Region} (h : r.apart q) (hr : ∀ a, r'.contains a = true → r.contains a = true)
    (hq : ∀ a, q'.contains a = true → q.contains a = true) : r'.apart q' := fun a ⟨h1, h2⟩ => h a ⟨hr a h1, hq a h2⟩

/-- The parts of a descriptor, as one byte string (R100). -/
theorem State.bytesAt_append {s : State} {a : Word} {bs cs : List Byte} (h1 : s.bytesAt a bs)
    (h2 : s.bytesAt (a + BitVec.ofNat 64 bs.length) cs) : s.bytesAt a (bs ++ cs) := fun i hi => by
  by_cases h : i < bs.length
  · rw [List.getElem_append_left h]; exact h1 i h
  · rw [List.getElem_append_right (by omega), ← h2 (i - bs.length) (by rw [List.length_append] at hi; omega),
      BitVec.add_assoc, ← BitVec.ofNat_add, show bs.length + (i - bs.length) = i by omega]

/-- A value's bytes and its descriptor are two byte strings, written in that order (R100, R207). -/
theorem emitValue_run (v : List Byte) (desc heap : Word) (k : Nat) (s : State) :
    emitValue v desc heap k s = (memWriteBytes (heap + s.bctx.heapUsed) v >>= fun _ =>
      memWriteBytes (desc + BitVec.ofNat 64 (16 * k)) (descriptorBytes (heap + s.bctx.heapUsed) v.length) >>= fun _ =>
      update fun s => { s with bctx := { s.bctx with heapUsed := s.bctx.heapUsed + BitVec.ofNat 64 v.length } }) s := by
  have h : ∀ cs ds a, memWriteBytes a (cs ++ ds) =
      (memWriteBytes a cs >>= fun _ => memWriteBytes (a + BitVec.ofNat 64 cs.length) ds) := fun cs ds a =>
    funext fun s => memWriteBytes_append cs ds a s
  unfold emitValue descriptorBytes memWrite
  rw [look_bind]
  simp only [h, bind_assoc, BitVec.ofNat_add, BitVec.add_assoc, List.length_append, leBytes_length]
  rfl

/-- What is written for a value (R207). -/
theorem emitValue_ok {v : List Byte} {desc heap : Word} {k : Nat} {s : State} (hm : s.mem.wf) (hv : v.length ≤ 2 ^ 64)
    (hap : Region.apart ⟨heap + s.bctx.heapUsed, v.length⟩ ⟨desc + BitVec.ofNat 64 (16 * k), 16⟩)
    (hwv : s.writable ⟨heap + s.bctx.heapUsed, v.length⟩) (hwd : s.writable ⟨desc + BitVec.ofNat 64 (16 * k), 16⟩) :
    ∃ t, emitValue v desc heap k s = .ok () t ∧
      t = { s with
        bctx := { s.bctx with heapUsed := s.bctx.heapUsed + BitVec.ofNat 64 v.length }
        mem := t.mem, writes := t.writes } ∧ t.mem.wf ∧
      t.bytesAt (heap + s.bctx.heapUsed) v ∧
      t.bytesAt (desc + BitVec.ofNat 64 (16 * k)) (descriptorBytes (heap + s.bctx.heapUsed) v.length) ∧
      ∀ x, Region.contains ⟨heap + s.bctx.heapUsed, v.length⟩ x = false →
        Region.contains ⟨desc + BitVec.ofNat 64 (16 * k), 16⟩ x = false → t.mem.read x.toNat = s.mem.read x.toNat := by
  have h16 : (descriptorBytes (heap + s.bctx.heapUsed) v.length).length = 16 := by simp [descriptorBytes]
  obtain ⟨s1, e1, t1, m1, b1, o1⟩ := memWriteBytes_ok (a := heap + s.bctx.heapUsed) (bs := v) (s := s) hwv hm hv
  obtain ⟨s2, e2, t2, m2, b2, o2⟩ := memWriteBytes_ok (a := desc + BitVec.ofNat 64 (16 * k))
    (bs := descriptorBytes (heap + s.bctx.heapUsed) v.length) (s := s1)
    (fun x hx => by rw [show s1.params = s.params by rw [t1]]; exact hwd x (h16 ▸ hx)) m1 (by omega)
  rw [h16] at o2
  refine ⟨{ s2 with bctx := { s2.bctx with heapUsed := s2.bctx.heapUsed + BitVec.ofNat 64 v.length } }, ?_, ?_, m2,
    State.bytesAt_of_outside (t := s2) b1 hap o2, b2, fun x hx hxd => (o2 x hxd).trans (o1 x hx)⟩
  · rw [emitValue_run, Sub.bind_of_ok e1, Sub.bind_of_ok e2, update_run]
  · rw [t2, t1]

theorem baValues_length {cap : Word} {n : Nat} {s u : State} {vs : List (List Byte)} (h : baValues cap n s = .ok vs u) :
    vs.length = n := by
  induction n generalizing s vs u with
  | zero => simp only [baValues, Sub.pure_run, EStateM.Result.ok.injEq] at h; simp [← h.1]
  | succ n ih =>
    unfold baValues at h
    obtain ⟨v, u1, -, h⟩ := Sub.bind_ok_iff.1 h
    simp only [update_bind, updatePrev] at h
    obtain ⟨ws, u2, h2, h⟩ := Sub.bind_ok_iff.1 h
    simp only [Sub.pure_run, EStateM.Result.ok.injEq] at h
    rw [← h.1, List.length_cons, ih h2]

theorem OnlyBADecode.readArea {s t : State} (h : OnlyBADecode s t) (a : Word) : t.readArea a ↔ s.readArea a := by
  unfold OnlyBADecode at h; rw [h]; rfl

theorem suffixNext_leavesHeap : Sub.Leaves (fun s t => t.bctx.heapUsed = s.bctx.heapUsed) suffixNext := by
  have c : Chains (fun s t : State => t.bctx.heapUsed = s.bctx.heapUsed) := ⟨fun _ => rfl, fun h1 h2 => h2.trans h1⟩
  have d : ∀ s t : State, Unchanged s t → t.bctx.heapUsed = s.bctx.heapUsed := fun s t h => by unfold Unchanged at h; rw [h]
  exact .bind c (.look c _) fun pos => .bind c (.look c _) fun size => .bind c (.look c _) fun base =>
    .bind c (.raiseIf c _ _) fun _ => .bind c ((memRead_leaves _ _).mono d) fun m =>
    .bind c (.raiseIf c _ _) fun _ => .bind c ((memReadBytes_leaves _ _).mono d) fun suf =>
    .bind c (.update fun s => rfl) fun _ => .pure c _

/-- The value of a slot is found without moving HEAP_USED, RESULT, the memory. -/
theorem baValue_found {cap : Word} {s t : State} {v : List Byte} (h : baValue cap s = .ok v t) :
    t.bctx.heapUsed = s.bctx.heapUsed ∧ v.length ≤ s.params.prevCap ∧ s.bctx.heapUsed.toNat + v.length ≤ cap.toNat := by
  obtain ⟨p, s1, suf, h1, h2, -, h4⟩ := baValue_ok h
  obtain ⟨u, hu, rfl⟩ := prefixNext_ok h1
  have o := (ideNext_leaves 4 s).1 _ _ hu
  have e1 : u.bctx.heapUsed = s.bctx.heapUsed := by unfold OnlyIntSlot at o; rw [o]
  have e2 : t.bctx.heapUsed = s.bctx.heapUsed := ((suffixNext_leavesHeap _).1 _ _ h2).trans e1
  have o2 := (baValue_leaves cap s).1 _ _ h
  have e3 : t.params = s.params := by unfold OnlyBADecode at o2; rw [o2]
  obtain ⟨-, c1, c2⟩ := checkCapacity_ok h4
  exact ⟨e2, e3 ▸ c1, e2 ▸ c2⟩

theorem lengthsBefore_zero (vs : List (List Byte)) : lengthsBefore vs 0 = 0 := by simp [lengthsBefore]

theorem lengthsBefore_cons (v : List Byte) (vs : List (List Byte)) (k : Nat) :
    lengthsBefore (v :: vs) (k + 1) = v.length + lengthsBefore vs k := by simp [lengthsBefore]

theorem word_ofNat_toNat (w : Word) : BitVec.ofNat 64 w.toNat = w := by simp

/-- HEAP_USED after a value. -/
theorem heapUsed_add {w cap : Word} {n : Nat} (h : w.toNat + n ≤ cap.toNat) : (w + BitVec.ofNat 64 n).toNat = w.toNat + n := by
  have := cap.isLt
  rw [BitVec.toNat_add, BitVec.toNat_ofNat, Nat.mod_eq_of_lt (a := n) (by omega), Nat.mod_eq_of_lt (by omega)]

/-- The values found lie one after another within the heap's capacity (R206, R207). -/
theorem baValues_fit {cap : Word} {n : Nat} {s u : State} {vs : List (List Byte)} (h : baValues cap n s = .ok vs u)
    (hu : s.bctx.heapUsed.toNat ≤ cap.toNat) :
    u.bctx.heapUsed.toNat = s.bctx.heapUsed.toNat + lengthsBefore vs vs.length ∧
      s.bctx.heapUsed.toNat + lengthsBefore vs vs.length ≤ cap.toNat := by
  induction n generalizing s vs with
  | zero =>
    simp only [baValues, Sub.pure_run, EStateM.Result.ok.injEq] at h
    obtain ⟨rfl, rfl⟩ := h
    simpa [lengthsBefore] using hu
  | succ n ih =>
    unfold baValues at h
    obtain ⟨v, u1, h1, h⟩ := Sub.bind_ok_iff.1 h
    simp only [update_bind, updatePrev] at h
    obtain ⟨ws, u2, h2, h⟩ := Sub.bind_ok_iff.1 h
    simp only [Sub.pure_run, EStateM.Result.ok.injEq] at h
    obtain ⟨rfl, rfl⟩ := h
    obtain ⟨f1, -, f3⟩ := baValue_found h1
    have hn : (u1.bctx.heapUsed + BitVec.ofNat 64 v.length).toNat = s.bctx.heapUsed.toNat + v.length := by
      rw [f1]; exact heapUsed_add f3
    have := ih h2 (by simp only [hn]; exact f3)
    simp only [hn] at this
    rw [List.length_cons, lengthsBefore_cons]
    omega

/-- Where the values can be found and the output written, the loop goes through: it leaves the contexts that finding them leaves, the values
lie one after another in the heap, and slot `k + j`'s descriptor is value `j`'s. -/
theorem decodeBALoop_follows {cap desc heap : Word} {n k : Nat} {s₀ s u : State} {vs : List (List Byte)} (h : Twin s₀ s)
    (hm : s.mem.wf) (hl : 16 * n ≤ 2 ^ 64) (hu : s₀.bctx.heapUsed.toNat ≤ cap.toNat)
    (hwd : s.writable ⟨desc + BitVec.ofNat 64 (16 * k), 16 * n⟩)
    (hwh : s.writable ⟨heap, s₀.bctx.heapUsed.toNat + lengthsBefore vs vs.length⟩)
    (hap : Region.apart ⟨desc + BitVec.ofNat 64 (16 * k), 16 * n⟩ ⟨heap, cap.toNat⟩)
    (hrd : ∀ a, Region.contains ⟨desc + BitVec.ofNat 64 (16 * k), 16 * n⟩ a = true → ¬ s₀.readArea a)
    (hrh : ∀ a, Region.contains ⟨heap, cap.toNat⟩ a = true → ¬ s₀.readArea a)
    (hv : baValues cap n s₀ = .ok vs u) :
    ∃ t, decodeBALoop desc heap cap n k s = .ok () t ∧ Twin u t ∧ t.mem.wf ∧
      t.result = (if n = 0 then s.result else BitVec.ofNat 64 (k + n)) ∧
      (∀ j (h : j < vs.length),
        t.bytesAt (heap + BitVec.ofNat 64 (s₀.bctx.heapUsed.toNat + lengthsBefore vs j)) vs[j] ∧
        t.bytesAt (desc + BitVec.ofNat 64 (16 * (k + j)))
          (descriptorBytes (heap + BitVec.ofNat 64 (s₀.bctx.heapUsed.toNat + lengthsBefore vs j)) vs[j].length)) ∧
      ∀ a, Region.contains ⟨desc + BitVec.ofNat 64 (16 * k), 16 * n⟩ a = false →
        Region.contains ⟨heap + BitVec.ofNat 64 s₀.bctx.heapUsed.toNat, lengthsBefore vs vs.length⟩ a = false →
        t.mem.read a.toNat = s.mem.read a.toNat := by
  induction n generalizing k s₀ s vs with
  | zero =>
    simp only [baValues, Sub.pure_run, EStateM.Result.ok.injEq] at hv
    obtain ⟨rfl, rfl⟩ := hv
    exact ⟨s, rfl, h, hm, rfl, fun j hj => absurd hj (by simp),
      fun _ _ _ => rfl⟩
  | succ n ih =>
    unfold baValues at hv
    obtain ⟨v, u1, h1, hv⟩ := Sub.bind_ok_iff.1 hv
    simp only [update_bind, updatePrev] at hv
    obtain ⟨ws, u2, h2, hv⟩ := Sub.bind_ok_iff.1 hv
    simp only [Sub.pure_run, EStateM.Result.ok.injEq] at hv
    obtain ⟨rfl, rfl⟩ := hv
    have hcap := cap.isLt
    have hlen : 16 * (n + 1) = 16 + 16 * n := by ring
    rw [hlen] at hl hwd hap hrd
    set d : Word := desc + BitVec.ofNat 64 (16 * k) with hd
    have hd1 : desc + BitVec.ofNat 64 (16 * (k + 1)) = d + BitVec.ofNat 64 16 := by
      rw [hd, BitVec.add_assoc, ← BitVec.ofNat_add, Nat.mul_succ]
    have part0 : ∀ a, Region.contains ⟨d, 16⟩ a = true → Region.contains ⟨d, 16 + 16 * n⟩ a = true := fun a ha =>
      Region.contains_part (r := ⟨d, 16 + 16 * n⟩) (off := 0) (len := 16) (by simp) (by simpa using ha)
    have part1 : ∀ a, Region.contains ⟨d + BitVec.ofNat 64 16, 16 * n⟩ a = true →
        Region.contains ⟨d, 16 + 16 * n⟩ a = true := fun a ha =>
      Region.contains_part (r := ⟨d, 16 + 16 * n⟩) (off := 16) (len := 16 * n) (by simp) ha
    obtain ⟨f1, -, f3⟩ := baValue_found h1
    have hsum := heapUsed_add f3
    have o1 := (baValue_leaves cap s₀).1 _ _ h1
    obtain ⟨s1, e1, t1⟩ := (h.baValue cap).of_ok h1
    have os1 := (baValue_leaves cap s).1 _ _ e1
    have hp1 : s1.params = s.params := by unfold OnlyBADecode at os1; rw [os1]
    have hmem1 : s1.mem = s.mem := (baValue_keepsMem cap s).1 _ _ e1
    have hu1 : s1.bctx.heapUsed = s₀.bctx.heapUsed := by rw [t1.bctx, f1]
    have ea : heap + s1.bctx.heapUsed = heap + BitVec.ofNat 64 s₀.bctx.heapUsed.toNat := by rw [hu1, word_ofNat_toNat]
    have heapPart : ∀ {off len : Nat}, off + len ≤ cap.toNat → ∀ a,
        Region.contains ⟨heap + BitVec.ofNat 64 off, len⟩ a = true → Region.contains ⟨heap, cap.toNat⟩ a = true :=
      fun hh a ha => Region.contains_part (r := ⟨heap, cap.toNat⟩) hh ha
    have hL : lengthsBefore (v :: ws) (v :: ws).length = v.length + lengthsBefore ws ws.length := by
      rw [List.length_cons, lengthsBefore_cons]
    rw [hL] at hwh
    obtain ⟨s2, e2, ht2, hm2, hb2, hdb2, ho2⟩ := emitValue_ok (v := v) (desc := desc) (heap := heap) (k := k) (s := s1)
      (hmem1 ▸ hm) (by omega)
      (by rw [ea, ← hd]; exact Region.apart_symm (Region.apart_mono hap part0 (heapPart f3)))
      (fun a ha => by
        rw [hp1]
        exact hwh a (Region.contains_part (r := ⟨heap, _⟩) (len := v.length) (by simp only; omega) (ea ▸ ha)))
      (fun a ha => by rw [hp1]; exact hwd a (part0 a ha))
    rw [ea] at hb2 hdb2 ho2
    rw [← hd] at hdb2 ho2
    set s3 : State := { s2 with
      bctx := { s2.bctx with prev := v, first := false }, result := BitVec.ofNat 64 (k + 1) } with hs3
    set u3 : State := { u1 with
      bctx := { u1.bctx with heapUsed := u1.bctx.heapUsed + BitVec.ofNat 64 v.length, prev := v, first := false } } with hu3
    have h2' : baValues cap n u3 = .ok ws u2 := h2
    have ru3 : ∀ a, u3.readArea a ↔ s₀.readArea a := fun a => o1.readArea a
    have t3 : Twin u3 s3 := by
      refine ⟨?_, ?_, ?_, ?_, ?_, fun a ha => ?_⟩
      · rw [hs3, ht2]; exact t1.params
      · rw [hs3, ht2]; exact t1.ictx
      · rw [hs3, ht2, hu3]; simp only [t1.bctx]
      · rw [hs3, ht2]; exact t1.stale
      · rw [hs3, ht2]; exact t1.draws
      · have hra := (ru3 a).1 ha
        show s2.mem.read a.toNat = u1.mem.read a.toNat
        rw [ho2 a ?_ ?_]
        · exact t1.mem a ((o1.readArea a).2 hra)
        · by_contra hc
          rw [Bool.not_eq_false] at hc
          exact hrh a (heapPart f3 a hc) hra
        · by_contra hc
          rw [Bool.not_eq_false] at hc
          exact hrd a (part0 a hc) hra
    have hp3 : s3.params = s.params := by rw [hs3, ht2]; exact hp1
    have hu3n : u3.bctx.heapUsed.toNat = s₀.bctx.heapUsed.toNat + v.length := by rw [hu3]; simp only [f1]; exact hsum
    obtain ⟨-, hct⟩ := baValues_fit h2' (by omega)
    obtain ⟨t, e, tt, hmt, hrt, hbt, hot⟩ := ih (k := k + 1) (s₀ := u3) (s := s3) (vs := ws) t3 hm2 (by omega)
      (by omega)
      (fun a ha => by rw [hp3]; exact hwd a (part1 a (hd1 ▸ ha)))
      (fun a ha => by rw [hp3]; rw [hu3n, Nat.add_assoc] at ha; exact hwh a ha)
      (by rw [hd1]; exact Region.apart_mono hap part1 (fun _ h => h))
      (fun a ha hra => hrd a (part1 a (hd1 ▸ ha)) ((ru3 a).1 hra))
      (fun a ha hra => hrh a ha ((ru3 a).1 hra)) h2'
    rw [hu3n] at hct hot
    -- what the rest of the loop leaves alone
    have rest : ∀ a bs, Region.apart ⟨a, bs.length⟩ ⟨d + BitVec.ofNat 64 16, 16 * n⟩ →
        Region.apart ⟨a, bs.length⟩ ⟨heap + BitVec.ofNat 64 (s₀.bctx.heapUsed.toNat + v.length), lengthsBefore ws ws.length⟩ →
        s3.bytesAt a bs → t.bytesAt a bs := by
      intro a bs ha1 ha2 hs i hi
      rw [hot _ ?_ ?_]
      · exact hs i hi
      · rw [hd1]; exact Region.not_contains_of_apart ha1 (Region.contains_offset (r := ⟨a, bs.length⟩) hi)
      · exact Region.not_contains_of_apart ha2 (Region.contains_offset (r := ⟨a, bs.length⟩) hi)
    refine ⟨t, ?_, tt, hmt, ?_, ?_, ?_⟩
    · unfold decodeBALoop baSlot
      rw [Sub.bind_of_ok (a := ()) (t := { s2 with bctx := { s2.bctx with prev := v, first := false } }), update_bind]
      · exact e
      · rw [Sub.bind_of_ok e1, Sub.bind_of_ok e2]; rfl
    · rw [hrt, if_neg (Nat.succ_ne_zero n)]
      split_ifs with h0
      · rw [hs3, h0]
      · rw [show k + 1 + n = k + (n + 1) by omega]
    · intro j hj
      cases j with
      | zero =>
        simp only [List.getElem_cons_zero, Nat.add_zero, lengthsBefore_zero]
        rw [← hd]
        refine ⟨rest _ _ ?_ ?_ hb2, rest _ _ ?_ ?_ hdb2⟩
        · exact Region.apart_symm (Region.apart_mono hap part1 (heapPart f3))
        · exact Region.parts_apart heap (by omega) (by omega)
        · have : (descriptorBytes (heap + BitVec.ofNat 64 s₀.bctx.heapUsed.toNat) v.length).length = 16 := by
            simp [descriptorBytes]
          rw [this]
          have := Region.parts_apart d (off := 0) (len := 16) (off' := 16) (len' := 16 * n) (by omega) (by omega)
          simpa using this
        · have : (descriptorBytes (heap + BitVec.ofNat 64 s₀.bctx.heapUsed.toNat) v.length).length = 16 := by
            simp [descriptorBytes]
          rw [this]
          exact Region.apart_mono hap part0 (heapPart (by omega))
      | succ j =>
        have := hbt j (by simpa using hj)
        simp only [List.getElem_cons_succ, lengthsBefore_cons]
        rw [show k + (j + 1) = k + 1 + j by omega, ← Nat.add_assoc, ← hu3n]
        exact this
    · intro a ha hah
      rw [hlen] at ha
      rw [hL] at hah
      have hh0 : Region.contains ⟨heap + BitVec.ofNat 64 s₀.bctx.heapUsed.toNat, v.length⟩ a = false := by
        have := Region.not_contains_part (r := ⟨heap + BitVec.ofNat 64 s₀.bctx.heapUsed.toNat, v.length + lengthsBefore ws ws.length⟩)
          (off := 0) (len := v.length) (by simp) hah
        simpa using this
      have hh1 : Region.contains ⟨heap + BitVec.ofNat 64 (s₀.bctx.heapUsed.toNat + v.length), lengthsBefore ws ws.length⟩ a = false := by
        have := Region.not_contains_part (r := ⟨heap + BitVec.ofNat 64 s₀.bctx.heapUsed.toNat, v.length + lengthsBefore ws ws.length⟩)
          (off := v.length) (len := lengthsBefore ws ws.length) (by simp) hah
        rwa [BitVec.add_assoc, ← BitVec.ofNat_add] at this
      rw [hot a ?_ hh1]
      · show s2.mem.read a.toNat = _
        rw [ho2 a hh0 ?_, hmem1]
        by_contra hc
        rw [Bool.not_eq_false] at hc
        rw [part0 a hc] at ha; cases ha
      · by_contra hc
        rw [Bool.not_eq_false] at hc
        rw [part1 a (hd1 ▸ hc)] at ha; cases ha

theorem emitValue_leavesResult (v : List Byte) (desc heap : Word) (k : Nat) :
    Sub.Leaves (fun s t => t.result = s.result) (emitValue v desc heap k) := by
  have c : Chains (fun s t : State => t.result = s.result) := ⟨fun _ => rfl, fun h1 h2 => h2.trans h1⟩
  have w : ∀ a bs, Sub.Leaves (fun s t : State => t.result = s.result) (memWriteBytes a bs) := fun a bs =>
    (memWriteBytes_leaves a bs).mono fun s t h => by unfold OnlyMemory at h; rw [h]
  exact .bind c (.look c _) fun a => .bind c (w _ _) fun _ => .bind c (w _ _) fun _ => .bind c (w _ _) fun _ =>
    .bind c (w _ _) fun _ => .update fun s => rfl

theorem baValue_leavesResult (cap : Word) : Sub.Leaves (fun s t => t.result = s.result) (baValue cap) := by
  have c : Chains (fun s t : State => t.result = s.result) := ⟨fun _ => rfl, fun h1 h2 => h2.trans h1⟩
  have d : ∀ s t : State, Unchanged s t → t.result = s.result := fun s t h => by unfold Unchanged at h; rw [h]
  have i : ∀ s t : State, OnlyIntSlot s t → t.result = s.result := fun s t h => by unfold OnlyIntSlot at h; rw [h]
  have x : Sub.Leaves (fun s t : State => t.result = s.result) suffixNext :=
    .bind c (.look c _) fun pos => .bind c (.look c _) fun size => .bind c (.look c _) fun base =>
    .bind c (.raiseIf c _ _) fun _ => .bind c ((memRead_leaves _ _).mono d) fun m =>
    .bind c (.raiseIf c _ _) fun _ => .bind c ((memReadBytes_leaves _ _).mono d) fun suf =>
    .bind c (.update fun s => rfl) fun _ => .pure c _
  exact .bind c (.bind c ((ideNext_leaves 4).mono i) fun p => .bind c (.update fun s => rfl) fun _ => .pure c _) fun p =>
    .bind c x fun suf => .bind c ((reconstruct_leaves p suf).mono fun s t h => h ▸ rfl) fun v =>
    .bind c ((checkCapacity_leaves _ cap).mono fun s t h => h ▸ rfl) fun _ => .pure c _

/-- How a loop ends, whatever memory allows (R233, R236). -/
theorem decodeBALoop_ends (desc heap cap : Word) (n k : Nat) (s : State) :
    (∀ t, decodeBALoop desc heap cap n k s = .ok () t →
      t.result = (if n = 0 then s.result else BitVec.ofNat 64 (k + n)) ∧
      OnlyAt (fun a => Region.contains ⟨heap, cap.toNat⟩ a = true ∨
        Region.contains ⟨desc + BitVec.ofNat 64 (16 * k), 16 * n⟩ a = true) s t) ∧
    (∀ e t, decodeBALoop desc heap cap n k s = .error e t →
      ∃ j < n, t.result = (if j = 0 then s.result else BitVec.ofNat 64 (k + j)) ∧
        OnlyAt (fun a => Region.contains ⟨heap, cap.toNat⟩ a = true ∨
          Region.contains ⟨desc + BitVec.ofNat 64 (16 * k), 16 * (j + if e = .busError then 1 else 0)⟩ a = true) s t) := by
  induction n generalizing k s with
  | zero =>
    refine ⟨fun t h => ?_, fun e t h => ?_⟩
    · simp only [decodeBALoop, Sub.pure_run, EStateM.Result.ok.injEq, true_and] at h
      subst h; exact ⟨rfl, fun _ _ => rfl⟩
    · simp [decodeBALoop] at h
  | succ n ih =>
    set d : Word := desc + BitVec.ofNat 64 (16 * k) with hd
    have hd1 : desc + BitVec.ofNat 64 (16 * (k + 1)) = d + BitVec.ofNat 64 16 := by
      rw [hd, BitVec.add_assoc, ← BitVec.ofNat_add, Nat.mul_succ]
    have part0 : ∀ m a, 1 ≤ m → Region.contains ⟨d, 16⟩ a = true → Region.contains ⟨d, 16 * m⟩ a = true := fun m a hm ha =>
      Region.contains_part (r := ⟨d, 16 * m⟩) (off := 0) (len := 16) (by simp; omega) (by simpa using ha)
    have part1 : ∀ m a, Region.contains ⟨d + BitVec.ofNat 64 16, 16 * m⟩ a = true →
        Region.contains ⟨d, 16 * (m + 1)⟩ a = true := fun m a ha =>
      Region.contains_part (r := ⟨d, 16 * (m + 1)⟩) (off := 16) (len := 16 * m) (by simp only; omega) ha
    have emit : ∀ v s1, s1.bctx.heapUsed.toNat + v.length ≤ cap.toNat → (∀ u t, emitValue v desc heap k s1 = .ok u t →
        OnlyAt (fun a => Region.contains ⟨heap, cap.toNat⟩ a = true ∨ Region.contains ⟨d, 16⟩ a = true) s1 t) ∧
        (∀ e t, emitValue v desc heap k s1 = .error e t →
        OnlyAt (fun a => Region.contains ⟨heap, cap.toNat⟩ a = true ∨ Region.contains ⟨d, 16⟩ a = true) s1 t) := by
      intro v s1 hv
      have c := onlyAt_chains fun a => Region.contains ⟨heap, cap.toNat⟩ a = true ∨ Region.contains ⟨d, 16⟩ a = true
      have w1 : Sub.Leaves (OnlyAt fun a => Region.contains ⟨heap, cap.toNat⟩ a = true ∨ Region.contains ⟨d, 16⟩ a = true)
          (memWriteBytes (heap + s1.bctx.heapUsed) v) := memWriteBytes_onlyAt fun i hi => .inl (by
        rw [← word_ofNat_toNat s1.bctx.heapUsed, BitVec.add_assoc, ← BitVec.ofNat_add]
        exact Region.contains_offset (r := ⟨heap, cap.toNat⟩) (by simp only; omega))
      have wd : ∀ off n v, off + n ≤ 16 → Sub.Leaves
          (OnlyAt fun a => Region.contains ⟨heap, cap.toNat⟩ a = true ∨ Region.contains ⟨d, 16⟩ a = true)
          (memWrite (desc + BitVec.ofNat 64 (16 * k + off)) n v) := fun off n v h => memWriteBytes_onlyAt fun i hi => .inr (by
        rw [leBytes_length] at hi
        rw [BitVec.ofNat_add, ← BitVec.add_assoc, ← hd, BitVec.add_assoc, ← BitVec.ofNat_add]
        exact Region.contains_offset (r := ⟨d, 16⟩) (by simp only; omega))
      have body := Sub.Leaves.bind c w1 fun _ => Sub.Leaves.bind c (wd 0 8 (heap + s1.bctx.heapUsed).toNat (by omega)) fun _ =>
        Sub.Leaves.bind c (wd 8 4 v.length (by omega)) fun _ => Sub.Leaves.bind c (wd 12 4 0 (by omega)) fun _ =>
        Sub.Leaves.update (R := OnlyAt fun a => Region.contains ⟨heap, cap.toNat⟩ a = true ∨ Region.contains ⟨d, 16⟩ a = true)
          (f := fun s => { s with bctx := { s.bctx with heapUsed := s.bctx.heapUsed + BitVec.ofNat 64 v.length } })
          fun s _ _ => rfl
      exact ⟨fun u t h => (body s1).1 u t h, fun e t h => (body s1).2 e t h⟩
    refine ⟨fun t h => ?_, fun e t h => ?_⟩
    · unfold decodeBALoop baSlot at h
      obtain ⟨_u, s3, h0, h⟩ := Sub.bind_ok_iff.1 h
      obtain ⟨v, s1, h1, h0⟩ := Sub.bind_ok_iff.1 h0
      obtain ⟨_u', s2, h2, h0⟩ := Sub.bind_ok_iff.1 h0
      simp only [updatePrev, update_run, EStateM.Result.ok.injEq] at h0
      rw [update_bind] at h
      obtain ⟨hr, ho⟩ := (ih (k + 1) _).1 t h
      have m1 := (baValue_keepsMem cap s).1 _ _ h1
      obtain ⟨f1, -, f3⟩ := baValue_found h1
      have m3 : s3.mem = s2.mem := by rw [← h0.2]
      refine ⟨?_, fun a ha => ?_⟩
      · rw [hr, if_neg (Nat.succ_ne_zero n)]
        split_ifs with h0
        · rw [h0]
        · rw [show k + 1 + n = k + (n + 1) by omega]
      · rw [ho a fun hc => ha (hc.imp id fun hc => part1 n a (hd1 ▸ hc))]
        show s3.mem.read a.toNat = _
        rw [m3, (emit v s1 (f1 ▸ f3)).1 _ _ h2 a fun hc => ha (hc.imp id fun hc => part0 _ a (by omega) hc), m1]
    · unfold decodeBALoop baSlot at h
      rcases Sub.bind_error_iff.1 h with h | ⟨_u, s3, h0, h⟩
      · rcases Sub.bind_error_iff.1 h with h | ⟨v, s1, h1, h⟩
        · refine ⟨0, by omega, ?_, fun a ha => ?_⟩
          · rw [if_pos rfl, (baValue_leavesResult cap s).2 _ _ h]
          · rw [(baValue_keepsMem cap s).2 _ _ h]
        · have m1 := (baValue_keepsMem cap s).1 _ _ h1
          obtain ⟨f1, -, f3⟩ := baValue_found h1
          rcases Sub.bind_error_iff.1 h with h | ⟨_u, s2, h2, h⟩
          · have hbus : e = .busError := by
              have hraise : Sub.Raises (fun e => e = .busError) (emitValue v desc heap k) :=
                .bind (.look _) fun _ => .bind (fun _ _ _ h => memWriteBytes_error h) fun _ =>
                .bind (fun _ _ _ h => memWriteBytes_error h) fun _ => .bind (fun _ _ _ h => memWriteBytes_error h) fun _ =>
                .bind (fun _ _ _ h => memWriteBytes_error h) fun _ => .update _
              exact hraise _ _ _ h
            refine ⟨0, by omega, ?_, fun a ha => ?_⟩
            · rw [if_pos rfl, (emitValue_leavesResult _ _ _ _ s1).2 _ _ h, (baValue_leavesResult cap s).1 _ _ h1]
            · rw [(emit v s1 (f1 ▸ f3)).2 _ _ h a fun hc => ha (hc.imp id fun hc => by simpa [hbus] using hc), m1]
          · simp [updatePrev] at h
      · obtain ⟨v, s1, h1, h0⟩ := Sub.bind_ok_iff.1 h0
        obtain ⟨_u', s2, h2, h0⟩ := Sub.bind_ok_iff.1 h0
        simp only [updatePrev, update_run, EStateM.Result.ok.injEq] at h0
        have m1 := (baValue_keepsMem cap s).1 _ _ h1
        obtain ⟨f1, -, f3⟩ := baValue_found h1
        have m3 : s3.mem = s2.mem := by rw [← h0.2]
        rw [update_bind] at h
        obtain ⟨j, hj, hr, ho⟩ := (ih (k + 1) _).2 e t h
        refine ⟨j + 1, by omega, ?_, fun a ha => ?_⟩
        · rw [hr, if_neg (Nat.succ_ne_zero j)]
          split_ifs with h0
          · rw [h0]
          · rw [show k + 1 + j = k + (j + 1) by omega]
        · have e1 : j + 1 + (if e = .busError then 1 else 0) = (j + if e = .busError then 1 else 0) + 1 := by omega
          rw [e1] at ha
          rw [ho a fun hc => ha (hc.imp id fun hc => part1 _ a (hd1 ▸ hc))]
          show s3.mem.read a.toNat = _
          rw [m3, (emit v s1 (f1 ▸ f3)).1 _ _ h2 a fun hc => ha (hc.imp id fun hc => part0 _ a (by omega) hc), m1]

end Sys2Proof.Machine
end

