-- ==== Sys2Proof/Laws/State.lean ====
section
/-! SUPPORT. One lemma per field per named update of the state: what the update leaves in it. -/

namespace Sys2Proof.Machine

variable (s : State)

@[simp] theorem State.begin_params : s.begin.params = s.params := rfl
@[simp] theorem State.begin_arg0 : s.begin.arg0 = s.arg0 := rfl
@[simp] theorem State.begin_arg1 : s.begin.arg1 = s.arg1 := rfl
@[simp] theorem State.begin_arg2 : s.begin.arg2 = s.arg2 := rfl
@[simp] theorem State.begin_arg3 : s.begin.arg3 = s.arg3 := rfl
@[simp] theorem State.begin_command : s.begin.command = s.command := rfl
@[simp] theorem State.begin_failed : s.begin.failed = s.failed := rfl
@[simp] theorem State.begin_ovr : s.begin.ovr = s.ovr := rfl
@[simp] theorem State.begin_baEmpty : s.begin.baEmpty = s.baEmpty := rfl
@[simp] theorem State.begin_mode : s.begin.mode = s.mode := rfl
@[simp] theorem State.begin_errcode : s.begin.errcode = s.errcode := rfl
@[simp] theorem State.begin_result : s.begin.result = 0 := rfl
@[simp] theorem State.begin_ictx : s.begin.ictx = s.ictx := rfl
@[simp] theorem State.begin_bctx : s.begin.bctx = s.bctx := rfl
@[simp] theorem State.begin_bound : s.begin.bound = s.bound := rfl
@[simp] theorem State.begin_mem : s.begin.mem = s.mem := rfl
@[simp] theorem State.begin_stale : s.begin.stale = s.stale := rfl
@[simp] theorem State.begin_writes : s.begin.writes = s.writes := rfl
@[simp] theorem State.begin_hostDraws : s.begin.hostDraws = s.hostDraws := rfl
@[simp] theorem State.begin_draws : s.begin.draws = s.draws := rfl
@[simp] theorem State.begin_host : s.begin.host = s.host := rfl
@[simp] theorem State.begin_readLog : s.begin.readLog = s.readLog := rfl

@[simp] theorem State.finish_params (e : ErrKind) : (s.finish e).params = s.params := rfl
@[simp] theorem State.finish_arg0 (e : ErrKind) : (s.finish e).arg0 = s.arg0 := rfl
@[simp] theorem State.finish_arg1 (e : ErrKind) : (s.finish e).arg1 = s.arg1 := rfl
@[simp] theorem State.finish_arg2 (e : ErrKind) : (s.finish e).arg2 = s.arg2 := rfl
@[simp] theorem State.finish_arg3 (e : ErrKind) : (s.finish e).arg3 = s.arg3 := rfl
@[simp] theorem State.finish_command (e : ErrKind) : (s.finish e).command = none := rfl
@[simp] theorem State.finish_failed (e : ErrKind) : (s.finish e).failed = (s.failed || e.fatal) := rfl
@[simp] theorem State.finish_ovr (e : ErrKind) : (s.finish e).ovr = s.ovr := rfl
@[simp] theorem State.finish_baEmpty (e : ErrKind) : (s.finish e).baEmpty = s.baEmpty := rfl
@[simp] theorem State.finish_mode (e : ErrKind) : (s.finish e).mode = s.mode := rfl
@[simp] theorem State.finish_errcode (e : ErrKind) : (s.finish e).errcode = e := rfl
@[simp] theorem State.finish_result (e : ErrKind) : (s.finish e).result = s.result := rfl
@[simp] theorem State.finish_ictx (e : ErrKind) : (s.finish e).ictx = s.ictx := rfl
@[simp] theorem State.finish_bctx (e : ErrKind) : (s.finish e).bctx = s.bctx := rfl
@[simp] theorem State.finish_bound (e : ErrKind) : (s.finish e).bound = s.bound := rfl
@[simp] theorem State.finish_mem (e : ErrKind) : (s.finish e).mem = s.mem := rfl
@[simp] theorem State.finish_stale (e : ErrKind) : (s.finish e).stale = s.stale := rfl
@[simp] theorem State.finish_writes (e : ErrKind) : (s.finish e).writes = s.writes := rfl
@[simp] theorem State.finish_hostDraws (e : ErrKind) : (s.finish e).hostDraws = s.hostDraws := rfl
@[simp] theorem State.finish_draws (e : ErrKind) : (s.finish e).draws = s.draws := rfl
@[simp] theorem State.finish_host (e : ErrKind) : (s.finish e).host = s.host := rfl
@[simp] theorem State.finish_readLog (e : ErrKind) : (s.finish e).readLog = s.readLog := rfl

@[simp] theorem State.clearInt_params (count base len : Word) : (s.clearInt count base len).params = s.params := rfl
@[simp] theorem State.clearInt_arg0 (count base len : Word) : (s.clearInt count base len).arg0 = s.arg0 := rfl
@[simp] theorem State.clearInt_arg1 (count base len : Word) : (s.clearInt count base len).arg1 = s.arg1 := rfl
@[simp] theorem State.clearInt_arg2 (count base len : Word) : (s.clearInt count base len).arg2 = s.arg2 := rfl
@[simp] theorem State.clearInt_arg3 (count base len : Word) : (s.clearInt count base len).arg3 = s.arg3 := rfl
@[simp] theorem State.clearInt_command (count base len : Word) : (s.clearInt count base len).command = s.command := rfl
@[simp] theorem State.clearInt_failed (count base len : Word) : (s.clearInt count base len).failed = s.failed := rfl
@[simp] theorem State.clearInt_ovr (count base len : Word) : (s.clearInt count base len).ovr = s.ovr := rfl
@[simp] theorem State.clearInt_baEmpty (count base len : Word) : (s.clearInt count base len).baEmpty = s.baEmpty := rfl
@[simp] theorem State.clearInt_mode (count base len : Word) : (s.clearInt count base len).mode = s.mode := rfl
@[simp] theorem State.clearInt_errcode (count base len : Word) : (s.clearInt count base len).errcode = s.errcode := rfl
@[simp] theorem State.clearInt_result (count base len : Word) : (s.clearInt count base len).result = s.result := rfl
@[simp] theorem State.clearInt_ictx (count base len : Word) : (s.clearInt count base len).ictx = { IntContext.zero s.params with vrem := count, bufBase := base, bufLen := len } := rfl
@[simp] theorem State.clearInt_bctx (count base len : Word) : (s.clearInt count base len).bctx = s.bctx := rfl
@[simp] theorem State.clearInt_bound (count base len : Word) : (s.clearInt count base len).bound = s.bound := rfl
@[simp] theorem State.clearInt_mem (count base len : Word) : (s.clearInt count base len).mem = s.mem := rfl
@[simp] theorem State.clearInt_stale (count base len : Word) : (s.clearInt count base len).stale = s.stale := rfl
@[simp] theorem State.clearInt_writes (count base len : Word) : (s.clearInt count base len).writes = s.writes := rfl
@[simp] theorem State.clearInt_hostDraws (count base len : Word) : (s.clearInt count base len).hostDraws = s.hostDraws := rfl
@[simp] theorem State.clearInt_draws (count base len : Word) : (s.clearInt count base len).draws = s.draws := rfl
@[simp] theorem State.clearInt_host (count base len : Word) : (s.clearInt count base len).host = s.host := rfl
@[simp] theorem State.clearInt_readLog (count base len : Word) : (s.clearInt count base len).readLog = s.readLog := rfl

@[simp] theorem State.clearBA_params : s.clearBA.params = s.params := rfl
@[simp] theorem State.clearBA_arg0 : s.clearBA.arg0 = s.arg0 := rfl
@[simp] theorem State.clearBA_arg1 : s.clearBA.arg1 = s.arg1 := rfl
@[simp] theorem State.clearBA_arg2 : s.clearBA.arg2 = s.arg2 := rfl
@[simp] theorem State.clearBA_arg3 : s.clearBA.arg3 = s.arg3 := rfl
@[simp] theorem State.clearBA_command : s.clearBA.command = s.command := rfl
@[simp] theorem State.clearBA_failed : s.clearBA.failed = s.failed := rfl
@[simp] theorem State.clearBA_ovr : s.clearBA.ovr = s.ovr := rfl
@[simp] theorem State.clearBA_baEmpty : s.clearBA.baEmpty = s.baEmpty := rfl
@[simp] theorem State.clearBA_mode : s.clearBA.mode = s.mode := rfl
@[simp] theorem State.clearBA_errcode : s.clearBA.errcode = s.errcode := rfl
@[simp] theorem State.clearBA_result : s.clearBA.result = s.result := rfl
@[simp] theorem State.clearBA_ictx : s.clearBA.ictx = s.ictx := rfl
@[simp] theorem State.clearBA_bctx : s.clearBA.bctx = ByteArrayContext.zero := rfl
@[simp] theorem State.clearBA_bound : s.clearBA.bound = s.bound := rfl
@[simp] theorem State.clearBA_mem : s.clearBA.mem = s.mem := rfl
@[simp] theorem State.clearBA_stale : s.clearBA.stale = s.stale := rfl
@[simp] theorem State.clearBA_writes : s.clearBA.writes = s.writes := rfl
@[simp] theorem State.clearBA_hostDraws : s.clearBA.hostDraws = s.hostDraws := rfl
@[simp] theorem State.clearBA_draws : s.clearBA.draws = s.draws := rfl
@[simp] theorem State.clearBA_host : s.clearBA.host = s.host := rfl
@[simp] theorem State.clearBA_readLog : s.clearBA.readLog = s.readLog := rfl

@[simp] theorem State.configClear_params : s.configClear.params = s.params := rfl
@[simp] theorem State.configClear_arg0 : s.configClear.arg0 = s.arg0 := rfl
@[simp] theorem State.configClear_arg1 : s.configClear.arg1 = s.arg1 := rfl
@[simp] theorem State.configClear_arg2 : s.configClear.arg2 = s.arg2 := rfl
@[simp] theorem State.configClear_arg3 : s.configClear.arg3 = s.arg3 := rfl
@[simp] theorem State.configClear_command : s.configClear.command = s.command := rfl
@[simp] theorem State.configClear_failed : s.configClear.failed = false := rfl
@[simp] theorem State.configClear_ovr : s.configClear.ovr = s.ovr := rfl
@[simp] theorem State.configClear_baEmpty : s.configClear.baEmpty = false := rfl
@[simp] theorem State.configClear_mode : s.configClear.mode = s.mode := rfl
@[simp] theorem State.configClear_errcode : s.configClear.errcode = s.errcode := rfl
@[simp] theorem State.configClear_result : s.configClear.result = s.result := rfl
@[simp] theorem State.configClear_ictx : s.configClear.ictx = IntContext.zero s.params := rfl
@[simp] theorem State.configClear_bctx : s.configClear.bctx = ByteArrayContext.zero := rfl
@[simp] theorem State.configClear_bound : s.configClear.bound = ⟨0, 0⟩ := rfl
@[simp] theorem State.configClear_mem : s.configClear.mem = s.mem := rfl
@[simp] theorem State.configClear_stale : s.configClear.stale = [] := rfl
@[simp] theorem State.configClear_writes : s.configClear.writes = s.writes := rfl
@[simp] theorem State.configClear_hostDraws : s.configClear.hostDraws = s.hostDraws := rfl
@[simp] theorem State.configClear_draws : s.configClear.draws = s.draws := rfl
@[simp] theorem State.configClear_host : s.configClear.host = s.host := rfl
@[simp] theorem State.configClear_readLog : s.configClear.readLog = s.readLog := rfl

@[simp] theorem State.hostStore_params (a : Word) (b : Byte) : (hostStore a b s).params = s.params := rfl
@[simp] theorem State.hostStore_arg0 (a : Word) (b : Byte) : (hostStore a b s).arg0 = s.arg0 := rfl
@[simp] theorem State.hostStore_arg1 (a : Word) (b : Byte) : (hostStore a b s).arg1 = s.arg1 := rfl
@[simp] theorem State.hostStore_arg2 (a : Word) (b : Byte) : (hostStore a b s).arg2 = s.arg2 := rfl
@[simp] theorem State.hostStore_arg3 (a : Word) (b : Byte) : (hostStore a b s).arg3 = s.arg3 := rfl
@[simp] theorem State.hostStore_command (a : Word) (b : Byte) : (hostStore a b s).command = s.command := rfl
@[simp] theorem State.hostStore_failed (a : Word) (b : Byte) : (hostStore a b s).failed = s.failed := rfl
@[simp] theorem State.hostStore_ovr (a : Word) (b : Byte) : (hostStore a b s).ovr = s.ovr := rfl
@[simp] theorem State.hostStore_baEmpty (a : Word) (b : Byte) : (hostStore a b s).baEmpty = s.baEmpty := rfl
@[simp] theorem State.hostStore_mode (a : Word) (b : Byte) : (hostStore a b s).mode = s.mode := rfl
@[simp] theorem State.hostStore_errcode (a : Word) (b : Byte) : (hostStore a b s).errcode = s.errcode := rfl
@[simp] theorem State.hostStore_result (a : Word) (b : Byte) : (hostStore a b s).result = s.result := rfl
@[simp] theorem State.hostStore_ictx (a : Word) (b : Byte) : (hostStore a b s).ictx = s.ictx := rfl
@[simp] theorem State.hostStore_bctx (a : Word) (b : Byte) : (hostStore a b s).bctx = s.bctx := rfl
@[simp] theorem State.hostStore_bound (a : Word) (b : Byte) : (hostStore a b s).bound = s.bound := rfl
@[simp] theorem State.hostStore_mem (a : Word) (b : Byte) : (hostStore a b s).mem = s.mem.write a.toNat b := rfl
@[simp] theorem State.hostStore_stale (a : Word) (b : Byte) : (hostStore a b s).stale = (a.toNat, s.mem.read a.toNat) :: s.stale := rfl
@[simp] theorem State.hostStore_writes (a : Word) (b : Byte) : (hostStore a b s).writes = s.writes := rfl
@[simp] theorem State.hostStore_hostDraws (a : Word) (b : Byte) : (hostStore a b s).hostDraws = s.hostDraws := rfl
@[simp] theorem State.hostStore_draws (a : Word) (b : Byte) : (hostStore a b s).draws = s.draws := rfl
@[simp] theorem State.hostStore_host (a : Word) (b : Byte) : (hostStore a b s).host = s.host := rfl
@[simp] theorem State.hostStore_readLog (a : Word) (b : Byte) : (hostStore a b s).readLog = s.readLog := rfl

end Sys2Proof.Machine
end

