-- ==== Sys2Proof/Laws/Commands.lean ====
section
/-! SUPPORT. What a whole command can do, said once per meaning: how it answers, in which cases, and what it leaves alone. -/

namespace Sys2Proof.Machine

/-- How a command ends: its body goes on to the end, or raises. -/
theorem complete_cases (m : Sub Unit) (s : State) :
    (∃ t, m s.begin = .ok () t ∧ complete m s = t.finish .none) ∨
      (∃ e t, m s.begin = .error e t ∧ complete m s = t.finish e) := by
  unfold complete
  cases h : m s.begin with
  | ok a t => exact .inl ⟨t, rfl, rfl⟩
  | error e t => exact .inr ⟨e, t, rfl, rfl⟩

theorem complete_of_ok {m : Sub Unit} {s t : State} {u : Unit} (h : m s.begin = .ok u t) : complete m s = t.finish .none := by
  unfold complete; rw [h]

theorem complete_of_error {m : Sub Unit} {s t : State} {e : ErrKind} (h : m s.begin = .error e t) :
    complete m s = t.finish e := by
  unfold complete; rw [h]

theorem complete_raise (e : ErrKind) (s : State) : complete (raise e) s = s.begin.finish e := rfl

/-- CONFIG of a legal TYPE (R141). -/
theorem execConfig_legal {t : Byte} {m : Mode} (h : typeMode t = some m) (s : State) :
    execConfig t s = .next ({ s.begin.configClear with mode := m }.finish .none) := by
  unfold execConfig
  rw [complete_of_ok (t := { s.begin.configClear with mode := m }) (u := ())]
  unfold configBody
  rw [update_bind, h]
  rfl

/-- CONFIG of any other TYPE (R141). -/
theorem execConfig_illegal {t : Byte} (h : typeMode t = none) (s : State) :
    execConfig t s = .next ({ s.begin.configClear with mode := .none }.finish .typeError) := by
  unfold execConfig
  rw [complete_of_error (t := { s.begin.configClear with mode := .none }) (e := .typeError)]
  unfold configBody
  rw [update_bind, h]
  rfl

/-- Everything SETDATA can answer (R143). -/
theorem execSetdata_cases (s : State) :
    (s.mode = .none ∧ execSetdata s = .next (s.begin.finish .stateError)) ∨
    (s.mode ≠ .none ∧ anyOverlap [s.newBuffer, windowRegion s.params] = true ∧
      execSetdata s = .refused .regionsOverlap) ∨
    (s.mode ≠ .none ∧ anyOverlap [s.newBuffer, windowRegion s.params] = false ∧
      (s.params.readEffects.any fun r => s.newBuffer.overlaps r) = true ∧ execSetdata s = .refused .bufferReadEffects) ∨
    (s.mode ≠ .none ∧ anyOverlap [s.newBuffer, windowRegion s.params] = false ∧
      (s.params.readEffects.any fun r => s.newBuffer.overlaps r) = false ∧
      execSetdata s = .next (complete setdataBody s)) := by
  unfold execSetdata
  by_cases h1 : s.mode = .none
  · exact .inl ⟨h1, by simp [h1, complete_raise]⟩
  · cases h2 : anyOverlap [s.newBuffer, windowRegion s.params]
    · cases h3 : s.params.readEffects.any fun r => s.newBuffer.overlaps r
      · exact .inr (.inr (.inr ⟨h1, rfl, rfl, by simp [h1]⟩))
      · exact .inr (.inr (.inl ⟨h1, rfl, rfl, by simp [h1]⟩))
    · exact .inr (.inl ⟨h1, rfl, by simp [h1]⟩)

/-- Everything DECODE can answer (R146). -/
theorem execDecode_cases (s : State) :
    ((s.mode = .none ∨ s.failed = true) ∧ execDecode s = .next (s.begin.finish .stateError)) ∨
    (s.mode ≠ .none ∧ s.failed = false ∧ anyOverlap s.decodeRegions = true ∧ execDecode s = .refused .regionsOverlap) ∨
    (s.mode ≠ .none ∧ s.failed = false ∧ anyOverlap s.decodeRegions = false ∧
      execDecode s = .next (complete decodeBody s)) := by
  unfold execDecode
  by_cases h1 : s.mode = .none
  · exact .inl ⟨.inl h1, by simp [h1, complete_raise]⟩
  · cases h2 : s.failed
    · cases h3 : anyOverlap s.decodeRegions
      · exact .inr (.inr ⟨h1, rfl, rfl, by simp [h1]⟩)
      · exact .inr (.inl ⟨h1, rfl, rfl, by simp [h1]⟩)
    · exact .inl ⟨.inr rfl, by simp [h1, complete_raise]⟩

theorem decodeBody_int {s : State} (h : s.mode = .int32 ∨ s.mode = .int64) : decodeBody s = decodeInt s := by
  unfold decodeBody
  rw [look_bind]
  rcases h with h | h <;> rw [h]

theorem decodeBody_ba {s : State} (h : s.mode = .byteArray) : decodeBody s = decodeBA s := by
  unfold decodeBody
  rw [look_bind, h]

theorem decodeBody_raises : Sub.Raises SlotKind decodeBody :=
  .bind (.look _) fun m => by cases m <;> first | exact decodeInt_raises | exact decodeBA_raises

/-- What no command changes (R21, R23, R55, R69): the parameters, the ARG registers, OVR, and the host's side. -/
def OnlyUnit (s t : State) : Prop :=
  t.params = s.params ∧ t.arg0 = s.arg0 ∧ t.arg1 = s.arg1 ∧ t.arg2 = s.arg2 ∧ t.arg3 = s.arg3 ∧ t.ovr = s.ovr ∧
    t.hostDraws = s.hostDraws ∧ t.host = s.host ∧ t.readLog = s.readLog

theorem onlyUnit_chains : Chains OnlyUnit where
  refl _ := ⟨rfl, rfl, rfl, rfl, rfl, rfl, rfl, rfl, rfl⟩
  trans h1 h2 := by
    obtain ⟨a1, a2, a3, a4, a5, a6, a7, a8, a9⟩ := h1
    obtain ⟨b1, b2, b3, b4, b5, b6, b7, b8, b9⟩ := h2
    exact ⟨b1.trans a1, b2.trans a2, b3.trans a3, b4.trans a4, b5.trans a5, b6.trans a6, b7.trans a7, b8.trans a8,
      b9.trans a9⟩

theorem OnlyBADecode.onlyUnit {s t : State} (h : OnlyBADecode s t) : OnlyUnit s t := by
  unfold OnlyBADecode at h; rw [h]; exact onlyUnit_chains.refl s

theorem decodeBody_leaves : Sub.Leaves OnlyUnit decodeBody := by
  have c := onlyUnit_chains
  have i : Sub.Leaves OnlyUnit decodeInt := .bind c (.look c _) fun _ => .bind c (.look c _) fun _ => .bind c (.look c _) fun _ =>
    .bind c ((decodeIntLoop_leaves _ _ _ _).mono fun _ _ h => h.onlyBADecode.onlyUnit) fun _ => .update fun s => c.refl s
  have b : Sub.Leaves OnlyUnit decodeBA := .bind c (.look c _) fun _ => .bind c (.look c _) fun _ => .bind c (.look c _) fun _ =>
    .bind c (.look c _) fun _ => .bind c (.update fun s => c.refl s) fun _ =>
    .bind c ((decodeBALoop_leaves _ _ _ _ _).mono fun _ _ h => h.onlyUnit) fun _ => .update fun s => c.refl s
  exact .bind c (.look c _) fun m => by cases m <;> assumption

theorem setdataBody_leaves : Sub.Leaves OnlyUnit setdataBody := by
  have c := onlyUnit_chains
  have b : ∀ count base len, Sub.Leaves OnlyUnit (setDataBA count base len) := fun count base len =>
    .bind c (.update fun s => c.refl s) fun _ => by
      by_cases h : len.toNat = 0
      · simp only [h, if_true]
        exact Sub.Leaves.update (fun s => (show OnlyUnit s { s with baEmpty := true } from c.refl s))
      · simp only [h, if_false]
        exact .bind c (.raiseIf c _ _) fun _ =>
          .bind c ((memRead_leaves _ _).mono fun _ _ h => h.onlyBADecode.onlyUnit) fun _ =>
          .bind c (.raiseIf c _ _) fun _ => .bind c (.update fun s => c.refl s) fun _ => .update fun s => c.refl s
  exact .bind c (.look c _) fun count => .bind c (.look c _) fun base => .bind c (.look c _) fun len =>
    .bind c (.update fun s => c.refl s) fun _ => .bind c (.look c _) fun m => by
      cases m <;> first | exact b _ _ _ | exact .update fun s => c.refl s

theorem configBody_leaves (t : Byte) : Sub.Leaves OnlyUnit (configBody t) := by
  have c := onlyUnit_chains
  refine .bind c (.update fun s => c.refl s) fun _ => ?_
  cases typeMode t with
  | some m => exact .update fun s => c.refl s
  | none => exact .bind c (.update fun s => c.refl s) fun _ => fun s => ⟨fun a t h => by simp at h, fun e t h => by
      simp only [raise_run, EStateM.Result.error.injEq] at h; exact h.2 ▸ c.refl s⟩

theorem complete_onlyUnit {m : Sub Unit} (hm : Sub.Leaves OnlyUnit m) (s : State) : OnlyUnit s (complete m s) := by
  rcases complete_cases m s with ⟨t, h, e⟩ | ⟨k, t, h, e⟩ <;> rw [e]
  · exact (show OnlyUnit s t from (hm s.begin).1 _ _ h)
  · exact (show OnlyUnit s t from (hm s.begin).2 _ _ h)

/-- A completed command has left BUSY (R147). -/
theorem complete_command (m : Sub Unit) (s : State) : (complete m s).command = none := by
  rcases complete_cases m s with ⟨t, -, e⟩ | ⟨k, t, -, e⟩ <;> rw [e] <;> rfl

/-- Whenever a command answers, it has answered a completed state that shares with the first what no command changes. -/
theorem exec_next {i : Instr} {s t : State} (h : exec i s = .next t) : OnlyUnit s t ∧ t.command = none := by
  cases i with
  | config ty =>
    simp only [exec, execConfig, Host.Outcome.next.injEq] at h
    exact h ▸ ⟨complete_onlyUnit (configBody_leaves ty) s, complete_command _ _⟩
  | setdata =>
    simp only [exec] at h
    rcases execSetdata_cases s with ⟨-, e⟩ | ⟨-, -, e⟩ | ⟨-, -, -, e⟩ | ⟨-, -, -, e⟩ <;> rw [e] at h <;>
      simp only [Host.Outcome.next.injEq, reduceCtorEq] at h
    · exact h ▸ ⟨onlyUnit_chains.refl s, rfl⟩
    · exact h ▸ ⟨complete_onlyUnit setdataBody_leaves s, complete_command _ _⟩
  | decode =>
    simp only [exec] at h
    rcases execDecode_cases s with ⟨-, e⟩ | ⟨-, -, -, e⟩ | ⟨-, -, -, e⟩ <;> rw [e] at h <;>
      simp only [Host.Outcome.next.injEq, reduceCtorEq] at h
    · exact h ▸ ⟨onlyUnit_chains.refl s, rfl⟩
    · exact h ▸ ⟨complete_onlyUnit decodeBody_leaves s, complete_command _ _⟩

/-- No command answers a fault. -/
theorem exec_no_fault (i : Instr) (s : State) (f : Fault) : exec i s ≠ .fault f := by cases f

end Sys2Proof.Machine
end

