-- ==== Sys2Proof/Laws/Decode.lean ====
section
/-! SUPPORT. The fields of a command word as numbers, and the word of given fields. -/

namespace Sys2Proof

theorem opcField_toNat (c : Word) : (opcField c).toNat = c.toNat % 2 ^ 8 := by
  simp [opcField, BitVec.extractLsb'_toNat]

theorem typeField_toNat (c : Word) : (typeField c).toNat = c.toNat / 2 ^ 8 % 2 ^ 8 := by
  simp [typeField, BitVec.extractLsb'_toNat, Nat.shiftRight_eq_div_pow]

theorem rsvField_toNat (c : Word) : (rsvField c).toNat = c.toNat / 2 ^ 16 := by
  have := c.isLt
  simp only [rsvField, BitVec.extractLsb'_toNat, Nat.shiftRight_eq_div_pow]
  omega

theorem commandWord_toNat (t o : Byte) : (commandWord t o).toNat = t.toNat * 2 ^ 8 + o.toNat := by
  have h := o.isLt
  have e : (commandWord t o).toNat = (t.toNat <<< 8) ||| o.toNat := by
    unfold commandWord
    rw [BitVec.toNat_append, BitVec.toNat_append]
    simp
  rw [e, ← Nat.shiftLeft_add_eq_or_of_lt (by simpa using h), Nat.shiftLeft_eq]

@[simp] theorem rsvField_commandWord (t o : Byte) : rsvField (commandWord t o) = 0 := by
  apply BitVec.eq_of_toNat_eq
  have h1 := t.isLt
  have h2 := o.isLt
  rw [rsvField_toNat, commandWord_toNat]
  show _ = 0
  omega

@[simp] theorem opcField_commandWord (t o : Byte) : opcField (commandWord t o) = o := by
  apply BitVec.eq_of_toNat_eq
  have h2 := o.isLt
  rw [opcField_toNat, commandWord_toNat]
  omega

@[simp] theorem typeField_commandWord (t o : Byte) : typeField (commandWord t o) = t := by
  apply BitVec.eq_of_toNat_eq
  have h1 := t.isLt
  have h2 := o.isLt
  rw [typeField_toNat, commandWord_toNat]
  omega

/-- A word whose reserved bits are 0 is the word of its other two fields. -/
theorem eq_commandWord {c : Word} (h : rsvField c = 0) : c = commandWord (typeField c) (opcField c) := by
  apply BitVec.eq_of_toNat_eq
  have := congrArg BitVec.toNat h
  rw [rsvField_toNat] at this
  change _ = 0 at this
  rw [commandWord_toNat, opcField_toNat, typeField_toNat]
  omega

end Sys2Proof
end

