-- ==== Sys2Proof/Laws/DecodeCommand.lean ====
section
/-! SUPPORT. What a DECODE that answers has done (R146, R160, R200): STATE_ERROR, or its loop and the last lines of its body, or its
loop as far as the error. -/

namespace Sys2Proof.Machine

theorem decodeInt_run (s : State) : decodeInt s = (decodeIntLoop s.mode.esize s.arg1 s.intCount 0 >>= fun _ =>
    update fun t => { t with
      ictx := { t.ictx with vrem := t.ictx.vrem - BitVec.ofNat 64 s.intCount }
      result := BitVec.ofNat 64 s.intCount }) s := rfl

theorem decodeBA_run (s : State) : decodeBA s = (decodeBALoop s.arg1 s.arg2 s.arg3 s.baCount 0 >>= fun _ =>
    update fun t => { t with
      bctx := { t.bctx with baVrem := t.bctx.baVrem - BitVec.ofNat 64 s.baCount }
      result := BitVec.ofNat 64 s.baCount }) { s with bctx := { s.bctx with heapUsed := 0 } } := rfl

theorem begin_intCount (s : State) : s.begin.intCount = s.intCount := rfl
theorem begin_baCount (s : State) : s.begin.baCount = s.baCount := rfl

theorem intCount_lt (s : State) : s.intCount < 2 ^ 64 := lt_of_le_of_lt (Nat.min_le_left _ _) s.opMax.isLt
theorem baCount_lt (s : State) : s.baCount < 2 ^ 64 := lt_of_le_of_lt (Nat.min_le_left _ _) s.opMax.isLt

/-- Where a DECODE runs its body. -/
theorem decode_runs {s : State} (hm : s.mode ≠ .none) (hf : s.failed = false) (ha : s.regionsApart) :
    exec .decode s = .next (complete decodeBody s) := by
  rcases execDecode_cases s with ⟨h | h, -⟩ | ⟨-, -, h, -⟩ | ⟨-, -, -, h⟩
  · exact absurd h hm
  · rw [hf] at h; cases h
  · rw [(s.regionsApart_iff).2 ha] at h; cases h
  · exact h

/-- The kinds that a slot raises are the fatal ones (R232). -/
theorem slotKind_fatal {e : ErrKind} (h : SlotKind e) :
    e ≠ .none ∧ e ≠ .stateError ∧ e ≠ .notImplemented ∧ e.fatal = true := by
  rcases h with (rfl | rfl | rfl) | rfl | rfl <;> exact ⟨by decide, by decide, by decide, rfl⟩

/-- An integer DECODE that answers. -/
theorem decode_int_cases {s t : State} (hm : s.mode = .int32 ∨ s.mode = .int64) (h : exec .decode s = .next t) :
    (s.failed = true ∧ t = s.begin.finish .stateError) ∨
    (s.failed = false ∧ s.regionsApart ∧ ∃ u, decodeIntLoop s.mode.esize s.arg1 s.intCount 0 s.begin = .ok () u ∧
      t = State.finish .none { u with
        ictx := { u.ictx with vrem := u.ictx.vrem - BitVec.ofNat 64 s.intCount }, result := BitVec.ofNat 64 s.intCount }) ∨
    (s.failed = false ∧ s.regionsApart ∧ ∃ e u, SlotKind e ∧
      decodeIntLoop s.mode.esize s.arg1 s.intCount 0 s.begin = .error e u ∧ t = u.finish e) := by
  rcases execDecode_cases s with ⟨h1, e⟩ | ⟨h1, h2, h3, e⟩ | ⟨h1, h2, h3, e⟩ <;> simp only [exec, e] at h <;>
    simp only [Host.Outcome.next.injEq, reduceCtorEq] at h
  · left
    refine ⟨?_, h.symm⟩
    rcases h1 with h1 | h1
    · rcases hm with hm | hm <;> rw [hm] at h1 <;> cases h1
    · exact h1
  · right
    have ha := (s.regionsApart_iff).1 h3
    have hb : decodeBody s.begin = decodeInt s.begin := decodeBody_int hm
    rcases complete_cases decodeBody s with ⟨u, hu, e'⟩ | ⟨k, u, hu, e'⟩ <;> rw [hb, decodeInt_run] at hu
    · obtain ⟨_a, w, h4, h5⟩ := Sub.bind_ok_iff.1 hu
      simp only [update_run, EStateM.Result.ok.injEq, true_and] at h5
      exact .inl ⟨h2, ha, w, h4, by rw [← h, e', ← h5]; rfl⟩
    · rcases Sub.bind_error_iff.1 hu with hu | ⟨_a, w, -, h5⟩
      · exact .inr ⟨h2, ha, k, u, decodeIntLoop_raises _ _ _ _ _ _ _ hu, hu, by rw [← h, e']⟩
      · simp at h5

/-- A byte-array DECODE that answers. -/
theorem decode_ba_cases {s t : State} (hm : s.mode = .byteArray) (h : exec .decode s = .next t) :
    (s.failed = true ∧ t = s.begin.finish .stateError) ∨
    (s.failed = false ∧ s.regionsApart ∧ ∃ u, decodeBALoop s.arg1 s.arg2 s.arg3 s.baCount 0
        { s.begin with bctx := { s.bctx with heapUsed := 0 } } = .ok () u ∧
      t = State.finish .none { u with
        bctx := { u.bctx with baVrem := u.bctx.baVrem - BitVec.ofNat 64 s.baCount }, result := BitVec.ofNat 64 s.baCount }) ∨
    (s.failed = false ∧ s.regionsApart ∧ ∃ e u, SlotKind e ∧
      decodeBALoop s.arg1 s.arg2 s.arg3 s.baCount 0 { s.begin with bctx := { s.bctx with heapUsed := 0 } } = .error e u ∧
      t = u.finish e) := by
  rcases execDecode_cases s with ⟨h1, e⟩ | ⟨h1, h2, h3, e⟩ | ⟨h1, h2, h3, e⟩ <;> simp only [exec, e] at h <;>
    simp only [Host.Outcome.next.injEq, reduceCtorEq] at h
  · left
    refine ⟨?_, h.symm⟩
    rcases h1 with h1 | h1
    · rw [hm] at h1; cases h1
    · exact h1
  · right
    have ha := (s.regionsApart_iff).1 h3
    have hb : decodeBody s.begin = decodeBA s.begin := decodeBody_ba hm
    rcases complete_cases decodeBody s with ⟨u, hu, e'⟩ | ⟨k, u, hu, e'⟩ <;> rw [hb, decodeBA_run] at hu
    · obtain ⟨_a, w, h4, h5⟩ := Sub.bind_ok_iff.1 hu
      simp only [update_run, EStateM.Result.ok.injEq, true_and] at h5
      exact .inl ⟨h2, ha, w, h4, by rw [← h, e', ← h5]; rfl⟩
    · rcases Sub.bind_error_iff.1 hu with hu | ⟨_a, w, -, h5⟩
      · exact .inr ⟨h2, ha, k, u, decodeBALoop_raises _ _ _ _ _ _ _ _ hu, hu, by rw [← h, e']⟩
      · simp at h5

end Sys2Proof.Machine
end

