-- ==== Sys2Proof/Laws/PerInstr.lean ====
section
/-! SUPPORT. The family of LAWS.json: what holds of every command as syntax, one lemma per constructor. -/

namespace Sys2Proof.Laws.ReservedZero

/-- The reserved bits of a command's word are 0 (R83), and so is TYPE but for CONFIG (R82). -/
def Statement (i : Instr) : Prop := rsvField (encode i) = 0 ∧ ((∃ t, i = .config t) ∨ typeField (encode i) = 0)

theorem config (t : Byte) : Statement (.config t) := ⟨rsvField_commandWord t _, .inl ⟨t, rfl⟩⟩

theorem setdata : Statement .setdata := ⟨rsvField_commandWord _ _, .inr (typeField_commandWord _ _)⟩

theorem decode : Statement .decode := ⟨rsvField_commandWord _ _, .inr (typeField_commandWord _ _)⟩

end Sys2Proof.Laws.ReservedZero
end

