-- ==== Sys2Proof/Laws/Step.lean ====
section
/-! SUPPORT. What a step can do: the unit runs the captured command, or one access of the host lands, or nothing happens. -/

namespace Sys2Proof.Machine

/-- No access lands exactly where none is queued, or where a command runs and the next one waits for it. -/
theorem landing_none {s : State} :
    s.landing = none ↔ s.host = [] ∨ (s.busy = true ∧ ∀ e rest, s.host = e :: rest → e.landsWhileBusy = false) := by
  unfold State.landing
  cases s.host with
  | nil => simp
  | cons e rest => cases s.busy <;> cases hl : e.landsWhileBusy <;> simp [hl]

/-- The access that lands is the next one of the queue. -/
theorem landing_some {s : State} {op : HostOp} (h : s.landing = some op) : ∃ e rest, s.host = e :: rest ∧ e.op = op := by
  unfold State.landing at h
  split at h
  · cases h
  · rename_i e rest hh
    split_ifs at h
    simp only [Option.some.injEq] at h
    exact ⟨e, rest, hh, h⟩

/-- The three kinds of step: the unit runs the captured command, an access of the host lands, or nothing happens. -/
theorem step_cases (s : State) :
    (∃ c, s.command = some c ∧ s.landing = none ∧ step s = runCommand c s) ∨
    (∃ e rest, s.host = e :: rest ∧ s.landing = some e.op ∧ step s = hostStep e.op { s with host := rest }) ∨
    (s.command = none ∧ s.host = [] ∧ step s = .next s) := by
  unfold step advance State.landing State.busy
  cases hc : s.command with
  | none =>
    cases hh : s.host with
    | nil => exact .inr (.inr ⟨rfl, rfl, rfl⟩)
    | cons e rest => exact .inr (.inl ⟨e, rest, rfl, by simp, rfl⟩)
  | some c =>
    cases hh : s.host with
    | nil => exact .inl ⟨c, rfl, rfl, rfl⟩
    | cons e rest =>
      cases hl : e.landsWhileBusy with
      | true => exact .inr (.inl ⟨e, rest, rfl, by simp [hl], by simp [hl]⟩)
      | false => exact .inl ⟨c, rfl, by simp [hl], by simp [hl]⟩

/-- What running a captured word does: the command's meaning, or the completion of an illegal word (R87, R140). -/
theorem runCommand_cases (c : Word) (s : State) :
    (∃ i, decode c = .ok i ∧ runCommand c s = exec i s) ∨
    (∃ x, decode c = .error x ∧ runCommand c s = .next (s.begin.finish .illegalCommand)) := by
  unfold runCommand
  cases h : decode c with
  | ok i => exact .inl ⟨i, rfl, rfl⟩
  | error x => exact .inr ⟨x, rfl, rfl⟩

/-- A captured word is run by the very next step where the host is held. -/
theorem step_holdHost {s : State} {c : Word} (h : s.command = some c) : step s.holdHost = runCommand c s.holdHost := by
  rcases step_cases s.holdHost with ⟨c', hc, -, e⟩ | ⟨e, rest, hh, hl, -⟩ | ⟨hc, -⟩
  · rw [show s.holdHost.command = s.command from rfl, h, Option.some.injEq] at hc
    rw [e, hc]
  · have hb : s.holdHost.busy = true := by simp [State.busy, State.holdHost, h]
    have : s.holdHost.landing = none := landing_none.2 (.inr ⟨hb, fun e' r' he => by
      unfold State.holdHost at he
      cases hs : s.host with
      | nil => simp [hs] at he
      | cons d ds => simp only [hs, List.cons.injEq] at he; rw [← he.1]; rfl⟩)
    rw [this] at hl; cases hl
  · rw [show s.holdHost.command = s.command from rfl, h] at hc; cases hc

/-- What the host's side may change without touching the machine: its draws and its log. -/
def OnlyHostLog (s t : State) : Prop := t = { s with hostDraws := t.hostDraws, readLog := t.readLog }

/-- A register read draws at most one free value and changes nothing else (R54). -/
theorem readRegister_onlyHostLog (s : State) (r : WindowReg) : OnlyHostLog s (s.readRegister r).2 := by
  unfold State.readRegister OnlyHostLog
  dsimp only
  split_ifs <;> rfl

/-- A logged load draws one free value and returns one of the bytes it may see. -/
theorem logLoad_eq (s : State) (b : Byte) (bs : List Byte) : ∃ v ∈ b :: bs,
    s.logLoad b bs = { s with hostDraws := s.hostDraws + 1, readLog := BitVec.setWidth 64 v :: s.readLog } :=
  ⟨_, chooseByte_mem b bs _, rfl⟩

/-- A host load changes the count of the host's draws and the log, nothing else. -/
theorem hostLoad_next {a : Word} {s t : State} (h : hostLoad a s = .next t) :
    ∃ v, t = { s with hostDraws := s.hostDraws + 1, readLog := v :: s.readLog } := by
  unfold hostLoad at h
  dsimp only at h
  split at h
  · simp only [Host.Outcome.next.injEq] at h; exact ⟨_, h.symm⟩
  · split at h
    · simp only [Host.Outcome.next.injEq] at h; exact ⟨_, h.symm⟩
    · cases h
    · cases h

/-- The writes a command has made, from those before it and those after it. -/
theorem newWrites_append {s t : State} {ws : List ByteWrite} (h : t.writes = ws ++ s.writes) : newWrites s t = ws := by
  unfold newWrites
  rw [h, List.length_append, Nat.add_sub_cancel, List.take_left]

/-- The oldest `n` of a list that is newest first, in the order they were made. -/
theorem firstWrites_reverse (n : Nat) (ws : List ByteWrite) : firstWrites n ws = (ws.reverse.take n).reverse := by
  cases ws with
  | nil => simp [firstWrites]
  | cons w ws =>
    show (w :: ws).drop _ = _
    rw [List.reverse_take, List.reverse_reverse, List.length_reverse]

/-- A register read of the host changes the model's own fields only (R54). -/
theorem hostRead_next {off : BitVec 14} {w : Nat} {s t : State} (h : hostRead off w s = .next t) :
    ∃ l d ws, t = { s with hostDraws := d, readLog := l, writes := ws } := by
  unfold hostRead at h
  split_ifs at h
  cases hr : regAt s.params off with
  | none => simp only [hr, Host.Outcome.next.injEq] at h; exact ⟨_, _, _, h.symm⟩
  | some r =>
    simp only [hr, Host.Outcome.next.injEq] at h
    have := readRegister_onlyHostLog s r
    unfold OnlyHostLog at this
    rw [this] at h
    unfold State.noteRead State.sync at h
    split_ifs at h <;> exact ⟨_, _, _, h.symm⟩

/-- What no captured word changes, legal or not. -/
theorem runCommand_next {c : Word} {s t : State} (h : runCommand c s = .next t) : OnlyUnit s t ∧ t.command = none := by
  rcases runCommand_cases c s with ⟨i, hd, e⟩ | ⟨x, hd, e⟩
  · exact exec_next (e ▸ h)
  · rw [e] at h; simp only [Host.Outcome.next.injEq] at h
    subst h; exact ⟨onlyUnit_chains.refl s, rfl⟩

/-- A host write that is taken writes the register at its offset, or nothing. -/
theorem hostWrite_next {off : BitVec 14} {w : Nat} {v : Word} {s t : State} (h : hostWrite off w v s = .next t) :
    (regAt s.params off = none ∧ t = s) ∨ ∃ r, regAt s.params off = some r ∧ t = s.writeRegister r v := by
  unfold hostWrite at h
  split_ifs at h
  cases hr : regAt s.params off with
  | none => simp only [hr, Host.Outcome.next.injEq] at h; exact .inl ⟨rfl, h.symm⟩
  | some r => simp only [hr, Host.Outcome.next.injEq] at h; exact .inr ⟨r, rfl, h.symm⟩

end Sys2Proof.Machine
end

