-- ==== Sys2Proof/Tests/Slice0.lean ====
section
/-! SUPPORT. The model's own tests: words written out from spec/30_encoding.md, ill-formed terms, one-step vectors of
spec/95_test_vectors.md (their ids are in the comments), and for every statement with hypotheses a state that meets them. -/

namespace Sys2Proof.Tests

open Sys2Proof.Machine

set_option Elab.async false

/-! ## Encoding -/

/-- CONFIG INT32, bit by bit: OPC 0x01 in bits 7:0, TYPE 0x01 in bits 15:8 (R80, R82; P1). -/
theorem test_decode_config : decode 0b0000000100000001 = .ok (.config 1) := by decide +kernel
/-- TYPE takes all of its 8 bits, wrong types too (R82; CMD-4, CMD-6). -/
theorem test_decode_config_types :
    decode 0x0601 = .ok (.config 6) ∧ decode 0x0401 = .ok (.config 4) ∧ decode 0xFF01 = .ok (.config 0xFF) := by decide +kernel
theorem test_decode_setdata : decode 0b10 = .ok .setdata := by decide +kernel
theorem test_decode_decode : decode 0b11 = .ok .decode := by decide +kernel
/-- CMD-7 to CMD-9. -/
theorem test_decode_reserved_opcodes :
    decode 0 = .error .reservedOpcode ∧ decode 4 = .error .reservedOpcode ∧ decode 0xFF = .error .reservedOpcode := by
  decide +kernel
/-- CMD-10 and CMD-11. -/
theorem test_decode_type_not_zero :
    decode 0x0102 = .error .typeNotZero ∧ decode 0x0603 = .error .typeNotZero := by decide +kernel
/-- CMD-12 and CMD-13. -/
theorem test_decode_reserved_bits :
    decode 0x10003 = .error .reservedBitsSet ∧ decode 0x8000000000000001 = .error .reservedBitsSet := by decide +kernel
/-- R84: match and mask select exactly the row of the word's mnemonic. -/
theorem test_opcode_rows :
    ∀ i ∈ [Instr.config 0, .config 6, .config 0xFF, .setdata, .decode],
      (opcodeRows.filter (·.selects (encode i))).map (·.mnemonic) = [i.mnemonic] := by decide +kernel
theorem test_table_word : decodeTableWord 64 0x0301 = some (.config 3) ∧ decodeTableWord 64 0x0200000003 = none := by decide +kernel

/-! ## Well-formedness, each check with an ill-formed term -/

theorem test_wellFormed_representative : Params.representative.WellFormed := by decide +kernel
theorem test_wellFormed_largest : Params.WellFormed { Params.representative with
    maxMiniBlocks := 1024, prevCap := 2 ^ 32 - 1, dpdBase := 0xFFFFFFFFFFFFC000 } := by decide +kernel
theorem test_illFormed_miniBlocks :
    ¬ Params.WellFormed { Params.representative with maxMiniBlocks := 7 } ∧
    ¬ Params.WellFormed { Params.representative with maxMiniBlocks := 1025 } := by decide +kernel
theorem test_illFormed_prevCap :
    ¬ Params.WellFormed { Params.representative with prevCap := 63 } ∧
    ¬ Params.WellFormed { Params.representative with prevCap := 2 ^ 32 } := by decide +kernel
/-- R6: the two widths differ, a run is whole words, and no value leaves its 64-bit word (59 does, at i = 1: 59 mod 8 = 3). -/
theorem test_illFormed_fastWidths :
    ¬ Params.WellFormed { Params.representative with fastWidthB := 6 } ∧ ¬ fastWidthOk 0 ∧ ¬ fastWidthOk 65 ∧
    ¬ fastWidthOk 7 ∧ ¬ fastWidthOk 62 := by decide +kernel
theorem test_illFormed_dpdBase : ¬ Params.WellFormed { Params.representative with dpdBase := 0x40002000 } := by decide +kernel
/-- REG-9. -/
theorem test_illFormed_hostOps :
    ¬ HostOp.WellFormed (.writeReg 0x008 4 0) ∧ ¬ HostOp.WellFormed (.writeReg 0x004 8 0) ∧
    ¬ HostOp.WellFormed (.readReg 0x008 4) ∧ ¬ HostOp.WellFormed (.readReg 0x004 8) := by decide +kernel

/-! ## One step of each command -/

/-- What a command or a host access answers, if it answers. -/
def answer : Host.Outcome State Fault Refusal → Option State
  | .next t => some t
  | .fault _ => none
  | .refused _ => none

/-- The state after a command. -/
def after (i : Instr) (s : State) : State := (answer (exec i s)).getD s

/-- Reads `n` bytes of memory. -/
def dump (s : State) (a n : Nat) : List Byte := (List.range n).map fun i => s.mem.read (a + i)

/-- Program P1 before its DECODE (INT32, buffer bound, operands set). -/
def p1 : State := { State.reset with
  mode := .int32, arg0 := 5, arg1 := 0x2000, arg2 := 8
  ictx := { IntContext.zero Params.representative with vrem := 5, bufBase := 0x1000, bufLen := 8 }
  bound := ⟨0x1000, 8⟩
  mem := Memory.load [] 0x1000 [0x04, 0x01, 0x05, 0x14, 0x01, 0x03, 0x11, 0x06] }

/-- Program P3 before its SETDATA. -/
def p3 : State := { State.reset with
  mode := .byteArray, arg0 := 3, arg1 := 0x3000, arg2 := 33
  mem := Memory.load [] 0x3000 [0x07, 0, 0, 0, 0x02, 0x01, 0x03, 0, 0, 0x02, 0x03, 0x05, 0, 0, 0, 0x61, 0x70, 0x70, 0x6C, 0x65,
    0x04, 0, 0, 0, 0x69, 0x63, 0x6F, 0x74, 0x01, 0, 0, 0, 0x78] }

/-- Program P3 before its DECODE. -/
def p3d : State := (after .setdata p3).withByteArrayOperands 3 0x4000 0x5000 64

/-- CMD-3, REG-11. -/
theorem test_config : (after (.config 6) State.reset).statusWord = 0x30 := by decide +kernel
/-- CMD-4, REG-12: TYPE 4 is not accepted, and MODE becomes NONE. -/
theorem test_config_wrong_type : (after (.config 4) p1).statusWord = 0x100 := by decide +kernel
/-- SD-5. -/
theorem test_setdata : (after .setdata p3).bctx = ⟨3, 0x300B, 22, 0, [], true, 0⟩ ∧ (after .setdata p3).ictx.bufLen = 7 := by
  decide +kernel
/-- BA-11: three bytes are too short for the length. -/
theorem test_setdata_short : (after .setdata { p3 with arg2 := 3 }).statusWord = 0x232 := by decide +kernel
/-- P1. -/
theorem test_decode_int : (after .decode p1).result = 5 ∧ dump (after .decode p1) 0x2000 20 =
    [0x0A, 0, 0, 0, 0x0A, 0, 0, 0, 0x0B, 0, 0, 0, 0x0A, 0, 0, 0, 0x0C, 0, 0, 0] := by decide +kernel
/-- P3: "apple", "appicot", "appx", and the descriptor of slot 1. -/
theorem test_decode_byteArray : dump (after .decode p3d) 0x5000 16 =
    [0x61, 0x70, 0x70, 0x6C, 0x65, 0x61, 0x70, 0x70, 0x69, 0x63, 0x6F, 0x74, 0x61, 0x70, 0x70, 0x78] ∧
    dump (after .decode p3d) 0x4010 16 = [0x05, 0x50, 0, 0, 0, 0, 0, 0, 0x07, 0, 0, 0, 0, 0, 0, 0] := by decide +kernel
/-- CMD-7: an illegal word. -/
theorem test_illegal_word : (answer (runCommand 0 p1)).map State.statusWord = some 0x810 := by decide +kernel
/-- R90, R87: CONFIG of a named type, of a type code with no meaning, and of a number above 255, whose word is illegal. -/
theorem test_expand_config :
    (Pseudo.config 6).expand = [.writeReg 0x008 8 0x0601, .wait] ∧
    (Pseudo.config 0xFF).expand = [.writeReg 0x008 8 0xFF01, .wait] ∧
    (Pseudo.config 0x106).expand = [.writeReg 0x008 8 0x10601, .wait] ∧ decode 0x10601 = .error .reservedBitsSet ∧
    (Pseudo.config (BitVec.allOnes 56)).expand = [.writeReg 0x008 8 0xFFFFFFFFFFFFFF01, .wait] := by decide +kernel
/-- R90: the expansion of SETDATA, as P1's encoding writes it. -/
theorem test_expand : (Pseudo.setdata 5 0x1000 8).expand =
    [.writeReg 0x010 8 5, .writeReg 0x018 8 0x1000, .writeReg 0x020 8 8, .writeReg 0x008 8 2, .wait] := by decide +kernel
/-- R65, R69: P1's DECODE twice to one array, the second begun before BUSY = 0 was read: a load may see the byte before either; once
BUSY = 0 has been read, none of them. -/
theorem test_unseen_writes :
    let twice := after .decode { (after .decode p1) with ictx := p1.ictx }
    oldAt twice.writes 0x2008 = [0x0B, 0x00] ∧ twice.sync.writes = [] := by decide +kernel
/-- R74: the trial run by which a host load foresees a command makes the choices of the run itself, though the load draws. -/
theorem test_trial_run (s : State) (k : Nat) (a x : Word) (b : Byte) (bs : List Byte) :
    pickedByte (s.logLoad b bs) k a = pickedByte s k a ∧ staleAt (s.logLoad b bs) x = staleAt s x := ⟨rfl, rfl⟩
/-- FP-1's table check: `off = 0`, `sh = 6` for `i = 1`, and `off = 23`, `sh = 2` for `i = 31`, at width 6 (R170). -/
theorem test_fast_table : (fastOff 6 1, fastShift 6 1) = (0, 6) ∧ (fastOff 6 31, fastShift 6 31) = (23, 2) := by decide +kernel
theorem test_reset_memory : State.reset.mem.wf := by decide +kernel

/-! ## For every statement with hypotheses, values that meet them -/

theorem writable_everywhere {s : State} (h : s.params.memDeny = []) (r : Region) : s.writable r := fun a _ => by simp [memOk, h]
theorem readable_everywhere {s : State} (h : s.params.memDeny = []) (h' : s.stale = []) (r : Region) : s.readable r := fun a _ => by
  simp [memOk, staleAt, h, h']
theorem apart_of_overlaps {r q : Region} (h : r.overlaps q = false) : r.apart q := Region.overlaps_eq_false_iff.1 h
theorem regionsApart_of {s : State} (h : anyOverlap s.decodeRegions = false) : s.regionsApart := (s.regionsApart_iff).1 h

/-- What a refused command is refused for. -/
def refusal : Host.Outcome State Fault Refusal → Option Refusal
  | .next _ => none
  | .fault _ => none
  | .refused r => some r

/-- The value, the error and the state of a sub-step. -/
def okValue {α : Type} : EStateM.Result ErrKind State α → Option α
  | .ok a _ => some a
  | .error _ _ => none
def errorKind {α : Type} : EStateM.Result ErrKind State α → Option ErrKind
  | .ok _ _ => none
  | .error e _ => some e
def endState {α : Type} : EStateM.Result ErrKind State α → State
  | .ok _ t => t
  | .error _ t => t

theorem next_of {o : Host.Outcome State Fault Refusal} {P : State → Prop} [DecidablePred P]
    (h : (answer o).any (fun t => decide (P t)) = true) : ∃ t, o = .next t ∧ P t := by
  cases o with
  | next t => exact ⟨t, rfl, by simpa [answer] using h⟩
  | fault f => cases f
  | refused r => simp [answer] at h
theorem next_some {o : Host.Outcome State Fault Refusal} (h : (answer o).isSome = true) : ∃ t, o = .next t := by
  cases o with
  | next t => exact ⟨t, rfl⟩
  | fault f => cases f
  | refused r => simp [answer] at h
theorem next_after {i : Instr} {s : State} (h : (answer (exec i s)).isSome = true) : exec i s = .next (after i s) := by
  obtain ⟨t, e⟩ := next_some h
  unfold after; rw [e]; rfl
theorem refused_of {o : Host.Outcome State Fault Refusal} {r : Refusal} (h : refusal o = some r) : o = .refused r := by
  cases o with
  | next t => simp [refusal] at h
  | fault f => cases f
  | refused q => simpa [refusal] using h
theorem ok_of {α : Type} {x : EStateM.Result ErrKind State α} {a : α} (h : okValue x = some a) : x = .ok a (endState x) := by
  cases x with
  | ok b t => simp only [okValue, Option.some.injEq] at h; rw [h]; rfl
  | error e t => simp [okValue] at h
theorem error_of {α : Type} {x : EStateM.Result ErrKind State α} {e : ErrKind} (h : errorKind x = some e) :
    x = .error e (endState x) := by
  cases x with
  | ok b t => simp [errorKind] at h
  | error k t => simp only [errorKind, Option.some.injEq] at h; rw [h]; rfl

/-- The machine of `p` in a platform that refuses reads of one byte. -/
def denyRead (a : Word) (s : State) : State :=
  { s with params := { s.params with memDeny := [⟨⟨a, 1⟩, .read⟩] } }

/-- The machine in a platform that refuses writes of one byte. -/
def denyWrite (a : Word) (s : State) : State :=
  { s with params := { s.params with memDeny := [⟨⟨a, 1⟩, .write⟩] } }

theorem writable_but {b : Word} {s t : State} (h : t.params = (denyWrite b s).params) {r : Region} (hb : r.contains b = false) :
    t.writable r := fun a ha => by
  have hne : a ≠ b := fun e => by rw [e, hb] at ha; cases ha
  have : ¬ (a - b).toNat < 1 := fun hlt => hne (by
    have : a - b = 0 := BitVec.eq_of_toNat_eq (by simpa using hlt)
    rw [BitVec.sub_eq_iff_eq_add] at this; simpa using this)
  simp only [memOk, h, denyWrite, List.any_cons, List.any_nil, Region.contains, this]; simp

/-- The integer context over the bytes `bs` at 0x1000, INT32. -/
def reader (bs : List Byte) : State := { p1 with
  ictx := { p1.ictx with bufLen := BitVec.ofNat 64 bs.length }
  bound := ⟨0x1000, bs.length⟩
  mem := Memory.load [] 0x1000 bs }

/-- BITPOS at `p`. -/
def atBit (p : Word) (s : State) : State := { s with ictx := { s.ictx with bitpos := p } }

/-- P1 after its first value, 4 deltas of width 3 to come, `n` of them asked for. -/
def p1s (n : Word) : State := { p1 with
  arg0 := n, arg1 := 0x2004
  ictx := { p1.ictx with vrem := 4, last := 10, minDelta := -1, bitw := 3, vcmb := 4, vcb := 5, nmb := 1, vpmb := 4, bitpos := 48
                         width := [3, 0, 0, 0, 0, 0, 0, 0] } }

/-- P2 after its first DECODE: at the end of mini-block 0, with mini-block 1 to come. -/
def p2s : State := { (after .decode { (reader [0x06, 0x02, 0x07, 0xC8, 0x01, 0x07, 0x02, 0x05, 0xD3, 0x27, 0, 0x02, 0x01, 0x03,
    0x09, 0x02, 0x01, 0x01]) with mode := .int64, arg0 := 4 }) with arg0 := 1 }

/-- A machine with the command word `c` captured and no access of the host to come. -/
def busyWith (c : Word) (s : State) : State := { s with command := some c }

/-! Encoding, and the host's side. -/

theorem witness_OpcodeMap : decode 0xFF01 = .ok (.config 0xFF) ∧
    (¬ (4 : Word) &&& 0xFFFFFFFFFFFF00FF = 1 ∧ ¬ (4 : Word) &&& 0xFFFFFFFFFFFFFFFF = 2 ∧
      ¬ (4 : Word) &&& 0xFFFFFFFFFFFFFFFF = 3) := by decide +kernel
theorem witness_IllegalWordsExactly :
    (∃ x, decode 0x00 = .error x) ∧ (∃ x, decode 0x04 = .error x) ∧ (∃ x, decode 0xFF = .error x) ∧
    (∃ x, decode 0x10001 = .error x) ∧ (∃ x, decode 0x0102 = .error x) ∧ ∃ x, decode 0xFF03 = .error x :=
  ⟨⟨.reservedOpcode, by decide +kernel⟩, ⟨.reservedOpcode, by decide +kernel⟩, ⟨.reservedOpcode, by decide +kernel⟩,
    ⟨.reservedBitsSet, by decide +kernel⟩, ⟨.typeNotZero, by decide +kernel⟩, ⟨.typeNotZero, by decide +kernel⟩⟩
theorem witness_StepRunsTheCapturedCommand :
    ((busyWith 0x0003 p1).command = some 0x0003 ∧ (∀ e rest, (busyWith 0x0003 p1).host = e :: rest → e.landsWhileBusy = false) ∧
      decode 0x0003 = .ok .decode) ∧
    ((busyWith 0x0004 p1).command = some 0x0004 ∧ decode 0x0004 = .error .reservedOpcode) ∧
    decodeTableWord 64 0x0601 = some (.config 6) :=
  ⟨⟨rfl, by intro e rest h; simp [busyWith, p1, State.reset, State.resetWith] at h, by decide +kernel⟩, ⟨rfl, by decide +kernel⟩,
    by decide +kernel⟩
theorem witness_StepOfTheHost :
    (∃ s : State, ∃ e rest, s.host = e :: rest ∧ s.command = none) ∧
    (∃ s : State, ∃ e rest, s.host = e :: rest ∧ s.command ≠ none ∧ e.whileBusy = true ∧ e.op ≠ .wait) ∧
    State.reset.command = none ∧ State.reset.host = [] :=
  ⟨⟨{ p1 with host := [⟨false, wr .arg0 5⟩] }, ⟨false, wr .arg0 5⟩, [], rfl, rfl⟩,
    ⟨{ (busyWith 0x0003 p1) with host := [⟨true, .reset⟩] }, ⟨true, .reset⟩, [], rfl, by decide +kernel, rfl, by decide +kernel⟩,
    rfl, rfl⟩
theorem witness_WritesWithBusyClear : State.reset.busy = false := by decide +kernel
theorem witness_WritesWhileBusy :
    (busyWith 0x0003 p1).busy = true ∧
    (∃ t, step { (busyWith 0x0003 p1) with ovr := true } = .next t) ∧
    (∃ t, step { (busyWith 0x0003 p1) with host := [⟨true, .writeReg 0x028 8 0⟩] } = .next t ∧ t.ovr = true) :=
  ⟨by decide +kernel, next_some (by decide +kernel), next_of (by decide +kernel)⟩
theorem witness_RegisterMapIsOneToOne : Params.representative.WellFormed ∧
    regAt Params.representative 0x1038 = some (.width 7) ∧ regAt Params.representative 0x1040 = none ∧
    regAt Params.representative 0x0D0 = some .heapUsed ∧ regAt Params.representative 0x0D8 = none := by decide +kernel
theorem witness_ReadsWithBusyClear : p1.busy = false ∧ p1.failed = false ∧ 7 < p1.params.maxMiniBlocks ∧
    p1.params.maxMiniBlocks ≤ 1024 ∧ State.busy { p1 with failed := true } = false := by decide +kernel
theorem witness_ReadOnlyAndUnmappedOffsets :
    ((0x0D8 : BitVec 14).toNat % 8 = 0 ∧ regAt State.reset.params 0x0D8 = none) ∧
    ((0x000 : BitVec 14).toNat % 8 = 0 ∧ ∀ x ∈ [(0x008 : BitVec 14), 0x010, 0x018, 0x020, 0x028], (0x000 : BitVec 14) ≠ x) :=
  ⟨by decide, by decide, by intro x hx; simp only [List.mem_cons, List.not_mem_nil, or_false] at hx; rcases hx with rfl | rfl | rfl | rfl | rfl <;> decide⟩
theorem witness_ReadsHaveNoSideEffect : (0x030 : BitVec 14).toNat % 8 = 0 ∧ (busyWith 0x0003 p1).busy = true := by decide +kernel

/-- A failed state, and one that differs from it in VREM. -/
def failed1 : State := { p1 with failed := true }

theorem witness_FailedContextIsNeverObserved :
    AgreeAfterFailure failed1 { failed1 with ictx := { failed1.ictx with vrem := 77 } } ∧
    (∃ t, step failed1 = .next t) ∧
    (∃ r, step { (busyWith 0x0002 failed1) with arg1 := 0x40000000 } = .refused r) :=
  ⟨⟨rfl, rfl⟩, next_some (by decide +kernel), ⟨.regionsOverlap, refused_of (by decide +kernel)⟩⟩
theorem witness_WindowAccessForm :
    ¬ (4 = 8 ∧ (0x008 : BitVec 14).toNat % 8 = 0) ∧ ¬ (8 = 8 ∧ (0x004 : BitVec 14).toNat % 8 = 0) ∧
    (8 = 8 ∧ (0x3FF8 : BitVec 14).toNat % 8 = 0) := by decide +kernel
/-- A load after P1's DECODE, before and after BUSY = 0 was read; and while it runs, of a byte that it will write. -/
theorem witness_CompletionMakesWritesVisible : (after .decode p1).busy = false ∧ (after .decode p1).command = none ∧
    (∃ t, hostRead 0x030 8 (after .decode p1) = .next t) ∧ (∃ t, hostStep .wait (after .decode p1) = .next t) ∧
    (∃ w ∈ (after .decode p1).writes, w.addr = 0x2000 ∧ w.old = 0) ∧
    (busyWith 0x0003 p1).command = some 0x0003 ∧
    ∃ r, runCommand 0x0003 (busyWith 0x0003 p1) = .next r ∧ (∃ w ∈ r.writes, w.addr = 0x2000 ∧ w.new = 0x0A) ∧
      r.writes = r.writes ++ (busyWith 0x0003 p1).writes := by
  refine ⟨by decide +kernel, by decide +kernel, next_some (by decide +kernel), ⟨_, rfl⟩, by decide +kernel, rfl, ?_⟩
  obtain ⟨r, h, hw⟩ := next_of (o := runCommand 0x0003 (busyWith 0x0003 p1))
    (P := fun r => ∃ w ∈ r.writes, w.addr = 0x2000 ∧ w.new = 0x0A) (by decide +kernel)
  exact ⟨r, h, hw, by rw [show (busyWith 0x0003 p1).writes = [] from rfl, List.append_nil]⟩
/-- One store and three to a byte. -/
theorem witness_RacingBytes : memOk p1.params 0x1000 .read = true ∧ p1.mem.wf ∧ (0x1001 : Word) ≠ 0x1000 ∧
    staleAt (hostStore 0x1000 7 p1) 0x1000 = [0x04] ∧
    staleAt (hostStore 0x1000 9 (hostStore 0x1000 8 (hostStore 0x1000 7 p1))) 0x1000 = [8, 7, 0x04] := by decide +kernel

/-! CONFIG and SETDATA. -/

theorem bufferAllowed_p1 : State.bufferAllowed { p1 with arg1 := 0x1000 } :=
  ⟨apart_of_overlaps (by decide +kernel), by simp [p1, State.reset, State.resetWith, Params.representative]⟩
theorem bufferAllowed_p3 (n : Word) (h : Region.overlaps ⟨0x3000, n.toNat⟩ (windowRegion Params.representative) = false) :
    State.bufferAllowed { p3 with arg2 := n } :=
  ⟨apart_of_overlaps h, by simp [p3, State.reset, State.resetWith, Params.representative]⟩

theorem witness_SetdataInt : p1.mode = .int32 ∧ State.bufferAllowed { p1 with arg1 := 0x1000 } ∧
    State.bufferAllowed { p1 with arg1 := 0x1000, mode := .int64 } := ⟨rfl, bufferAllowed_p1, bufferAllowed_p1⟩
/-- BA-10; a length of 0 in a buffer of 4 bytes (BA-9's length); BA-14: the length is all that the buffer leaves. -/
theorem witness_SetdataByteArray :
    (p3.mode = .byteArray ∧ State.bufferAllowed { p3 with arg2 := 0 }) ∧
    (State.bufferAllowed { p3 with arg2 := 4 } ∧ State.holds { p3 with arg2 := 4, mem := [] } 0x3000 [0, 0, 0, 0] ∧
      leValue [0, 0, 0, 0] ≤ (4 : Word).toNat - 4) ∧
    (State.bufferAllowed { p3 with arg2 := 11 } ∧ State.holds { p3 with arg2 := 11 } 0x3000 [7, 0, 0, 0] ∧
      leValue [7, 0, 0, 0] = (11 : Word).toNat - 4) :=
  ⟨⟨rfl, bufferAllowed_p3 0 (by decide +kernel)⟩,
    ⟨bufferAllowed_p3 4 (by decide +kernel), by unfold State.holds; decide +kernel, by decide +kernel⟩,
    ⟨bufferAllowed_p3 11 (by decide +kernel), by unfold State.holds; decide +kernel, by decide +kernel⟩⟩
/-- BA-11 (1 and 3 bytes), SD-6, and a length one beyond the buffer. -/
theorem witness_SetdataByteArrayErrors :
    (State.bufferAllowed { p3 with arg2 := 1 } ∧ State.bufferAllowed { p3 with arg2 := 3 }) ∧
    ((denyRead 0x3003 p3).mode = .byteArray ∧ (denyRead 0x3003 p3).bufferAllowed ∧ 4 ≤ (denyRead 0x3003 p3).arg2.toNat ∧
      ∃ i < 4, memOk (denyRead 0x3003 p3).params ((denyRead 0x3003 p3).arg1 + BitVec.ofNat 64 i) .read = false) ∧
    (State.bufferAllowed { p3 with arg2 := 10 } ∧ State.holds { p3 with arg2 := 10 } 0x3000 [7, 0, 0, 0] ∧
      (10 : Word).toNat - 4 < leValue [7, 0, 0, 0]) :=
  ⟨⟨bufferAllowed_p3 1 (by decide +kernel), bufferAllowed_p3 3 (by decide +kernel)⟩,
    ⟨rfl, bufferAllowed_p3 33 (by decide +kernel), by decide +kernel, 3, by decide +kernel, by decide +kernel⟩,
    ⟨bufferAllowed_p3 10 (by decide +kernel), by unfold State.holds; decide +kernel, by decide +kernel⟩⟩
theorem witness_StateErrors : State.reset.mode = .none ∧ failed1.failed = true ∧ failed1.mode = .int32 := ⟨rfl, rfl, rfl⟩
theorem witness_OnlyTheseRefusals :
    exec .decode { p1 with arg1 := 0x1004 } = .refused .regionsOverlap ∧
    exec .setdata { p1 with arg1 := 0x1000, params := { p1.params with readEffects := [⟨0x1007, 1⟩] } } =
      .refused .bufferReadEffects := ⟨refused_of (by decide +kernel), refused_of (by decide +kernel)⟩
theorem witness_ErrorKindsOfEachCommand :
    (∃ t, exec (.config 4) p1 = .next t) ∧ (∃ t, exec .setdata State.reset = .next t ∧ t.errcode = .stateError) ∧
    (∃ t, exec .setdata { p3 with arg2 := 3 } = .next t ∧ t.errcode = .eofError) ∧
    (∃ t, exec .decode p1 = .next t ∧ t.errcode = .none) ∧
    (∃ t, exec .decode { p1 with arg0 := 9, ictx := { p1.ictx with vrem := 9 } } = .next t ∧ t.errcode = .eofError) :=
  ⟨next_some (by decide +kernel), next_of (by decide +kernel), next_of (by decide +kernel), next_of (by decide +kernel), next_of (by decide +kernel)⟩
theorem witness_WhatCommandsLeaveAlone : (∃ t, exec (.config 1) p1 = .next t) ∧ (∃ t, exec .setdata p3 = .next t) ∧
    ∃ t, exec .decode p3d = .next t := ⟨next_some (by decide +kernel), next_some (by decide +kernel), next_some (by decide +kernel)⟩
theorem witness_DecodeRecord :
    (∃ t, exec .decode failed1 = .next t ∧ t.errcode = .stateError) ∧
    (∃ t, exec .decode p1 = .next t ∧ t.errcode = .none) ∧ (∃ t, exec .decode (denyRead 0x1006 p1) = .next t ∧ t.errcode = .busError) ∧
    (∃ t, exec .decode p3d = .next t ∧ t.errcode = .none) ∧
    (∃ t, exec .decode { p3d with arg3 := 11 } = .next t ∧ t.errcode = .capacityError) :=
  ⟨next_of (by decide +kernel), next_of (by decide +kernel), next_of (by decide +kernel), next_of (by decide +kernel),
    next_of (by decide +kernel)⟩
theorem witness_DecodeOfNoValues :
    (State.regionsApart { p1 with arg0 := 0 } ∧ p1.failed = false) ∧
    (State.regionsApart { p1 with ictx := { p1.ictx with vrem := 0 } }) ∧
    (p3d.mode = .byteArray ∧ p3d.failed = false ∧ State.regionsApart { p3d with arg0 := 0 }) ∧
    State.regionsApart { p3d with bctx := { p3d.bctx with baVrem := 0 } } :=
  ⟨⟨regionsApart_of (by decide +kernel), rfl⟩, regionsApart_of (by decide +kernel),
    ⟨by decide +kernel, by decide +kernel, regionsApart_of (by decide +kernel)⟩, regionsApart_of (by decide +kernel)⟩

/-! The bit reader, on the buffer `11 06` of BR-1. -/

def br : State := reader [0x11, 0x06]

/-- BR-2, BR-3 (the last bit of the buffer), and a read of a byte that the platform refuses. -/
theorem witness_ReadBits :
    8 * (atBit 15 br).ictx.bufLen.toNat < (atBit 15 br).ictx.bitpos.toNat + 2 ∧
    ((atBit 15 br).ictx.bitpos.toNat + 1 ≤ 8 * (atBit 15 br).ictx.bufLen.toNat ∧ (atBit 15 br).ictx.bitpos.toNat + 1 < 2 ^ 64 ∧
      (∀ q < 16, 15 ≤ q → memOk (atBit 15 br).params ((atBit 15 br).bitAddr q) .read = true ∧
        staleAt (atBit 15 br) ((atBit 15 br).bitAddr q) = [])) ∧
    memOk (denyRead 0x1001 br).params ((denyRead 0x1001 br).bitAddr 8) .read = false := by decide +kernel
/-- The end of the buffer (BR-4), in a mini-block of width 0, with the sum at the bottom of s32. -/
def atEnd : State :=
  { atBit 16 br with ictx := { (atBit 16 br).ictx with last := BitVec.ofInt 64 (-(2 ^ 31) + 1), minDelta := BitVec.ofInt 64 (-1) } }
theorem witness_ReadBitsOfWidthZero :
    atEnd.ictx.bitpos.toNat = 8 * atEnd.ictx.bufLen.toNat ∧ atEnd.ictx.bitw = 0 ∧
    -(2 ^ 31 : Int) = atEnd.ictx.last.toInt + atEnd.ictx.minDelta.toInt := by decide +kernel
/-- BR-6, BR-5 (the last whole byte), and a refused byte. -/
theorem witness_AlignedByte :
    8 * br.ictx.bufLen.toNat < 8 * (((atBit 9 br).ictx.bitpos.toNat + 7) / 8) + 8 ∧
    8 * (((atBit 3 br).ictx.bitpos.toNat + 7) / 8) + 8 = 8 * br.ictx.bufLen.toNat ∧
    (memOk br.params 0x1001 .read = true ∧ staleAt br 0x1001 = []) ∧ memOk (denyRead 0x1001 br).params 0x1001 .read = false := by
  decide +kernel

def ffs : List Byte := [0xFF, 0xFF, 0xFF, 0xFF, 0xFF, 0xFF, 0xFF, 0xFF, 0xFF]

theorem isVarint_of {bs : List Byte} {v : Nat} (h : bs ≠ [] ∧ bs.length ≤ 10 ∧
    (∀ i (h : i < bs.length), 0x80 ≤ bs[i].toNat ↔ i + 1 < bs.length) ∧ (bs.getD 9 0).toNat ≤ 1 ∧ v = groupValue bs) :
    IsVarint bs v := ⟨h.1, h.2.1, h.2.2.1, fun h9 => by simpa [List.getD_eq_getElem?_getD, h9] using h.2.2.2.1, h.2.2.2.2⟩

/-- VU-5 (ten bytes), VU-3 (not the shortest form), VU-8 (the buffer ends), VU-6 (the tenth byte is 2), and a refused second byte. -/
theorem witness_VarUInt :
    ((reader (ffs ++ [0x01])).holds 0x1000 (ffs ++ [0x01]) ∧ IsVarint (ffs ++ [0x01]) (2 ^ 64 - 1) ∧
      0 + (ffs ++ [0x01]).length ≤ (reader (ffs ++ [0x01])).ictx.bufLen.toNat) ∧
    IsVarint [0x80, 0x00] 0 ∧
    ((reader [0x80]).holds 0x1000 [0x80] ∧ 0 + [(0x80 : Byte)].length = (reader [0x80]).ictx.bufLen.toNat) ∧
    ((reader (ffs ++ [0x02])).holds 0x1000 (ffs ++ [0x02]) ∧ (∀ i < 9, 0x80 ≤ ((ffs ++ [0x02]).getD i 0).toNat) ∧ 1 < ((ffs ++ [0x02]).getD 9 0).toNat) ∧
    (let s := denyRead 0x1001 (reader [0x80, 0x00]);
      s.holds 0x1000 [0x80] ∧ 0 + [(0x80 : Byte)].length < s.ictx.bufLen.toNat ∧
        memOk s.params (s.ictx.bufBase + BitVec.ofNat 64 (0 + [(0x80 : Byte)].length)) .read = false) :=
  ⟨⟨by unfold State.holds; decide +kernel, isVarint_of (by decide +kernel), by decide +kernel⟩, isVarint_of (by decide +kernel),
    ⟨by unfold State.holds; decide +kernel, by decide +kernel⟩, ⟨by unfold State.holds; decide +kernel, by decide +kernel⟩,
    by unfold State.holds; decide +kernel⟩
/-- ZZ-5; ZZ-7; the cut varint of VU-8. -/
theorem witness_ZigZagMapping : (∃ t, varUInt (reader [0x14]) = .ok 20 t) ∧ 2 ^ 64 - 1 < 2 ^ 64 ∧
    (-(2 ^ 63 : Int) ≤ -(2 ^ 63 : Int) ∧ -(2 ^ 63 : Int) < 2 ^ 63) ∧ ∃ t, varUInt (reader [0x80]) = .error .eofError t :=
  ⟨⟨_, ok_of (by decide +kernel)⟩, by decide, by decide, ⟨_, error_of (by decide +kernel)⟩⟩
theorem witness_DecodeReadsOnlyTheBoundBuffer : BufferInvariant p1 ∧
    (∀ a, p1.bound.contains a = true → (Memory.write p1.mem 0x2000 0xAA).read a.toNat = p1.mem.read a.toNat) ∧
    (∃ t, exec .decode p1 = .next t) :=
  ⟨⟨rfl, rfl⟩, fun a h => Memory.read_write_other _ (fun e => by
    have : a = 0x2000 := BitVec.eq_of_toNat_eq e
    subst this; revert h; decide +kernel) _, next_some (by decide +kernel)⟩

/-! Integer DECODE. -/

/-- P1 with a running value so large that the next delta, 1, takes it to 2^31. -/
def p1big : State := { (p1s 1) with ictx := { (p1s 1).ictx with last := 0x7FFFFFFE, minDelta := 1 } }

/-- A delta that runs past the buffer (as in INT-12), one that ends with it, one that overflows (as in INT-10), and one whose byte is
refused (INT-21). -/
theorem witness_DeltaRead :
    (8 * (atBit 62 (p1s 1)).ictx.bufLen.toNat < (atBit 62 (p1s 1)).ictx.bitpos.toNat + (p1s 1).ictx.bitw.toNat) ∧
    ((atBit 61 (p1s 1)).ictx.bitpos.toNat + (p1s 1).ictx.bitw.toNat = 8 * (p1s 1).ictx.bufLen.toNat ∧
      (∀ q < 64, 61 ≤ q → memOk (p1s 1).params ((p1s 1).bitAddr q) .read = true ∧ staleAt (p1s 1) ((p1s 1).bitAddr q) = []) ∧
      -(2 ^ 31 : Int) ≤ (p1s 1).ictx.last.toInt + (p1s 1).ictx.minDelta.toInt + ((p1s 1).rawAt 61 3 : Int) ∧
      (p1s 1).ictx.last.toInt + (p1s 1).ictx.minDelta.toInt + ((p1s 1).rawAt 61 3 : Int) < (2 ^ 31 : Int)) ∧
    (p1big.ictx.bitpos.toNat + p1big.ictx.bitw.toNat ≤ 8 * p1big.ictx.bufLen.toNat ∧
      (2 ^ 31 : Int) ≤ p1big.ictx.last.toInt + p1big.ictx.minDelta.toInt + (p1big.rawAt 48 3 : Int)) ∧
    (let s := denyRead 0x1006 (p1s 1);
      s.ictx.bitpos.toNat + s.ictx.bitw.toNat ≤ 8 * s.ictx.bufLen.toNat ∧ s.ictx.bitpos.toNat = 48 ∧ 0 < s.ictx.bitw.toNat ∧
        memOk s.params (s.bitAddr 48) .read = false) := by decide +kernel
/-- P1 at its second value; P2 at its fifth; P1 at its first, and a block at its end. -/
theorem witness_SlotGoesOneOfThreeWays :
    (p1s 1).ictx.vcmb ≠ 0 ∧ (p2s.ictx.vcmb = 0 ∧ p2s.ictx.mbidx.toNat + 1 < p2s.ictx.nmb.toNat) ∧
    (p1.ictx.vcmb = 0 ∧ p1.ictx.mbidx.toNat + 1 < 2 ^ 64 ∧ p1.ictx.nmb.toNat ≤ p1.ictx.mbidx.toNat + 1) := by decide +kernel

/-- P1's header is a header. -/
theorem isHeader_p1 : IsHeader [0x04, 0x01, 0x05, 0x14, 0x01, 0x03] 4 1 5 10 (-1) [0x03] :=
  ⟨[0x04], [0x01], [0x05], [0x14], [0x01], isVarint_of (by decide +kernel), isVarint_of (by decide +kernel),
    isVarint_of (by decide +kernel), isVarint_of (by decide +kernel), isVarint_of (by decide +kernel), rfl⟩
theorem isHeader_of {b n c f m : Byte} {ws : List Byte} {fv md : Int} (h : b.toNat < 0x80 ∧ n.toNat < 0x80 ∧ c.toNat < 0x80 ∧
    f.toNat < 0x80 ∧ m.toNat < 0x80) (hf : unzz fv = f.toNat) (hm : unzz md = m.toNat) :
    IsHeader ([b, n, c, f, m] ++ ws) b.toNat n.toNat c.toNat fv md ws := by
  have one : ∀ (x : Byte), x.toNat < 0x80 → IsVarint [x] x.toNat := fun x hx =>
    ⟨by simp, by simp, fun i hi => by
      have : i = 0 := by simpa using hi
      subst this; simp; omega, fun h => absurd h (by simp), by simp [groupValue]; omega⟩
  exact ⟨[b], [n], [c], [f], [m], one _ h.1, one _ h.2.1, one _ h.2.2.1, hf ▸ one _ h.2.2.2.1, hm ▸ one _ h.2.2.2.2, by simp⟩
theorem witness_HeaderRead :
    IsHeader [0x04, 0x01, 0x05, 0x14, 0x01, 0x03] 4 1 5 10 (-1) [0x03] ∧
    p1.holds (p1.ictx.bufBase + BitVec.ofNat 64 0) [0x04, 0x01, 0x05, 0x14, 0x01, 0x03] ∧
    0 = (p1.ictx.bitpos.toNat + 7) / 8 ∧ 0 + 6 ≤ p1.ictx.bufLen.toNat ∧ 1 ≤ p1.params.maxMiniBlocks ∧
    (∀ w ∈ [(0x03 : Byte)], w.toNat ≤ 64) :=
  ⟨isHeader_p1, by unfold State.holds; decide +kernel, by decide +kernel, by decide +kernel, by decide +kernel, by decide +kernel⟩
/-- A header at the beginning of a buffer that holds nothing else. -/
def HeaderIn (bytes ws : List Byte) (bs nmb vcb : Nat) (fv md : Int) : Prop :=
  IsHeader bytes bs nmb vcb fv md ws ∧ (reader bytes).holds ((reader bytes).ictx.bufBase + BitVec.ofNat 64 0) bytes ∧
    0 = ((reader bytes).ictx.bitpos.toNat + 7) / 8 ∧ 0 + bytes.length ≤ (reader bytes).ictx.bufLen.toNat ∧
    8 * (0 + bytes.length) < 2 ^ 64

/-- Whole varints and the bytes `r` of the next one, at the beginning of the buffer of `s`. -/
def VarintCutIn (s : State) (whole : List (List Byte)) (r : List Byte) : Prop :=
  whole.length < 5 ∧ (∀ f ∈ whole, ∃ v, IsVarint f v) ∧ 0 = (s.ictx.bitpos.toNat + 7) / 8 ∧
    s.holds (s.ictx.bufBase + BitVec.ofNat 64 0) (whole.flatten ++ r) ∧
    0 + (whole.flatten ++ r).length ≤ s.ictx.bufLen.toNat ∧ 8 * (0 + (whole.flatten ++ r).length) < 2 ^ 64 ∧
    ∀ i (h : i < r.length), i < 9 → 0x80 ≤ r[i].toNat
theorem whole_p1 (k : Nat) : ∀ f ∈ [[(0x04 : Byte)], [0x01], [0x05], [0x14]].take k, ∃ v, IsVarint f v := fun f h => by
  have h := List.mem_of_mem_take h
  simp only [List.mem_cons, List.not_mem_nil, or_false] at h
  rcases h with rfl | rfl | rfl | rfl <;> exact ⟨_, isVarint_of ⟨by decide, by decide, by decide, by decide, rfl⟩⟩

/-- INT-11 (the buffer ends inside the first value), L1-3 (inside the count of mini-blocks), an empty buffer, a first value whose second byte is refused,
a block size of ten bytes that is too long; the width table cut after its first byte, and its second byte refused. -/
theorem witness_HeaderErrors_read :
    (VarintCutIn (reader [0x04, 0x01, 0x05, 0x94]) ([[0x04], [0x01], [0x05], [0x14]].take 3) [0x94] ∧
      0 + 4 = (reader [0x04, 0x01, 0x05, 0x94]).ictx.bufLen.toNat) ∧
    (VarintCutIn (reader [0x04, 0x81]) ([[0x04], [0x01], [0x05], [0x14]].take 1) [0x81] ∧
      0 + 2 = (reader [0x04, 0x81]).ictx.bufLen.toNat) ∧
    (VarintCutIn (reader []) ([[0x04], [0x01], [0x05], [0x14]].take 0) [] ∧ 0 + 0 = (reader []).ictx.bufLen.toNat) ∧
    (let s := denyRead 0x1004 (reader [0x04, 0x01, 0x05, 0x94, 0x00]);
      VarintCutIn s ([[0x04], [0x01], [0x05], [0x14]].take 3) [0x94] ∧ 0 + 4 < s.ictx.bufLen.toNat ∧
        memOk s.params (s.ictx.bufBase + BitVec.ofNat 64 (0 + 4)) .read = false) ∧
    (VarintCutIn (reader (ffs ++ [0x02])) ([[0x04], [0x01], [0x05], [0x14]].take 0) (ffs ++ [0x02]) ∧
      (ffs ++ [0x02]).length = 10 ∧ 1 < ((ffs ++ [0x02]).getD 9 0).toNat) ∧
    (HeaderIn [0x04, 0x02, 0x00, 0x00, 0x00, 0x01] [0x01] 4 2 0 0 0 ∧ [(0x01 : Byte)].length < 2 ∧
      0 + 6 = (reader [0x04, 0x02, 0x00, 0x00, 0x00, 0x01]).ictx.bufLen.toNat) ∧
    (let s := denyRead 0x1006 (reader [0x04, 0x02, 0x00, 0x00, 0x00, 0x01, 0x01]);
      s.holds (s.ictx.bufBase + BitVec.ofNat 64 0) [0x04, 0x02, 0x00, 0x00, 0x00, 0x01] ∧ 0 + 6 < s.ictx.bufLen.toNat ∧
        memOk s.params (s.ictx.bufBase + BitVec.ofNat 64 (0 + 6)) .read = false) :=
  ⟨⟨⟨by decide, whole_p1 3, by unfold State.holds; decide +kernel⟩, by decide +kernel⟩,
    ⟨⟨by decide, whole_p1 1, by unfold State.holds; decide +kernel⟩, by decide +kernel⟩,
    ⟨⟨by decide, whole_p1 0, by unfold State.holds; decide +kernel⟩, by decide +kernel⟩,
    ⟨⟨by decide, whole_p1 3, by unfold State.holds; decide +kernel⟩, by decide +kernel⟩,
    ⟨⟨by decide, whole_p1 0, by unfold State.holds; decide +kernel⟩, by decide +kernel⟩,
    ⟨⟨isHeader_of (ws := [0x01]) (by decide) rfl rfl, by unfold State.holds; decide +kernel⟩, by decide +kernel⟩,
    by unfold State.holds; decide +kernel⟩

/-- INT-1 and INT-3 (the counts 0 and MAX_MINI_BLOCKS + 1), INT-4, INT-5, INT-6 (the width 65), INT-7, INT-8 (the first value 2^31): each
check with its bytes. -/
theorem witness_HeaderErrors :
    HeaderIn [0x04, 0x00, 0x00, 0x00, 0x00] [] 4 0 0 0 0 ∧
    (HeaderIn [0x09, 0x09, 0x00, 0x00, 0x00] [] 9 9 0 0 0 ∧ Params.representative.maxMiniBlocks < 9) ∧
    HeaderIn [0x00, 0x01, 0x00, 0x00, 0x00] [] 0 1 0 0 0 ∧ (HeaderIn [0x05, 0x02, 0x00, 0x00, 0x00] [] 5 2 0 0 0 ∧ 5 % 2 ≠ 0) ∧
    HeaderIn [0x04, 0x01, 0x00, 0x00, 0x00, 0x41] [0x41] 4 1 0 0 0 ∧
    (HeaderIn [0x04, 0x02, 0x00, 0x00, 0x00, 0x01, 0x41] [0x01, 0x41] 4 2 0 0 0 ∧
      ∃ w us, [(0x01 : Byte), 0x41] = us ++ [w] ∧ (∀ u ∈ us, u.toNat ≤ 64) ∧ 64 < w.toNat) ∧
    (HeaderIn [0x04, 0x01, 0x00, 0x80, 0x80, 0x80, 0x80, 0x10, 0x00, 0x00] [0x00] 4 1 0 (2 ^ 31) 0 ∧
      ¬ ((2 ^ 31 : Int) < 2 ^ (8 * 4 - 1))) :=
  ⟨⟨isHeader_of (by decide) rfl rfl, by unfold State.holds; decide +kernel⟩,
    ⟨⟨isHeader_of (by decide) rfl rfl, by unfold State.holds; decide +kernel⟩, by decide⟩,
    ⟨isHeader_of (by decide) rfl rfl, by unfold State.holds; decide +kernel⟩,
    ⟨⟨isHeader_of (by decide) rfl rfl, by unfold State.holds; decide +kernel⟩, by decide⟩,
    ⟨isHeader_of (ws := [0x41]) (by decide) rfl rfl, by unfold State.holds; decide +kernel⟩,
    ⟨⟨isHeader_of (ws := [0x01, 0x41]) (by decide) rfl rfl, by unfold State.holds; decide +kernel⟩, 0x41, [0x01], rfl, by decide,
      by decide⟩,
    ⟨⟨⟨[0x04], [0x01], [0x00], [0x80, 0x80, 0x80, 0x80, 0x10], [0x00], isVarint_of (by decide +kernel), isVarint_of (by decide +kernel),
      isVarint_of (by decide +kernel), isVarint_of (by decide +kernel), isVarint_of (by decide +kernel), rfl⟩,
      by unfold State.holds; decide +kernel⟩, by decide⟩⟩
theorem witness_DecodeEntersTheNextMiniBlock :
    p2s.mode = .int64 ∧ p2s.arg0 ≠ 0 ∧ p2s.ictx.vrem ≠ 0 ∧ p2s.ictx.vcmb = 0 ∧ p2s.ictx.mbidx.toNat + 1 < p2s.ictx.nmb.toNat ∧
    p2s.ictx.vpmb ≠ 0 ∧ p2s.failed = false := by decide +kernel

/-- P1 before a DECODE of one value. -/
def p1one : State := { p1 with arg0 := 1 }

theorem apart_p1 (n : Word) (h : anyOverlap (State.decodeRegions { p1 with arg0 := n }) = false) :
    State.regionsApart { p1 with arg0 := n } := regionsApart_of h
theorem witness_DecodeOfAFirstValue :
    p1one.mode = .int32 ∧ p1one.failed = false ∧ p1one.mem.wf ∧ p1one.regionsApart ∧ BufferInvariant p1one ∧
    p1one.writable p1one.outArray ∧ p1one.intCount = 1 ∧ p1one.ictx.vcmb = 0 ∧ p1one.ictx.mbidx.toNat + 1 < 2 ^ 64 ∧
    p1one.ictx.nmb.toNat ≤ p1one.ictx.mbidx.toNat + 1 ∧
    p1one.holds (p1one.ictx.bufBase + BitVec.ofNat 64 0) [0x04, 0x01, 0x05, 0x14, 0x01, 0x03] ∧
    -(2 ^ (8 * p1one.mode.esize - 1) : Int) ≤ 10 ∧ 10 < (2 ^ (8 * p1one.mode.esize - 1) : Int) :=
  ⟨rfl, rfl, by decide +kernel, apart_p1 1 (by decide +kernel), ⟨rfl, rfl⟩, writable_everywhere rfl _, by decide +kernel,
    by decide +kernel, by decide +kernel, by decide +kernel, by unfold State.holds; decide +kernel, by decide +kernel,
    by decide +kernel⟩
/-- All four deltas of P1's mini-block: `n = VCMB`, the bound's value. -/
theorem witness_DecodeInsideAMiniBlock :
    (p1s 4).mode = .int32 ∧ (p1s 4).failed = false ∧ (p1s 4).mem.wf ∧ (p1s 4).regionsApart ∧ BufferInvariant (p1s 4) ∧
    (p1s 4).intCount = (p1s 4).ictx.vcmb.toNat ∧
    (p1s 4).ictx.bitpos.toNat + 4 * (p1s 4).ictx.bitw.toNat ≤ 8 * (p1s 4).ictx.bufLen.toNat ∧ (p1s 4).readable (p1s 4).bound ∧
    (p1s 4).writable (p1s 4).outArray ∧
    (∀ k < 4, -(2 ^ (8 * (p1s 4).mode.esize - 1) : Int) ≤ (p1s 4).running (k + 1) ∧
      (p1s 4).running (k + 1) < (2 ^ (8 * (p1s 4).mode.esize - 1) : Int)) :=
  ⟨by decide +kernel, by decide +kernel, by decide +kernel, regionsApart_of (by decide +kernel), ⟨by decide +kernel, by decide +kernel⟩,
    by decide +kernel, by decide +kernel, readable_everywhere (by decide +kernel) (by decide +kernel) _,
    writable_everywhere (by decide +kernel) _, by decide +kernel⟩
theorem witness_DecodeIntCompletes :
    p1.failed = false ∧ p1.mem.wf ∧ p1.regionsApart ∧ BufferInvariant p1 ∧ p1.writable p1.outArray ∧
    ∃ u, intValues p1.mode.esize p1.intCount p1 = .ok [10, 10, 11, 10, 12] u :=
  ⟨rfl, by decide +kernel, regionsApart_of (by decide +kernel), ⟨rfl, rfl⟩, writable_everywhere rfl _, ⟨_, ok_of (by decide +kernel)⟩⟩

/-- INT-17: one value more than the stream has. -/
def p1seven : State := { p1 with arg0 := 7, ictx := { p1.ictx with vrem := 7 } }

/-- INT-17; INT-20: the write of slot 2 fails at its second byte; a write that fails at slot 0's first byte. -/
theorem witness_DecodeIntIsPrecise :
    (p1seven.failed = false ∧ p1seven.mem.wf ∧ p1seven.regionsApart ∧ BufferInvariant p1seven ∧ 5 < p1seven.intCount ∧
      p1seven.writable ⟨p1seven.arg1, p1seven.mode.esize * 5 + 0⟩ ∧
      ∃ u w, intValues p1seven.mode.esize 5 p1seven = .ok [10, 10, 11, 10, 12] u ∧
        ideNext p1seven.mode.esize u = .error .eofError w) ∧
    (let s := denyWrite 0x2009 p1;
      s.failed = false ∧ s.mem.wf ∧ s.regionsApart ∧ BufferInvariant s ∧ 2 < s.intCount ∧
      s.writable ⟨s.arg1, s.mode.esize * 2 + 1⟩ ∧ (∃ u, intValues s.mode.esize (2 + 1) s = .ok [10, 10, 11] u) ∧ 1 < s.mode.esize ∧
      memOk s.params (s.arg1 + BitVec.ofNat 64 (s.mode.esize * 2 + 1)) .write = false) ∧
    (let s := denyWrite 0x2000 p1;
      s.writable ⟨s.arg1, s.mode.esize * 0 + 0⟩ ∧ (∃ u, intValues s.mode.esize (0 + 1) s = .ok [10] u) ∧
      memOk s.params (s.arg1 + BitVec.ofNat 64 (s.mode.esize * 0 + 0)) .write = false) :=
  ⟨⟨rfl, by decide +kernel, regionsApart_of (by decide +kernel), ⟨rfl, rfl⟩, by decide +kernel, writable_everywhere rfl _,
      _, _, ok_of (by decide +kernel), error_of (by decide +kernel)⟩,
    ⟨rfl, by decide +kernel, regionsApart_of (by decide +kernel), ⟨rfl, rfl⟩, by decide +kernel, writable_but rfl (by decide +kernel),
      ⟨_, ok_of (by decide +kernel)⟩, by decide +kernel, by decide +kernel⟩,
    ⟨writable_but rfl (by decide +kernel), ⟨_, ok_of (by decide +kernel)⟩, by decide +kernel⟩⟩
/-- INT-20: the write of slot 2 fails at its second byte. -/
theorem witness_DecodeIntFrame : (∃ t, exec .decode p1 = .next t) ∧
    ∃ t, exec .decode (denyWrite 0x2009 p1) = .next t ∧ t.errcode = .busError := ⟨next_some (by decide +kernel), next_of (by decide +kernel)⟩
/-- 5 values as 2 and 3, and as 5 and 3 more than are left. -/
theorem witness_IncrementalDecoding :
    p1.mem.wf ∧ BufferInvariant p1 ∧
    (∃ s1 s2 t, exec .decode (p1.withOperands 2 0x2000) = .next s1 ∧ s1.errcode = .none ∧
      exec .decode (s1.withOperands 3 0x3000) = .next s2 ∧ s2.errcode = .none ∧
      exec .decode (p1.withOperands (2 + 3) 0x4000) = .next t ∧ t.errcode = .none) ∧
    ∃ s1 s2, exec .decode (p1.withOperands 5 0x2000) = .next s1 ∧ exec .decode (s1.withOperands 3 0x3000) = .next s2 ∧
      s2.errcode = .none :=
  ⟨by decide +kernel, ⟨rfl, rfl⟩,
    ⟨_, _, _, next_after (by decide +kernel), by decide +kernel, next_after (by decide +kernel), by decide +kernel,
      next_after (by decide +kernel), by decide +kernel⟩,
    ⟨_, _, next_after (by decide +kernel), next_after (by decide +kernel), by decide +kernel⟩⟩

/-- FP-1 after its first DECODE. -/
def fp1 : State := { (after .decode { (reader [0x20, 0x01, 0x21, 0xD0, 0x0F, 0x13, 0x06, 0xC0, 0xE1, 0x54, 0xDC, 0xA8, 0xC6, 0xF8, 0x6F,
    0x34, 0xD4, 0x26, 0xA6, 0xF0, 0xED, 0x17, 0xCC, 0xA4, 0x85, 0xE8, 0x6B, 0xF7, 0xC4, 0x22, 0x65]) with
    mode := .int64, arg0 := 1, ictx := { (reader (List.replicate 31 0)).ictx with vrem := 33 } }) with arg0 := 32, arg1 := 0x2008 }

theorem witness_FastUnpack : fastWidthOk 6 ∧ fastWidthOk 8 ∧ 56 % 8 = 0 ∧
    ∀ x < 4 * 6, memOk fp1.params (fp1.bitAddr 56 + BitVec.ofNat 64 x) .read = true ∧
      staleAt fp1 (fp1.bitAddr 56 + BitVec.ofNat 64 x) = [] := by decide +kernel
theorem witness_FastPathEquivalence : fp1.params.WellFormed ∧ fp1.mode = .int64 ∧ fastEligible fp1 = true ∧
    8 * fp1.ictx.bufLen.toNat < 2 ^ 64 ∧ fp1.stale = [] ∧ (∃ t, fastDecode32 fp1 = .ok () t) :=
  ⟨by decide +kernel, by decide +kernel, by decide +kernel, by decide +kernel, by decide +kernel, ⟨_, ok_of (by decide +kernel)⟩⟩

/-! Byte-array DECODE. -/

/-- P3's suffix sub-stream with the cursor at `pos`, and `len` bytes long. -/
def sufAt (pos len : Word) : State := { p3 with bctx := ⟨3, 0x300B, len, pos, [], true, 0⟩ }

/-- P3's first record; the last one ends at the sub-stream's end; BA-7, BA-8 and a refused byte. -/
theorem witness_SuffixRecord :
    (sufAt 19 22).bctx.sufLen.toNat < (sufAt 19 22).bctx.sufPos.toNat + 4 ∧
    ((sufAt 0 22).holds 0x300B [5, 0, 0, 0] ∧ (sufAt 0 22).holds (0x300B + 4) [0x61, 0x70, 0x70, 0x6C, 0x65]) ∧
    ((sufAt 17 22).holds (0x300B + 17) [1, 0, 0, 0] ∧
      (sufAt 17 22).bctx.sufPos.toNat + 4 + leValue [1, 0, 0, 0] = (sufAt 17 22).bctx.sufLen.toNat) ∧
    ((sufAt 0 8).bctx.sufPos.toNat + 4 ≤ (sufAt 0 8).bctx.sufLen.toNat ∧
      (sufAt 0 8).bctx.sufLen.toNat < (sufAt 0 8).bctx.sufPos.toNat + 4 + leValue [5, 0, 0, 0]) ∧
    memOk (denyRead 0x300E p3).params (0x300B + BitVec.ofNat 64 3) .read = false ∧
    memOk (denyRead 0x3013 p3).params (0x300B + 4 + BitVec.ofNat 64 4) .read = false := by
  unfold State.holds; decide +kernel

/-- The byte-array context in slot 0 of a DECODE of `p3d`, in slot 1, and what they find there; a prefix header cut by the buffer's end,
and a suffix sub-stream cut inside its first length (BA-7) and inside its first suffix (BA-8). -/
theorem witness_ValueOfASlot :
    (∃ u w, ideNext 4 p3d = .ok 0 u ∧
      suffixNext { u with ictx := { u.ictx with vrem := u.ictx.vrem - 1 } } = .ok [0x61, 0x70, 0x70, 0x6C, 0x65] w ∧
      w.bctx.first = true ∧ 5 ≤ w.params.prevCap ∧ w.bctx.heapUsed.toNat + 5 = (5 : Word).toNat) ∧
    (let s := after .decode { p3d with arg0 := 1 }
      ∃ u w, ideNext 4 s = .ok 3 u ∧
        suffixNext { u with ictx := { u.ictx with vrem := u.ictx.vrem - 1 } } = .ok [0x69, 0x63, 0x6F, 0x74] w ∧
        w.bctx.first = false ∧ (3 : Int) ≤ (w.bctx.prev.length : Int) ∧ (11 : Word).toNat < w.bctx.heapUsed.toNat + 7) ∧
    (let s : State := { (after .decode { p3d with arg0 := 1 }) with bctx := { (after .decode { p3d with arg0 := 1 }).bctx with
        prev := [0x61, 0x70] } }
      ∃ u w, ideNext 4 s = .ok 3 u ∧
        suffixNext { u with ictx := { u.ictx with vrem := u.ictx.vrem - 1 } } = .ok [0x69, 0x63, 0x6F, 0x74] w ∧
        w.bctx.first = false ∧ (w.bctx.prev.length : Int) < 3) ∧
    (∃ u, ideNext 4 { p3d with ictx := { p3d.ictx with bufLen := 3 } } = .error .eofError u) ∧
    (∀ n ∈ [(3 : Word), 8], ∃ u w, ideNext 4 { p3d with bctx := { p3d.bctx with sufLen := n } } = .ok 0 u ∧
      suffixNext { u with ictx := { u.ictx with vrem := u.ictx.vrem - 1 } } = .error .eofError w) :=
  ⟨⟨_, _, ok_of (by decide +kernel), ok_of (by decide +kernel), by decide +kernel, by decide +kernel, by decide +kernel⟩,
    ⟨_, _, ok_of (by decide +kernel), ok_of (by decide +kernel), by decide +kernel, by decide +kernel, by decide +kernel⟩,
    ⟨_, _, ok_of (by decide +kernel), ok_of (by decide +kernel), by decide +kernel, by decide +kernel⟩,
    ⟨_, error_of (by decide +kernel)⟩, fun n h => by
      simp only [List.mem_cons, List.not_mem_nil, or_false] at h
      rcases h with rfl | rfl <;> exact ⟨_, _, ok_of (by decide +kernel), error_of (by decide +kernel)⟩⟩
theorem bufferInvariant_p3d : BufferInvariant p3d := by
  have h : p3d.mode = .byteArray := by decide +kernel
  simp only [BufferInvariant, h]
  exact .inr (by decide +kernel)
theorem witness_DecodeByteArrayCompletes :
    p3d.mode = .byteArray ∧ p3d.failed = false ∧ p3d.mem.wf ∧ p3d.regionsApart ∧ BufferInvariant p3d ∧
    p3d.writable p3d.descArray ∧ p3d.writable p3d.heapArea ∧
    ∃ u, baValues p3d.arg3 p3d.baCount { p3d with bctx := { p3d.bctx with heapUsed := 0 } } = .ok
      [[0x61, 0x70, 0x70, 0x6C, 0x65], [0x61, 0x70, 0x70, 0x69, 0x63, 0x6F, 0x74], [0x61, 0x70, 0x70, 0x78]] u :=
  ⟨by decide +kernel, by decide +kernel, by decide +kernel, regionsApart_of (by decide +kernel), bufferInvariant_p3d,
    writable_everywhere (by decide +kernel) _, writable_everywhere (by decide +kernel) _, ⟨_, ok_of (by decide +kernel)⟩⟩
theorem bufferInvariant_deny (b : Word) : BufferInvariant (denyWrite b p3d) := by
  have h : (denyWrite b p3d).mode = .byteArray := by show p3d.mode = _; decide +kernel
  simp only [BufferInvariant, h]
  have := bufferInvariant_p3d
  have h3 : p3d.mode = .byteArray := by decide +kernel
  simp only [BufferInvariant, h3] at this
  exact this

/-- BA-5's kind (a heap of 11 bytes, where slot 1 needs 12); a write of slot 1 that fails in the heap at the first and at the last byte
of its value, and in its descriptor at the first and at the last byte. -/
theorem witness_DecodeByteArrayIsPrecise :
    (let s : State := { p3d with arg3 := 11 };
      s.mode = .byteArray ∧ s.failed = false ∧ s.mem.wf ∧ s.regionsApart ∧ BufferInvariant s ∧ 1 < s.baCount ∧
      s.writable ⟨s.arg1, 16 * 1 + 0⟩ ∧ s.writable ⟨s.arg2, 5 + 0⟩ ∧
      ∃ u w, baValues s.arg3 1 { s with bctx := { s.bctx with heapUsed := 0 } } = .ok [[0x61, 0x70, 0x70, 0x6C, 0x65]] u ∧
        baValue s.arg3 u = .error .capacityError w) ∧
    (∀ b ∈ [(0x5005 : Word), 0x500B, 0x4010, 0x401F], ∀ s, s = denyWrite b p3d →
      s.mode = .byteArray ∧ s.failed = false ∧ s.mem.wf ∧ anyOverlap s.decodeRegions = false ∧ BufferInvariant s ∧ 1 < s.baCount ∧
      ∃ u w, baValues s.arg3 1 { s with bctx := { s.bctx with heapUsed := 0 } } = .ok [[0x61, 0x70, 0x70, 0x6C, 0x65]] u ∧
        baValue s.arg3 u = .ok [0x61, 0x70, 0x70, 0x69, 0x63, 0x6F, 0x74] w) ∧
    ((denyWrite 0x500B p3d).writable ⟨p3d.arg1, 16 * 1 + 0⟩ ∧ (denyWrite 0x500B p3d).writable ⟨p3d.arg2, 5 + 6⟩ ∧
      memOk (denyWrite 0x500B p3d).params (p3d.arg2 + BitVec.ofNat 64 (5 + 6)) .write = false) ∧
    ((denyWrite 0x401F p3d).writable ⟨p3d.arg1, 16 * 1 + 15⟩ ∧ (denyWrite 0x401F p3d).writable ⟨p3d.arg2, 5 + 7⟩ ∧
      memOk (denyWrite 0x401F p3d).params (p3d.arg1 + BitVec.ofNat 64 (16 * 1 + 15)) .write = false) := by
  refine ⟨⟨by decide +kernel, by decide +kernel, by decide +kernel, regionsApart_of (by decide +kernel), ?_, by decide +kernel,
      writable_everywhere (by decide +kernel) _, writable_everywhere (by decide +kernel) _,
      ⟨_, _, ok_of (by decide +kernel), error_of (by decide +kernel)⟩⟩, ?_,
    ⟨writable_but rfl (by decide +kernel), writable_but rfl (by decide +kernel), by decide +kernel⟩,
    ⟨writable_but rfl (by decide +kernel), writable_but rfl (by decide +kernel), by decide +kernel⟩⟩
  · exact bufferInvariant_p3d
  · intro b hb s hs
    subst hs
    simp only [List.mem_cons, List.not_mem_nil, or_false] at hb
    rcases hb with rfl | rfl | rfl | rfl <;>
      exact ⟨by decide +kernel, by decide +kernel, by decide +kernel, by decide +kernel, bufferInvariant_deny _, by decide +kernel,
        ⟨_, _, ok_of (by decide +kernel), ok_of (by decide +kernel)⟩⟩
/-- BA-13. -/
theorem witness_IncrementalByteArrayDecoding :
    p3d.mem.wf ∧ BufferInvariant p3d ∧
    ∃ s1 s2 t, exec .decode (p3d.withByteArrayOperands 2 0x4000 0x5000 64) = .next s1 ∧ s1.errcode = .none ∧
      exec .decode (s1.withByteArrayOperands 2 0x4100 0x5100 64) = .next s2 ∧ s2.errcode = .none ∧
      exec .decode (p3d.withByteArrayOperands (2 + 2) 0x6000 0x7000 16) = .next t ∧ t.errcode = .none :=
  ⟨by decide +kernel, bufferInvariant_p3d,
    ⟨_, _, _, next_after (by decide +kernel), by decide +kernel, next_after (by decide +kernel), by decide +kernel,
      next_after (by decide +kernel), by decide +kernel⟩⟩
theorem witness_DecodeByteArrayFrame : (∃ t, exec .decode p3d = .next t) ∧
    ∃ t, exec .decode (denyWrite 0x4018 p3d) = .next t ∧ t.errcode = .busError := ⟨next_some (by decide +kernel), next_of (by decide +kernel)⟩

/-! Memory, reset, and the whole machine. -/

theorem witness_MemoryPrimitives : p1.mem.wf ∧ 16 ≤ 16 ∧
    (∀ i < 16, memOk p1.params (0xFFFFFFFFFFFFFFF8 + BitVec.ofNat 64 i) .write = true) ∧
    p1.readable ⟨0xFFFFFFFFFFFFFFF8, 16⟩ ∧
    ((∀ i < 9, memOk (denyWrite 0x2009 p1).params (0x2000 + BitVec.ofNat 64 i) .write = true) ∧
      memOk (denyWrite 0x2009 p1).params (0x2000 + BitVec.ofNat 64 9) .write = false) :=
  ⟨by decide +kernel, by decide, by decide +kernel, readable_everywhere rfl rfl _, by decide +kernel⟩
theorem witness_WriteSequence : ∃ t, exec .decode p3d = .next t ∧ t.writes ≠ [] := next_of (by decide +kernel)
theorem witness_ResetWhileIdle : (after .decode p1).command = none := by decide +kernel
/-- ERR-6. -/
theorem witness_ResetDuringACommand : (busyWith 0x0003 p1).command = some 0x0003 ∧ (busyWith 0x0003 p1).writes = [] ∧
    (∃ t, runCommand 0x0003 (busyWith 0x0003 p1) = .next t ∧ t.writes.length = 20) ∧
    ∃ r, runCommand 0x0003 (busyWith 0x0003 { p1 with arg1 := 0x1004 }) = .refused r :=
  ⟨rfl, rfl, next_of (by decide +kernel), .regionsOverlap, refused_of (by decide +kernel)⟩
theorem witness_InvariantAtReset : Params.representative.WellFormed := by decide +kernel
theorem machineInvariant_p1 : MachineInvariant p1 where
  params := by decide +kernel
  mem := by decide +kernel
  table := by decide +kernel
  unused _ := rfl
  buffer := ⟨rfl, rfl⟩
  context _ := ⟨by decide +kernel, .inl (by decide +kernel), fun h => absurd h (by decide +kernel), fun _ => by decide +kernel,
    fun h => absurd h (by decide +kernel), by decide +kernel, by decide +kernel⟩
  support _ := ⟨by decide +kernel, fun h => absurd h (by decide +kernel), fun h => absurd h (by decide +kernel)⟩
theorem witness_InvariantKept : MachineInvariant p1 ∧ MachineInvariant (busyWith 0x0003 p1) ∧
    ∃ t, step (busyWith 0x0003 p1) = .next t :=
  ⟨machineInvariant_p1,
    { params := machineInvariant_p1.params, mem := machineInvariant_p1.mem, table := machineInvariant_p1.table
      unused := machineInvariant_p1.unused, buffer := machineInvariant_p1.buffer
      context := fun h => by obtain ⟨a, b, c, d, e, f, g⟩ := machineInvariant_p1.context h; exact ⟨a, b, c, d, e, f, g⟩
      support := fun h => by obtain ⟨a, b, c⟩ := machineInvariant_p1.support h; exact ⟨a, b, c⟩ },
    next_some (by decide +kernel)⟩
/-- A command's completion, a host write, and a reset that lands. -/
theorem witness_OnlyTheseEventsChange :
    (∃ t, step (busyWith 0x0003 p1) = .next t ∧ (busyWith 0x0003 p1).landing = none ∧ t.busy = false) ∧ p1.errcode ≠ .notImplemented ∧
    (∃ t, step { p1 with host := [⟨false, wr .arg3 7⟩] } = .next t ∧ t.arg3 = 7) ∧
    State.landing { p1 with host := [⟨false, wr .arg3 7⟩] } = some (wr .arg3 7) ∧
    State.landing { (busyWith 0x0003 p1) with host := [⟨false, .reset⟩] } = none ∧
    State.landing { (busyWith 0x0003 p1) with host := [⟨true, .reset⟩] } = some .reset :=
  ⟨next_of (by decide +kernel), by decide +kernel, next_of (by decide +kernel), by decide +kernel, by decide +kernel, by decide +kernel⟩

end Sys2Proof.Tests
end

/-! # Proofs of the statements of spec/00_scope.md -/

namespace Sys2Proof.Machine

/-! ## The invariant at reset -/

/-- R50 (a) to (g) at reset: no block, no value, no sub-stream, an empty PREV. -/
theorem contextInvariant_reset (p : Params) : ContextInvariant (State.resetWith p) where
  cursor := Nat.zero_le _
  block := .inl ⟨rfl, rfl, rfl⟩
  width h := absurd h (Nat.not_succ_le_zero 0)
  last _ := by
    show -(2 ^ 31 : Int) ≤ (0 : Word).toInt ∧ (0 : Word).toInt < 2 ^ 31
    decide
  counts h := nomatch h
  suffix := Nat.zero_le _
  prev := Nat.zero_le _

/-- What R50 rests on, at reset: the width table is all 0. -/
theorem contextSupport_reset (p : Params) : ContextSupport (State.resetWith p) where
  widths w hw := by rw [List.eq_of_mem_replicate hw]; decide
  values h := absurd h (Nat.not_succ_le_zero 0)
  empty h := nomatch h

/-- Settles O58: every field of the invariant, of the reset state. -/
theorem invariantAtReset : Obligations.InvariantAtReset := fun p hp =>
  { params := hp
    mem := Memory.wf_nil
    table := List.length_replicate
    unused := fun _ => rfl
    buffer := ⟨rfl, rfl⟩
    context := fun _ => contextInvariant_reset p
    support := fun _ => contextSupport_reset p }

/-! ## What a step runs -/

/-- With a command running and no access of the host that lands before it, the step runs the captured word (R8). -/
theorem step_runs {s : State} {c : Word} (hc : s.command = some c) (hl : s.landing = none) : step s = runCommand c s := by
  rcases step_cases s with ⟨c', hc', -, h⟩ | ⟨e, rest, -, hl', -⟩ | ⟨hc', -⟩
  · rw [h, Option.some.inj (hc.symm.trans hc')]
  · exact nomatch hl.symm.trans hl'
  · exact nomatch hc.symm.trans hc'

theorem runCommand_legal {c : Word} {i : Instr} (h : decode c = .ok i) (s : State) : runCommand c s = exec i s := by
  unfold runCommand; rw [h]

/-- An illegal word completes with ILLEGAL_COMMAND, which is not fatal, and RESULT = 0 (R140, R232). -/
theorem runCommand_illegal {c : Word} {x : IllegalWord} (h : decode c = .error x) (s : State) :
    runCommand c s = .next { s with result := 0, errcode := .illegalCommand, command := none } := by
  have hf : (s.failed || ErrKind.illegalCommand.fatal) = s.failed := Bool.or_false _
  unfold runCommand
  rw [h]
  simp only [execIllegal, complete_raise, State.finish, State.begin, hf]

theorem decodeTableWord_some {nbits w : Nat} {i : Instr} (h : decodeTableWord nbits w = some i) :
    decode (tableWord nbits w) = .ok i := by
  unfold decodeTableWord at h
  split at h
  next j hj => rw [hj, Option.some.inj h]
  next => cases h

/-- Settles O5: no access lands, so the step runs the captured word; and `withFetchWord` captures the word and holds the host. -/
theorem stepRunsTheCapturedCommand : Obligations.StepRunsTheCapturedCommand := by
  refine ⟨fun s c hc hh => ?_, fun s nbits w i hi => ?_⟩
  · have hl : s.landing = none := landing_none.2 (.inr ⟨by rw [State.busy, hc]; rfl, hh⟩)
    rw [step_runs hc hl]
    exact ⟨fun i hi => runCommand_legal hi s, fun x hx => runCommand_illegal hx s⟩
  · have hc : (s.capture (tableWord nbits w)).command = some (tableWord nbits w) := rfl
    exact (step_holdHost hc).trans (runCommand_legal (decodeTableWord_some hi) _)

/-- An access that lands is the step. -/
theorem step_lands {s : State} {e : HostEvent} {rest : List HostEvent} (hh : s.host = e :: rest) (hl : s.landing ≠ none) :
    step s = hostStep e.op { s with host := rest } := by
  rcases step_cases s with ⟨c, -, hl', -⟩ | ⟨e', rest', hh', -, h⟩ | ⟨-, hh', -⟩
  · exact absurd hl' hl
  · obtain ⟨rfl, rfl⟩ := List.cons.inj (hh.symm.trans hh')
    exact h
  · exact nomatch hh.symm.trans hh'

/-- Settles O6: which access lands, by whether a command runs; with neither, the step is the idle one. -/
theorem stepOfTheHost : Obligations.StepOfTheHost := by
  refine fun s => ⟨fun e rest hh hland => step_lands hh ?_, fun hc hh => ?_⟩
  · simp only [State.landing, hh]
    rcases hland with hc | ⟨hw, hop⟩
    · simp [State.busy, hc]
    · simp [HostEvent.landsWhileBusy, hw, hop]
  · rcases step_cases s with ⟨c, hc', -⟩ | ⟨e, rest, hh', -⟩ | ⟨-, -, h⟩
    · exact nomatch hc.symm.trans hc'
    · exact nomatch hh.symm.trans hh'
    · exact h

/-! ## Little-endian writes (R11, R61) -/

/-- Byte `i` of a number stored little-endian. -/
theorem leBytes_getElem {n i : Nat} (v : Nat) (h : i < (leBytes n v).length) :
    (leBytes n v)[i] = BitVec.ofNat 8 (v / 2 ^ (8 * i)) := by
  induction n generalizing v i with
  | zero => exact absurd h (Nat.not_lt_zero _)
  | succ n ih =>
    cases i with
    | zero => simp [leBytes]
    | succ i =>
      have e : 2 ^ (8 * (i + 1)) = 256 * 2 ^ (8 * i) := by ring
      simp only [leBytes, List.getElem_cons_succ]
      rw [ih, Nat.div_div_eq_div_mul, e]

/-- A region is writable where each of its offsets is. -/
theorem State.writable_of_offsets {s : State} {a : Word} {n : Nat}
    (h : ∀ i < n, memOk s.params (a + BitVec.ofNat 64 i) .write = true) : s.writable ⟨a, n⟩ := fun x hx => by
  rw [Region.eq_offset ⟨a, n⟩ x]
  exact h _ (Region.contains_iff.1 hx)

/-- Bytes that memory holds in a readable region are read as they stand. -/
theorem State.holds_of_bytesAt {s : State} {a : Word} {bs : List Byte} (hb : s.bytesAt a bs) (hr : s.readable ⟨a, bs.length⟩) :
    s.holds a bs := fun i hi => ⟨hb i hi, hr _ (Region.contains_offset (r := ⟨a, bs.length⟩) hi)⟩

/-- Settles O54: `memWrite_ok` where every byte can be written, `memWriteBytes_stops` at the first that cannot. -/
theorem memoryPrimitives : Obligations.MemoryPrimitives := by
  intro s a n v hm hn
  refine ⟨fun hw => ?_, fun j hj hok hbad => ?_⟩
  · obtain ⟨t, ht, hst, -, hb, hout⟩ := memWrite_ok (v := v) (State.writable_of_offsets hw) hm (by omega)
    refine ⟨t, ht, hst, fun i hi => ?_, hout, fun hr => ?_⟩
    · rw [hb i (by rwa [leBytes_length]), leBytes_getElem]
    · have hrt : t.readable ⟨a, (leBytes n v).length⟩ := by rw [leBytes_length, hst]; exact hr
      rw [memRead_holds (State.holds_of_bytesAt hb hrt) (leBytes_length n v).symm, leValue_leBytes, Nat.pow_mul]
  · obtain ⟨t, ht, hb, hout⟩ := memWriteBytes_stops (bs := leBytes n v) hm (by rw [leBytes_length]; omega) j
      (by rwa [leBytes_length]) hok hbad
    refine ⟨t, ht, fun i hi => ?_, hout⟩
    rw [hb i (by rw [List.length_take, leBytes_length]; omega), List.getElem_take, leBytes_getElem]

end Sys2Proof.Machine

namespace Sys2Proof.Machine

/-! ## Two runs of a DECODE that differ in memory outside the bound buffer (R128)

`Mirror` holds of the two states all along the runs: they differ in memory outside the buffer only, and have written the same bytes to
the same addresses. Reads keep it by `Twin`, writes because the output regions are apart from the buffer (R73). -/

variable {α β : Type} {B : Region} {ws₀ : List ByteWrite} {s t u v : State}

/-- Both lists of writes extend `ws₀`, by writes of the same bytes to the same addresses in the same order. -/
def SameWrites (ws₀ l l' : List ByteWrite) : Prop :=
  ∃ ws ws', l = ws ++ ws₀ ∧ l' = ws' ++ ws₀ ∧ ws'.map (fun w => (w.addr, w.new)) = ws.map fun w => (w.addr, w.new)

theorem SameWrites.refl (ws₀ : List ByteWrite) : SameWrites ws₀ ws₀ ws₀ := ⟨[], [], rfl, rfl, rfl⟩

/-- One more write on each side; what it replaces may differ. -/
theorem SameWrites.cons {l l' : List ByteWrite} (h : SameWrites ws₀ l l') (a : Word) (b o o' : Byte) :
    SameWrites ws₀ (⟨a, o, b⟩ :: l) (⟨a, o', b⟩ :: l') := by
  obtain ⟨ws, ws', rfl, rfl, h⟩ := h
  exact ⟨⟨a, o, b⟩ :: ws, ⟨a, o', b⟩ :: ws', rfl, rfl, by simp only [List.map_cons, h]⟩

/-- Two states that differ in memory outside `B` only, `B` holding all that slots read, and that have written alike since `ws₀`. -/
structure Mirror (B : Region) (ws₀ : List ByteWrite) (s t : State) : Prop where
  same : OnlyMemory s t
  area : ∀ a, s.readArea a → B.contains a = true
  mem : ∀ a, B.contains a = true → t.mem.read a.toNat = s.mem.read a.toNat
  writes : SameWrites ws₀ s.writes t.writes

/-- What does not look at memory or the writes is the same of both. -/
theorem Mirror.blind (h : Mirror B ws₀ s t) {f : State → α} (hf : ∀ s m ws, f { s with mem := m, writes := ws } = f s) :
    f t = f s := by
  have same := h.same
  unfold OnlyMemory at same
  rw [same, hf]

theorem Mirror.twin (h : Mirror B ws₀ s t) : Twin s t where
  params := h.blind fun _ _ _ => rfl
  ictx := h.blind fun _ _ _ => rfl
  bctx := h.blind fun _ _ _ => rfl
  stale := h.blind fun _ _ _ => rfl
  draws := h.blind fun _ _ _ => rfl
  mem a ha := h.mem a (h.area a ha)

/-- An update that neither looks at memory and the writes nor changes them, and leaves the buffers, keeps the two alike. -/
theorem Mirror.map (h : Mirror B ws₀ s t) (f : State → State)
    (hf : ∀ s m ws, f { s with mem := m, writes := ws } = { f s with mem := m, writes := ws })
    (ha : ∀ a, (f s).readArea a → s.readArea a) : Mirror B ws₀ (f s) (f t) := by
  have same := h.same
  unfold OnlyMemory at same
  have hs : f s = { f s with mem := s.mem, writes := s.writes } := hf s s.mem s.writes
  have ht : f t = { f s with mem := t.mem, writes := t.writes } := by rw [same, hf]
  refine ⟨?_, fun a h' => h.area a (ha a h'), ?_, ?_⟩
  · unfold OnlyMemory; rw [ht]
  · rw [hs, ht]; exact h.mem
  · rw [hs, ht]; exact h.writes

/-! ### Sub-steps that end alike from two states -/

/-- From `s` and from `t` the sub-step ends in the same value or the same error, in states that `R` relates. -/
def EndsAlike (R : State → State → Prop) (m : Sub α) (s t : State) : Prop :=
  (∀ a u, m s = .ok a u → ∃ v, m t = .ok a v ∧ R u v) ∧ (∀ e u, m s = .error e u → ∃ v, m t = .error e v ∧ R u v)

section
variable {R : State → State → Prop}

theorem EndsAlike.pure (h : R s t) (a : α) : EndsAlike R (pure a : Sub α) s t :=
  ⟨fun _ _ e => by cases e; exact ⟨t, rfl, h⟩, fun _ _ e => nomatch e⟩

theorem EndsAlike.bind {x : Sub α} {f : α → Sub β} (hx : EndsAlike R x s t)
    (hf : ∀ a u v, x s = .ok a u → R u v → EndsAlike R (f a) u v) : EndsAlike R (x >>= f) s t := by
  refine ⟨fun b w h => ?_, fun e w h => ?_⟩
  · obtain ⟨a, u, h1, h2⟩ := Sub.bind_ok_iff.1 h
    obtain ⟨v, h3, hv⟩ := hx.1 a u h1
    obtain ⟨w', h4, hw⟩ := (hf a u v h1 hv).1 b w h2
    exact ⟨w', Sub.bind_ok_iff.2 ⟨a, v, h3, h4⟩, hw⟩
  · rcases Sub.bind_error_iff.1 h with h1 | ⟨a, u, h1, h2⟩
    · obtain ⟨w', h3, hw⟩ := hx.2 e w h1
      exact ⟨w', Sub.bind_error_iff.2 (.inl h3), hw⟩
    · obtain ⟨v, h3, hv⟩ := hx.1 a u h1
      obtain ⟨w', h4, hw⟩ := (hf a u v h1 hv).2 e w h2
      exact ⟨w', Sub.bind_error_iff.2 (.inr ⟨a, v, h3, h4⟩), hw⟩

end

/-- A look at what is the same of both states gives one value. -/
theorem Mirror.look_bind (h : Mirror B ws₀ s t) {f : State → α} {g : α → Sub β}
    (hf : ∀ s m ws, f { s with mem := m, writes := ws } = f s) (hg : EndsAlike (Mirror B ws₀) (g (f s)) s t) :
    EndsAlike (Mirror B ws₀) (look f >>= g) s t := by
  have e : (look f >>= g) t = g (f s) t := by rw [Sys2Proof.Machine.look_bind, h.blind hf]
  exact ⟨fun a u hu => e ▸ hg.1 a u hu, fun k u hu => e ▸ hg.2 k u hu⟩

theorem Mirror.update (h : Mirror B ws₀ s t) {f : State → State}
    (hf : ∀ s m ws, f { s with mem := m, writes := ws } = { f s with mem := m, writes := ws })
    (ha : ∀ a, (f s).readArea a → s.readArea a) : EndsAlike (Mirror B ws₀) (update f) s t :=
  ⟨fun _ _ e => by cases e; exact ⟨f t, rfl, h.map f hf ha⟩, fun _ _ e => nomatch e⟩

/-! ### Reads -/

/-- What finding the value of a slot leaves alone: everything but the contexts and the count of draws, and the two buffers too. -/
def OnlyContexts (s t : State) : Prop :=
  t = { s with
    ictx := { t.ictx with bufBase := s.ictx.bufBase, bufLen := s.ictx.bufLen }
    bctx := { t.bctx with sufBase := s.bctx.sufBase, sufLen := s.bctx.sufLen }
    draws := t.draws }

theorem onlyContexts_chains : Chains OnlyContexts where
  refl _ := rfl
  trans {s t u} h1 h2 := by unfold OnlyContexts at *; rw [h2, h1]

theorem Unchanged.onlyContexts (h : Unchanged s t) : OnlyContexts s t := by
  unfold Unchanged at h; rw [h]; exact onlyContexts_chains.refl s

theorem OnlyIntSlot.onlyContexts (h : OnlyIntSlot s t) : OnlyContexts s t := by
  unfold OnlyIntSlot OnlyContexts at *; rw [h]

theorem OnlyContexts.mem (h : OnlyContexts s t) : t.mem = s.mem := by unfold OnlyContexts at h; rw [h]

theorem OnlyContexts.writes (h : OnlyContexts s t) : t.writes = s.writes := by unfold OnlyContexts at h; rw [h]

theorem OnlyContexts.readArea (h : OnlyContexts s t) (a : Word) : t.readArea a ↔ s.readArea a := by
  unfold OnlyContexts at h; rw [h]; rfl

theorem suffixNext_onlyContexts : Sub.Leaves OnlyContexts suffixNext := by
  have c := onlyContexts_chains
  exact .bind c (.look c _) fun pos => .bind c (.look c _) fun size => .bind c (.look c _) fun base =>
    .bind c (.raiseIf c _ _) fun _ => .bind c ((memRead_leaves _ _).mono fun _ _ => Unchanged.onlyContexts) fun m =>
    .bind c (.raiseIf c _ _) fun _ => .bind c ((memReadBytes_leaves _ _).mono fun _ _ => Unchanged.onlyContexts) fun suf =>
    .bind c (.update fun s => rfl) fun _ => .pure c _

theorem baValue_onlyContexts (cap : Word) : Sub.Leaves OnlyContexts (baValue cap) := by
  have c := onlyContexts_chains
  have pre : Sub.Leaves OnlyContexts prefixNext :=
    .bind c ((ideNext_leaves 4).mono fun _ _ => OnlyIntSlot.onlyContexts) fun p =>
      .bind c (.update fun s => rfl) fun _ => .pure c _
  exact .bind c pre fun p => .bind c suffixNext_onlyContexts fun suf =>
    .bind c ((reconstruct_leaves p suf).mono fun _ _ => Unchanged.onlyContexts) fun v =>
    .bind c ((checkCapacity_leaves _ cap).mono fun _ _ => Unchanged.onlyContexts) fun _ => .pure c _

/-- Where twins have come by reads alone. -/
theorem Mirror.of_twin (h : Mirror B ws₀ s t) (hs : OnlyContexts s u) (ht : OnlyContexts t v) (huv : Twin u v) :
    Mirror B ws₀ u v where
  same := by
    have same := h.same
    unfold OnlyMemory OnlyContexts at *
    rw [ht, huv.ictx, huv.bctx, huv.draws, same, hs]
  area a ha := h.area a ((hs.readArea a).1 ha)
  mem := by rw [hs.mem, ht.mem]; exact h.mem
  writes := by rw [hs.writes, ht.writes]; exact h.writes

/-- A sub-step that only reads ends alike where twins do. -/
theorem Mirror.reads (h : Mirror B ws₀ s t) {m : Sub α} (hm : Matched (m s) (m t)) (hl : Sub.Leaves OnlyContexts m) :
    EndsAlike (Mirror B ws₀) m s t := by
  refine ⟨fun a u hu => ?_, fun e u hu => ?_⟩
  · obtain ⟨v, hv, huv⟩ := hm.of_ok hu
    exact ⟨v, hv, h.of_twin ((hl s).1 a u hu) ((hl t).1 a v hv) huv⟩
  · obtain ⟨v, hv, huv⟩ := hm.of_error hu
    exact ⟨v, hv, h.of_twin ((hl s).2 e u hu) ((hl t).2 e v hv) huv⟩

theorem Mirror.ideNext (h : Mirror B ws₀ s t) (esize : Nat) : EndsAlike (Mirror B ws₀) (ideNext esize) s t :=
  h.reads (h.twin.ideNext esize) ((ideNext_leaves esize).mono fun _ _ => OnlyIntSlot.onlyContexts)

theorem Mirror.baValue (h : Mirror B ws₀ s t) (cap : Word) : EndsAlike (Mirror B ws₀) (baValue cap) s t :=
  h.reads (h.twin.baValue cap) (baValue_onlyContexts cap)

/-! ### Writes outside the buffer -/

/-- A part of a region that is apart from another is apart from it. -/
theorem Region.apart_part {r q : Region} (h : r.apart q) {off len : Nat} (hl : off + len ≤ r.len) :
    Region.apart ⟨r.base + BitVec.ofNat 64 off, len⟩ q :=
  Region.apart_mono h (fun _ => Region.contains_part hl) fun _ => id

theorem Mirror.writeByte (h : Mirror B ws₀ s t) {a : Word} (ha : B.contains a = false) (b : Byte) :
    EndsAlike (Mirror B ws₀) (writeByte a b) s t := by
  have hp : t.params = s.params := h.twin.params
  refine ⟨fun _ u hu => ?_, fun e u hu => ?_⟩
  · obtain ⟨hok, rfl⟩ := writeByte_ok_iff.1 hu
    refine ⟨_, writeByte_ok_iff.2 ⟨hp ▸ hok, rfl⟩, ?_, h.area, fun x hx => ?_, h.writes.cons a b _ _⟩
    · have same := h.same
      unfold OnlyMemory at *
      rw [same]
    · have hne : x.toNat ≠ a.toNat := fun e => by
        rw [BitVec.eq_of_toNat_eq e, ha] at hx; cases hx
      exact (Memory.read_write_other _ hne b).trans ((h.mem x hx).trans (Memory.read_write_other _ hne b).symm)
  · obtain ⟨hbad, rfl, rfl⟩ := writeByte_error_iff.1 hu
    exact ⟨t, writeByte_error_iff.2 ⟨hp ▸ hbad, rfl, rfl⟩, h⟩

theorem Mirror.memWriteBytes (h : Mirror B ws₀ s t) {a : Word} {bs : List Byte} (hap : Region.apart ⟨a, bs.length⟩ B) :
    EndsAlike (Mirror B ws₀) (memWriteBytes a bs) s t := by
  induction bs generalizing a s t with
  | nil => exact .pure h ()
  | cons b bs ih =>
    have ha : Region.contains ⟨a, (b :: bs).length⟩ a = true := by
      rw [Region.contains_iff, BitVec.sub_self]; exact Nat.succ_pos _
    have hrest : Region.apart ⟨a + 1, bs.length⟩ B := Region.apart_part hap (off := 1) (by simp only [List.length_cons]; omega)
    exact .bind (h.writeByte (Region.not_contains_of_apart hap ha) b) fun _ _ _ _ huv => ih huv hrest

theorem Mirror.memWrite (h : Mirror B ws₀ s t) {a : Word} {n : Nat} (hap : Region.apart ⟨a, n⟩ B) (x : Nat) :
    EndsAlike (Mirror B ws₀) (memWrite a n x) s t :=
  h.memWriteBytes (by rwa [leBytes_length])

/-! ### The loops -/

/-- The slots `k` to `k + n` of an integer DECODE whose array of `N` elements is apart from the buffer. -/
theorem Mirror.decodeIntLoop {esize N n k : Nat} {out : Word} (h : Mirror B ws₀ s t)
    (hap : Region.apart ⟨out, esize * N⟩ B) (hk : k + n ≤ N) :
    EndsAlike (Mirror B ws₀) (decodeIntLoop esize out n k) s t := by
  induction n generalizing k s t with
  | zero => exact .pure h ()
  | succ n ih =>
    have hslot : esize * k + esize ≤ esize * N := Nat.mul_succ esize k ▸ Nat.mul_le_mul_left esize (by omega)
    exact .bind (h.ideNext esize) fun _ _ _ _ h => .bind (h.memWrite (Region.apart_part hap hslot) _) fun _ _ _ _ h =>
      .bind (h.update (fun _ _ _ => rfl) fun _ => id) fun _ _ _ _ h => ih h (by omega)

/-- The writes of slot `k` (R207), the value fitting what is left of the heap (R206). -/
theorem Mirror.emitValue {bs : List Byte} {desc heap cap : Word} {N k : Nat} (h : Mirror B ws₀ s t)
    (hdesc : Region.apart ⟨desc, 16 * N⟩ B) (hheap : Region.apart ⟨heap, cap.toNat⟩ B) (hk : k < N)
    (hfit : s.bctx.heapUsed.toNat + bs.length ≤ cap.toNat) :
    EndsAlike (Mirror B ws₀) (emitValue bs desc heap k) s t := by
  have hval : Region.apart ⟨heap + s.bctx.heapUsed, bs.length⟩ B := by
    rw [← word_ofNat_toNat s.bctx.heapUsed]; exact Region.apart_part hheap hfit
  have hpart : ∀ off n, off + n ≤ 16 → Region.apart ⟨desc + BitVec.ofNat 64 (16 * k + off), n⟩ B := fun off n ho =>
    Region.apart_part hdesc (by simp only; omega)
  exact h.look_bind (fun _ _ _ => rfl) <| .bind (h.memWriteBytes hval) fun _ _ _ _ h =>
    .bind (h.memWrite (hpart 0 8 (by omega)) _) fun _ _ _ _ h => .bind (h.memWrite (hpart 8 4 (by omega)) _) fun _ _ _ _ h =>
    .bind (h.memWrite (hpart 12 4 (by omega)) _) fun _ _ _ _ h => h.update (fun _ _ _ => rfl) fun _ => id

theorem Mirror.baSlot {desc heap cap : Word} {N k : Nat} (h : Mirror B ws₀ s t)
    (hdesc : Region.apart ⟨desc, 16 * N⟩ B) (hheap : Region.apart ⟨heap, cap.toNat⟩ B) (hk : k < N) :
    EndsAlike (Mirror B ws₀) (baSlot desc heap cap k) s t := by
  refine .bind (h.baValue cap) fun bs u v hu h => ?_
  obtain ⟨hused, -, hfit⟩ := baValue_found hu
  exact .bind (h.emitValue hdesc hheap hk (hused ▸ hfit)) fun _ _ _ _ h => h.update (fun _ _ _ => rfl) fun _ => id

/-- The slots `k` to `k + n` of a byte-array DECODE whose descriptors and heap are apart from the buffer. -/
theorem Mirror.decodeBALoop {desc heap cap : Word} {N n k : Nat} (h : Mirror B ws₀ s t)
    (hdesc : Region.apart ⟨desc, 16 * N⟩ B) (hheap : Region.apart ⟨heap, cap.toNat⟩ B) (hk : k + n ≤ N) :
    EndsAlike (Mirror B ws₀) (decodeBALoop desc heap cap n k) s t := by
  induction n generalizing k s t with
  | zero => exact .pure h ()
  | succ n ih =>
    exact .bind (h.baSlot hdesc hheap (by omega)) fun _ _ _ _ h =>
      .bind (h.update (fun _ _ _ => rfl) fun _ => id) fun _ _ _ _ h => ih h (by omega)

/-! ### The command -/

theorem Mirror.decodeInt (h : Mirror B ws₀ s t) (hap : s.outArray.apart B) : EndsAlike (Mirror B ws₀) decodeInt s t :=
  h.look_bind (fun _ _ _ => rfl) <| h.look_bind (fun _ _ _ => rfl) <| h.look_bind (fun _ _ _ => rfl) <|
    .bind (h.decodeIntLoop hap (Nat.zero_add _).le) fun _ _ _ _ h => h.update (fun _ _ _ => rfl) fun _ => id

theorem Mirror.decodeBA (h : Mirror B ws₀ s t) (hdesc : s.descArray.apart B) (hheap : s.heapArea.apart B) :
    EndsAlike (Mirror B ws₀) decodeBA s t :=
  h.look_bind (fun _ _ _ => rfl) <| h.look_bind (fun _ _ _ => rfl) <| h.look_bind (fun _ _ _ => rfl) <|
    h.look_bind (fun _ _ _ => rfl) <| .bind (h.update (fun _ _ _ => rfl) fun _ => id) fun _ _ _ _ h =>
    .bind (h.decodeBALoop hdesc hheap (Nat.zero_add _).le) fun _ _ _ _ h => h.update (fun _ _ _ => rfl) fun _ => id

/-- In each mode the output regions of a DECODE that is not refused are apart from the bound buffer (R73). -/
theorem Mirror.decodeBody (h : Mirror s.bound ws₀ s t) (hm : s.mode ≠ .none) (hap : s.regionsApart) :
    EndsAlike (Mirror s.bound ws₀) decodeBody s t := by
  refine h.look_bind (fun _ _ _ => rfl) ?_
  unfold State.regionsApart at hap
  cases hmode : s.mode with
  | none => exact absurd hmode hm
  | int32 | int64 =>
    simp only [hmode, List.pairwise_cons] at hap
    exact h.decodeInt (hap.1 _ (List.mem_cons_self ..))
  | byteArray =>
    simp only [hmode, List.pairwise_cons] at hap
    obtain ⟨hdesc, hheap, -⟩ := hap
    exact h.decodeBA (hdesc _ (by simp)) (hheap _ (by simp))

theorem Mirror.finish (h : Mirror B ws₀ s t) (e : ErrKind) : Mirror B ws₀ (s.finish e) (t.finish e) :=
  h.map _ (fun _ _ _ => rfl) fun _ => id

theorem Mirror.complete {m : Sub Unit} (h : EndsAlike (Mirror B ws₀) m s.begin t.begin) :
    Mirror B ws₀ (complete m s) (complete m t) := by
  rcases complete_cases m s with ⟨u, hu, e⟩ | ⟨k, u, hu, e⟩
  · obtain ⟨v, hv, huv⟩ := h.1 _ _ hu
    rw [e, complete_of_ok hv]; exact huv.finish _
  · obtain ⟨v, hv, huv⟩ := h.2 _ _ hu
    rw [e, complete_of_error hv]; exact huv.finish _

/-- All that slots read lies in the bound buffer (R97, R128, R203). -/
theorem BufferInvariant.readArea (h : BufferInvariant s) {a : Word} (ha : s.readArea a) : s.bound.contains a = true := by
  have empty : ∀ {b n : Word}, n = 0 → Region.contains ⟨b, n.toNat⟩ a ≠ true := fun hn hc => by
    rw [hn, Region.contains_iff] at hc; exact absurd hc (Nat.not_lt_zero _)
  unfold BufferInvariant at h
  cases hmode : s.mode with
  | none =>
    simp only [hmode] at h
    obtain ⟨hbuf, hsuf⟩ := h
    exact ha.elim (fun hc => absurd hc (empty hbuf)) fun hc => absurd hc (empty hsuf)
  | int32 | int64 =>
    simp only [hmode] at h
    obtain ⟨hbound, hsuf⟩ := h
    exact ha.elim (fun hc => hbound ▸ hc) fun hc => absurd hc (empty hsuf)
  | byteArray =>
    simp only [hmode] at h
    rcases h with ⟨hbuf, hsuf⟩ | ⟨hbuf, hsuf, hlen⟩
    · exact ha.elim (fun hc => absurd hc (empty hbuf)) fun hc => absurd hc (empty hsuf)
    · rcases ha with hc | hc
      · exact Region.contains_part (off := 4) (len := s.ictx.bufLen.toNat) (by omega) (hbuf ▸ hc)
      · have hbase : s.bctx.sufBase = s.bound.base + BitVec.ofNat 64 (4 + s.ictx.bufLen.toNat) := by
          rw [hsuf, BitVec.ofNat_add, word_ofNat_toNat, ← BitVec.add_assoc]; rfl
        exact Region.contains_part (off := 4 + s.ictx.bufLen.toNat) (len := s.bctx.sufLen.toNat) (by omega) (hbase ▸ hc)

/-- DECODE's answer, by its two guards (R140, R146, R73). -/
theorem exec_decode_eq (s : State) : exec .decode s =
    if s.mode = .none ∨ s.failed = true then .next (s.begin.finish .stateError)
    else if anyOverlap s.decodeRegions then .refused .regionsOverlap else .next (complete decodeBody s) := by
  show execDecode s = _
  rcases execDecode_cases s with ⟨h, e⟩ | ⟨hm, hf, ho, e⟩ | ⟨hm, hf, ho, e⟩
  · rw [e, if_pos h]
  · rw [e, if_neg (by simp [hm, hf]), if_pos ho]
  · rw [e, if_neg (by simp [hm, hf]), if_neg (by simp [ho])]

/-- The guards of a DECODE do not look at memory. Its answer from two mirrored states: mirrored, or the same refusal. -/
theorem Mirror.exec_decode (h : Mirror s.bound ws₀ s t) :
    (∃ u v, exec .decode s = .next u ∧ exec .decode t = .next v ∧ Mirror s.bound ws₀ u v) ∨
    (exec .decode s = .refused .regionsOverlap ∧ exec .decode t = .refused .regionsOverlap) := by
  have hbegin : Mirror s.bound ws₀ s.begin t.begin := h.map _ (fun _ _ _ => rfl) fun _ => id
  have hmode : t.mode = s.mode := h.blind fun _ _ _ => rfl
  have hfailed : t.failed = s.failed := h.blind fun _ _ _ => rfl
  have hregions : t.decodeRegions = s.decodeRegions := h.blind fun _ _ _ => rfl
  rw [exec_decode_eq, exec_decode_eq, hmode, hfailed, hregions]
  split_ifs with hstate hoverlap
  · exact .inl ⟨_, _, rfl, rfl, hbegin.finish _⟩
  · exact .inr ⟨rfl, rfl⟩
  · have hap := s.regionsApart_iff.1 (Bool.eq_false_iff.2 hoverlap)
    exact .inl ⟨_, _, rfl, rfl, Mirror.complete (hbegin.decodeBody (fun hm => hstate (.inl hm)) hap)⟩

/-- Settles O34: a state and its copy with other memory outside the bound buffer are mirrored, and DECODE keeps that. -/
theorem decodeReadsOnlyTheBoundBuffer : Obligations.DecodeReadsOnlyTheBoundBuffer := by
  intro s m hb hm
  have h : Mirror s.bound s.writes s { s with mem := m } := ⟨rfl, fun _ => hb.readArea, hm, .refl _⟩
  rcases h.exec_decode with ⟨u, v, hu, hv, huv⟩ | ⟨hu, hv⟩ <;> rw [hu, hv]
  · refine ⟨fun t ht => ?_, fun r hr => nomatch hr⟩
    cases ht
    exact ⟨v, rfl, huv.same, huv.writes⟩
  · exact ⟨fun t ht => (nomatch ht), fun r hr => hr⟩

end Sys2Proof.Machine

namespace Sys2Proof.Machine

/-! # The register window and the host's accesses -/

section
variable {s t : State} {r : WindowReg} {off : BitVec 14} {w : Nat}

/-! ## Writes of a register (R24, R25, R54, R55) -/

/-- The registers that a host write changes (R20): CMD and the ARG registers. -/
def WindowReg.writable : WindowReg → Bool
  | .cmd | .arg0 | .arg1 | .arg2 | .arg3 => true
  | _ => false

/-- What a write does with BUSY = 0 (R24, R25). -/
def State.store (s : State) (v : Word) : WindowReg → State
  | .cmd => s.capture v
  | .arg0 => { s with arg0 := v }
  | .arg1 => { s with arg1 := v }
  | .arg2 => { s with arg2 := v }
  | .arg3 => { s with arg3 := v }
  | _ => s

theorem State.writeRegister_idle (h : s.busy = false) (r : WindowReg) (v : Word) : s.writeRegister r v = s.store v r := by
  cases r <;> simp only [State.writeRegister, State.store, h, Bool.false_eq_true, if_false]

theorem State.writeRegister_busy (h : s.busy = true) (r : WindowReg) (v : Word) :
    s.writeRegister r v = if r.writable = true then { s with ovr := true } else s := by
  cases r <;> simp [State.writeRegister, WindowReg.writable, h]

theorem State.writeRegister_readOnly (h : r.writable = false) (s : State) (v : Word) : s.writeRegister r v = s := by
  cases r with
  | cmd | arg0 | arg1 | arg2 | arg3 => cases h
  | _ => rfl

/-! ## Reads of a register (R49, R54) -/

/-- Whether a read returns the register's value: not one of a context, STATUS or RESULT while a command runs (R54), nor one that a
failure has lost (R49). -/
def State.settled (s : State) (r : WindowReg) : Bool :=
  if s.busy then !(decide (r = .status) || decide (r = .result) || r.isContext) else !(s.failed && r.lostOnFailure)

/-- What another read returns: a free value, BUSY apart. -/
def State.freeRead (s : State) (r : WindowReg) : Word :=
  if s.busy = true ∧ r = .status then (Config.freeWord s.hostDraws &&& statusFreeBits) ||| 1
  else Config.freeWord s.hostDraws &&& BitVec.ofNat 64 (2 ^ r.usedBits - 1)

theorem State.readRegister_eq (s : State) (r : WindowReg) :
    s.readRegister r =
      if s.settled r = true then (s.regValue r, s) else (s.freeRead r, { s with hostDraws := s.hostDraws + 1 }) := by
  unfold State.readRegister State.settled State.freeRead
  by_cases hs : r = .status
  · subst hs
    cases s.busy <;> cases s.failed <;> rfl
  · by_cases hr : r = .result
    · subst hr
      cases s.busy <;> cases s.failed <;> rfl
    · cases s.busy <;> cases s.failed <;> cases hc : r.isContext <;> cases hl : r.lostOnFailure <;> simp [hs, hr]

theorem State.readRegister_settled (h : s.settled r = true) : s.readRegister r = (s.regValue r, s) := by
  rw [State.readRegister_eq, if_pos h]

theorem State.readRegister_free (h : s.settled r = false) :
    s.readRegister r = (s.freeRead r, { s with hostDraws := s.hostDraws + 1 }) := by
  rw [State.readRegister_eq, if_neg (by simp [h])]

theorem WindowReg.isContext_of_lost (h : r.lostOnFailure = true) : r.isContext = true := by
  unfold WindowReg.lostOnFailure at h
  split at h
  · cases h
  · cases h
  · cases h
  · cases h
  · exact h

/-- What a failure has lost is never settled. -/
theorem State.not_lost_of_settled (hf : s.failed = true) (hs : s.settled r = true) : r.lostOnFailure = false := by
  by_contra hl
  rw [Bool.not_eq_false] at hl
  simp [State.settled, hf, hl, WindowReg.isContext_of_lost hl] at hs

theorem State.noteRead_eq (s : State) (r : WindowReg) :
    s.noteRead r = { s with writes := if r = .status ∧ s.busy = false then [] else s.writes } := by
  unfold State.noteRead
  split_ifs <;> rfl

/-! ## Accesses at a window offset (R54, R64) -/

theorem windowAccessOk_aligned (h : off.toNat % 8 = 0) : windowAccessOk off 8 = true := by
  simp [windowAccessOk, h]

theorem hostRead_mapped (h : off.toNat % 8 = 0) (hr : regAt s.params off = some r) : hostRead off 8 s =
    .next { (s.readRegister r).2.noteRead r with readLog := (s.readRegister r).1 :: s.readLog } := by
  simp only [hostRead, windowAccessOk_aligned h, if_true, hr]

theorem hostRead_unmapped (h : off.toNat % 8 = 0) (hr : regAt s.params off = none) :
    hostRead off 8 s = .next { s with readLog := 0 :: s.readLog } := by
  simp only [hostRead, windowAccessOk_aligned h, if_true, hr]

theorem hostWrite_mapped (h : off.toNat % 8 = 0) (hr : regAt s.params off = some r) (v : Word) :
    hostWrite off 8 v s = .next (s.writeRegister r v) := by
  simp only [hostWrite, windowAccessOk_aligned h, if_true, hr]

theorem hostWrite_unmapped (h : off.toNat % 8 = 0) (hr : regAt s.params off = none) (v : Word) :
    hostWrite off 8 v s = .next s := by
  simp only [hostWrite, windowAccessOk_aligned h, if_true, hr]

/-- A settled register other than STATUS is read with no other effect than the host's log. -/
theorem hostRead_settled (h : off.toNat % 8 = 0) (hr : regAt s.params off = some r) (hs : s.settled r = true)
    (hne : r ≠ .status) : hostRead off 8 s = .next { s with readLog := s.regValue r :: s.readLog } := by
  rw [hostRead_mapped h hr, State.readRegister_settled hs, State.noteRead, if_neg fun hc => hne hc.1]

/-- An access of a form the window does not take is refused (R64). -/
theorem hostRead_refused (h : windowAccessOk off w = false) (s : State) : hostRead off w s = .refused .windowAccessForm := by
  simp [hostRead, h]

theorem hostWrite_refused (h : windowAccessOk off w = false) (v : Word) (s : State) :
    hostWrite off w v s = .refused .windowAccessForm := by
  simp [hostWrite, h]

theorem windowAccessOk_iff : windowAccessOk off w = true ↔ w = 8 ∧ off.toNat % 8 = 0 := by
  simp [windowAccessOk]

/-! ## The map (R20) -/

/-- Every entry of the map's list: below the WIDTH table, a multiple of 8, the offset of its register, the first of its key. -/
theorem windowMap_entries : ∀ e ∈ windowMap,
    e.1 < 0x1000 ∧ e.1 % 8 = 0 ∧ e.2.offset = BitVec.ofNat 14 e.1 ∧ windowMap.lookup e.1 = some e.2 := by
  decide

/-- Every register but those of the WIDTH table stands in the list. -/
theorem mem_windowMap (h : ∀ j, r ≠ .width j) : (r.offset.toNat, r) ∈ windowMap := by
  cases r with
  | width j => exact absurd rfl (h j)
  | _ => decide

theorem width_notMem_windowMap (n j : Nat) : (n, .width j) ∉ windowMap := by
  simp [windowMap]

theorem width_offset_toNat {j : Nat} (h : j < 1024) : (WindowReg.width j).offset.toNat = 0x1000 + 8 * j := by
  show (BitVec.ofNat 14 (0x1000 + 8 * j)).toNat = _
  rw [BitVec.toNat_ofNat, Nat.mod_eq_of_lt (by omega)]

theorem regAt_below {p : Params} (h : off.toNat < 0x1000) : regAt p off = windowMap.lookup off.toNat :=
  if_neg (by omega)

/-- The WIDTH table's part of the window. -/
theorem regAt_table_iff {p : Params} (h : 0x1000 ≤ off.toNat) :
    regAt p off = some r ↔ ∃ j < p.maxMiniBlocks, r = .width j ∧ off.toNat = 0x1000 + 8 * j := by
  unfold regAt
  rw [if_pos h]
  constructor
  · intro hr
    split_ifs at hr with hc
    exact ⟨_, hc.2, (Option.some.inj hr).symm, by omega⟩
  · rintro ⟨j, hj, rfl, ho⟩
    have hq : (off.toNat - 0x1000) / 8 = j := by omega
    rw [hq, if_pos ⟨by omega, hj⟩]

theorem regAt_offset {p : Params} (h : ∀ j, r ≠ .width j) : regAt p r.offset = some r := by
  obtain ⟨hlt, -, -, hfirst⟩ := windowMap_entries _ (mem_windowMap h)
  rw [regAt_below hlt, hfirst]

theorem regAt_width_offset {p : Params} {j : Nat} (hj : j < p.maxMiniBlocks) (hp : p.maxMiniBlocks ≤ 1024) :
    regAt p (WindowReg.width j).offset = some (.width j) := by
  have ho : (WindowReg.width j).offset.toNat = 0x1000 + 8 * j := width_offset_toNat (by omega)
  exact (regAt_table_iff (by omega)).2 ⟨j, hj, rfl, ho⟩

/-- A mapped offset is an entry of the list, or one of the WIDTH table. -/
theorem regAt_some {p : Params} (h : regAt p off = some r) :
    (off.toNat, r) ∈ windowMap ∨ ∃ j < p.maxMiniBlocks, r = .width j ∧ off.toNat = 0x1000 + 8 * j := by
  by_cases hlt : off.toNat < 0x1000
  · rw [regAt_below hlt, List.lookup_eq_some_iff] at h
    obtain ⟨l₁, l₂, hl, -⟩ := h
    exact .inl (hl ▸ List.mem_append_right l₁ (List.mem_cons_self ..))
  · exact .inr ((regAt_table_iff (by omega)).1 h)

/-- The offset of a mapped register is its own. -/
theorem offset_of_regAt {p : Params} (h : regAt p off = some r) : off = r.offset := by
  rcases regAt_some h with hm | ⟨j, -, rfl, ho⟩
  · obtain ⟨-, -, ho, -⟩ := windowMap_entries _ hm
    rw [ho, BitVec.ofNat_toNat, BitVec.setWidth_eq]
  · show off = BitVec.ofNat 14 (0x1000 + 8 * j)
    rw [← ho, BitVec.ofNat_toNat, BitVec.setWidth_eq]

theorem aligned_of_regAt {p : Params} (h : regAt p off = some r) : off.toNat % 8 = 0 := by
  rcases regAt_some h with hm | ⟨j, -, -, ho⟩
  · obtain ⟨-, ha, -⟩ := windowMap_entries _ hm
    exact ha
  · omega

/-- Settles O9: a register of the list by its entry, one of the WIDTH table by arithmetic; back, by what a mapped offset is. -/
theorem registerMapIsOneToOne : Obligations.RegisterMapIsOneToOne := by
  refine fun p hp => ⟨fun r hr => ?_, fun off r h => ⟨offset_of_regAt h, aligned_of_regAt h, fun j hj => ?_⟩⟩
  · obtain ⟨⟨-, hmax⟩, -⟩ := hp
    by_cases hw : ∃ j, r = .width j
    · obtain ⟨j, rfl⟩ := hw
      exact regAt_width_offset (hr j rfl) hmax
    · exact regAt_offset fun j hj => hw ⟨j, hj⟩
  · subst hj
    rcases regAt_some h with hm | ⟨i, hi, he, -⟩
    · exact absurd hm (width_notMem_windowMap _ j)
    · cases he
      exact hi

/-! ## Loads and reset, by what the running command would do (R65, R69, R261) -/

variable {a c : Word} {x : Refusal}

theorem hostLoad_idle (h : s.command = none) :
    hostLoad a s = .next (s.logLoad (s.mem.read a.toNat) (oldAt s.writes a)) := by
  simp only [hostLoad, h]

theorem hostLoad_running (h : s.command = some c) (hrun : runCommand c s = .next t) :
    hostLoad a s = .next (s.logLoad (s.mem.read a.toNat) (oldAt s.writes a ++ newAt (newWrites s t) a)) := by
  simp only [hostLoad, h, hrun]

theorem hostLoad_refused (h : s.command = some c) (hrun : runCommand c s = .refused x) : hostLoad a s = .refused x := by
  simp only [hostLoad, h, hrun]

theorem resetMachine_idle (h : s.command = none) : resetMachine s = .next (s.afterReset []) := by
  simp only [resetMachine, h]

theorem resetMachine_running (h : s.command = some c) (hrun : runCommand c s = .next t) :
    resetMachine s = .next { (s.afterReset
        (firstWrites (Config.freeChoice s.hostDraws % ((newWrites s t).length + 1)) (newWrites s t))) with
      hostDraws := s.hostDraws + 1 } := by
  simp only [resetMachine, h, hrun]

theorem resetMachine_refused (h : s.command = some c) (hrun : runCommand c s = .refused x) : resetMachine s = .refused x := by
  simp only [resetMachine, h, hrun]

/-! ## What an access of the host leaves -/

/-- What an access other than a reset or a register write leaves alone: everything but memory, the bytes the host overwrote, the
writes it has not seen, and the model's own count and log. -/
def OnlyHostSide (s t : State) : Prop :=
  t = { s with
    mem := t.mem, stale := t.stale, writes := t.writes, hostDraws := t.hostDraws, readLog := t.readLog }

/-- Everything an access of the host or the platform can do. -/
theorem hostStep_next {op : HostOp} (h : hostStep op s = .next t) :
    op = .reset ∨ (∃ r v, op = .writeReg r.offset 8 v ∧ t = s.writeRegister r v) ∨
      (OnlyHostSide s t ∧ (s.mem.wf → t.mem.wf)) := by
  cases op with
  | reset => exact .inl rfl
  | writeReg off w v =>
    cases hw : windowAccessOk off w with
    | false =>
      rw [hostStep, hostWrite_refused hw] at h
      cases h
    | true =>
      obtain ⟨rfl, -⟩ := windowAccessOk_iff.1 hw
      rcases hostWrite_next h with ⟨-, rfl⟩ | ⟨r, hr, rfl⟩
      · exact .inr (.inr ⟨rfl, id⟩)
      · exact .inr (.inl ⟨r, v, by rw [offset_of_regAt hr], rfl⟩)
  | readReg off w =>
    obtain ⟨l, d, ws, rfl⟩ := hostRead_next h
    exact .inr (.inr ⟨rfl, id⟩)
  | wait =>
    cases h
    exact .inr (.inr ⟨rfl, id⟩)
  | writeMem a b =>
    cases h
    exact .inr (.inr ⟨rfl, fun hm => Memory.wf_write hm a.isLt b⟩)
  | readMem a =>
    obtain ⟨v, rfl⟩ := hostLoad_next h
    exact .inr (.inr ⟨rfl, id⟩)

end

end Sys2Proof.Machine

namespace Sys2Proof.Machine

/-! # Two failed states that differ in their contexts only (R49) -/

section
variable {s t : State}

/-- The contexts that R49 leaves unspecified in a failed state: all but the two buffers' registers, and of the byte-array context
nothing outside BYTE_ARRAY mode. -/
structure LostContexts (s : State) (i : IntContext) (b : ByteArrayContext) : Prop where
  failed : s.failed = true
  bufBase : i.bufBase = s.ictx.bufBase
  bufLen : i.bufLen = s.ictx.bufLen
  sufBase : b.sufBase = s.bctx.sufBase
  sufLen : b.sufLen = s.bctx.sufLen
  used : s.mode ≠ .byteArray → b = s.bctx

theorem agreeAfterFailure_iff :
    AgreeAfterFailure s t ↔ ∃ i b, LostContexts s i b ∧ t = { s with ictx := i, bctx := b } := by
  unfold AgreeAfterFailure
  constructor
  · rintro ⟨hf, ht⟩
    refine ⟨_, _, ?_, ht⟩
    exact ⟨hf, rfl, rfl, by split_ifs <;> rfl, by split_ifs <;> rfl, fun hm => if_neg hm⟩
  · rintro ⟨i, b, ⟨hf, h1, h2, h3, h4, hb⟩, rfl⟩
    refine ⟨hf, ?_⟩
    rw [← h1, ← h2, ← h3, ← h4]
    split_ifs with hm
    · rfl
    · rw [hb hm]

/-- Both states after a step: the same, where the step has cleared FAILED, or still alike. -/
def StaysAlike (s t : State) : Prop := t = s ∨ AgreeAfterFailure s t

/-- A change that neither looks at the contexts nor changes them, and leaves FAILED and MODE, keeps the two alike. -/
theorem AgreeAfterFailure.map (h : AgreeAfterFailure s t) (f : State → State)
    (hf : ∀ s i b, f { s with ictx := i, bctx := b } = { f s with ictx := i, bctx := b })
    (hfailed : (f s).failed = s.failed) (hmode : (f s).mode = s.mode) : AgreeAfterFailure (f s) (f t) := by
  obtain ⟨i, b, ⟨h0, h1, h2, h3, h4, h5⟩, rfl⟩ := agreeAfterFailure_iff.1 h
  have hs : f s = { f s with ictx := s.ictx, bctx := s.bctx } := hf s s.ictx s.bctx
  have hi : (f s).ictx = s.ictx := by rw [hs]
  have hb : (f s).bctx = s.bctx := by rw [hs]
  refine agreeAfterFailure_iff.2 ⟨i, b, ⟨hfailed ▸ h0, ?_, ?_, ?_, ?_, fun hm => ?_⟩, hf s i b⟩
  · rw [hi, h1]
  · rw [hi, h2]
  · rw [hb, h3]
  · rw [hb, h4]
  · rw [hb, h5 (hmode ▸ hm)]

/-- What does not look at the contexts is the same of both. -/
theorem AgreeAfterFailure.blind (h : AgreeAfterFailure s t) {α : Type} {f : State → α}
    (hf : ∀ s i b, f { s with ictx := i, bctx := b } = f s) : f t = f s := by
  rw [h.2, hf]

/-! ## Commands after a failure -/

/-- The start of a command and the record of its end look at no context. -/
theorem AgreeAfterFailure.ended (h : AgreeAfterFailure s t) (e : ErrKind) :
    AgreeAfterFailure (s.begin.finish e) (t.begin.finish e) :=
  h.map (fun s => s.begin.finish e) (fun _ _ _ => rfl) (by
    show (s.failed || e.fatal) = s.failed
    rw [h.1, Bool.true_or]) rfl

/-- What CONFIG clears makes the two states equal. -/
theorem AgreeAfterFailure.configClear (h : AgreeAfterFailure s t) : t.begin.configClear = s.begin.configClear := by
  obtain ⟨i, b, -, rfl⟩ := agreeAfterFailure_iff.1 h
  rfl

/-- So does the body of SETDATA, from its first update of the contexts on. -/
theorem AgreeAfterFailure.setdataBody (h : AgreeAfterFailure s t) :
    setdataBody t.begin = setdataBody s.begin := by
  obtain ⟨i, b, hl, rfl⟩ := agreeAfterFailure_iff.1 h
  unfold Sys2Proof.Machine.setdataBody
  simp only [look_bind, update_bind]
  cases hm : s.mode with
  | int32 | int64 =>
    have hb : b = s.bctx := hl.used (by rw [hm]; decide)
    subst hb
    simp only [State.begin_mode, hm]
    rfl
  | byteArray | none =>
    simp only [State.begin_mode, hm]
    rfl

/-- Two answers to two failed states that agree: the same refusal, or states that stay alike. -/
def AnswersAlike (x y : Host.Outcome State Fault Refusal) : Prop :=
  (∀ s', x = .next s' → ∃ t', y = .next t' ∧ StaysAlike s' t') ∧ ∀ r, x = .refused r → y = .refused r

theorem AnswersAlike.next (h : StaysAlike s t) : AnswersAlike (.next s) (.next t) :=
  ⟨fun _ e => by cases e; exact ⟨t, rfl, h⟩, fun _ e => nomatch e⟩

theorem AnswersAlike.of_eq {x y : Host.Outcome State Fault Refusal} (h : y = x) : AnswersAlike x y :=
  ⟨fun s' e => ⟨s', h.trans e, .inl rfl⟩, fun _ e => h.trans e⟩

theorem AgreeAfterFailure.execConfig (h : AgreeAfterFailure s t) (ty : Byte) : execConfig ty t = execConfig ty s := by
  cases hm : typeMode ty with
  | some m => rw [execConfig_legal hm, execConfig_legal hm, h.configClear]
  | none => rw [execConfig_illegal hm, execConfig_illegal hm, h.configClear]

/-- In mode NONE a SETDATA is a STATE_ERROR (R140). -/
theorem execSetdata_none (h : s.mode = .none) : execSetdata s = .next (s.begin.finish .stateError) := if_pos h

/-- SETDATA's guards look at no context. -/
theorem AgreeAfterFailure.execSetdata (h : AgreeAfterFailure s t) : AnswersAlike (execSetdata s) (execSetdata t) := by
  obtain ⟨i, b, -, rfl⟩ := agreeAfterFailure_iff.1 h
  by_cases hm : s.mode = .none
  · rw [execSetdata_none hm, execSetdata_none (s := { s with ictx := i, bctx := b }) hm]
    exact .next (.inr (h.ended .stateError))
  · have hc : complete Sys2Proof.Machine.setdataBody { s with ictx := i, bctx := b } =
        complete Sys2Proof.Machine.setdataBody s := by
      unfold complete
      rw [h.setdataBody]
    refine .of_eq ?_
    simp only [Sys2Proof.Machine.execSetdata, hm, if_false, hc]
    rfl

/-- After a failure a DECODE is a STATE_ERROR (R146). -/
theorem execDecode_failed (h : s.failed = true) : execDecode s = .next (s.begin.finish .stateError) := by
  rcases execDecode_cases s with ⟨-, e⟩ | ⟨-, hf, -⟩ | ⟨-, hf, -⟩
  · exact e
  all_goals rw [h] at hf; cases hf

theorem AgreeAfterFailure.failed_right (h : AgreeAfterFailure s t) : t.failed = true := by
  rw [h.2]; exact h.1

theorem AgreeAfterFailure.runCommand (h : AgreeAfterFailure s t) (c : Word) :
    AnswersAlike (runCommand c s) (runCommand c t) := by
  unfold Sys2Proof.Machine.runCommand
  cases decode c with
  | error x => exact .next (.inr (h.ended .illegalCommand))
  | ok i =>
    cases i with
    | config ty => exact .of_eq (h.execConfig ty)
    | setdata => exact h.execSetdata
    | decode =>
      simp only [exec, execDecode_failed h.1, execDecode_failed h.failed_right]
      exact .next (.inr (h.ended .stateError))

/-! ## Host accesses after a failure -/

theorem AgreeAfterFailure.writeRegister (h : AgreeAfterFailure s t) (r : WindowReg) (v : Word) :
    AgreeAfterFailure (s.writeRegister r v) (t.writeRegister r v) := by
  have hb : t.busy = s.busy := h.blind fun _ _ _ => rfl
  cases hs : s.busy with
  | true =>
    rw [State.writeRegister_busy hs, State.writeRegister_busy (hb.trans hs)]
    split_ifs
    · exact h.map ({ · with ovr := true }) (fun _ _ _ => rfl) rfl rfl
    · exact h
  | false =>
    rw [State.writeRegister_idle hs, State.writeRegister_idle (hb.trans hs)]
    exact h.map (·.store v r) (fun _ _ _ => by cases r <;> rfl) (by cases r <;> rfl) (by cases r <;> rfl)

/-- A register whose value is not lost has the same value in both (R49). -/
theorem AgreeAfterFailure.regValue (h : AgreeAfterFailure s t) {r : WindowReg} (hr : s.settled r = true) :
    t.regValue r = s.regValue r := by
  obtain ⟨i, b, hl, rfl⟩ := agreeAfterFailure_iff.1 h
  have hnot := State.not_lost_of_settled h.1 hr
  cases r with
  | bufBase => exact hl.bufBase
  | bufLen => exact hl.bufLen
  | sufBase => exact hl.sufBase
  | sufLen => exact hl.sufLen
  | id | cmd | arg0 | arg1 | arg2 | arg3 | status | result => rfl
  | _ => cases hnot

/-- A register read returns the same value of both: a register that differs is lost, and reads as a free value (R49). -/
theorem AgreeAfterFailure.readRegister (h : AgreeAfterFailure s t) (r : WindowReg) :
    (t.readRegister r).1 = (s.readRegister r).1 ∧ AgreeAfterFailure (s.readRegister r).2 (t.readRegister r).2 := by
  have hset : t.settled r = s.settled r := h.blind (f := (·.settled r)) fun _ _ _ => rfl
  cases hs : s.settled r with
  | true =>
    rw [State.readRegister_settled hs, State.readRegister_settled (hset.trans hs)]
    exact ⟨h.regValue hs, h⟩
  | false =>
    rw [State.readRegister_free hs, State.readRegister_free (hset.trans hs)]
    exact ⟨h.blind (f := (·.freeRead r)) fun _ _ _ => rfl,
      h.map (fun s => { s with hostDraws := s.hostDraws + 1 }) (fun _ _ _ => rfl) rfl rfl⟩

theorem AgreeAfterFailure.hostWrite (h : AgreeAfterFailure s t) (off : BitVec 14) (w : Nat) (v : Word) :
    AnswersAlike (hostWrite off w v s) (hostWrite off w v t) := by
  have hp : t.params = s.params := h.blind fun _ _ _ => rfl
  cases hw : windowAccessOk off w with
  | false =>
    rw [hostWrite_refused hw, hostWrite_refused hw]
    exact .of_eq rfl
  | true =>
    obtain ⟨rfl, ha⟩ := windowAccessOk_iff.1 hw
    cases hr : regAt s.params off with
    | none =>
      rw [hostWrite_unmapped ha hr, hostWrite_unmapped ha (hp ▸ hr)]
      exact .next (.inr h)
    | some r =>
      rw [hostWrite_mapped ha hr, hostWrite_mapped ha (hp ▸ hr)]
      exact .next (.inr (h.writeRegister r v))

theorem AgreeAfterFailure.hostRead (h : AgreeAfterFailure s t) (off : BitVec 14) (w : Nat) :
    AnswersAlike (hostRead off w s) (hostRead off w t) := by
  have hp : t.params = s.params := h.blind fun _ _ _ => rfl
  have hlog : t.readLog = s.readLog := h.blind fun _ _ _ => rfl
  cases hw : windowAccessOk off w with
  | false =>
    rw [hostRead_refused hw, hostRead_refused hw]
    exact .of_eq rfl
  | true =>
    obtain ⟨rfl, ha⟩ := windowAccessOk_iff.1 hw
    cases hr : regAt s.params off with
    | none =>
      rw [hostRead_unmapped ha hr, hostRead_unmapped ha (hp ▸ hr)]
      exact .next (.inr (h.map (fun s => { s with readLog := 0 :: s.readLog }) (fun _ _ _ => rfl) rfl rfl))
    | some r =>
      obtain ⟨hv, hs⟩ := h.readRegister r
      rw [hostRead_mapped ha hr, hostRead_mapped ha (hp ▸ hr), hv, hlog, State.noteRead_eq, State.noteRead_eq]
      exact .next (.inr (hs.map (fun u => { u with
        writes := if r = .status ∧ u.busy = false then [] else u.writes, readLog := (s.readRegister r).1 :: s.readLog })
        (fun _ _ _ => rfl) rfl rfl))

/-- States that stay alike have made the same writes, so the command that has led to them made the same. -/
theorem StaysAlike.newWrites {u v : State} (huv : StaysAlike u v) (h : AgreeAfterFailure s t) :
    newWrites t v = newWrites s u := by
  have hst : t.writes = s.writes := h.blind fun _ _ _ => rfl
  have huv : v.writes = u.writes := by
    rcases huv with rfl | huv
    · rfl
    · exact huv.blind fun _ _ _ => rfl
  simp only [Sys2Proof.Machine.newWrites, hst, huv]

/-- A load sees the same of both: the trial run of the running command writes the same. -/
theorem AgreeAfterFailure.hostLoad (h : AgreeAfterFailure s t) (a : Word) : AnswersAlike (hostLoad a s) (hostLoad a t) := by
  have hcmd : t.command = s.command := h.blind fun _ _ _ => rfl
  cases hc : s.command with
  | none =>
    rw [hostLoad_idle hc, hostLoad_idle (hcmd.trans hc)]
    exact .next (.inr (h.map (fun s => s.logLoad (s.mem.read a.toNat) (oldAt s.writes a)) (fun _ _ _ => rfl) rfl rfl))
  | some c =>
    obtain ⟨hnext, hrefused⟩ := h.runCommand c
    cases hrun : Sys2Proof.Machine.runCommand c s with
    | fault f => cases f
    | refused x =>
      rw [hostLoad_refused hc hrun, hostLoad_refused (hcmd.trans hc) (hrefused x hrun)]
      exact .of_eq rfl
    | next u =>
      obtain ⟨v, hv, huv⟩ := hnext u hrun
      rw [hostLoad_running hc hrun, hostLoad_running (hcmd.trans hc) hv, huv.newWrites h]
      exact .next (.inr (h.map (fun w => w.logLoad (w.mem.read a.toNat)
        (oldAt w.writes a ++ newAt (Sys2Proof.Machine.newWrites s u) a)) (fun _ _ _ => rfl) rfl rfl))

/-- A reset forgets both contexts. -/
theorem AgreeAfterFailure.resetMachine (h : AgreeAfterFailure s t) : resetMachine t = resetMachine s := by
  have hcmd : t.command = s.command := h.blind fun _ _ _ => rfl
  have hreset : ∀ ws, t.afterReset ws = s.afterReset ws := fun ws => h.blind (f := (·.afterReset ws)) fun _ _ _ => rfl
  have hdraws : t.hostDraws = s.hostDraws := h.blind fun _ _ _ => rfl
  cases hc : s.command with
  | none => rw [resetMachine_idle hc, resetMachine_idle (hcmd.trans hc), hreset]
  | some c =>
    obtain ⟨hnext, hrefused⟩ := h.runCommand c
    cases hrun : Sys2Proof.Machine.runCommand c s with
    | fault f => cases f
    | refused x => rw [resetMachine_refused hc hrun, resetMachine_refused (hcmd.trans hc) (hrefused x hrun)]
    | next u =>
      obtain ⟨v, hv, huv⟩ := hnext u hrun
      rw [resetMachine_running hc hrun, resetMachine_running (hcmd.trans hc) hv, huv.newWrites h, hreset, hdraws]

theorem AgreeAfterFailure.hostStep (h : AgreeAfterFailure s t) (op : HostOp) : AnswersAlike (hostStep op s) (hostStep op t) := by
  cases op with
  | writeReg off w v => exact h.hostWrite off w v
  | readReg off w => exact h.hostRead off w
  | wait => exact .next (.inr (h.map State.sync (fun _ _ _ => rfl) rfl rfl))
  | writeMem a b => exact .next (.inr (h.map (Sys2Proof.Machine.hostStore a b) (fun _ _ _ => rfl) rfl rfl))
  | readMem a => exact h.hostLoad a
  | reset => exact .of_eq h.resetMachine

theorem AgreeAfterFailure.step (h : AgreeAfterFailure s t) : AnswersAlike (step s) (step t) := by
  have hcmd : t.command = s.command := h.blind fun _ _ _ => rfl
  have hhost : t.host = s.host := h.blind fun _ _ _ => rfl
  have hland : t.landing = s.landing := h.blind fun _ _ _ => rfl
  rcases step_cases s with ⟨c, hc, hl, e⟩ | ⟨op, rest, hh, hl, e⟩ | ⟨hc, hh, e⟩
  · rw [e, step_runs (hcmd.trans hc) (hland.trans hl)]
    exact h.runCommand c
  · rw [e, step_lands (hhost.trans hh) (by rw [hland, hl]; exact Option.some_ne_none _)]
    exact (h.map ({ · with host := rest }) (fun _ _ _ => rfl) rfl rfl).hostStep op.op
  · rw [e, (stepOfTheHost t).2 (hcmd.trans hc) (hhost.trans hh)]
    exact .next (.inr h)

/-- Settles O14: states that agree after a failure answer every step alike. -/
theorem failedContextIsNeverObserved : Obligations.FailedContextIsNeverObserved := fun _ _ h => h.step

end

end Sys2Proof.Machine

namespace Sys2Proof.Machine

/-! # The registers as the host writes and reads them -/

section
variable {s t : State} {r : WindowReg} {off : BitVec 14}

/-! ## Writes -/

/-- A write of a register of the map's list. -/
theorem hostWrite_register (h : ∀ j, r ≠ .width j) (v : Word) (s : State) :
    hostWrite r.offset 8 v s = .next (s.writeRegister r v) :=
  have hr := regAt_offset (p := s.params) h
  hostWrite_mapped (aligned_of_regAt hr) hr v

theorem hostWrite_register_idle (h : ∀ j, r ≠ .width j) (hb : s.busy = false) (v : Word) :
    hostWrite r.offset 8 v s = .next (s.store v r) := by
  rw [hostWrite_register h, State.writeRegister_idle hb]

theorem hostWrite_register_busy (hr : r.writable = true) (hb : s.busy = true) (v : Word) :
    hostWrite r.offset 8 v s = .next { s with ovr := true } := by
  have h : ∀ j, r ≠ .width j := fun j hj => by subst hj; cases hr
  rw [hostWrite_register h, State.writeRegister_busy hb, if_pos hr]

/-- The offsets of the registers that a host write changes (R20). -/
theorem offset_of_writable (h : r.writable = true) :
    r.offset = 0x008 ∨ r.offset = 0x010 ∨ r.offset = 0x018 ∨ r.offset = 0x020 ∨ r.offset = 0x028 := by
  cases r with
  | cmd | arg0 | arg1 | arg2 | arg3 => decide
  | _ => cases h

/-! ## Reads -/

/-- A read of a settled register of the map's list, STATUS apart: its value, and nothing but the host's log changes. -/
theorem hostRead_register (h : ∀ j, r ≠ .width j) (hs : s.settled r = true) (hne : r ≠ .status) :
    hostRead r.offset 8 s = .next { s with readLog := s.regValue r :: s.readLog } :=
  have hr := regAt_offset (p := s.params) h
  hostRead_settled (aligned_of_regAt hr) hr hs hne

/-- The same of each row of a table of offsets and values. -/
theorem hostRead_registers {xs : List (BitVec 14 × Word)} (rs : List WindowReg)
    (hxs : xs = rs.map fun r => (r.offset, s.regValue r))
    (hrs : ∀ r ∈ rs, (∀ j, r ≠ .width j) ∧ s.settled r = true ∧ r ≠ .status) :
    ∀ x ∈ xs, hostRead x.1 8 s = .next { s with readLog := x.2 :: s.readLog } := by
  subst hxs
  rw [List.forall_mem_map]
  intro r hr
  obtain ⟨h, hs, hne⟩ := hrs r hr
  exact hostRead_register h hs hne

/-- ID, CMD and the ARG registers read normally in every state (R49, R54). -/
theorem hostRead_plain (s : State) :
    ∀ x ∈ [((0x000 : BitVec 14), s.params.implId), (0x008, 0), (0x010, s.arg0), (0x018, s.arg1), (0x020, s.arg2),
        (0x028, s.arg3)],
      hostRead x.1 8 s = .next { s with readLog := x.2 :: s.readLog } := by
  refine hostRead_registers [.id, .cmd, .arg0, .arg1, .arg2, .arg3] rfl ?_
  simp [State.settled, WindowReg.isContext, WindowReg.lostOnFailure]

/-- A read of STATUS with BUSY = 0 makes the unit's writes visible (R69(b)). -/
theorem hostRead_status_idle (hb : s.busy = false) :
    hostRead 0x030 8 s = .next { s with readLog := s.statusWord :: s.readLog, writes := [] } := by
  have hr : regAt s.params 0x030 = some .status := regAt_offset (r := .status) (by simp)
  have hs : s.settled .status = true := by simp [State.settled, hb, WindowReg.lostOnFailure, WindowReg.isContext]
  rw [hostRead_mapped (aligned_of_regAt hr) hr, State.readRegister_settled hs, State.noteRead_eq, if_pos ⟨rfl, hb⟩]
  rfl

/-- Settles O7: with BUSY = 0 a write stores; CMD and the ARG registers are always settled. -/
theorem writesWithBusyClear : Obligations.WritesWithBusyClear := by
  intro s v hb
  have hw : ∀ r : WindowReg, (∀ j, r ≠ .width j) → hostWrite r.offset 8 v s = .next (s.store v r) :=
    fun r h => hostWrite_register_idle h hb v
  refine ⟨⟨s.capture v, hw .cmd (by simp), rfl, rfl, rfl⟩, hw .arg0 (by simp), hw .arg1 (by simp), hw .arg2 (by simp),
    hw .arg3 (by simp), fun u => ?_⟩
  have hr := hostRead_plain u
  simp only [List.forall_mem_cons] at hr
  obtain ⟨-, hcmd, harg0, harg1, harg2, harg3, -⟩ := hr
  exact ⟨hcmd, harg0, harg1, harg2, harg3⟩

/-- Settles O10: in each state the registers of the row are settled. -/
theorem readsWithBusyClear : Obligations.ReadsWithBusyClear := by
  refine fun s => ⟨hostRead_plain s, fun hb => ⟨hostRead_status_idle hb, ?_⟩, fun hb hf => ⟨?_, fun j hj hmax => ?_⟩⟩
  · refine hostRead_registers [.result, .bufBase, .bufLen, .sufBase, .sufLen] rfl ?_
    simp [State.settled, hb, WindowReg.lostOnFailure, WindowReg.isContext]
  · refine hostRead_registers [.vrem, .last, .minDelta, .bitw, .vcmb, .vcb, .mbidx, .nmb, .vpmb, .bitpos, .baVrem, .sufPos,
      .prevLen, .first, .heapUsed] ?_ ?_
    · have hfirst : (if s.bctx.first = true then 1 else 0) = s.regValue .first := by
        show _ = BitVec.setWidth 64 (BitVec.ofBool s.bctx.first)
        cases s.bctx.first <;> rfl
      rw [hfirst]
      rfl
    · simp [State.settled, hb, hf]
  · have hr := regAt_width_offset hj hmax
    exact hostRead_settled (aligned_of_regAt hr) hr (by simp [State.settled, hb, hf]) (by simp)

/-- Settles O12: a register that a host write changes has one of the five offsets. -/
theorem readOnlyAndUnmappedOffsets : Obligations.ReadOnlyAndUnmappedOffsets := by
  intro s off v ha
  refine ⟨fun hr => ⟨hostRead_unmapped ha hr, hostWrite_unmapped ha hr v⟩, fun hoff => ?_⟩
  cases hr : regAt s.params off with
  | none => exact hostWrite_unmapped ha hr v
  | some r =>
    have hro : r.writable = false := by
      by_contra hw
      rw [Bool.not_eq_false] at hw
      simp only [List.forall_mem_cons, offset_of_regAt hr] at hoff
      obtain ⟨h0, h1, h2, h3, h4, -⟩ := hoff
      rcases offset_of_writable hw with h | h | h | h | h
      · exact h0 h
      · exact h1 h
      · exact h2 h
      · exact h3 h
      · exact h4 h
    rw [hostWrite_mapped ha hr, State.writeRegister_readOnly hro]

/-- A read of STATUS with BUSY = 1 shows BUSY = 1 (R54). -/
theorem freeRead_status_odd (hb : s.busy = true) : (s.freeRead .status).toNat % 2 = 1 := by
  rw [State.freeRead, if_pos ⟨hb, rfl⟩, BitVec.toNat_or, Nat.or_mod_two_eq_one]
  exact .inr rfl

/-- Settles O13: a settled register or a free value, and STATUS apart no other effect. -/
theorem readsHaveNoSideEffect : Obligations.ReadsHaveNoSideEffect := by
  intro s off ha
  have hstatus : regAt s.params 0x030 = some .status := regAt_offset (r := .status) (by simp)
  cases hr : regAt s.params off with
  | none =>
    refine ⟨_, 0, hostRead_unmapped ha hr, rfl, .inl rfl, fun _ ho => ?_⟩
    rw [ho, hstatus] at hr
    cases hr
  | some r =>
    obtain ⟨d, hd⟩ : ∃ d, (s.readRegister r).2 = { s with hostDraws := d } := by
      rw [State.readRegister_eq]
      split_ifs <;> exact ⟨_, rfl⟩
    refine ⟨_, (s.readRegister r).1, hostRead_mapped ha hr, ?_, ?_, fun hb ho => ?_⟩
    · rw [State.noteRead_eq, hd]
    · rw [State.noteRead_eq, hd]
      dsimp only
      split_ifs with h
      · exact .inr ⟨by rw [offset_of_regAt hr, h.1]; rfl, h.2⟩
      · exact .inl rfl
    · rw [ho, hstatus] at hr
      cases hr
      rw [State.readRegister_free (by simp [State.settled, hb])]
      exact freeRead_status_odd hb

/-! ## STATUS (R26) -/

theorem toNat_append_eq {m n : Nat} (x : BitVec m) (y : BitVec n) : (x ++ y).toNat = x.toNat * 2 ^ n + y.toNat := by
  rw [BitVec.toNat_append, ← Nat.shiftLeft_add_eq_or_of_lt y.isLt, Nat.shiftLeft_eq]

/-- STATUS as a number: each field in its place, the reserved bits 0. -/
theorem statusWord_toNat (s : State) : s.statusWord.toNat =
    2 ^ 8 * s.errcode.code.toNat + 2 ^ 4 * s.mode.code.toNat + 2 ^ 3 * s.baEmpty.toNat + 2 ^ 2 * s.ovr.toNat +
      2 * s.failed.toNat + s.busy.toNat := by
  simp only [State.statusWord, toNat_append_eq, BitVec.toNat_ofBool, BitVec.toNat_ofNat]
  omega

/-- The fields of STATUS, by their places (R26). -/
theorem statusWord_fields (s : State) :
    s.statusWord.toNat % 2 = s.busy.toNat ∧ s.statusWord.toNat / 2 ^ 1 % 2 = s.failed.toNat ∧
      s.statusWord.toNat / 2 ^ 2 % 2 = s.ovr.toNat ∧ s.statusWord.toNat / 2 ^ 3 % 2 = s.baEmpty.toNat ∧
      s.statusWord.toNat / 2 ^ 4 % 4 = s.mode.code.toNat ∧ s.statusWord.toNat / 2 ^ 6 % 4 = 0 ∧
      s.statusWord.toNat / 2 ^ 8 % 16 = s.errcode.code.toNat ∧ s.statusWord.toNat / 2 ^ 12 = 0 := by
  rw [statusWord_toNat]
  have hmode := s.mode.code.isLt
  have herr := s.errcode.code.isLt
  have hbusy := s.busy.toNat_le
  have hfailed := s.failed.toNat_le
  have hovr := s.ovr.toNat_le
  have hempty := s.baEmpty.toNat_le
  omega

/-- Settles O11: the fields by their places, and the codes by cases. -/
theorem statusFields : Obligations.StatusFields := by
  intro s
  obtain ⟨hbusy, hfailed, hovr, hempty, hmode, hlow, herr, hhigh⟩ := statusWord_fields s
  exact ⟨hbusy.trans (Bool.cond_eq_ite ..), hfailed.trans (Bool.cond_eq_ite ..), hovr.trans (Bool.cond_eq_ite ..),
    hempty.trans (Bool.cond_eq_ite ..), hmode.trans (by cases s.mode <;> rfl), hlow,
    herr.trans (by cases s.errcode <;> rfl), hhigh⟩

/-! ## Reset (R51, R260, R261) -/

theorem statusWord_afterReset (s : State) (ws : List ByteWrite) : (s.afterReset ws).statusWord = 0 :=
  BitVec.eq_of_toNat_eq (statusWord_toNat _)

/-- Settles O56: every register of the state after reset is that of `State.resetWith`. -/
theorem resetWhileIdle : Obligations.ResetWhileIdle := fun s hc =>
  ⟨s.afterReset [], resetMachine_idle hc, rfl, rfl, rfl, rfl, rfl, rfl, statusWord_afterReset s [], rfl, rfl, rfl⟩

/-- Settles O57: the host's free choice says how many of the writes, oldest first, are made. -/
theorem resetDuringACommand : Obligations.ResetDuringACommand := by
  refine fun s c hc => ⟨fun t ws hrun hws => ?_, fun r hrun => resetMachine_refused hc hrun⟩
  have hreset := resetMachine_running hc hrun
  rw [newWrites_append hws, firstWrites_reverse] at hreset
  have hle := Nat.lt_succ_iff.1 (Nat.mod_lt (Config.freeChoice s.hostDraws) ws.length.succ_pos)
  refine ⟨_, Config.freeChoice s.hostDraws % (ws.length + 1), hreset, hle, ?_, rfl⟩
  simp only [State.afterReset, List.reverse_reverse]

end

end Sys2Proof.Machine

namespace Sys2Proof.Machine

/-! # What a command changes, and what it records -/

section
variable {s t : State}

/-! ## Frames (R21, R23, R55, R147) -/

/-- What the body of SETDATA leaves alone: everything but FAILED, BA_EMPTY, the contexts and the binding (R143 to R145). -/
def OnlyBinding (s t : State) : Prop :=
  t = { s with failed := t.failed, baEmpty := t.baEmpty, ictx := t.ictx, bctx := t.bctx, bound := t.bound }

theorem onlyBinding_chains : Chains OnlyBinding where
  refl _ := rfl
  trans {s t u} h1 h2 := by unfold OnlyBinding at *; rw [h2, h1]

theorem Unchanged.onlyBinding (h : Unchanged s t) : OnlyBinding s t := by
  unfold Unchanged at h; rw [h]; exact onlyBinding_chains.refl s

theorem setDataBA_leaves (count base len : Word) : Sub.Leaves OnlyBinding (setDataBA count base len) := by
  have c := onlyBinding_chains
  refine .bind c (.update fun s => rfl) fun _ => ?_
  by_cases h : len.toNat = 0
  · rw [if_pos h]
    exact .update fun s => rfl
  · rw [if_neg h]
    exact .bind c (.raiseIf c _ _) fun _ => .bind c ((memRead_leaves _ _).mono fun _ _ => Unchanged.onlyBinding) fun _ =>
      .bind c (.raiseIf c _ _) fun _ => .bind c (.update fun s => rfl) fun _ => .update fun s => rfl

theorem setdataBody_onlyBinding : Sub.Leaves OnlyBinding setdataBody := by
  have c := onlyBinding_chains
  refine .bind c (.look c _) fun count => .bind c (.look c _) fun base => .bind c (.look c _) fun len =>
    .bind c (.update fun s => rfl) fun _ => .bind c (.look c _) fun m => ?_
  cases m with
  | int32 | int64 => exact .update fun s => rfl
  | byteArray | none => exact setDataBA_leaves count base len

theorem OnlyBinding.frame (h : OnlyBinding s t) :
    t.mem = s.mem ∧ t.writes = s.writes ∧ t.result = s.result ∧ t.mode = s.mode := by
  unfold OnlyBinding at h; rw [h]; exact ⟨rfl, rfl, rfl, rfl⟩

/-- What the body of DECODE leaves alone: everything but memory, RESULT, the count of draws, and of the contexts what is not the
buffers' (R160, R200). -/
def OnlyDecode (s t : State) : Prop :=
  t = { s with
    ictx := { t.ictx with bufBase := s.ictx.bufBase, bufLen := s.ictx.bufLen }
    bctx := { t.bctx with sufBase := s.bctx.sufBase, sufLen := s.bctx.sufLen }
    mem := t.mem
    writes := t.writes
    draws := t.draws
    result := t.result }

theorem onlyDecode_chains : Chains OnlyDecode where
  refl _ := rfl
  trans {s t u} h1 h2 := by unfold OnlyDecode at *; rw [h2, h1]

theorem OnlyDecode.frame (h : OnlyDecode s t) :
    t.mode = s.mode ∧ t.bound = s.bound ∧ t.baEmpty = s.baEmpty ∧ t.ictx.bufBase = s.ictx.bufBase ∧
      t.ictx.bufLen = s.ictx.bufLen ∧ t.bctx.sufBase = s.bctx.sufBase ∧ t.bctx.sufLen = s.bctx.sufLen := by
  unfold OnlyDecode at h; rw [h]; exact ⟨rfl, rfl, rfl, rfl, rfl, rfl, rfl⟩

theorem OnlyBADecode.onlyDecode (h : OnlyBADecode s t) : OnlyDecode s t := by
  unfold OnlyBADecode OnlyDecode at *; rw [h]

theorem decodeBody_onlyDecode : Sub.Leaves OnlyDecode decodeBody := by
  have c := onlyDecode_chains
  have i : Sub.Leaves OnlyDecode decodeInt :=
    .bind c (.look c _) fun _ => .bind c (.look c _) fun _ => .bind c (.look c _) fun _ =>
    .bind c ((decodeIntLoop_leaves _ _ _ _).mono fun _ _ h => h.onlyBADecode.onlyDecode) fun _ => .update fun s => rfl
  have b : Sub.Leaves OnlyDecode decodeBA :=
    .bind c (.look c _) fun _ => .bind c (.look c _) fun _ => .bind c (.look c _) fun _ => .bind c (.look c _) fun _ =>
    .bind c (.update fun s => rfl) fun _ => .bind c ((decodeBALoop_leaves _ _ _ _ _).mono fun _ _ h => h.onlyDecode) fun _ =>
    .update fun s => rfl
  refine .bind c (.look c _) fun m => ?_
  cases m with
  | int32 | int64 => exact i
  | byteArray | none => exact b

/-- A command that runs its body records how that ended, in the state that it left. -/
theorem complete_of_leaves {R : State → State → Prop} {m : Sub Unit} (hm : Sub.Leaves R m) (s : State) :
    ∃ u e, R s.begin u ∧ complete m s = u.finish e := by
  rcases complete_cases m s with ⟨u, hu, h⟩ | ⟨e, u, hu, h⟩
  · exact ⟨u, .none, (hm s.begin).1 _ _ hu, h⟩
  · exact ⟨u, e, (hm s.begin).2 _ _ hu, h⟩

/-- CONFIG always answers: the cleared state in the mode that TYPE names, or in mode NONE with TYPE_ERROR (R141). -/
theorem exec_config_next {ty : Byte} (h : exec (.config ty) s = .next t) :
    ∃ m e, t = { s.begin.configClear with mode := m }.finish e ∧ (e = .none ∨ e = .typeError ∧ m = .none) := by
  change execConfig ty s = _ at h
  cases hm : typeMode ty with
  | some m =>
    rw [execConfig_legal hm] at h
    cases h
    exact ⟨m, .none, rfl, .inl rfl⟩
  | none =>
    rw [execConfig_illegal hm] at h
    cases h
    exact ⟨.none, .typeError, rfl, .inr ⟨rfl, rfl⟩⟩

/-- A SETDATA that answers: STATE_ERROR in mode NONE, or its body is run (R140, R143). -/
theorem exec_setdata_next (h : exec .setdata s = .next t) :
    (s.mode = .none ∧ t = s.begin.finish .stateError) ∨ (s.mode ≠ .none ∧ t = complete setdataBody s) := by
  change execSetdata s = _ at h
  rcases execSetdata_cases s with ⟨hm, e⟩ | ⟨-, -, e⟩ | ⟨-, -, -, e⟩ | ⟨hm, -, -, e⟩ <;> rw [e] at h <;> cases h
  · exact .inl ⟨hm, rfl⟩
  · exact .inr ⟨hm, rfl⟩

/-- A DECODE that answers: STATE_ERROR in mode NONE or after a failure, or its body is run (R140, R146). -/
theorem exec_decode_next (h : exec .decode s = .next t) :
    ((s.mode = .none ∨ s.failed = true) ∧ t = s.begin.finish .stateError) ∨
      (s.mode ≠ .none ∧ s.failed = false ∧ t = complete decodeBody s) := by
  change execDecode s = _ at h
  rcases execDecode_cases s with ⟨hm, e⟩ | ⟨-, -, -, e⟩ | ⟨hm, hf, -, e⟩ <;> rw [e] at h <;> cases h
  · exact .inl ⟨hm, rfl⟩
  · exact .inr ⟨hm, hf, rfl⟩

/-- What a command leaves alone, as one equation. -/
theorem OnlyUnit.frame (h : OnlyUnit s t) (hc : t.command = none) : t = { s with
    command := none, failed := t.failed, baEmpty := t.baEmpty, mode := t.mode, errcode := t.errcode, result := t.result,
    ictx := t.ictx, bctx := t.bctx, bound := t.bound, mem := t.mem, stale := t.stale, writes := t.writes,
    draws := t.draws } := by
  obtain ⟨hparams, h0, h1, h2, h3, hovr, hdraws, hhost, hlog⟩ := h
  rw [← hparams, ← h0, ← h1, ← h2, ← h3, ← hovr, ← hdraws, ← hhost, ← hlog, ← hc]

/-- Settles O26: what every command leaves alone, and then the frame of each. -/
theorem whatCommandsLeaveAlone : Obligations.WhatCommandsLeaveAlone := by
  intro i s t h
  obtain ⟨hunit, hcmd⟩ := exec_next h
  refine ⟨hunit.frame hcmd, ?_⟩
  cases i with
  | config ty =>
    obtain ⟨m, e, rfl, -⟩ := exec_config_next h
    exact ⟨.inr (by simp), .inl ⟨ty, rfl⟩, .inl nofun⟩
  | setdata =>
    rcases exec_setdata_next h with ⟨-, rfl⟩ | ⟨-, rfl⟩
    · exact ⟨.inr ⟨rfl, rfl, rfl⟩, .inr rfl, .inl nofun⟩
    · obtain ⟨u, e, hu, he⟩ := complete_of_leaves setdataBody_onlyBinding s
      obtain ⟨hmem, hwrites, hresult, hmode⟩ := hu.frame
      rw [he]
      exact ⟨.inr ⟨hmem, hwrites, hresult⟩, .inr hmode, .inl nofun⟩
  | decode =>
    rcases exec_decode_next h with ⟨-, rfl⟩ | ⟨-, -, rfl⟩
    · exact ⟨.inl rfl, .inr rfl, .inr ⟨rfl, rfl, rfl, rfl, rfl, rfl⟩⟩
    · obtain ⟨u, e, hu, he⟩ := complete_of_leaves decodeBody_onlyDecode s
      obtain ⟨hmode, hbuffers⟩ := hu.frame
      rw [he]
      exact ⟨.inl rfl, .inr hmode, .inr hbuffers⟩

/-! ## What DECODE records (R233) -/

/-- A loop of slots that raises from RESULT = 0 raises in one slot: the slots before it complete, and RESULT is their number,
where RESULT counts completed slots and a slot that raises leaves it alone. -/
theorem loop_stops {L : Nat → Nat → Sub Unit} (hzero : ∀ k s, L 0 k s = .ok () s)
    (hadd : ∀ m n k s, L (m + n) k s = (L m k >>= fun _ => L n (k + m)) s)
    (hcount : ∀ n k s t, L n k s = .ok () t → t.result = if n = 0 then s.result else BitVec.ofNat 64 (k + n))
    (hraise : ∀ k s e t, L 1 k s = .error e t → t.result = s.result)
    {n : Nat} {e : ErrKind} (hs : s.result = 0) (h : L n 0 s = .error e t) :
    ∃ j < n, t.result = BitVec.ofNat 64 j ∧ (∃ u, L j 0 s = .ok () u) ∧ L (j + 1) 0 s = .error e t := by
  induction n with
  | zero =>
    rw [hzero] at h
    cases h
  | succ n ih =>
    rcases Sub.bind_error_iff.1 ((hadd n 1 0 s).symm.trans h) with hbefore | ⟨_, u, hu, hlast⟩
    · obtain ⟨j, hj, hstop⟩ := ih hbefore
      exact ⟨j, by omega, hstop⟩
    · refine ⟨n, by omega, ?_, ⟨u, hu⟩, h⟩
      rw [hraise _ _ _ _ hlast, hcount _ _ _ _ hu, hs, Nat.zero_add]
      split_ifs with h0
      · rw [h0]; rfl
      · rfl

/-- One slot of the loop, and the rest. -/
theorem decodeBALoop_succ (desc heap cap : Word) (n k : Nat) (s : State) :
    decodeBALoop desc heap cap (n + 1) k s = (baSlot desc heap cap k >>= fun _ =>
      update (fun s => { s with result := BitVec.ofNat 64 (k + 1) }) >>= fun _ => decodeBALoop desc heap cap n (k + 1)) s := rfl

/-- The loop in two parts. -/
theorem decodeBALoop_add (desc heap cap : Word) (m n k : Nat) (s : State) :
    decodeBALoop desc heap cap (m + n) k s =
      (decodeBALoop desc heap cap m k >>= fun _ => decodeBALoop desc heap cap n (k + m)) s := by
  induction m generalizing k s with
  | zero => rw [Nat.zero_add]; rfl
  | succ m ih =>
    rw [show m + 1 + n = (m + n) + 1 by omega, Sub.bind_run, decodeBALoop_succ, decodeBALoop_succ]
    simp only [Sub.bind_run, update_run]
    cases baSlot desc heap cap k s with
    | error e t => rfl
    | ok v t =>
      simp only
      rw [ih (k + 1), Sub.bind_run, show k + 1 + m = k + (m + 1) by omega]

/-- An integer loop that raises from RESULT = 0 leaves in RESULT the slot that raised (R233). -/
theorem decodeIntLoop_stops {esize n : Nat} {out : Word} {e : ErrKind} (hs : s.result = 0)
    (h : decodeIntLoop esize out n 0 s = .error e t) :
    ∃ j < n, t.result = BitVec.ofNat 64 j ∧ (∃ u, decodeIntLoop esize out j 0 s = .ok () u) ∧
      decodeIntLoop esize out (j + 1) 0 s = .error e t := by
  refine loop_stops (fun _ _ => rfl) (decodeIntLoop_add esize out)
    (fun n k s t ht => ((decodeIntLoop_ends esize out n k s).1 t ht).1) (fun k s e t ht => ?_) hs h
  obtain ⟨i, hi, hr, -⟩ := (decodeIntLoop_ends esize out 1 k s).2 e t ht
  rw [hr, if_pos (by omega)]

/-- The same of a byte-array loop. -/
theorem decodeBALoop_stops {desc heap cap : Word} {n : Nat} {e : ErrKind} (hs : s.result = 0)
    (h : decodeBALoop desc heap cap n 0 s = .error e t) :
    ∃ j < n, t.result = BitVec.ofNat 64 j ∧ (∃ u, decodeBALoop desc heap cap j 0 s = .ok () u) ∧
      decodeBALoop desc heap cap (j + 1) 0 s = .error e t := by
  refine loop_stops (fun _ _ => rfl) (decodeBALoop_add desc heap cap)
    (fun n k s t ht => ((decodeBALoop_ends desc heap cap n k s).1 t ht).1) (fun k s e t ht => ?_) hs h
  obtain ⟨i, hi, hr, -⟩ := (decodeBALoop_ends desc heap cap 1 k s).2 e t ht
  rw [hr, if_pos (by omega)]

/-! ## A slot of a byte-array DECODE that goes on -/

/-- What the writes of a slot leave alone: everything but memory and HEAP_USED (R207). -/
def OnlyHeap (s t : State) : Prop :=
  t = { s with bctx := { s.bctx with heapUsed := t.bctx.heapUsed }, mem := t.mem, writes := t.writes }

theorem onlyHeap_chains : Chains OnlyHeap where
  refl _ := rfl
  trans {s t u} h1 h2 := by unfold OnlyHeap at *; rw [h2, h1]

theorem emitValue_onlyHeap (v : List Byte) (desc heap : Word) (k : Nat) : Sub.Leaves OnlyHeap (emitValue v desc heap k) := by
  have c := onlyHeap_chains
  have w : ∀ a bs, Sub.Leaves OnlyHeap (memWriteBytes a bs) := fun a bs =>
    (memWriteBytes_leaves a bs).mono fun s t h => by unfold OnlyMemory at h; rw [h]; rfl
  exact .bind c (.look c _) fun a => .bind c (w _ _) fun _ => .bind c (w _ _) fun _ => .bind c (w _ _) fun _ =>
    .bind c (w _ _) fun _ => .update fun s => rfl

/-- A slot that completes: its value is found, written, and becomes PREV (R200, R208). -/
theorem baSlot_ok {desc heap cap : Word} {k : Nat} {x : Unit} (h : baSlot desc heap cap k s = .ok x t) :
    ∃ v u w, baValue cap s = .ok v u ∧ OnlyHeap u w ∧ t = { w with bctx := { w.bctx with prev := v, first := false } } := by
  obtain ⟨v, u, hv, h⟩ := Sub.bind_ok_iff.1 h
  obtain ⟨_, w, hw, h⟩ := Sub.bind_ok_iff.1 h
  cases h
  exact ⟨v, u, w, hv, (emitValue_onlyHeap v desc heap k u).1 _ _ hw, rfl⟩

/-- Each slot takes one value from the nested integer decoder's count (R201). -/
theorem baSlot_vrem {desc heap cap : Word} {k : Nat} {x : Unit} (h : baSlot desc heap cap k s = .ok x t) :
    t.ictx.vrem = s.ictx.vrem - 1 := by
  obtain ⟨v, u, w, hv, hw, rfl⟩ := baSlot_ok h
  obtain ⟨p, s1, suf, hp, hsuf, -, -⟩ := baValue_ok hv
  obtain ⟨s0, hslot, rfl⟩ := prefixNext_ok hp
  obtain ⟨-, s2, hsame, rfl⟩ := suffixNext_ok hsuf
  have hint := (ideNext_leaves 4 s).1 _ _ hslot
  unfold OnlyIntSlot at hint
  unfold Unchanged at hsame
  unfold OnlyHeap at hw
  rw [hw, hsame, hint]

theorem decodeBALoop_vrem {desc heap cap : Word} {n k : Nat} {x : Unit} (h : decodeBALoop desc heap cap n k s = .ok x t) :
    t.ictx.vrem = s.ictx.vrem - BitVec.ofNat 64 n := by
  induction n generalizing k s with
  | zero =>
    cases h
    exact (BitVec.sub_zero _).symm
  | succ n ih =>
    rw [decodeBALoop_succ] at h
    obtain ⟨_, u, hu, h⟩ := Sub.bind_ok_iff.1 h
    rw [update_bind] at h
    rw [ih h]
    show u.ictx.vrem - _ = _
    rw [baSlot_vrem hu, sub_sub, Nat.add_comm, BitVec.ofNat_add]
    rfl

theorem toNat_ofNat_word {n : Nat} (h : n < 2 ^ 64) : (BitVec.ofNat 64 n).toNat = n := by
  rw [BitVec.toNat_ofNat, Nat.mod_eq_of_lt h]

theorem toNat_sub_ofNat {w : Word} {n : Nat} (h : n ≤ w.toNat) : (w - BitVec.ofNat 64 n).toNat = w.toNat - n := by
  have hn := toNat_ofNat_word (h.trans_lt w.isLt)
  rw [BitVec.toNat_sub_of_le (by rw [BitVec.le_def, hn]; exact h), hn]

/-- Only the guards of a DECODE record STATE_ERROR: no slot raises it. -/
theorem complete_decodeBody_errcode (s : State) : (complete decodeBody s).errcode ≠ .stateError := by
  rcases complete_cases decodeBody s with ⟨u, -, h⟩ | ⟨e, u, hu, h⟩ <;> rw [h]
  · exact nofun
  · exact (slotKind_fatal (decodeBody_raises _ _ _ hu)).2.1

/-- R233 in the integer modes. -/
theorem decode_int_record (hm : s.mode = .int32 ∨ s.mode = .int64) (h : exec .decode s = .next t) :
    (t.errcode = .none → t.result.toNat = s.intCount ∧ t.ictx.vrem.toNat = s.ictx.vrem.toNat - t.result.toNat) ∧
    (t.errcode ≠ .none → t.errcode ≠ .stateError → ∃ k < s.intCount, t.result.toNat = k ∧
      (∃ u, decodeIntLoop s.mode.esize s.arg1 k 0 s.begin = .ok () u) ∧
      ∃ u, decodeIntLoop s.mode.esize s.arg1 (k + 1) 0 s.begin = .error t.errcode u) := by
  have hlt := intCount_lt s
  rcases decode_int_cases hm h with ⟨-, rfl⟩ | ⟨-, -, u, hu, rfl⟩ | ⟨-, -, e, u, hk, hu, rfl⟩
  · exact ⟨nofun, fun _ hne => absurd rfl hne⟩
  · refine ⟨fun _ => ?_, fun hne => absurd rfl hne⟩
    have hleft : s.intCount ≤ s.ictx.vrem.toNat := Nat.min_le_right _ _
    have hvrem : u.ictx.vrem = s.ictx.vrem := by
      have ho := (decodeIntLoop_leaves _ _ _ _ s.begin).1 _ _ hu
      unfold OnlyIntDecode at ho
      rw [ho]
      rfl
    have hn : (BitVec.ofNat 64 s.intCount).toNat = s.intCount := toNat_ofNat_word hlt
    refine ⟨hn, ?_⟩
    show (u.ictx.vrem - BitVec.ofNat 64 s.intCount).toNat = _ - (BitVec.ofNat 64 s.intCount).toNat
    rw [hvrem, hn, toNat_sub_ofNat hleft]
  · refine ⟨fun he => absurd he (slotKind_fatal hk).1, fun _ _ => ?_⟩
    obtain ⟨j, hj, hr, hbefore, hstop⟩ := decodeIntLoop_stops rfl hu
    refine ⟨j, hj, ?_, hbefore, u, hstop⟩
    show u.result.toNat = j
    rw [hr, toNat_ofNat_word (hj.trans hlt)]

/-- R233 in BYTE_ARRAY mode. -/
theorem decode_ba_record (hm : s.mode = .byteArray) (h : exec .decode s = .next t) :
    (t.errcode = .none → t.result.toNat = s.baCount ∧ t.bctx.baVrem.toNat = s.bctx.baVrem.toNat - t.result.toNat ∧
      t.ictx.vrem = s.ictx.vrem - t.result) ∧
    (t.errcode ≠ .none → t.errcode ≠ .stateError → ∃ k < s.baCount, t.result.toNat = k ∧
      (∃ u, decodeBALoop s.arg1 s.arg2 s.arg3 k 0 { s.begin with bctx := { s.bctx with heapUsed := 0 } } = .ok () u) ∧
      ∃ u, decodeBALoop s.arg1 s.arg2 s.arg3 (k + 1) 0 { s.begin with bctx := { s.bctx with heapUsed := 0 } } =
        .error t.errcode u) := by
  have hlt := baCount_lt s
  rcases decode_ba_cases hm h with ⟨-, rfl⟩ | ⟨-, -, u, hu, rfl⟩ | ⟨-, -, e, u, hk, hu, rfl⟩
  · exact ⟨nofun, fun _ hne => absurd rfl hne⟩
  · refine ⟨fun _ => ?_, fun hne => absurd rfl hne⟩
    have hleft : s.baCount ≤ s.bctx.baVrem.toNat := Nat.min_le_right _ _
    have hvrem : u.bctx.baVrem = s.bctx.baVrem := by
      have ho := (decodeBALoop_leaves _ _ _ _ _ _).1 _ _ hu
      unfold OnlyBADecode at ho
      rw [ho]
    have hn : (BitVec.ofNat 64 s.baCount).toNat = s.baCount := toNat_ofNat_word hlt
    refine ⟨hn, ?_, decodeBALoop_vrem (s := { s.begin with bctx := { s.bctx with heapUsed := 0 } }) (t := u) hu⟩
    show (u.bctx.baVrem - BitVec.ofNat 64 s.baCount).toNat = _ - (BitVec.ofNat 64 s.baCount).toNat
    rw [hvrem, hn, toNat_sub_ofNat hleft]
  · refine ⟨fun he => absurd he (slotKind_fatal hk).1, fun _ _ => ?_⟩
    obtain ⟨j, hj, hr, hbefore, hstop⟩ := decodeBALoop_stops rfl hu
    refine ⟨j, hj, ?_, hbefore, u, hstop⟩
    show u.result.toNat = j
    rw [hr, toNat_ofNat_word (hj.trans hlt)]

/-- Settles O27: by mode. -/
theorem decodeRecord : Obligations.DecodeRecord := by
  intro s t h
  refine ⟨fun he => ?_, fun hm => decode_int_record hm h, fun hm => ?_⟩
  · rcases exec_decode_next h with ⟨-, rfl⟩ | ⟨-, -, rfl⟩
    · rfl
    · exact absurd he (complete_decodeBody_errcode s)
  · obtain ⟨hnone, hfatal⟩ := decode_ba_record hm h
    refine ⟨hnone, fun h0 h1 => ?_⟩
    obtain ⟨k, hk, hr, hbefore, hstop⟩ := hfatal h0 h1
    exact ⟨k, hk, hr, fun s0 h0 => h0 ▸ ⟨hbefore, hstop⟩⟩

end

end Sys2Proof.Machine

namespace Sys2Proof.Machine

/-! # What a step changes, by the event that it is -/

section
variable {s t : State}

/-! ## Register writes and reset -/

/-- What a register write leaves alone: everything but the captured command, the ARG registers and OVR. -/
theorem writeRegister_frame (s : State) (r : WindowReg) (v : Word) :
    ∃ a0 a1 a2 a3 c o d st, s.writeRegister r v =
      { s with arg0 := a0, arg1 := a1, arg2 := a2, arg3 := a3, command := c, ovr := o, draws := d, stale := st } := by
  cases hb : s.busy with
  | true =>
    rw [State.writeRegister_busy hb]
    split_ifs <;> exact ⟨_, _, _, _, _, _, _, _, rfl⟩
  | false =>
    rw [State.writeRegister_idle hb]
    cases r <;> exact ⟨_, _, _, _, _, _, _, _, rfl⟩

/-- The ARG registers, by their offsets (R20). -/
abbrev argRegisters : List (BitVec 14 × (State → Word)) :=
  [(0x010, State.arg0), (0x018, State.arg1), (0x020, State.arg2), (0x028, State.arg3)]

theorem argRegisters_same (h0 : t.arg0 = s.arg0) (h1 : t.arg1 = s.arg1) (h2 : t.arg2 = s.arg2) (h3 : t.arg3 = s.arg3) :
    ∀ x ∈ argRegisters, x.2 t = x.2 s := by
  simp only [List.forall_mem_cons]
  exact ⟨h0, h1, h2, h3, List.forall_mem_nil _⟩

/-- A register write stores into the ARG register at its own offset, with BUSY = 0 (R25, R55). -/
theorem writeRegister_arg (s : State) (r : WindowReg) (v : Word) : ∀ x ∈ argRegisters,
    x.2 (s.writeRegister r v) = x.2 s ∨ (s.busy = false ∧ r.offset = x.1 ∧ x.2 (s.writeRegister r v) = v) := by
  cases hb : s.busy with
  | true =>
    rw [State.writeRegister_busy hb]
    split_ifs <;> simp
  | false =>
    rw [State.writeRegister_idle hb]
    cases r with
    | arg0 | arg1 | arg2 | arg3 => simp [State.store, WindowReg.offset, windowMap]
    | _ => simp [State.store, State.capture]

/-- OVR is set by a write with BUSY = 1, and by no other (R55). -/
theorem writeRegister_ovr (s : State) (r : WindowReg) (v : Word) :
    (s.writeRegister r v).ovr = s.ovr ∨ (s.busy = true ∧ (s.writeRegister r v).ovr = true) := by
  cases hb : s.busy with
  | true =>
    rw [State.writeRegister_busy hb]
    split_ifs
    · exact .inr ⟨rfl, rfl⟩
    · exact .inl rfl
  | false =>
    rw [State.writeRegister_idle hb]
    cases r <;> exact .inl rfl

/-- A reset that has a meaning takes every register to its reset value (R260, R261). -/
theorem resetMachine_next (h : resetMachine s = .next t) : ∃ ws d, t = { s.afterReset ws with hostDraws := d } := by
  cases hc : s.command with
  | none =>
    rw [resetMachine_idle hc] at h
    cases h
    exact ⟨[], _, rfl⟩
  | some c =>
    cases hrun : runCommand c s with
    | fault f => cases f
    | refused x =>
      rw [resetMachine_refused hc hrun] at h
      cases h
    | next u =>
      rw [resetMachine_running hc hrun] at h
      cases h
      exact ⟨_, _, rfl⟩

/-! ## NOT_IMPLEMENTED is never recorded (R176) -/

theorem setDataBA_raises (count base len : Word) : Sub.Raises SlotKind (setDataBA count base len) := by
  refine .bind (.update _) fun _ => ?_
  by_cases h : len.toNat = 0
  · rw [if_pos h]
    exact .update _
  · rw [if_neg h]
    exact .bind (.raiseIf (.inl (.inl rfl))) fun _ => .bind (memRead_raises _ _) fun _ =>
      .bind (.raiseIf (.inl (.inl rfl))) fun _ => .bind (.update _) fun _ => .update _

theorem setdataBody_raises : Sub.Raises SlotKind setdataBody := by
  refine .bind (.look _) fun count => .bind (.look _) fun base => .bind (.look _) fun len => .bind (.update _) fun _ =>
    .bind (.look _) fun m => ?_
  cases m with
  | int32 | int64 => exact .update _
  | byteArray | none => exact setDataBA_raises count base len

theorem complete_errcode {m : Sub Unit} (hm : Sub.Raises SlotKind m) (s : State) :
    (complete m s).errcode ≠ .notImplemented := by
  rcases complete_cases m s with ⟨u, -, h⟩ | ⟨e, u, hu, h⟩ <;> rw [h]
  · exact nofun
  · exact (slotKind_fatal (hm _ _ _ hu)).2.2.1

theorem exec_errcode {i : Instr} (h : exec i s = .next t) : t.errcode ≠ .notImplemented := by
  cases i with
  | config ty =>
    obtain ⟨m, e, rfl, rfl | ⟨rfl, -⟩⟩ := exec_config_next h
    · exact nofun
    · exact nofun
  | setdata =>
    rcases exec_setdata_next h with ⟨-, rfl⟩ | ⟨-, rfl⟩
    · exact nofun
    · exact complete_errcode setdataBody_raises s
  | decode =>
    rcases exec_decode_next h with ⟨-, rfl⟩ | ⟨-, -, rfl⟩
    · exact nofun
    · exact complete_errcode decodeBody_raises s

theorem runCommand_errcode {c : Word} (h : runCommand c s = .next t) : t.errcode ≠ .notImplemented := by
  rcases runCommand_cases c s with ⟨i, -, e⟩ | ⟨x, -, e⟩ <;> rw [e] at h
  · exact exec_errcode h
  · cases h
    exact nofun

/-- Only CONFIG changes MODE (R141). -/
theorem runCommand_mode {c : Word} (h : runCommand c s = .next t) :
    t.mode = s.mode ∨ ∃ ty, decode c = .ok (.config ty) := by
  rcases runCommand_cases c s with ⟨i, hi, e⟩ | ⟨x, -, e⟩ <;> rw [e] at h
  · obtain ⟨-, -, ⟨ty, rfl⟩ | hmode, -⟩ := whatCommandsLeaveAlone i s t h
    · exact .inr ⟨ty, hi⟩
    · exact .inl hmode
  · cases h
    exact .inl rfl

/-! ## Every step -/

/-- A step, by what it is: the completion of the running command, the reset that lands, a register write, or an event that touches
no register at all. -/
theorem step_next (h : step s = .next t) :
    (∃ c, s.command = some c ∧ s.landing = none ∧ runCommand c s = .next t) ∨
    (s.landing = some .reset ∧ ∃ ws d rest, t = { s.afterReset ws with hostDraws := d, host := rest }) ∨
    (∃ r v rest, s.landing = some (.writeReg r.offset 8 v) ∧ t = { s with host := rest }.writeRegister r v) ∨
    ∃ rest, OnlyHostSide { s with host := rest } t ∧ (s.mem.wf → t.mem.wf) := by
  rcases step_cases s with ⟨c, hc, hl, e⟩ | ⟨ev, rest, hh, hl, e⟩ | ⟨hc, hh, e⟩ <;> rw [e] at h
  · exact .inl ⟨c, hc, hl, h⟩
  · rcases hostStep_next h with hop | ⟨r, v, hop, rfl⟩ | hside
    · rw [hop] at h hl
      obtain ⟨ws, d, rfl⟩ := resetMachine_next h
      exact .inr (.inl ⟨hl, ws, d, rest, rfl⟩)
    · exact .inr (.inr (.inl ⟨r, v, rest, hop ▸ hl, rfl⟩))
    · exact .inr (.inr (.inr ⟨rest, hside⟩))
  · cases h
    exact .inr (.inr (.inr ⟨s.host, rfl, id⟩))

/-- OVR after a step: as it was, or reset, or set by a write with BUSY = 1. -/
theorem step_ovr (h : step s = .next t) :
    t.ovr = s.ovr ∨ (s.landing = some .reset ∧ t.ovr = false) ∨ (s.busy = true ∧ t.ovr = true) := by
  rcases step_next h with ⟨c, -, -, hrun⟩ | ⟨hl, ws, d, rest, rfl⟩ | ⟨r, v, rest, -, rfl⟩ | ⟨rest, hside, -⟩
  · obtain ⟨⟨-, -, -, -, -, hovr, -⟩, -⟩ := runCommand_next hrun
    exact .inl hovr
  · exact .inr (.inl ⟨hl, rfl⟩)
  · exact (writeRegister_ovr { s with host := rest } r v).imp_right .inr
  · unfold OnlyHostSide at hside
    rw [hside]
    exact .inl rfl

/-- Settles O8: the write by its register; OVR by what a step can do to it. -/
theorem writesWhileBusy : Obligations.WritesWhileBusy := by
  refine ⟨fun s v off hb hoff => ?_, fun s t h hovr => ?_, fun s t h hovr hset => ?_⟩
  · rcases hoff with rfl | rfl | rfl | rfl | rfl
    · exact hostWrite_register_busy (r := .cmd) rfl hb v
    · exact hostWrite_register_busy (r := .arg0) rfl hb v
    · exact hostWrite_register_busy (r := .arg1) rfl hb v
    · exact hostWrite_register_busy (r := .arg2) rfl hb v
    · exact hostWrite_register_busy (r := .arg3) rfl hb v
  · rcases step_ovr h with hsame | ⟨hl, -⟩ | ⟨-, hset⟩
    · exact .inl (hsame.trans hovr)
    · exact .inr hl
    · exact .inl hset
  · rcases step_ovr h with hsame | ⟨-, hclear⟩ | ⟨hb, -⟩
    · exact nomatch hset.symm.trans (hsame.trans hovr)
    · exact nomatch hset.symm.trans hclear
    · exact hb

/-- Settles O60: by what a step is. -/
theorem onlyTheseEventsChange : Obligations.OnlyTheseEventsChange := by
  intro s t h
  rcases step_next h with ⟨c, hc, hl, hrun⟩ | ⟨hl, ws, d, rest, rfl⟩ | ⟨r, v, rest, hl, rfl⟩ | ⟨rest, hside, -⟩
  · obtain ⟨⟨hparams, h0, h1, h2, h3, -⟩, hcmd⟩ := runCommand_next hrun
    have hbusy : s.busy = true := by rw [State.busy, hc]; rfl
    have hdone : t.busy = false := by rw [State.busy, hcmd]; rfl
    exact ⟨hparams, fun x hx => .inl (argRegisters_same h0 h1 h2 h3 x hx),
      (runCommand_mode hrun).imp_right fun ⟨ty, hty⟩ => .inr ⟨hl, c, ty, hc, hty⟩,
      .inr (.inr ⟨hl, hbusy, hdone⟩), fun _ => runCommand_errcode hrun⟩
  · exact ⟨rfl, fun _ _ => .inr (.inl hl), .inr (.inl hl), .inr (.inl hl), fun _ => nofun⟩
  · have harg := writeRegister_arg { s with host := rest } r v
    obtain ⟨a0, a1, a2, a3, c, o, d, st, hw⟩ := writeRegister_frame { s with host := rest } r v
    rw [hw] at harg ⊢
    refine ⟨rfl, fun x hx => ?_, .inl rfl, .inl ⟨rfl, rfl, rfl, rfl, rfl, rfl⟩, id⟩
    rcases harg x hx with hsame | ⟨hb, hoff, hval⟩
    · exact .inl (hsame.trans (argRegisters_same (s := s) (t := { s with host := rest }) rfl rfl rfl rfl x hx))
    · exact .inr (.inr ⟨hb, v, hoff ▸ hl, hval⟩)
  · unfold OnlyHostSide at hside
    rw [hside]
    refine ⟨rfl, fun x hx => .inl (argRegisters_same ?_ ?_ ?_ ?_ x hx), .inl rfl, .inl ⟨rfl, rfl, rfl, rfl, rfl, rfl⟩, id⟩
    all_goals rfl

end

end Sys2Proof.Machine

namespace Sys2Proof.Machine

/-! # Every step keeps the invariant (R50) -/

section
variable {s t : State}

/-! ## The integer context (R50 (a) to (d)) -/

/-- What R50 (a) to (d) and its support say of the integer context alone; `narrow` where LAST lies in s32. -/
structure IntContextOk (maxMiniBlocks : Nat) (narrow : Prop) (c : IntContext) : Prop where
  cursor : c.bitpos.toNat ≤ 8 * c.bufLen.toNat
  block : (c.nmb = 0 ∧ c.mbidx = 0 ∧ c.vcmb = 0) ∨
    (1 ≤ c.nmb.toNat ∧ c.nmb.toNat ≤ maxMiniBlocks ∧ c.mbidx.toNat < c.nmb.toNat ∧ c.vcmb.toNat ≤ c.vpmb.toNat)
  width : 1 ≤ c.nmb.toNat → c.bitw.toNat = (c.widthAt c.mbidx.toNat).toNat ∧ c.bitw.toNat ≤ 64
  last : narrow → -(2 ^ 31 : Int) ≤ c.last.toInt ∧ c.last.toInt < 2 ^ 31
  widths : ∀ w ∈ c.width, w.toNat ≤ 64
  values : 1 ≤ c.nmb.toNat → 1 ≤ c.vpmb.toNat

variable {M : Nat} {N : Prop} {c : IntContext}

/-- A context just cleared has no block. -/
theorem IntContextOk.cleared (p : Params) (count base len : Word) :
    IntContextOk M N { IntContext.zero p with vrem := count, bufBase := base, bufLen := len } where
  cursor := Nat.zero_le _
  block := .inl ⟨rfl, rfl, rfl⟩
  width h := absurd h (Nat.not_succ_le_zero 0)
  last _ := by
    show -(2 ^ 31 : Int) ≤ (0 : Word).toInt ∧ (0 : Word).toInt < 2 ^ 31
    decide
  widths w hw := by rw [List.eq_of_mem_replicate hw]; decide
  values h := absurd h (Nat.not_succ_le_zero 0)

/-- The counts of values left are no part of it. -/
theorem IntContextOk.withVrem (h : IntContextOk M N c) (n : Word) : IntContextOk M N { c with vrem := n } :=
  ⟨h.cursor, h.block, h.width, h.last, h.widths, h.values⟩

/-- A width byte of at most 64 fits BITW (R39, R40). -/
theorem widthAt_le (h : ∀ w ∈ c.width, w.toNat ≤ 64) (j : Nat) : (c.widthAt j).toNat ≤ 64 := by
  unfold IntContext.widthAt
  rw [List.getD_eq_getElem?_getD]
  cases hj : c.width[j]? with
  | none => decide
  | some w => exact h w (List.mem_of_getElem? hj)

theorem bitw_of_width {w : Byte} (h : w.toNat ≤ 64) : (w.setWidth 7).toNat = w.toNat := by
  rw [BitVec.toNat_setWidth, Nat.mod_eq_of_lt (by omega)]

theorem OnlyCursor.intContextOk (h : OnlyCursor s t) (hc : CursorOk t) (hs : IntContextOk M N s.ictx) :
    IntContextOk M N t.ictx := by
  unfold OnlyCursor at h
  unfold CursorOk State.bufBits at hc
  rw [h] at hc ⊢
  exact ⟨hc, hs.block, hs.width, hs.last, hs.widths, hs.values⟩

/-- A value in range of 4 bytes is an s32, and is stored exactly (R165). -/
theorem toInt_ofInt_of_inRange {v : Int} (h : inRange v 4 = true) :
    -(2 ^ 31 : Int) ≤ (BitVec.ofInt 64 v).toInt ∧ (BitVec.ofInt 64 v).toInt < 2 ^ 31 := by
  unfold inRange at h
  rw [decide_eq_true_eq] at h
  norm_num at h
  rw [BitVec.toInt_ofInt, Int.bmod_eq_of_le (by norm_num; omega) (by norm_num; omega)]
  norm_num
  exact h

/-- Within a mini-block (R163). -/
theorem IntContextOk.nextDelta {esize : Nat} {v : Int} (hs : IntContextOk M N s.ictx) (hN : N → esize = 4)
    (hv : s.ictx.vcmb ≠ 0) (h : nextDelta esize s = .ok v t) : IntContextOk M N t.ictx := by
  obtain ⟨raw, u, hread, -, hrange, rfl⟩ := nextDelta_ok h
  have hcursor := (readBits_leaves _ s).1 _ _ hread
  have hu := hcursor.intContextOk (readBits_ok hread).2.1 hs
  have hvu : u.ictx.vcmb = s.ictx.vcmb := by unfold OnlyCursor at hcursor; rw [hcursor]
  refine ⟨hu.cursor, ?_, hu.width, fun hn => ?_, hu.widths, hu.values⟩
  · rcases hu.block with ⟨-, -, h0⟩ | ⟨h1, h2, h3, h4⟩
    · exact absurd (hvu ▸ h0) hv
    · refine .inr ⟨h1, h2, h3, ?_⟩
      show (u.ictx.vcmb - 1).toNat ≤ u.ictx.vpmb.toNat
      rw [hvu] at h4 ⊢
      bv_omega
  · obtain rfl := hN hn
    exact toInt_ofInt_of_inRange hrange

/-- Into the next mini-block (R161): its width and its values are those of the table. -/
theorem IntContextOk.enter (hc : IntContextOk M N c) (hnext : (c.mbidx + 1).toNat < c.nmb.toNat) :
    IntContextOk M N { c with mbidx := c.mbidx + 1 }.enter ∧ { c with mbidx := c.mbidx + 1 }.enter.vcmb ≠ 0 := by
  have hw := widthAt_le hc.widths (c.mbidx + 1).toNat
  have hnmb : 1 ≤ c.nmb.toNat := by omega
  have hbitw := bitw_of_width hw
  refine ⟨⟨hc.cursor, .inr ⟨hnmb, ?_, hnext, le_refl _⟩, fun _ => ⟨hbitw, hbitw.le.trans hw⟩, hc.last, hc.widths, hc.values⟩,
    fun h0 => ?_⟩
  · rcases hc.block with ⟨h0, -⟩ | ⟨-, hmax, -⟩
    · rw [h0] at hnmb
      exact absurd hnmb (Nat.not_succ_le_zero 0)
    · exact hmax
  · have hv := hc.values hnmb
    change c.vpmb = 0 at h0
    rw [h0] at hv
    exact absurd hv (Nat.not_succ_le_zero 0)

/-- The first mini-block's width is the first that the header lists (R162). -/
theorem withHeader_widthAt_zero {p : Params} {bs nmb vcb : Nat} {fv md : Int} {ws : List Byte} (h : ws ≠ []) :
    (c.withHeader p bs nmb vcb fv md ws).widthAt 0 = ws.getD 0 0 := by
  cases ws with
  | nil => exact absurd rfl h
  | cons w ws => rfl

/-- Through a header (R162). -/
theorem IntContextOk.parseHeader {esize : Nat} {v : Int} (hcur : CursorOk s) (hmax : s.params.maxMiniBlocks ≤ 1024)
    (hN : N → esize = 4) (h : parseHeader esize s = .ok v t) : IntContextOk s.params.maxMiniBlocks N t.ictx := by
  obtain ⟨bs, nmb, vcb, md, ws, u, hbs, -, -, hn0, hnmax, hb0, hdvd, hlen, hws, hrange, -, hkeeps, rfl⟩ := parseHeader_ok h
  have hnmb : (BitVec.ofNat 64 nmb).toNat = nmb := toNat_ofNat_word (by omega)
  have hle : nmb ≤ bs := Nat.le_of_dvd (Nat.pos_of_ne_zero hb0) (Nat.dvd_of_mod_eq_zero hdvd)
  have hvpmb : (BitVec.ofNat 64 (bs / nmb)).toNat = bs / nmb := toNat_ofNat_word ((Nat.div_le_self _ _).trans_lt hbs)
  have hpos : 1 ≤ bs / nmb := Nat.div_pos hle (Nat.pos_of_ne_zero hn0)
  have hwidths : ∀ w ∈ ws ++ List.replicate (u.params.maxMiniBlocks - nmb) (0 : Byte), w.toNat ≤ 64 := fun w hw => by
    rcases List.mem_append.1 hw with hw | hw
    · exact hws w hw
    · rw [List.eq_of_mem_replicate hw]; decide
  refine ⟨hkeeps hcur, .inr ⟨?_, ?_, ?_, le_refl _⟩, fun _ => ?_, fun hn => ?_, hwidths, fun _ => ?_⟩
  · show 1 ≤ (BitVec.ofNat 64 nmb).toNat
    omega
  · show (BitVec.ofNat 64 nmb).toNat ≤ _
    omega
  · show 0 < (BitVec.ofNat 64 nmb).toNat
    omega
  · have hfirst : (u.ictx.withHeader u.params bs nmb vcb v md ws).widthAt 0 = ws.getD 0 0 :=
      withHeader_widthAt_zero (List.ne_nil_of_length_pos (by omega))
    have hw := hfirst ▸ widthAt_le hwidths 0
    have hbitw := bitw_of_width hw
    exact ⟨hbitw.trans (congrArg BitVec.toNat hfirst.symm), hbitw.le.trans hw⟩
  · obtain rfl := hN hn
    exact toInt_ofInt_of_inRange hrange
  · show 1 ≤ (BitVec.ofNat 64 (bs / nmb)).toNat
    omega

/-- One slot keeps the context in order. -/
theorem IntContextOk.ideNext {esize : Nat} {v : Int} (hs : IntContextOk s.params.maxMiniBlocks N s.ictx)
    (hmax : s.params.maxMiniBlocks ≤ 1024) (hN : N → esize = 4) (h : ideNext esize s = .ok v t) :
    IntContextOk s.params.maxMiniBlocks N t.ictx := by
  rw [ideNext_cases] at h
  split_ifs at h with hv hnext
  · exact hs.nextDelta hN hv h
  · obtain ⟨hc, hv'⟩ := hs.enter hnext
    refine IntContextOk.nextDelta ?_ hN ?_ h
    · exact hc
    · exact hv'
  · have hcur : CursorOk { s with ictx := { s.ictx with mbidx := s.ictx.mbidx + 1 } } := hs.cursor
    exact .parseHeader (s := { s with ictx := { s.ictx with mbidx := s.ictx.mbidx + 1 } }) hcur hmax hN h

/-! ## The width table (R40), also where a slot raises -/

/-- Where the sub-step raises, the relation holds of the states before and after. -/
def Sub.Fails {α : Type} (R : State → State → Prop) (m : Sub α) : Prop := ∀ s e t, m s = .error e t → R s t

section
variable {α β : Type} {R : State → State → Prop}

theorem Sub.Fails.bind (hR : Chains R) {x : Sub α} {f : α → Sub β} (hx : Sub.Leaves R x) (hf : ∀ a, Sub.Fails R (f a)) :
    Sub.Fails R (x >>= f) := fun s e t h => by
  rcases Sub.bind_error_iff.1 h with h | ⟨a, u, hu, h⟩
  · exact (hx s).2 e t h
  · exact hR.trans ((hx s).1 a u hu) (hf a u e t h)

theorem Sub.Fails.update_pure (f : State → State) (a : α) : Sub.Fails R (update f >>= fun _ => pure a) := fun s e t h => by
  rw [update_bind] at h
  cases h

end

/-- A header parse that raises has written no register but the cursor (R162). -/
theorem parseHeader_fails (esize : Nat) : Sub.Fails OnlyCursor (parseHeader esize) := by
  have c := onlyCursor_chains
  exact .bind c varUInt_leaves fun bs => .bind c varUInt_leaves fun nmb => .bind c varUInt_leaves fun vcb =>
    .bind c zigZag_leaves fun fv => .bind c zigZag_leaves fun md => .bind c (.raiseIf c _ _) fun _ =>
    .bind c (.look c _) fun most => .bind c (.raiseIf c _ _) fun _ => .bind c (.raiseIf c _ _) fun _ =>
    .bind c (readWidths_leaves nmb) fun ws => .bind c (.raiseIf c _ _) fun _ => .update_pure _ _

/-- The table has one entry for each mini-block that there may be. -/
def TableOk (s : State) : Prop := s.ictx.width.length = s.params.maxMiniBlocks

def KeepsTable (s t : State) : Prop := TableOk s → TableOk t

theorem keepsTable_chains : Chains KeepsTable where
  refl _ h := h
  trans h1 h2 h := h2 (h1 h)

theorem KeepsTable.of_same (hw : t.ictx.width = s.ictx.width) (hp : t.params = s.params) : KeepsTable s t := fun h => by
  unfold TableOk at *; rw [hw, hp, h]

theorem OnlyCursor.keepsTable (h : OnlyCursor s t) : KeepsTable s t := by
  unfold OnlyCursor at h; exact .of_same (by rw [h]) (by rw [h])

theorem OnlyHeap.keepsTable (h : OnlyHeap s t) : KeepsTable s t := by
  unfold OnlyHeap at h; exact .of_same (by rw [h]) (by rw [h])

theorem OnlyMemory.keepsTable (h : OnlyMemory s t) : KeepsTable s t := by
  unfold OnlyMemory at h; exact .of_same (by rw [h]) (by rw [h])

theorem Unchanged.keepsTable (h : Unchanged s t) : KeepsTable s t := h.onlyMemory.keepsTable

/-- The table that a header leaves: the widths it lists, and 0 up to MAX_MINI_BLOCKS. -/
theorem parseHeader_keepsTable (esize : Nat) : Sub.Leaves KeepsTable (parseHeader esize) := fun s => by
  refine ⟨fun v t h _ => ?_, fun e t h => (parseHeader_fails esize s e t h).keepsTable⟩
  obtain ⟨bs, nmb, vcb, md, ws, u, -, -, -, -, hmax, -, -, hlen, -, -, honly, -, rfl⟩ := parseHeader_ok h
  have hp : u.params = s.params := by unfold OnlyCursor at honly; rw [honly]
  show (ws ++ List.replicate (u.params.maxMiniBlocks - nmb) 0).length = u.params.maxMiniBlocks
  rw [List.length_append, List.length_replicate, hlen, hp]
  omega

theorem nextDelta_keepsTable (esize : Nat) : Sub.Leaves KeepsTable (nextDelta esize) := by
  have c := keepsTable_chains
  exact .bind c (.look c _) fun w => .bind c ((readBits_leaves w).mono fun _ _ => OnlyCursor.keepsTable) fun raw =>
    .bind c (.look c _) fun t => .bind c (.raiseIf c _ _) fun _ => .bind c (.update fun s h => h) fun _ => .pure c _

theorem ideNext_keepsTable (esize : Nat) : Sub.Leaves KeepsTable (ideNext esize) := by
  have c := keepsTable_chains
  exact .bind c (.look c _) fun b => .ite b
    (.bind c (.update fun s h => h) fun _ => .bind c (.look c _) fun more => .ite more
      (.bind c (.update fun s h => h) fun _ => nextDelta_keepsTable esize) (parseHeader_keepsTable esize))
    (nextDelta_keepsTable esize)

theorem decodeIntLoop_keepsTable (esize : Nat) (out : Word) (n k : Nat) :
    Sub.Leaves KeepsTable (decodeIntLoop esize out n k) := by
  have c := keepsTable_chains
  induction n generalizing k with
  | zero => exact .pure c _
  | succ n ih =>
    exact .bind c (ideNext_keepsTable esize) fun v =>
      .bind c ((memWrite_leaves _ _ _).mono fun _ _ => OnlyMemory.keepsTable) fun _ =>
      .bind c (.update fun s h => h) fun _ => ih (k + 1)

theorem suffixNext_keepsTable : Sub.Leaves KeepsTable suffixNext := by
  have c := keepsTable_chains
  exact .bind c (.look c _) fun pos => .bind c (.look c _) fun size => .bind c (.look c _) fun base =>
    .bind c (.raiseIf c _ _) fun _ => .bind c ((memRead_leaves _ _).mono fun _ _ => Unchanged.keepsTable) fun m =>
    .bind c (.raiseIf c _ _) fun _ => .bind c ((memReadBytes_leaves _ _).mono fun _ _ => Unchanged.keepsTable) fun suf =>
    .bind c (.update fun s h => h) fun _ => .pure c _

theorem baSlot_keepsTable (desc heap cap : Word) (k : Nat) : Sub.Leaves KeepsTable (baSlot desc heap cap k) := by
  have c := keepsTable_chains
  have p : Sub.Leaves KeepsTable prefixNext :=
    .bind c (ideNext_keepsTable 4) fun p => .bind c (.update fun s h => h) fun _ => .pure c _
  have v : Sub.Leaves KeepsTable (baValue cap) := .bind c p fun p => .bind c suffixNext_keepsTable fun suf =>
    .bind c ((reconstruct_leaves p suf).mono fun _ _ => Unchanged.keepsTable) fun v =>
    .bind c ((checkCapacity_leaves _ cap).mono fun _ _ => Unchanged.keepsTable) fun _ => .pure c _
  exact .bind c v fun v => .bind c ((emitValue_onlyHeap v desc heap k).mono fun _ _ => OnlyHeap.keepsTable) fun _ =>
    .update fun s h => h

theorem decodeBALoop_keepsTable (desc heap cap : Word) (n k : Nat) :
    Sub.Leaves KeepsTable (decodeBALoop desc heap cap n k) := by
  have c := keepsTable_chains
  induction n generalizing k with
  | zero => exact .pure c _
  | succ n ih => exact .bind c (baSlot_keepsTable desc heap cap k) fun _ => .bind c (.update fun s h => h) fun _ => ih (k + 1)

/-- The canonical memory and the table, whether a DECODE goes on or raises. -/
def KeepsShape (s t : State) : Prop := KeepsWf s t ∧ KeepsTable s t

theorem keepsShape_chains : Chains KeepsShape where
  refl _ := ⟨id, id⟩
  trans h1 h2 := ⟨keepsWf_chains.trans h1.1 h2.1, keepsTable_chains.trans h1.2 h2.2⟩

theorem Sub.Leaves.and {α : Type} {R Q : State → State → Prop} {m : Sub α} (hR : Sub.Leaves R m) (hQ : Sub.Leaves Q m) :
    Sub.Leaves (fun s t => R s t ∧ Q s t) m := fun s =>
  ⟨fun a t h => ⟨(hR s).1 a t h, (hQ s).1 a t h⟩, fun e t h => ⟨(hR s).2 e t h, (hQ s).2 e t h⟩⟩

theorem decodeBody_keepsShape : Sub.Leaves KeepsShape decodeBody := by
  have c := keepsShape_chains
  have i : Sub.Leaves KeepsShape decodeInt :=
    .bind c (.look c _) fun _ => .bind c (.look c _) fun _ => .bind c (.look c _) fun _ =>
    .bind c ((decodeIntLoop_keepsWf _ _ _ _).and (decodeIntLoop_keepsTable _ _ _ _)) fun _ => .update fun s => ⟨id, id⟩
  have b : Sub.Leaves KeepsShape decodeBA :=
    .bind c (.look c _) fun _ => .bind c (.look c _) fun _ => .bind c (.look c _) fun _ => .bind c (.look c _) fun _ =>
    .bind c (.update fun s => ⟨id, id⟩) fun _ =>
    .bind c ((decodeBALoop_keepsWf _ _ _ _ _).and (decodeBALoop_keepsTable _ _ _ _ _)) fun _ => .update fun s => ⟨id, id⟩
  refine .bind c (.look c _) fun m => ?_
  cases m with
  | int32 | int64 => exact i
  | byteArray | none => exact b

end

section
variable {s t : State} {N : Prop}

/-! ## The loops keep the contexts in order -/

theorem decodeIntLoop_intContextOk {esize n k : Nat} {out : Word} {x : Unit}
    (hs : IntContextOk s.params.maxMiniBlocks N s.ictx) (hmax : s.params.maxMiniBlocks ≤ 1024) (hN : N → esize = 4)
    (h : decodeIntLoop esize out n k s = .ok x t) : IntContextOk s.params.maxMiniBlocks N t.ictx := by
  induction n generalizing k s with
  | zero =>
    cases h
    exact hs
  | succ n ih =>
    rw [decodeIntLoop_succ] at h
    obtain ⟨v, u, hslot, h⟩ := Sub.bind_ok_iff.1 h
    obtain ⟨_, w, hwrite, h⟩ := Sub.bind_ok_iff.1 h
    rw [update_bind] at h
    have hu := hs.ideNext hmax hN hslot
    have ho := onlyIntDecode_chains.trans ((ideNext_leaves esize s).1 _ _ hslot).onlyIntDecode
      ((memWrite_leaves _ _ _ u).1 _ _ hwrite).onlyIntDecode
    have hp : w.params = s.params := by unfold OnlyIntDecode at ho; rw [ho]
    have hi : w.ictx = u.ictx := by
      have hw := (memWrite_leaves _ _ _ u).1 _ _ hwrite
      unfold OnlyMemory at hw
      rw [hw]
    rw [← hp] at hu hmax ⊢
    rw [← hi] at hu
    exact ih (s := { w with result := BitVec.ofNat 64 (k + 1) }) hu hmax h

/-- What each slot of a byte-array DECODE keeps of the two contexts. -/
structure SlotsOk (N : Prop) (s : State) : Prop where
  int : IntContextOk s.params.maxMiniBlocks N s.ictx
  suffix : s.bctx.sufPos.toNat ≤ s.bctx.sufLen.toNat
  prev : s.bctx.prev.length ≤ s.params.prevCap

/-- A slot moves SUF_POS inside its sub-stream (R203), and its value fits PREV (R206). -/
theorem SlotsOk.baSlot {desc heap cap : Word} {k : Nat} {x : Unit} (hs : SlotsOk N s) (hmax : s.params.maxMiniBlocks ≤ 1024)
    (h : baSlot desc heap cap k s = .ok x t) : SlotsOk N t := by
  obtain ⟨v, u, w, hv, hheap, rfl⟩ := baSlot_ok h
  obtain ⟨-, hcap, -⟩ := baValue_found hv
  obtain ⟨p, s1, suf, hp, hsuf, -, -⟩ := baValue_ok hv
  obtain ⟨s0, hslot, rfl⟩ := prefixNext_ok hp
  obtain ⟨hfit, s2, hsame, rfl⟩ := suffixNext_ok hsuf
  have hint := hs.int.ideNext hmax (fun _ => rfl) hslot
  have hparams : s0.params = s.params := by
    have ho := (ideNext_leaves 4 s).1 _ _ hslot
    unfold OnlyIntSlot at ho
    rw [ho]
  unfold Unchanged at hsame
  unfold OnlyHeap at hheap
  rw [hheap, hsame]
  refine ⟨?_, ?_, ?_⟩
  · show IntContextOk s0.params.maxMiniBlocks N _
    rw [hparams]
    exact hint.withVrem _
  · show (BitVec.ofNat 64 _).toNat ≤ s0.bctx.sufLen.toNat
    rw [toNat_ofNat_word (hfit.trans_lt s0.bctx.sufLen.isLt)]
    exact hfit
  · show v.length ≤ s0.params.prevCap
    rw [hparams]
    exact hcap

theorem SlotsOk.decodeBALoop {desc heap cap : Word} {n k : Nat} {x : Unit} (hs : SlotsOk N s)
    (hmax : s.params.maxMiniBlocks ≤ 1024) (h : decodeBALoop desc heap cap n k s = .ok x t) : SlotsOk N t := by
  induction n generalizing k s with
  | zero =>
    cases h
    exact hs
  | succ n ih =>
    rw [decodeBALoop_succ] at h
    obtain ⟨_, u, hslot, h⟩ := Sub.bind_ok_iff.1 h
    rw [update_bind] at h
    obtain ⟨hint, hsuf, hprev⟩ := hs.baSlot hmax hslot
    have hp : u.params = s.params := by
      have ho := (baSlot_leaves desc heap cap k s).1 _ _ hslot
      unfold OnlyBADecode at ho
      rw [ho]
    exact ih (s := { u with result := BitVec.ofNat 64 (k + 1) }) ⟨hint, hsuf, hprev⟩ (hp ▸ hmax) h

/-! ## R50 and its support, of both contexts -/

/-- All that R50 and its support say of a state with FAILED = 0. -/
structure StreamsOk (s : State) : Prop where
  slots : SlotsOk (s.mode = .int32 ∨ s.mode = .byteArray) s
  counts : s.mode = .byteArray → s.baEmpty = false → s.ictx.vrem = s.bctx.baVrem
  empty : s.mode = .byteArray → s.baEmpty = true → s.ictx.vrem = 0 ∧ s.bctx.baVrem = 0

theorem streamsOk_iff : StreamsOk s ↔ ContextInvariant s ∧ ContextSupport s := by
  constructor
  · rintro ⟨⟨hint, hsuf, hprev⟩, hcounts, hempty⟩
    exact ⟨⟨hint.cursor, hint.block, hint.width, hint.last, hcounts, hsuf, hprev⟩, ⟨hint.widths, hint.values, hempty⟩⟩
  · rintro ⟨hc, hs⟩
    exact ⟨⟨⟨hc.cursor, hc.block, hc.width, hc.last, hs.widths, hs.values⟩, hc.suffix, hc.prev⟩, hc.counts, hs.empty⟩

theorem MachineInvariant.streams (h : MachineInvariant s) (hf : s.failed = false) : StreamsOk s :=
  streamsOk_iff.2 ⟨h.context hf, h.support hf⟩

theorem MachineInvariant.of_streams (hp : s.params.WellFormed) (hm : s.mem.wf) (ht : TableOk s)
    (hu : s.mode ≠ .byteArray → s.bctx = ByteArrayContext.zero) (hb : BufferInvariant s)
    (hs : s.failed = false → StreamsOk s) : MachineInvariant s :=
  ⟨hp, hm, ht, hu, hb, fun hf => (streamsOk_iff.1 (hs hf)).1, fun hf => (streamsOk_iff.1 (hs hf)).2⟩

/-- The invariant speaks of these fields and memory only. -/
structure SameMachine (s t : State) : Prop where
  params : t.params = s.params
  failed : t.failed = s.failed
  baEmpty : t.baEmpty = s.baEmpty
  mode : t.mode = s.mode
  ictx : t.ictx = s.ictx
  bctx : t.bctx = s.bctx
  bound : t.bound = s.bound

theorem MachineInvariant.of_same (h : MachineInvariant s) (hst : SameMachine s t) (hm : t.mem.wf) : MachineInvariant t := by
  obtain ⟨hparams, hfailed, hempty, hmode, hictx, hbctx, hbound⟩ := hst
  cases s
  cases t
  dsimp only at *
  subst hparams hfailed hempty hmode hictx hbctx hbound
  refine .of_streams h.params hm h.table h.unused h.buffer fun hf => ?_
  obtain ⟨⟨hint, hsuf, hprev⟩, hcounts, hem⟩ := h.streams hf
  exact ⟨⟨hint, hsuf, hprev⟩, hcounts, hem⟩

/-! ## The commands keep the invariant -/

theorem StreamsOk.ended (h : StreamsOk s) (e : ErrKind) : StreamsOk (s.begin.finish e) := by
  obtain ⟨⟨hint, hsuf, hprev⟩, hcounts, hempty⟩ := h
  exact ⟨⟨hint, hsuf, hprev⟩, hcounts, hempty⟩

/-- A command that runs no body, with an error that is not fatal (R140, R232). -/
theorem MachineInvariant.ended (h : MachineInvariant s) {e : ErrKind} (he : e.fatal = false) :
    MachineInvariant (s.begin.finish e) :=
  h.of_same (by constructor <;> simp [he]) (by simpa using h.mem)

/-- The invariant of a state whose integer context has just been cleared, whatever its count and buffer (R142). -/
theorem MachineInvariant.of_cleared {u : State} {count base len : Word} (h : MachineInvariant s) (hparams : u.params = s.params)
    (hmem : u.mem = s.mem)
    (hictx : u.ictx = { IntContext.zero s.params with vrem := count, bufBase := base, bufLen := len })
    (hsuf : u.bctx.sufPos = 0) (hprev : u.bctx.prev = [])
    (hunused : u.mode ≠ .byteArray → u.bctx = ByteArrayContext.zero) (hbuffer : BufferInvariant u)
    (hcounts : u.mode = .byteArray → u.failed = false → u.bctx.baVrem = count ∧ (u.baEmpty = true → count = 0)) :
    MachineInvariant u := by
  refine .of_streams (hparams ▸ h.params) (hmem ▸ h.mem) ?_ hunused hbuffer fun hf =>
    ⟨⟨?_, ?_, ?_⟩, fun hm _ => ?_, fun hm he => ?_⟩
  · unfold TableOk
    rw [hictx, hparams]
    exact List.length_replicate
  · rw [hictx]
    exact .cleared _ _ _ _
  · rw [hsuf]
    exact Nat.zero_le _
  · rw [hprev]
    exact Nat.zero_le _
  · rw [hictx, (hcounts hm hf).1]
  · obtain ⟨hba, hzero⟩ := hcounts hm hf
    rw [hictx, hba]
    exact ⟨hzero he, hzero he⟩

/-- CONFIG clears both contexts and binds nothing (R141). -/
theorem MachineInvariant.exec_config {ty : Byte} (h : MachineInvariant s) (hrun : exec (.config ty) s = .next t) :
    MachineInvariant t := by
  obtain ⟨m, e, rfl, -⟩ := exec_config_next hrun
  refine h.of_cleared (count := 0) (base := 0) (len := 0) (by simp) (by simp) rfl rfl rfl (fun _ => rfl) ?_ fun _ _ =>
    ⟨rfl, fun _ => rfl⟩
  cases m with
  | none | int32 | int64 => exact ⟨rfl, rfl⟩
  | byteArray => exact .inl ⟨rfl, rfl⟩

/-- The state in which SETDATA's body sets up the contexts: FAILED cleared, the buffer bound (R143). -/
def State.rebound (s : State) : State := { s.begin with failed := false, bound := ⟨s.arg1, s.arg2.toNat⟩ }

@[simp] theorem State.rebound_params (s : State) : s.rebound.params = s.params := rfl
@[simp] theorem State.rebound_mem (s : State) : s.rebound.mem = s.mem := rfl
@[simp] theorem State.rebound_bctx (s : State) : s.rebound.bctx = s.bctx := rfl
@[simp] theorem State.rebound_mode (s : State) : s.rebound.mode = s.mode := rfl

/-- SETDATA in the integer modes (R144). -/
theorem setdataBody_int (hm : s.mode = .int32 ∨ s.mode = .int64) :
    setdataBody s.begin = .ok () (s.rebound.clearInt s.arg0 s.arg1 s.arg2) := by
  unfold setdataBody
  simp only [look_bind, update_bind, State.begin_mode]
  change (_ : Sub Unit) s.rebound = _
  rcases hm with hm | hm
  · rw [hm]
    rfl
  · rw [hm]
    rfl

theorem setdataBody_ba (hm : s.mode = .byteArray) :
    setdataBody s.begin = setDataBA s.arg0 s.arg1 s.arg2 s.rebound := by
  unfold setdataBody
  simp only [look_bind, update_bind, State.begin_mode]
  change (_ : Sub Unit) s.rebound = _
  rw [hm]
  rfl

/-- The contexts that SETDATA leaves in BYTE_ARRAY mode where the first sub-stream's length is `l` (R145). -/
def State.withStreams (s : State) (count base len : Word) (l : Nat) : State :=
  { s with
    ictx := { IntContext.zero s.params with vrem := count, bufBase := base + 4, bufLen := BitVec.ofNat 64 l }
    bctx := { ByteArrayContext.zero with
      baVrem := count, sufBase := base + 4 + BitVec.ofNat 64 l, sufLen := BitVec.ofNat 64 (len.toNat - 4 - l), first := true }
    baEmpty := false }

@[simp] theorem State.withStreams_params (s : State) (count base len : Word) (l : Nat) :
    (s.withStreams count base len l).params = s.params := rfl
@[simp] theorem State.withStreams_mem (s : State) (count base len : Word) (l : Nat) :
    (s.withStreams count base len l).mem = s.mem := rfl
@[simp] theorem State.withStreams_mode (s : State) (count base len : Word) (l : Nat) :
    (s.withStreams count base len l).mode = s.mode := rfl

/-- How SETDATA's body ends in BYTE_ARRAY mode (R145): with an empty buffer, with a fatal error and the contexts cleared, or with
both sub-streams set up. -/
theorem setDataBA_cases (count base len : Word) (s : State) :
    (len = 0 ∧ setDataBA count base len s = .ok () { (s.clearInt 0 0 0).clearBA with baEmpty := true }) ∨
    (∃ e, SlotKind e ∧ setDataBA count base len s = .error e { (s.clearInt 0 0 0).clearBA with baEmpty := false }) ∨
    (∃ l, 4 + l ≤ len.toNat ∧ setDataBA count base len s = .ok () (s.withStreams count base len l)) := by
  unfold setDataBA
  rw [update_bind]
  by_cases hzero : len.toNat = 0
  · refine .inl ⟨BitVec.eq_of_toNat_eq hzero, ?_⟩
    rw [if_pos hzero, update_run]
  · rw [if_neg hzero, raiseIf_bind]
    split_ifs with hshort
    · exact .inr (.inl ⟨_, .inl (.inl rfl), rfl⟩)
    · rw [Sub.bind_run]
      cases hread : memRead base 4 { (s.clearInt 0 0 0).clearBA with baEmpty := false } with
      | error e u =>
        have hu : u = _ := (memRead_leaves base 4 _).2 _ _ hread
        exact .inr (.inl ⟨e, memRead_raises _ _ _ _ _ hread, by rw [hu]⟩)
      | ok l u =>
        have hu : u = _ := (memRead_leaves base 4 _).1 _ _ hread
        rw [hu]
        simp only [raiseIf_bind]
        split_ifs with hlong
        · exact .inr (.inl ⟨_, .inl (.inl rfl), rfl⟩)
        · refine .inr (.inr ⟨l, ?_, rfl⟩)
          simp only [decide_eq_true_eq] at hshort hlong
          omega

/-- The invariant after a SETDATA of the integer modes. -/
theorem MachineInvariant.setdata_int (h : MachineInvariant s) (hm : s.mode = .int32 ∨ s.mode = .int64) :
    MachineInvariant (complete setdataBody s) := by
  have hrun := complete_of_ok (setdataBody_int hm)
  generalize complete setdataBody s = u at hrun ⊢
  have hmode : u.mode = s.mode := by simp [hrun]
  have hba : u.mode ≠ .byteArray := by rcases hm with hm | hm <;> rw [hmode, hm] <;> decide
  have hb : u.bctx = ByteArrayContext.zero := by simp [hrun, h.unused (hmode ▸ hba)]
  have hbuffer : BufferInvariant u := by
    have hbound : u.bound = ⟨u.ictx.bufBase, u.ictx.bufLen.toNat⟩ := by rw [hrun]; rfl
    have hsuf : u.bctx.sufLen = 0 := by rw [hb]; rfl
    unfold BufferInvariant
    rw [hmode]
    rcases hm with hm | hm <;> rw [hm] <;> exact ⟨hbound, hsuf⟩
  refine h.of_cleared (count := s.arg0) (base := s.arg1) (len := s.arg2) (by simp [hrun]) (by simp [hrun]) (by simp [hrun])
    ?_ ?_ (fun _ => hb) hbuffer fun hc => absurd hc hba
  · rw [hb]; rfl
  · rw [hb]; rfl

/-- In BYTE_ARRAY mode with both sub-streams empty no byte is read. -/
theorem bufferInvariant_unbound (hm : s.mode = .byteArray) (hbuf : s.ictx.bufLen = 0) (hsuf : s.bctx.sufLen = 0) :
    BufferInvariant s := by
  unfold BufferInvariant
  rw [hm]
  exact .inl ⟨hbuf, hsuf⟩

/-- The two sub-streams are the buffer's bytes from 4 on (R145). -/
theorem withStreams_bufferInvariant {l : Nat} (hm : s.mode = .byteArray) (hl : 4 + l ≤ s.arg2.toNat) :
    BufferInvariant (State.finish .none (s.rebound.withStreams s.arg0 s.arg1 s.arg2 l)) := by
  have hlen := s.arg2.isLt
  unfold BufferInvariant
  rw [State.finish_mode, State.withStreams_mode, State.rebound_mode, hm]
  refine .inr ⟨rfl, rfl, ?_⟩
  show 4 + (BitVec.ofNat 64 l).toNat + (BitVec.ofNat 64 (s.arg2.toNat - 4 - l)).toNat = s.arg2.toNat
  rw [toNat_ofNat_word (by omega), toNat_ofNat_word (by omega)]
  omega

/-- The invariant after a SETDATA in BYTE_ARRAY mode. -/
theorem MachineInvariant.setdata_ba (h : MachineInvariant s) (hm : s.mode = .byteArray) :
    MachineInvariant (complete setdataBody s) := by
  have hrun := setdataBody_ba hm
  rcases setDataBA_cases s.arg0 s.arg1 s.arg2 s.rebound with ⟨-, e⟩ | ⟨k, hk, e⟩ | ⟨l, hl, e⟩
  · rw [complete_of_ok (hrun.trans e)]
    exact h.of_cleared (count := 0) (base := 0) (len := 0) (by simp) (by simp) rfl rfl rfl (fun hne => absurd (by simp [hm]) hne)
      (bufferInvariant_unbound (by simp [hm]) rfl rfl) fun _ _ => ⟨rfl, fun _ => rfl⟩
  · rw [complete_of_error (hrun.trans e)]
    exact h.of_cleared (count := 0) (base := 0) (len := 0) (by simp) (by simp) rfl rfl rfl (fun hne => absurd (by simp [hm]) hne)
      (bufferInvariant_unbound (by simp [hm]) rfl rfl) fun _ _ => ⟨rfl, fun _ => rfl⟩
  · rw [complete_of_ok (hrun.trans e)]
    exact h.of_cleared (count := s.arg0) (base := s.arg1 + 4) (len := BitVec.ofNat 64 l) (by simp) (by simp) rfl rfl rfl
      (fun hne => absurd (by simp [hm]) hne) (withStreams_bufferInvariant hm hl) fun _ _ => ⟨rfl, nofun⟩

theorem MachineInvariant.exec_setdata (h : MachineInvariant s) (hrun : exec .setdata s = .next t) : MachineInvariant t := by
  rcases exec_setdata_next hrun with ⟨-, rfl⟩ | ⟨hm, rfl⟩
  · exact h.ended rfl
  · cases hmode : s.mode with
    | none => exact absurd hmode hm
    | int32 => exact h.setdata_int (.inl hmode)
    | int64 => exact h.setdata_int (.inr hmode)
    | byteArray => exact h.setdata_ba hmode

theorem BufferInvariant.onlyDecode (h : BufferInvariant s) (hst : OnlyDecode s t) : BufferInvariant t := by
  obtain ⟨hmode, hbound, -, hbufBase, hbufLen, hsufBase, hsufLen⟩ := hst.frame
  unfold BufferInvariant at *
  rw [hmode, hbound, hbufBase, hbufLen, hsufBase, hsufLen]
  exact h

/-- An integer DECODE that goes through. -/
theorem StreamsOk.decode_int {u : State} (h : StreamsOk s) (hmax : s.params.maxMiniBlocks ≤ 1024)
    (hm : s.mode = .int32 ∨ s.mode = .int64) (hu : decodeIntLoop s.mode.esize s.arg1 s.intCount 0 s.begin = .ok () u) :
    StreamsOk (State.finish .none { u with
      ictx := { u.ictx with vrem := u.ictx.vrem - BitVec.ofNat 64 s.intCount }, result := BitVec.ofNat 64 s.intCount }) := by
  have ho := (decodeIntLoop_leaves _ _ _ _ s.begin).1 _ _ hu
  have hmode : u.mode = s.mode := ho.onlyBADecode.onlyDecode.frame.1
  have hba : u.mode ≠ .byteArray := by rcases hm with hm | hm <;> rw [hmode, hm] <;> decide
  obtain ⟨hparams, hbctx⟩ : u.params = s.params ∧ u.bctx = s.bctx := by
    unfold OnlyIntDecode at ho
    rw [ho]
    exact ⟨rfl, rfl⟩
  have hesize : s.mode = .int32 ∨ s.mode = .byteArray → s.mode.esize = 4 := by
    rcases hm with hm | hm <;> rw [hm] <;> simp [Mode.esize]
  have hint := decodeIntLoop_intContextOk (s := s.begin) h.slots.int hmax hesize hu
  have hsuf := h.slots.suffix
  have hprev := h.slots.prev
  rw [← hbctx] at hsuf hprev
  rw [← hparams] at hprev
  refine ⟨⟨?_, hsuf, hprev⟩, fun hc => absurd hc hba, fun hc => absurd hc hba⟩
  show IntContextOk u.params.maxMiniBlocks (u.mode = .int32 ∨ u.mode = .byteArray) _
  rw [hparams, hmode]
  exact hint.withVrem _

/-- A byte-array DECODE that goes through takes one value of the nested integer decoder for each of its own. -/
theorem StreamsOk.decode_ba {u : State} (h : StreamsOk s) (hmax : s.params.maxMiniBlocks ≤ 1024)
    (hu : decodeBALoop s.arg1 s.arg2 s.arg3 s.baCount 0 { s.begin with bctx := { s.bctx with heapUsed := 0 } } = .ok () u) :
    StreamsOk (State.finish .none { u with
      bctx := { u.bctx with baVrem := u.bctx.baVrem - BitVec.ofNat 64 s.baCount }, result := BitVec.ofNat 64 s.baCount }) := by
  have ho := (decodeBALoop_leaves _ _ _ _ _ _).1 _ _ hu
  obtain ⟨hmode, hba, hempty⟩ : u.mode = s.mode ∧ u.bctx.baVrem = s.bctx.baVrem ∧ u.baEmpty = s.baEmpty := by
    unfold OnlyBADecode at ho
    rw [ho]
    exact ⟨rfl, rfl, rfl⟩
  obtain ⟨hint, hsuf, hprev⟩ := h.slots
  have hslots : SlotsOk (s.mode = .int32 ∨ s.mode = .byteArray) u :=
    SlotsOk.decodeBALoop (s := { s.begin with bctx := { s.bctx with heapUsed := 0 } }) ⟨hint, hsuf, hprev⟩ hmax hu
  have hvrem : u.ictx.vrem = s.ictx.vrem - BitVec.ofNat 64 s.baCount :=
    decodeBALoop_vrem (s := { s.begin with bctx := { s.bctx with heapUsed := 0 } }) hu
  rw [← hmode] at hslots
  obtain ⟨hint, hsuf, hprev⟩ := hslots
  refine ⟨⟨hint, hsuf, hprev⟩, fun hm he => ?_, fun hm he => ?_⟩
  · show u.ictx.vrem = u.bctx.baVrem - BitVec.ofNat 64 s.baCount
    rw [hvrem, hba, h.counts (hmode ▸ hm) (hempty ▸ he)]
  · obtain ⟨hv0, hb0⟩ := h.empty (hmode ▸ hm) (hempty ▸ he)
    have hcount : s.baCount = 0 := by
      unfold State.baCount
      rw [hb0]
      exact Nat.min_zero _
    show u.ictx.vrem = 0 ∧ u.bctx.baVrem - BitVec.ofNat 64 s.baCount = 0
    rw [hvrem, hba, hcount, hv0, hb0]
    exact ⟨rfl, rfl⟩

/-- In the integer modes a DECODE leaves the byte-array context alone. -/
theorem decode_int_bctx (hm : s.mode = .int32 ∨ s.mode = .int64) (h : exec .decode s = .next t) : t.bctx = s.bctx := by
  have hloop : ∀ {u : State}, OnlyIntDecode s.begin u → u.bctx = s.bctx := fun h => by
    unfold OnlyIntDecode at h
    rw [h]
    rfl
  rcases decode_int_cases hm h with ⟨-, rfl⟩ | ⟨-, -, u, hu, rfl⟩ | ⟨-, -, e, u, -, hu, rfl⟩
  · rfl
  · exact hloop (u := u) ((decodeIntLoop_leaves _ _ _ _ _).1 _ _ hu)
  · exact hloop (u := u) ((decodeIntLoop_leaves _ _ _ _ _).2 _ _ hu)

/-- A DECODE that leaves FAILED = 0 has gone through, or changed no context (R233). -/
theorem MachineInvariant.decode_streams (h : MachineInvariant s) (hrun : exec .decode s = .next t) (hf : t.failed = false) :
    StreamsOk t := by
  have hmax := h.params.1.2
  have hfatal : ∀ {e : ErrKind} {u : State}, SlotKind e → (u.finish e).failed ≠ false := fun hk => by
    rw [State.finish_failed, (slotKind_fatal hk).2.2.2, Bool.or_true]
    decide
  cases hm : s.mode with
  | none =>
    rcases exec_decode_next hrun with ⟨-, rfl⟩ | ⟨hne, -⟩
    · exact (h.streams (by simpa [ErrKind.fatal] using hf)).ended _
    · exact absurd hm hne
  | int32 | int64 =>
    have hint : s.mode = .int32 ∨ s.mode = .int64 := by simp [hm]
    rcases decode_int_cases hint hrun with ⟨hfail, rfl⟩ | ⟨hok, -, u, hu, rfl⟩ | ⟨-, -, e, u, hk, -, rfl⟩
    · rw [State.finish_failed, State.begin_failed, hfail] at hf
      cases hf
    · exact (h.streams hok).decode_int hmax hint hu
    · exact absurd hf (hfatal hk)
  | byteArray =>
    rcases decode_ba_cases hm hrun with ⟨hfail, rfl⟩ | ⟨hok, -, u, hu, rfl⟩ | ⟨-, -, e, u, hk, -, rfl⟩
    · rw [State.finish_failed, State.begin_failed, hfail] at hf
      cases hf
    · exact (h.streams hok).decode_ba hmax hu
    · exact absurd hf (hfatal hk)

theorem MachineInvariant.exec_decode (h : MachineInvariant s) (hrun : exec .decode s = .next t) : MachineInvariant t := by
  rcases exec_decode_next hrun with ⟨-, rfl⟩ | ⟨hm, -, ht⟩
  · exact h.ended rfl
  · obtain ⟨u, e, ⟨honly, hmem, htable⟩, hu⟩ := complete_of_leaves (decodeBody_onlyDecode.and decodeBody_keepsShape) s
    obtain ⟨⟨hparams, -⟩, -⟩ := exec_next hrun
    have hstreams := h.decode_streams hrun
    have hmode : u.mode = s.mode := honly.frame.1
    have hbuffer : BufferInvariant u := BufferInvariant.onlyDecode (s := s.begin) h.buffer honly
    rw [hu] at ht
    subst ht
    refine .of_streams (hparams ▸ h.params) (hmem h.mem) (htable h.table) (fun hne => ?_) hbuffer hstreams
    have hint : s.mode = .int32 ∨ s.mode = .int64 := by
      change u.mode ≠ .byteArray at hne
      rw [hmode] at hne
      cases hc : s.mode with
      | none => exact absurd hc hm
      | int32 => exact .inl rfl
      | int64 => exact .inr rfl
      | byteArray => exact absurd hc hne
    rw [decode_int_bctx hint hrun, h.unused (hmode ▸ hne)]

theorem MachineInvariant.runCommand {c : Word} (h : MachineInvariant s) (hrun : runCommand c s = .next t) :
    MachineInvariant t := by
  rcases runCommand_cases c s with ⟨i, -, e⟩ | ⟨x, -, e⟩ <;> rw [e] at hrun
  · cases i with
    | config ty => exact h.exec_config hrun
    | setdata => exact h.exec_setdata hrun
    | decode => exact h.exec_decode hrun
  · cases hrun
    exact h.ended rfl

/-! ## Every step keeps the invariant -/

/-- Settles O59: the command by its constructor; a reset by the invariant of the reset state; every other event touches none of
the invariant's fields but memory. -/
theorem invariantKept : Obligations.InvariantKept := by
  intro s t h hstep
  rcases step_next hstep with ⟨c, -, -, hrun⟩ | ⟨-, ws, d, rest, rfl⟩ | ⟨r, v, rest, -, rfl⟩ | ⟨rest, hside, hmem⟩
  · exact h.runCommand hrun
  · exact (invariantAtReset s.params h.params).of_same ⟨rfl, rfl, rfl, rfl, rfl, rfl, rfl⟩ (Memory.wf_apply h.mem _)
  · obtain ⟨a0, a1, a2, a3, c, o, d, st, hw⟩ := writeRegister_frame { s with host := rest } r v
    rw [hw]
    exact h.of_same ⟨rfl, rfl, rfl, rfl, rfl, rfl, rfl⟩ h.mem
  · refine h.of_same ?_ (hmem h.mem)
    unfold OnlyHostSide at hside
    rw [hside]
    exact ⟨rfl, rfl, rfl, rfl, rfl, rfl, rfl⟩

end

end Sys2Proof.Machine

namespace Sys2Proof.Machine

/-! # Memory as the host and the unit see it, and the refusals (R64 to R74) -/

section
variable {s t : State} {a x : Word} {b : Byte} {ws : List ByteWrite}

/-! ## The form of a window access (R64) -/

/-- An access of the form that the window takes answers, mapped or not. -/
theorem hostWrite_answers {off : BitVec 14} (h : off.toNat % 8 = 0) (v : Word) (s : State) :
    ∃ t, hostWrite off 8 v s = .next t := by
  cases hr : regAt s.params off with
  | some r => exact ⟨_, hostWrite_mapped h hr v⟩
  | none => exact ⟨_, hostWrite_unmapped h hr v⟩

theorem hostRead_answers {off : BitVec 14} (h : off.toNat % 8 = 0) (s : State) : ∃ t, hostRead off 8 s = .next t := by
  cases hr : regAt s.params off with
  | some r => exact ⟨_, hostRead_mapped h hr⟩
  | none => exact ⟨_, hostRead_unmapped h hr⟩

/-- Settles O15: `windowAccessOk` is the form of R64, and both accesses test it first. -/
theorem windowAccessForm : Obligations.WindowAccessForm := by
  refine fun s off w v => ⟨fun h => ?_, fun ⟨hw, ha⟩ => ?_⟩
  · have hbad : windowAccessOk off w = false := Bool.eq_false_iff.2 fun hok => h (windowAccessOk_iff.1 hok)
    exact ⟨hostWrite_refused hbad v s, hostRead_refused hbad s⟩
  · subst hw
    exact ⟨hostWrite_answers ha v s, hostRead_answers ha s⟩

/-! ## Bytes that the host overwrote (R74) -/

/-- A host store to a byte makes its present value one of the older ones. -/
theorem staleAt_hostStore_same (a : Word) (b : Byte) (s : State) :
    staleAt (hostStore a b s) a = s.mem.read a.toNat :: staleAt s a := by
  simp [staleAt]

/-- A host store to another byte adds none. -/
theorem staleAt_hostStore_other (h : x ≠ a) (b : Byte) (s : State) : staleAt (hostStore x b s) a = staleAt s a := by
  have hne : x.toNat ≠ a.toNat := fun e => h (BitVec.eq_of_toNat_eq e)
  simp [staleAt, hne]

/-- Settles O17: `chooseByte_mem` for the read, and what one host store adds to the older values of a byte. -/
theorem racingBytes : Obligations.RacingBytes := by
  refine fun s k a => ⟨fun hok => ?_, fun b => ⟨staleAt_hostStore_same a b s, fun hm => ?_⟩,
    fun x b hx => ⟨staleAt_hostStore_other hx b s, ?_⟩⟩
  · exact ⟨pickedByte s k a, readByte_ok_iff.2 ⟨hok, rfl, rfl⟩, chooseByte_mem _ _ _⟩
  · exact Memory.read_write_same hm.1 _ _
  · exact Memory.read_write_other _ (fun e => hx (BitVec.eq_of_toNat_eq e.symm)) _

/-! ## What a load of the host sees (R65, R69) -/

theorem mem_oldAt : b ∈ oldAt ws a ↔ ∃ w ∈ ws, w.addr = a ∧ b = w.old := by
  simp [oldAt, and_assoc, eq_comm (a := b)]

theorem mem_newAt : b ∈ newAt ws a ↔ ∃ w ∈ ws, w.addr = a ∧ b = w.new := by
  simp [newAt, and_assoc, eq_comm (a := b)]

theorem State.busy_eq_false : s.busy = false ↔ s.command = none := by
  simp [State.busy]

/-- With no command running and every write seen, a load returns memory as it is (R69(b)). -/
theorem hostLoad_synced (hc : s.command = none) (hw : s.writes = []) (a : Word) :
    ∃ u, hostLoad a s = .next u ∧ u.readLog = (s.mem.read a.toNat).setWidth 64 :: s.readLog :=
  ⟨_, hostLoad_idle hc, by rw [hw]; rfl⟩

/-- Having read BUSY = 0, by STATUS or by WAIT, the host has seen every write; no register and no byte has changed (R69(b)). -/
theorem readsBusyClear_synced (hb : s.busy = false) (h : hostRead 0x030 8 s = .next t ∨ hostStep .wait s = .next t) :
    t.command = none ∧ t.writes = [] ∧ t.mem = s.mem := by
  have hc := State.busy_eq_false.1 hb
  rcases h with h | h
  · rw [hostRead_status_idle hb] at h
    cases h
    exact ⟨hc, rfl, rfl⟩
  · cases h
    exact ⟨hc, rfl, rfl⟩

/-- Settles O16: a load chooses among the present byte, what the unseen writes replaced, and what the running command will write;
with none of these it returns the present byte. -/
theorem completionMakesWritesVisible : Obligations.CompletionMakesWritesVisible := by
  refine fun s => ⟨fun hb t ht a => ?_, fun hc a => ?_, fun c r ws hc hrun hws a => ?_⟩
  · obtain ⟨hc, hw, hm⟩ := readsBusyClear_synced hb ht
    exact hm ▸ hostLoad_synced hc hw a
  · obtain ⟨v, hv, e⟩ := logLoad_eq s (s.mem.read a.toNat) (oldAt s.writes a)
    rw [List.mem_cons, mem_oldAt] at hv
    exact ⟨_, v, hostLoad_idle hc, by rw [e], hv⟩
  · obtain ⟨v, hv, e⟩ := logLoad_eq s (s.mem.read a.toNat) (oldAt s.writes a ++ newAt (newWrites s r) a)
    rw [newWrites_append hws, List.mem_cons, List.mem_append, mem_oldAt, mem_newAt] at hv
    exact ⟨_, v, hostLoad_running hc hrun, by rw [e], hv⟩

/-! ## The refusals (R66, R73) -/

/-- Everything SETDATA can answer, its guards in address sets: STATE_ERROR, one of the two refusals, or its body is run. -/
theorem exec_setdata_cases (s : State) :
    (s.mode = .none ∧ exec .setdata s = .next (s.begin.finish .stateError)) ∨
    (s.mode ≠ .none ∧ ¬ s.newBuffer.apart (windowRegion s.params) ∧ exec .setdata s = .refused .regionsOverlap) ∨
    (s.mode ≠ .none ∧ s.newBuffer.apart (windowRegion s.params) ∧ (∃ q ∈ s.params.readEffects, ¬ s.newBuffer.apart q) ∧
      exec .setdata s = .refused .bufferReadEffects) ∨
    (s.mode ≠ .none ∧ s.newBuffer.apart (windowRegion s.params) ∧ (¬ ∃ q ∈ s.params.readEffects, ¬ s.newBuffer.apart q) ∧
      exec .setdata s = .next (complete setdataBody s)) := by
  have hoverlap : anyOverlap [s.newBuffer, windowRegion s.params] = true ↔ ¬ s.newBuffer.apart (windowRegion s.params) := by
    rw [← anyOverlap_pair_iff, Bool.not_eq_false]
  have heffects : (s.params.readEffects.any fun q => s.newBuffer.overlaps q) = true ↔
      ∃ q ∈ s.params.readEffects, ¬ s.newBuffer.apart q := by
    simp only [List.any_eq_true, Region.overlaps_iff]
  rw [← hoverlap, ← heffects, ← anyOverlap_pair_iff, Bool.not_eq_true]
  exact execSetdata_cases s

/-- When a SETDATA is refused for an overlap (R73). -/
theorem exec_setdata_overlap_iff (s : State) : exec .setdata s = .refused .regionsOverlap ↔
    s.mode ≠ .none ∧ ¬ s.newBuffer.apart (windowRegion s.params) := by
  rcases exec_setdata_cases s with ⟨hm, e⟩ | ⟨hm, hap, e⟩ | ⟨-, hap, -, e⟩ | ⟨-, hap, -, e⟩ <;> rw [e]
  · exact iff_of_false nofun fun h => h.1 hm
  · exact iff_of_true rfl ⟨hm, hap⟩
  · exact iff_of_false nofun fun h => h.2 hap
  · exact iff_of_false nofun fun h => h.2 hap

/-- When it is refused for its buffer's read side effects (R66). -/
theorem exec_setdata_readEffects_iff (s : State) : exec .setdata s = .refused .bufferReadEffects ↔
    s.mode ≠ .none ∧ s.newBuffer.apart (windowRegion s.params) ∧ ∃ q ∈ s.params.readEffects, ¬ s.newBuffer.apart q := by
  rcases exec_setdata_cases s with ⟨hm, e⟩ | ⟨-, hap, e⟩ | ⟨hm, hap, hq, e⟩ | ⟨-, -, hq, e⟩ <;> rw [e]
  · exact iff_of_false nofun fun h => h.1 hm
  · exact iff_of_false nofun fun h => hap h.2.1
  · exact iff_of_true rfl ⟨hm, hap, hq⟩
  · exact iff_of_false nofun fun h => hq h.2.2

/-- When a DECODE is refused (R73). -/
theorem exec_decode_overlap_iff (s : State) : exec .decode s = .refused .regionsOverlap ↔
    s.mode ≠ .none ∧ s.failed = false ∧ ¬ s.regionsApart := by
  rw [exec_decode_eq, ← s.regionsApart_iff, Bool.not_eq_false]
  split_ifs with hstate hoverlap
  · refine iff_of_false nofun fun ⟨hm, hf, _⟩ => ?_
    exact hstate.elim hm fun h => nomatch hf.symm.trans h
  · rw [not_or, Bool.not_eq_true] at hstate
    exact iff_of_true rfl ⟨hstate.1, hstate.2, hoverlap⟩
  · exact iff_of_false nofun fun h => hoverlap h.2.2

/-- Settles O23: the guards of SETDATA and DECODE test for shared addresses. -/
theorem regionsMustBeDisjoint : Obligations.RegionsMustBeDisjoint := fun s =>
  ⟨exec_setdata_overlap_iff s, exec_decode_overlap_iff s⟩

/-- Every refusal of a command: an overlap, or a SETDATA's buffer with read side effects. -/
theorem exec_refused {i : Instr} {r : Refusal} (h : exec i s = .refused r) :
    (r = .regionsOverlap ∧ (i = .setdata ∨ i = .decode)) ∨ (r = .bufferReadEffects ∧ i = .setdata) := by
  cases i with
  | config ty => cases h
  | setdata =>
    rcases exec_setdata_cases s with ⟨-, e⟩ | ⟨-, -, e⟩ | ⟨-, -, -, e⟩ | ⟨-, -, -, e⟩ <;> rw [e] at h <;> cases h
    · exact .inl ⟨rfl, .inl rfl⟩
    · exact .inr ⟨rfl, rfl⟩
  | decode =>
    rw [exec_decode_eq] at h
    split_ifs at h
    cases h
    exact .inl ⟨rfl, .inr rfl⟩

/-- Settles O24: `exec_refused`, and what SETDATA's second guard tests. -/
theorem onlyTheseRefusals : Obligations.OnlyTheseRefusals := fun i s =>
  ⟨exec_no_fault i s, fun _ => exec_refused, exec_setdata_readEffects_iff s⟩

/-! ## The write sequence of a command (R70, R261) -/

theorem Memory.apply_append (m : Memory) (ws ws' : List ByteWrite) : m.apply (ws ++ ws') = (m.apply ws).apply ws' := by
  induction ws generalizing m with
  | nil => rfl
  | cons w ws ih => exact ih _

/-- The writes recorded between two states, applied in order to the memory of the first, give that of the second. -/
def WritesMakeMemory (s t : State) : Prop := ∃ ws, t.writes = ws ++ s.writes ∧ t.mem = s.mem.apply ws.reverse

/-- What neither writes memory nor records a write. -/
theorem WritesMakeMemory.of_same (hm : t.mem = s.mem) (hw : t.writes = s.writes) : WritesMakeMemory s t := ⟨[], hw, hm⟩

theorem writesMakeMemory_chains : Chains WritesMakeMemory where
  refl _ := .of_same rfl rfl
  trans {s t u} h1 h2 := by
    obtain ⟨ws, hw, hm⟩ := h1
    obtain ⟨ws', hw', hm'⟩ := h2
    refine ⟨ws' ++ ws, by rw [hw', hw, List.append_assoc], ?_⟩
    rw [hm', hm, List.reverse_append, Memory.apply_append]

theorem OnlyContexts.writesMakeMemory (h : OnlyContexts s t) : WritesMakeMemory s t := .of_same h.mem h.writes

theorem writeByte_writesMakeMemory (a : Word) (b : Byte) : Sub.Leaves WritesMakeMemory (writeByte a b) := fun s => by
  refine ⟨fun _ t h => ?_, fun _ t h => ?_⟩
  · obtain ⟨-, rfl⟩ := writeByte_ok_iff.1 h
    exact ⟨[⟨a, s.mem.read a.toNat, b⟩], rfl, rfl⟩
  · obtain ⟨-, -, rfl⟩ := writeByte_error_iff.1 h
    exact writesMakeMemory_chains.refl _

theorem memWriteBytes_writesMakeMemory (a : Word) (bs : List Byte) :
    Sub.Leaves WritesMakeMemory (memWriteBytes a bs) := by
  induction bs generalizing a with
  | nil => exact .pure writesMakeMemory_chains _
  | cons b bs ih => exact .bind writesMakeMemory_chains (writeByte_writesMakeMemory a b) fun _ => ih (a + 1)

theorem decodeIntLoop_writesMakeMemory (esize : Nat) (out : Word) (n k : Nat) :
    Sub.Leaves WritesMakeMemory (decodeIntLoop esize out n k) := by
  have c := writesMakeMemory_chains
  induction n generalizing k with
  | zero => exact .pure c _
  | succ n ih =>
    exact .bind c ((ideNext_leaves esize).mono fun _ _ h => h.onlyContexts.writesMakeMemory) fun v =>
      .bind c (memWriteBytes_writesMakeMemory _ _) fun _ => .bind c (.update fun s => c.refl s) fun _ => ih (k + 1)

theorem emitValue_writesMakeMemory (v : List Byte) (desc heap : Word) (k : Nat) :
    Sub.Leaves WritesMakeMemory (emitValue v desc heap k) := by
  have c := writesMakeMemory_chains
  have w := memWriteBytes_writesMakeMemory
  exact .bind c (.look c _) fun a => .bind c (w _ _) fun _ => .bind c (w _ _) fun _ => .bind c (w _ _) fun _ =>
    .bind c (w _ _) fun _ => .update fun s => c.refl s

theorem baSlot_writesMakeMemory (desc heap cap : Word) (k : Nat) :
    Sub.Leaves WritesMakeMemory (baSlot desc heap cap k) := by
  have c := writesMakeMemory_chains
  exact .bind c ((baValue_onlyContexts cap).mono fun _ _ => OnlyContexts.writesMakeMemory) fun v =>
    .bind c (emitValue_writesMakeMemory v desc heap k) fun _ => .update fun s => c.refl s

theorem decodeBALoop_writesMakeMemory (desc heap cap : Word) (n k : Nat) :
    Sub.Leaves WritesMakeMemory (decodeBALoop desc heap cap n k) := by
  have c := writesMakeMemory_chains
  induction n generalizing k with
  | zero => exact .pure c _
  | succ n ih =>
    exact .bind c (baSlot_writesMakeMemory desc heap cap k) fun _ => .bind c (.update fun s => c.refl s) fun _ => ih (k + 1)

theorem decodeBody_writesMakeMemory : Sub.Leaves WritesMakeMemory decodeBody := by
  have c := writesMakeMemory_chains
  have i : Sub.Leaves WritesMakeMemory decodeInt :=
    .bind c (.look c _) fun _ => .bind c (.look c _) fun _ => .bind c (.look c _) fun _ =>
    .bind c (decodeIntLoop_writesMakeMemory _ _ _ _) fun _ => .update fun s => c.refl s
  have b : Sub.Leaves WritesMakeMemory decodeBA :=
    .bind c (.look c _) fun _ => .bind c (.look c _) fun _ => .bind c (.look c _) fun _ => .bind c (.look c _) fun _ =>
    .bind c (.update fun s => c.refl s) fun _ => .bind c (decodeBALoop_writesMakeMemory _ _ _ _ _) fun _ =>
    .update fun s => c.refl s
  refine .bind c (.look c _) fun m => ?_
  cases m with
  | int32 | int64 => exact i
  | byteArray | none => exact b

/-- Settles O55: only DECODE writes memory, and every sub-step of it records the bytes it writes. -/
theorem writeSequence : Obligations.WriteSequence := by
  intro i s t h
  show WritesMakeMemory s t
  obtain ⟨-, rfl | ⟨hmem, hwrites, -⟩, -⟩ := whatCommandsLeaveAlone i s t h
  · rcases exec_decode_next h with ⟨-, rfl⟩ | ⟨-, -, rfl⟩
    · exact .of_same rfl rfl
    · obtain ⟨u, e, hu, he⟩ := complete_of_leaves decodeBody_writesMakeMemory s
      rw [he]
      exact hu
  · exact .of_same hmem hwrites

end

end Sys2Proof.Machine

namespace Sys2Proof

/-! # The command word (spec/30_encoding.md) -/

section
variable {c : Word} {i : Instr}

/-! ## Decoding and encoding (R80 to R83) -/

/-- The word of a command decodes to the command. -/
theorem decode_encode (i : Instr) : decode (encode i) = .ok i := by
  cases i with
  | config t => simp [encode, decode]
  | setdata => simp [encode, decode]
  | decode => simp [encode, decode]

/-- A legal word is the encoding of the command it decodes to: its reserved bits are 0, and TYPE is kept or 0. -/
theorem encode_of_decode (h : decode c = .ok i) : encode i = c := by
  unfold decode at h
  split_ifs at h with hrsv hconfig hsetdata htype hdecode htype <;> cases h
  · rw [eq_commandWord (of_not_not hrsv), hconfig, typeField_commandWord]; rfl
  · rw [eq_commandWord (of_not_not hrsv), hsetdata, htype]; rfl
  · rw [eq_commandWord (of_not_not hrsv), hdecode, htype]; rfl

theorem decode_ok_iff : decode c = .ok i ↔ encode i = c :=
  ⟨encode_of_decode, fun h => h ▸ decode_encode i⟩

/-- Settles O1: `encode_of_decode` and `decode_encode`. -/
theorem decodeAndEncodeAgree : Obligations.DecodeAndEncodeAgree := fun _ _ => decode_ok_iff

/-- Settles O4: six of the words are encodings; of the two table words, the second has a reserved bit set. -/
theorem wordsWrittenOut : Obligations.WordsWrittenOut :=
  ⟨decode_encode (.config 0x01), decode_encode (.config 0x02), decode_encode (.config 0x06), decode_encode (.config 0xFF),
    decode_encode .setdata, decode_encode .decode, by decide, by decide⟩

/-! ## The map of legal words (R84) -/

/-- A word is its three fields, one after another (R80). -/
theorem eq_append_fields (c : Word) : c = rsvField c ++ typeField c ++ opcField c := by
  apply BitVec.eq_of_toNat_eq
  rw [Machine.toNat_append_eq, Machine.toNat_append_eq, rsvField_toNat, typeField_toNat, opcField_toNat]
  omega

/-- CONFIG's mask takes TYPE out of the word. -/
theorem and_configMask (c : Word) : c &&& 0xFFFFFFFFFFFF00FF = rsvField c ++ 0#8 ++ opcField c := by
  have hmask : (0xFFFFFFFFFFFF00FF : Word) = BitVec.allOnes 48 ++ 0#8 ++ BitVec.allOnes 8 := by decide
  have happend (r : BitVec 48) (t o : Byte) :
      (r ++ t ++ o) &&& (BitVec.allOnes 48 ++ 0#8 ++ BitVec.allOnes 8) = r ++ 0#8 ++ o := by
    simp only [BitVec.and_append, BitVec.and_allOnes, BitVec.and_zero]
  rw [hmask]
  exact (congrArg (· &&& _) (eq_append_fields c)).trans (happend _ _ _)

/-- A word is CONFIG's where its reserved bits are 0 and OPC is 0x01, whatever TYPE is. -/
theorem and_configMask_eq_iff (c : Word) : c &&& 0xFFFFFFFFFFFF00FF = 0x0000000000000001 ↔ ∃ t, encode (.config t) = c := by
  rw [and_configMask]
  constructor
  · intro h
    have hsum := congrArg BitVec.toNat h
    simp only [Machine.toNat_append_eq, BitVec.toNat_ofNat, BitVec.ofNat_eq_ofNat] at hsum
    have hrsv : rsvField c = 0 := by bv_omega
    have hopc : opcField c = 0x01 := by bv_omega
    exact ⟨typeField c, by rw [encode, ← hopc, ← eq_commandWord hrsv]⟩
  · rintro ⟨t, rfl⟩
    rw [encode, rsvField_commandWord, opcField_commandWord]
    rfl

theorem and_wholeMask (c : Word) : c &&& 0xFFFFFFFFFFFFFFFF = c := BitVec.and_allOnes

/-- The rows of the map are the encodings of the three commands. -/
theorem opcodeMap_rows (c : Word) :
    (c &&& 0xFFFFFFFFFFFF00FF = 0x0000000000000001 ↔ ∃ t, decode c = .ok (.config t)) ∧
    (c &&& 0xFFFFFFFFFFFFFFFF = 0x0000000000000002 ↔ decode c = .ok .setdata) ∧
    (c &&& 0xFFFFFFFFFFFFFFFF = 0x0000000000000003 ↔ decode c = .ok .decode) := by
  simp only [decode_ok_iff, and_wholeMask]
  exact ⟨and_configMask_eq_iff c, eq_comm, eq_comm⟩

/-- Settles O2: the rows are the encodings; TYPE is CONFIG's free field; what no row selects decodes to no command. -/
theorem opcodeMap : Obligations.OpcodeMap := by
  refine ⟨fun c => ?_, rfl, rfl, rfl, rfl, rfl⟩
  obtain ⟨hconfig, hsetdata, hdecode⟩ := opcodeMap_rows c
  refine ⟨hconfig, hsetdata, hdecode, fun t h => ?_, fun hc hs hd => ?_⟩
  · rw [← encode_of_decode h, ← typeField_toNat, encode, typeField_commandWord]
  · cases h : decode c with
    | error x => exact ⟨x, rfl⟩
    | ok i =>
      cases i with
      | config t => exact absurd (hconfig.2 ⟨t, h⟩) hc
      | setdata => exact absurd (hsetdata.2 h) hs
      | decode => exact absurd (hdecode.2 h) hd

/-! ## Illegal words (R87) -/

/-- The three grounds on which a word is illegal, by its fields. -/
theorem decode_error_iff : (∃ x, decode c = .error x) ↔
    (opcField c ≠ 0x01 ∧ opcField c ≠ 0x02 ∧ opcField c ≠ 0x03) ∨ rsvField c ≠ 0 ∨
      ((opcField c = 0x02 ∨ opcField c = 0x03) ∧ typeField c ≠ 0) := by
  unfold decode
  split_ifs with hrsv hconfig hsetdata htype hdecode htype
  · exact iff_of_true ⟨_, rfl⟩ (.inr (.inl hrsv))
  · simp [of_not_not hrsv, hconfig]
  · simp [of_not_not hrsv, hsetdata, htype]
  · exact iff_of_true ⟨_, rfl⟩ (.inr (.inr ⟨.inl hsetdata, htype⟩))
  · simp [of_not_not hrsv, hdecode, htype]
  · exact iff_of_true ⟨_, rfl⟩ (.inr (.inr ⟨.inr hdecode, htype⟩))
  · exact iff_of_true ⟨_, rfl⟩ (.inl ⟨hconfig, hsetdata, hdecode⟩)

/-- Settles O3: the grounds in numbers, and the completion of an illegal word. -/
theorem illegalWordsExactly : Obligations.IllegalWordsExactly := by
  intro c s
  refine ⟨?_, fun ⟨x, h⟩ => Machine.runCommand_illegal h s⟩
  rw [decode_error_iff, ← opcField_toNat, ← typeField_toNat, ← rsvField_toNat]
  bv_omega

end

end Sys2Proof

namespace Sys2Proof.Machine

/-! # CONFIG, and SETDATA in BYTE_ARRAY mode (R141, R145) -/

section
variable {s : State}

/-- Settles O18: each legal TYPE by the mode that it selects, every other TYPE by TYPE_ERROR. -/
theorem configCompletes : Obligations.ConfigCompletes := by
  intro t s
  change execConfig t s = _
  by_cases h32 : t = 0x01
  · rw [execConfig_legal (m := .int32) (by rw [h32]; rfl), if_pos h32, if_pos (.inl h32)]
    rfl
  by_cases h64 : t = 0x02
  · rw [execConfig_legal (m := .int64) (by rw [h64]; rfl), if_neg h32, if_pos h64, if_pos (.inr (.inl h64))]
    rfl
  by_cases hba : t = 0x06
  · rw [execConfig_legal (m := .byteArray) (by rw [hba]; rfl), if_neg h32, if_neg h64, if_pos hba,
      if_pos (.inr (.inr hba))]
    rfl
  · have hnone : typeMode t = none := by simp only [typeMode, h32, h64, hba, if_false]
    rw [execConfig_illegal hnone, if_neg h32, if_neg h64, if_neg hba, if_neg (not_or.2 ⟨h32, not_or.2 ⟨h64, hba⟩⟩)]
    rfl

/-- A SETDATA whose buffer is allowed runs its body (R66, R73, R143). -/
theorem setdata_runs (hm : s.mode ≠ .none) (ha : s.bufferAllowed) :
    exec .setdata s = .next (complete setdataBody s) := by
  obtain ⟨hwindow, heffects⟩ := ha
  rcases exec_setdata_cases s with ⟨h, -⟩ | ⟨-, h, -⟩ | ⟨-, -, ⟨q, hq, h⟩, -⟩ | ⟨-, -, -, h⟩
  · exact absurd h hm
  · exact absurd hwindow h
  · exact absurd (heffects q hq) h
  · exact h

/-- An empty buffer: the contexts are cleared, and BA_EMPTY is set (R145). -/
theorem setDataBA_empty {len : Word} (h : len.toNat = 0) (count base : Word) (s : State) :
    setDataBA count base len s = .ok () { (s.clearInt 0 0 0).clearBA with baEmpty := true } := by
  unfold setDataBA
  rw [update_bind, if_pos h]
  rfl

/-- A buffer that holds a length within it: the two sub-streams are set up (R145). -/
theorem setDataBA_streams {count base len : Word} {bs : List Byte} (h4 : bs.length = 4) (hlen : 4 ≤ len.toNat)
    (hbs : s.holds base bs) (hl : leValue bs ≤ len.toNat - 4) :
    setDataBA count base len s = .ok () (s.withStreams count base len (leValue bs)) := by
  have hread : memRead base 4 { (s.clearInt 0 0 0).clearBA with baEmpty := false } = .ok (leValue bs) _ :=
    memRead_holds (s := { (s.clearInt 0 0 0).clearBA with baEmpty := false }) hbs h4.symm
  unfold setDataBA
  rw [update_bind, if_neg (by omega), raiseIf_bind, if_neg (by simpa using hlen), Sub.bind_of_ok hread, raiseIf_bind,
    if_neg (by simpa using hl)]
  rfl

/-- Settles O20: SETDATA runs `setDataBA`, which ends by `setDataBA_empty` or `setDataBA_streams`. -/
theorem setdataByteArray : Obligations.SetdataByteArray := by
  intro s hm ha
  have hrun := setdata_runs (by rw [hm]; decide) ha
  refine ⟨fun hlen => ?_, fun bs h4 hlen hbs hl => ?_⟩
  · have hzero : s.arg2.toNat = 0 := by rw [hlen]; rfl
    rw [hrun, complete_of_ok ((setdataBody_ba hm).trans (setDataBA_empty hzero _ _ _)), State.rebound, hzero]
    rfl
  · rw [hrun, complete_of_ok ((setdataBody_ba hm).trans (setDataBA_streams (s := s.rebound) h4 hlen hbs hl))]
    rfl

end

end Sys2Proof.Machine

namespace Sys2Proof.Machine

/-! # The bit reader (spec/40_bitreader.md) -/

section
variable {s : State} {p w : Nat} {b : Byte} {bs cs : List Byte}

/-! ## The cursor, and the bytes of the buffer -/

/-- The cursor at bit `n` of the stream, everything else as it is. -/
def State.seek (s : State) (n : Nat) : State := { s with ictx := { s.ictx with bitpos := BitVec.ofNat 64 n } }

/-- The index of the byte that `AlignedByte()` takes next (R123). -/
def State.nextByte (s : State) : Nat := (s.ictx.bitpos.toNat + 7) / 8

@[simp] theorem State.seek_seek (s : State) (m n : Nat) : (s.seek m).seek n = s.seek n := rfl
@[simp] theorem State.seek_params (s : State) (n : Nat) : (s.seek n).params = s.params := rfl

@[simp] theorem State.seek_bufBase (s : State) (n : Nat) : (s.seek n).ictx.bufBase = s.ictx.bufBase := rfl
@[simp] theorem State.seek_bufLen (s : State) (n : Nat) : (s.seek n).ictx.bufLen = s.ictx.bufLen := rfl

theorem State.seek_self (s : State) : s.seek s.ictx.bitpos.toNat = s := by
  unfold State.seek
  rw [word_ofNat_toNat]

/-- Past a whole byte, the next byte is the one that follows it. -/
theorem State.nextByte_seek (h : 8 * p < 2 ^ 64) (s : State) : (s.seek (8 * p)).nextByte = p := by
  show ((BitVec.ofNat 64 (8 * p)).toNat + 7) / 8 = p
  rw [toNat_ofNat_word h]
  omega

/-- The cursor moves where the number fits the register (R37). -/
theorem setBitpos_fits {n : Nat} (h : n < 2 ^ 64) (s : State) : setBitpos n s = .ok () (s.seek n) := by
  unfold setBitpos
  rw [if_pos h]
  rfl

/-- A byte string is held in two parts. -/
theorem State.holds_append {a : Word} :
    s.holds a (bs ++ cs) ↔ s.holds a bs ∧ s.holds (a + BitVec.ofNat 64 bs.length) cs := by
  refine ⟨fun h => ⟨fun i hi => ?_, fun i hi => ?_⟩, fun ⟨h1, h2⟩ i hi => ?_⟩
  · have := h i (by rw [List.length_append]; omega)
    rwa [List.getElem_append_left hi] at this
  · have := h (bs.length + i) (by rw [List.length_append]; omega)
    rw [List.getElem_append_right (by omega), BitVec.ofNat_add, ← BitVec.add_assoc] at this
    simpa only [Nat.add_sub_cancel_left] using this
  · rw [List.length_append] at hi
    by_cases hl : i < bs.length
    · rw [List.getElem_append_left hl]; exact h1 i hl
    · have := h2 (i - bs.length) (by omega)
      rw [BitVec.add_assoc, ← BitVec.ofNat_add, Nat.add_sub_cancel' (by omega)] at this
      rwa [List.getElem_append_right (by omega)]

/-- The bit reader's buffer holds a byte string from byte `p` on, within the bits that BITPOS can count (R37). Moving the cursor
moves no byte: of `s.seek n` this is the same proposition. -/
def State.streamHolds (s : State) (p : Nat) (bs : List Byte) : Prop :=
  s.holds (s.ictx.bufBase + BitVec.ofNat 64 p) bs ∧ p + bs.length ≤ s.ictx.bufLen.toNat ∧ 8 * (p + bs.length) < 2 ^ 64

theorem State.streamHolds_append :
    s.streamHolds p (bs ++ cs) ↔ s.streamHolds p bs ∧ s.streamHolds (p + bs.length) cs := by
  unfold State.streamHolds
  rw [State.holds_append, BitVec.ofNat_add, ← BitVec.add_assoc, List.length_append]
  constructor
  · rintro ⟨⟨h1, h2⟩, h3, h4⟩
    exact ⟨⟨h1, by omega, by omega⟩, h2, by omega, by omega⟩
  · rintro ⟨⟨h1, h3, h4⟩, h2, h5, h6⟩
    exact ⟨⟨h1, h2⟩, by omega, by omega⟩

theorem State.streamHolds_cons :
    s.streamHolds p (b :: bs) ↔ s.streamHolds p [b] ∧ s.streamHolds (p + 1) bs :=
  State.streamHolds_append (bs := [b])

theorem State.streamHolds_fits (h : s.streamHolds p bs) : 8 * (p + bs.length) < 2 ^ 64 := h.2.2

/-- Past bytes of the stream, the next byte is the one after them. -/
theorem State.nextByte_after (h : s.streamHolds p bs) : (s.seek (8 * (p + bs.length))).nextByte = p + bs.length :=
  State.nextByte_seek (State.streamHolds_fits h) s

/-! ## Bits (R94, R121) -/

theorem bit_settled (hok : memOk s.params (s.bitAddr p) .read = true) (hst : staleAt s (s.bitAddr p) = []) :
    bit p s = .ok (s.bitAt p) s := by
  unfold bit
  rw [look_bind, Sub.bind_of_ok (readByte_settled hok hst)]
  rfl

theorem bitsFrom_settled (h : ∀ q, p ≤ q → q < p + w →
    memOk s.params (s.bitAddr q) .read = true ∧ staleAt s (s.bitAddr q) = []) :
    bitsFrom p w s = .ok (s.rawAt p w) s := by
  induction w generalizing p with
  | zero => rfl
  | succ w ih =>
    obtain ⟨hok, hst⟩ := h p le_rfl (by omega)
    unfold bitsFrom
    rw [Sub.bind_of_ok (bit_settled hok hst), Sub.bind_of_ok (ih fun q h1 h2 => h q (by omega) (by omega))]
    rfl

/-- A bit that cannot be read ends the read (R231); those before it, racing or not, have changed nothing. -/
theorem bitsFrom_unreadable (h : ∃ q, p ≤ q ∧ q < p + w ∧ memOk s.params (s.bitAddr q) .read = false) :
    bitsFrom p w s = .error .busError s := by
  induction w generalizing p with
  | zero => obtain ⟨q, h1, h2, -⟩ := h; omega
  | succ w ih =>
    obtain ⟨q, h1, h2, hq⟩ := h
    unfold bitsFrom bit
    cases hp : memOk s.params (s.bitAddr p) .read with
    | false => exact Sub.bind_of_error (by rw [look_bind]; exact Sub.bind_of_error (readByte_error_iff.2 ⟨hp, rfl, rfl⟩))
    | true =>
      have hne : q ≠ p := fun e => by rw [e, hp] at hq; cases hq
      rw [Sub.bind_of_ok (by rw [look_bind]; exact Sub.bind_of_ok (readByte_ok_iff.2 ⟨hp, rfl, rfl⟩))]
      exact Sub.bind_of_error (ih ⟨q, by omega, by omega, hq⟩)

/-- `w` bits make an unsigned number of `w` bits. -/
theorem State.rawAt_lt (s : State) (p w : Nat) : s.rawAt p w < 2 ^ w := by
  induction w generalizing p with
  | zero => exact Nat.one_pos
  | succ w ih =>
    have hbit : s.bitAt p < 2 := Nat.mod_lt _ Nat.two_pos
    have := ih (p + 1)
    rw [Nat.pow_succ, State.rawAt]
    omega

/-- `ReadBits(w)`: the bound check, the bits, the cursor (R121). -/
theorem readBits_run (w : Nat) (s : State) : readBits w s =
    if 8 * s.ictx.bufLen.toNat < s.ictx.bitpos.toNat + w then .error .eofError s
    else (bitsFrom s.ictx.bitpos.toNat w >>= fun v => setBitpos (s.ictx.bitpos.toNat + w) >>= fun _ => pure v) s := by
  unfold readBits
  simp only [look_bind, raiseIf_bind, decide_eq_true_eq]
  rfl

/-- Settles O29: the bound check, and then how `bitsFrom` ends. -/
theorem readBits_spec : Obligations.ReadBits := by
  intro s w
  refine ⟨fun h => by rw [readBits_run, if_pos h], fun h hfit => ?_⟩
  rw [readBits_run, if_neg (by omega)]
  refine ⟨fun hq => ⟨?_, s.rawAt_lt _ _⟩, fun hq => ⟨s, Sub.bind_of_error (bitsFrom_unreadable hq)⟩⟩
  rw [Sub.bind_of_ok (bitsFrom_settled hq), Sub.bind_of_ok (setBitpos_fits hfit s)]
  rfl

/-! ## Whole bytes (R123) -/

theorem bitAddr_byte (s : State) (p : Nat) : s.bitAddr (8 * p) = s.ictx.bufBase + BitVec.ofNat 64 p := by
  rw [State.bitAddr, Nat.mul_div_cancel_left p (by omega)]

/-- `AlignedByte()`: the bound check, the byte, the cursor. -/
theorem alignedByte_run (s : State) : alignedByte s =
    if s.ictx.bufLen.toNat ≤ s.nextByte then .error .eofError s
    else (readByte 0 (s.ictx.bufBase + BitVec.ofNat 64 s.nextByte) >>= fun v =>
      setBitpos (8 * (s.nextByte + 1)) >>= fun _ => pure v.toNat) s := by
  have hbound : 8 * s.nextByte + 8 > s.bufBits ↔ s.ictx.bufLen.toNat ≤ s.nextByte := by
    unfold State.bufBits
    omega
  rw [← bitAddr_byte]
  unfold alignedByte
  simp only [look_bind, raiseIf_bind, decide_eq_true_eq]
  change (if 8 * s.nextByte + 8 > s.bufBits then _ else _) = _
  simp only [hbound]
  rfl

theorem alignedByte_holds (hp : s.nextByte = p) (h : s.streamHolds p [b]) :
    alignedByte s = .ok b.toNat (s.seek (8 * (p + 1))) := by
  obtain ⟨hbyte, hlen, hfit⟩ := h
  obtain ⟨hread, hok, hst⟩ := hbyte 0 (by simp)
  simp only [List.getElem_cons_zero, BitVec.add_zero] at hread hok hst
  simp only [List.length_singleton] at hlen hfit
  rw [alignedByte_run, hp, if_neg (by omega), Sub.bind_of_ok (readByte_settled hok hst),
    Sub.bind_of_ok (setBitpos_fits hfit s), hread]
  rfl

/-- Byte `q` of the buffer cannot be had: the buffer ends before it, or it cannot be read. -/
def State.cutAt (s : State) (q : Nat) (e : ErrKind) : Prop :=
  (q = s.ictx.bufLen.toNat ∧ e = .eofError) ∨
  (q < s.ictx.bufLen.toNat ∧ memOk s.params (s.ictx.bufBase + BitVec.ofNat 64 q) .read = false ∧ e = .busError)

theorem alignedByte_cut {e : ErrKind} {n : Nat} (hp : (s.seek n).nextByte = p) (he : s.cutAt p e) :
    alignedByte (s.seek n) = .error e (s.seek n) := by
  rw [alignedByte_run, hp, State.seek_bufLen, State.seek_bufBase]
  rcases he with ⟨hend, rfl⟩ | ⟨hlt, hbad, rfl⟩
  · rw [if_pos hend.ge]
  · rw [if_neg (by omega)]
    exact Sub.bind_of_error (readByte_error_iff.2 ⟨hbad, rfl, rfl⟩)

end

end Sys2Proof.Machine

namespace Sys2Proof.Machine

/-! # Varints and the zig-zag mapping (R95, R96, R124, R125) -/

section
variable {s : State} {p v : Nat} {b : Byte} {bs r : List Byte} {e : ErrKind}

/-! ## The format of a varint (R95) -/

theorem groupValue_append (bs cs : List Byte) :
    groupValue (bs ++ cs) = groupValue bs + 2 ^ (7 * bs.length) * groupValue cs := by
  induction bs with
  | nil => simp [groupValue]
  | cons b bs ih =>
    simp only [List.cons_append, groupValue, ih, List.length_cons]
    ring

/-- A varint is the bytes that announce another one, and the last byte. -/
theorem isVarint_snoc (h : IsVarint bs v) : ∃ more last, bs = more ++ [last] ∧ (∀ b ∈ more, 0x80 ≤ b.toNat) ∧
    last.toNat < 0x80 ∧ more.length < 10 ∧ (more.length = 9 → last.toNat ≤ 1) ∧
    v = groupValue more + 2 ^ (7 * more.length) * last.toNat := by
  obtain ⟨hne, hlen, hmore, htenth, rfl⟩ := h
  obtain ⟨more, last, rfl⟩ := List.eq_nil_or_concat' bs |>.resolve_left hne
  simp only [List.length_append, List.length_singleton] at hlen hmore htenth
  have hlast : last.toNat < 0x80 := by
    have := hmore more.length (by simp)
    simp only [List.getElem_concat_length] at this
    omega
  refine ⟨more, last, rfl, fun b hb => ?_, hlast, by omega, fun h9 => ?_, ?_⟩
  · obtain ⟨i, hi, rfl⟩ := List.getElem_of_mem hb
    have := hmore i (by simp; omega)
    rw [List.getElem_append_left hi] at this
    omega
  · have := htenth (by omega)
    simpa only [← h9, List.getElem_concat_length] using this
  · rw [groupValue_append, groupValue, groupValue, Nat.mul_zero, Nat.add_zero, Nat.mod_eq_of_lt hlast]

/-! ## Reading one (R124) -/

/-- The next byte of a varint: the tenth must be 0x00 or 0x01, one below 0x80 is the last, any other announces another. -/
theorem varUIntFrom_byte {left acc : Nat} (hp : s.nextByte = p) (h : s.streamHolds p [b]) :
    varUIntFrom (left + 1) acc s =
      if left = 0 ∧ 1 < b.toNat then .error .formatError (s.seek (8 * (p + 1)))
      else if b.toNat < 0x80 then .ok (acc + b.toNat % 0x80 * 2 ^ (7 * (9 - left))) (s.seek (8 * (p + 1)))
      else varUIntFrom left (acc + b.toNat % 0x80 * 2 ^ (7 * (9 - left))) (s.seek (8 * (p + 1))) := by
  rw [varUIntFrom, Sub.bind_of_ok (alignedByte_holds hp h), raiseIf_bind]
  simp only [Bool.and_eq_true, decide_eq_true_eq, gt_iff_lt]
  by_cases hlast : b.toNat < 0x80
  · simp only [hlast, if_true]; rfl
  · simp only [hlast, if_false]

/-- Bytes that announce another one are gathered, the first in the least significant group. -/
theorem varUIntFrom_more {left acc : Nat} (hp : s.nextByte = p) (h : s.streamHolds p bs) (hmore : ∀ b ∈ bs, 0x80 ≤ b.toNat)
    (hleft : left ≤ 10) (hlen : bs.length < left) : ∃ n, (s.seek n).nextByte = p + bs.length ∧
      varUIntFrom left acc s = varUIntFrom (left - bs.length) (acc + 2 ^ (7 * (10 - left)) * groupValue bs) (s.seek n) := by
  induction bs generalizing s p left acc with
  | nil => exact ⟨s.ictx.bitpos.toNat, by rw [s.seek_self]; exact hp, by rw [s.seek_self]; rfl⟩
  | cons b bs ih =>
    obtain ⟨left, rfl⟩ := Nat.exists_eq_add_of_lt (Nat.zero_lt_of_lt hlen)
    rw [List.length_cons] at hlen ⊢
    obtain ⟨hb, hbs⟩ := State.streamHolds_cons.1 h
    have h80 : 0x80 ≤ b.toNat := hmore b List.mem_cons_self
    obtain ⟨n, hn, e⟩ := ih (s := s.seek (8 * (p + 1))) (p := p + 1) (left := left)
      (acc := acc + b.toNat % 0x80 * 2 ^ (7 * (9 - left))) (State.nextByte_after hb) hbs
      (fun x hx => hmore x (List.mem_cons_of_mem _ hx)) (by omega) (by omega)
    refine ⟨n, by rw [← s.seek_seek, hn]; omega, ?_⟩
    rw [Nat.zero_add, varUIntFrom_byte hp hb, if_neg (by omega), if_neg (by omega), e, State.seek_seek]
    have hpow : 2 ^ (7 * (10 - left)) = 2 ^ (7 * (9 - left)) * 0x80 := by
      rw [show 7 * (10 - left) = 7 * (9 - left) + 7 by omega, Nat.pow_add]
    congr 1
    · omega
    · rw [groupValue, hpow, show 10 - (left + 1) = 9 - left by omega]
      ring

/-- Up to nine bytes that announce another one bring the reader to the next byte of the varint. -/
theorem varUInt_more (hp : s.nextByte = p) (h : s.streamHolds p bs) (hmore : ∀ b ∈ bs, 0x80 ≤ b.toNat) (hlen : bs.length < 10) :
    ∃ n, (s.seek n).nextByte = p + bs.length ∧
      varUInt s = varUIntFrom (9 - bs.length + 1) (groupValue bs) (s.seek n) := by
  obtain ⟨n, hn, e⟩ := varUIntFrom_more (acc := 0) hp h hmore le_rfl hlen
  refine ⟨n, hn, ?_⟩
  rw [varUInt, e, show 10 - bs.length = 9 - bs.length + 1 by omega, Nat.sub_self, Nat.mul_zero, Nat.pow_zero, Nat.one_mul,
    Nat.zero_add]

/-- A varint that the buffer holds is read whole. -/
theorem varUInt_holds (hp : s.nextByte = p) (h : s.streamHolds p bs) (hv : IsVarint bs v) :
    varUInt s = .ok v (s.seek (8 * (p + bs.length))) := by
  obtain ⟨more, last, rfl, hmore, hlast, hlen, htenth, rfl⟩ := isVarint_snoc hv
  obtain ⟨hm, hl⟩ := State.streamHolds_append.1 h
  obtain ⟨n, hn, e⟩ := varUInt_more hp hm hmore hlen
  rw [e, varUIntFrom_byte hn hl, if_neg (by omega), if_pos hlast, Nat.mod_eq_of_lt hlast, State.seek_seek, List.length_append,
    List.length_singleton, Nat.add_assoc, Nat.sub_sub_self (by omega), Nat.mul_comm last.toNat]

/-- A varint whose next byte cannot be had. -/
theorem varUInt_cut (hp : s.nextByte = p) (h : s.streamHolds p r) (hmore : ∀ b ∈ r, 0x80 ≤ b.toNat) (hlen : r.length < 10)
    (he : s.cutAt (p + r.length) e) : ∃ t, varUInt s = .error e t := by
  obtain ⟨n, hn, hrun⟩ := varUInt_more hp h hmore hlen
  rw [hrun, varUIntFrom]
  exact ⟨_, Sub.bind_of_error (alignedByte_cut hn he)⟩

/-- A varint whose tenth byte is above 0x01. -/
theorem varUInt_tooLong (hp : s.nextByte = p) (h : s.streamHolds p (bs ++ [b])) (hmore : ∀ b ∈ bs, 0x80 ≤ b.toNat)
    (hlen : bs.length = 9) (hbig : 1 < b.toNat) : ∃ t, varUInt s = .error .formatError t := by
  obtain ⟨hnine, htenth⟩ := State.streamHolds_append.1 h
  obtain ⟨n, hn, hrun⟩ := varUInt_more hp hnine hmore (by omega)
  rw [hrun, varUIntFrom_byte hn htenth, if_pos ⟨by omega, hbig⟩]
  exact ⟨_, rfl⟩

/-- Why a varint of which the buffer holds the bytes `r` from byte `p` on is not read: its next byte cannot be had, or it is too long
(R95, R124, R231). -/
def State.varintStops (s : State) (p : Nat) (r : List Byte) (e : ErrKind) : Prop :=
  (r.length < 10 ∧ s.cutAt (p + r.length) e) ∨ (r.length = 10 ∧ 1 < (r.getD 9 0).toNat ∧ e = .formatError)

/-- A varint cut short or too long raises the error of its cause. -/
theorem varUInt_stops (hp : s.nextByte = p) (h : s.streamHolds p r) (hmore : ∀ i (hi : i < r.length), i < 9 → 0x80 ≤ r[i].toNat)
    (he : s.varintStops p r e) : ∃ t, varUInt s = .error e t := by
  have hnine : ∀ b ∈ r.take 9, 0x80 ≤ b.toNat := fun b hb => by
    obtain ⟨i, hi, rfl⟩ := List.getElem_of_mem hb
    rw [List.length_take] at hi
    rw [List.getElem_take]
    exact hmore i (by omega) (by omega)
  rcases he with ⟨hlen, hcut⟩ | ⟨hlen, hbig, rfl⟩
  · rw [List.take_of_length_le (by omega)] at hnine
    exact varUInt_cut hp h hnine hlen hcut
  · have hr : r = r.take 9 ++ [r.getD 9 0] := by
      rw [List.getD_eq_getElem _ _ (by omega), List.take_concat_get' r 9 (by omega), List.take_of_length_le (by omega)]
    exact varUInt_tooLong hp (hr ▸ h) hnine (by rw [List.length_take]; omega) hbig

/-- Settles O32: `varUInt_holds`, and `varUInt_stops` for each cause. -/
theorem varUInt_spec : Obligations.VarUInt := by
  intro s bs p hp hfit hbs
  have hread (hlen : p + bs.length ≤ s.ictx.bufLen.toNat) : s.streamHolds p bs := ⟨hbs, hlen, hfit⟩
  refine ⟨fun v hv hlen => ?_, fun hlen hmore hend => ?_, fun hlen hmore hbig hend => ?_, fun hlen hmore hnext hbad => ?_⟩
  · have hrun := varUInt_holds hp.symm (hread hlen) hv
    exact ⟨hrun, varUInt_ok hrun⟩
  · exact varUInt_cut hp.symm (hread hend.le) hmore hlen (.inl ⟨hend, rfl⟩)
  · refine varUInt_stops hp.symm (hread (hlen ▸ hend)) (fun i _ h9 => hmore i h9) (.inr ⟨hlen, ?_, rfl⟩)
    rwa [List.getD_eq_getElem _ _ (by omega)]
  · exact varUInt_cut hp.symm (hread hnext.le) hmore hlen (.inr ⟨hnext, hbad, rfl⟩)

/-! ## The zig-zag mapping (R96, R125) -/

theorem unzz_zz (u : Nat) : unzz (zz u) = u := by
  unfold zz
  split_ifs with heven
  · rw [unzz, if_pos (by omega)]
    omega
  · rw [unzz, if_neg (by omega)]
    omega

theorem zz_unzz (x : Int) : zz (unzz x) = x := by
  unfold unzz
  split_ifs with hsign
  · rw [zz, if_pos (by omega)]
    omega
  · rw [zz, if_neg (by omega)]
    omega

/-- The s64 values are those of the u64 numbers. -/
theorem unzz_lt {x : Int} (hlo : -(2 ^ 63 : Int) ≤ x) (hhi : x < 2 ^ 63) : unzz x < 2 ^ 64 := by
  unfold unzz
  split_ifs <;> omega

/-- Settles O33: `zz` and `unzz` undo each other; `ZigZag()` maps what `VarUInt()` returns. -/
theorem zigZagMapping : Obligations.ZigZagMapping := by
  refine ⟨fun _ => rfl, ⟨rfl, rfl, rfl, rfl, rfl, by decide, by decide⟩, fun u hu => ?_, fun x hlo hhi => ?_, fun s t u h => ?_,
    fun s t e h => ?_⟩
  · obtain ⟨hlo, hhi⟩ := zz_range hu
    exact ⟨hlo, hhi, unzz_zz u⟩
  · exact ⟨unzz_lt hlo hhi, zz_unzz x⟩
  · exact Sub.bind_of_ok h
  · exact Sub.bind_of_error h

end

end Sys2Proof.Machine

namespace Sys2Proof.Machine

/-! # The block header (R92, R162) -/

section
variable {s : State} {p q n esize bs nmb vcb : Nat} {fv md : Int} {bytes ws us : List Byte} {e : ErrKind}

/-! ## The fields before the width bytes -/

/-- The width bytes of a header, its last check, and the context that it leaves (R162). -/
def headerWidths (esize bs nmb vcb : Nat) (fv md : Int) : Sub Int := do
  let ws ← readWidths nmb
  raiseIf (!inRange fv esize) .overflowError
  update fun s => { s with ictx := s.ictx.withHeader s.params bs nmb vcb fv md ws }
  pure fv

/-- What R162 does once the five varints are read. -/
def headerRest (esize bs nmb vcb : Nat) (fv md : Int) : Sub Int := do
  raiseIf (decide (nmb = 0)) .formatError
  let most ← look (·.params.maxMiniBlocks)
  raiseIf (decide (nmb > most)) .capacityError
  raiseIf (decide (bs = 0) || decide (bs % nmb ≠ 0)) .formatError
  headerWidths esize bs nmb vcb fv md

theorem parseHeader_eq (esize : Nat) : parseHeader esize = (varUInt >>= fun bs => varUInt >>= fun nmb => varUInt >>= fun vcb =>
    zigZag >>= fun fv => zigZag >>= fun md => headerRest esize bs nmb vcb fv md) := rfl

/-- What follows a varint goes on from the byte after it. -/
theorem varUInt_bind {α : Type} {f : Nat → Sub α} {b : List Byte} {v : Nat} (hp : s.nextByte = p) (h : s.streamHolds p b)
    (hv : IsVarint b v) : (varUInt >>= f) s = f v (s.seek (8 * (p + b.length))) :=
  Sub.bind_of_ok (varUInt_holds hp h hv)

theorem zigZag_bind_eq {α : Type} (f : Int → Sub α) : (zigZag >>= f) = (varUInt >>= fun u => f (zz u)) := by
  rw [zigZag, bind_assoc]
  rfl

theorem zigZag_bind {α : Type} {f : Int → Sub α} {b : List Byte} {x : Int} (hp : s.nextByte = p) (h : s.streamHolds p b)
    (hv : IsVarint b (unzz x)) : (zigZag >>= f) s = f x (s.seek (8 * (p + b.length))) := by
  rw [zigZag_bind_eq, varUInt_bind hp h hv, zz_unzz]

/-- The five varints of a header are read, and the rest begins at the width bytes. -/
theorem parseHeader_fields (hp : s.nextByte = p) (hbytes : s.streamHolds p bytes) (hh : IsHeader bytes bs nmb vcb fv md ws) :
    ∃ q, q + ws.length = p + bytes.length ∧ s.streamHolds q ws ∧
      parseHeader esize s = headerRest esize bs nmb vcb fv md (s.seek (8 * q)) := by
  obtain ⟨b, n, c, f, m, hb, hn, hc, hf, hm, rfl⟩ := hh
  simp only [State.streamHolds_append] at hbytes
  obtain ⟨⟨⟨⟨⟨h1, h2⟩, h3⟩, h4⟩, h5⟩, h6⟩ := hbytes
  simp only [List.length_append, ← Nat.add_assoc] at h2 h3 h4 h5 h6 ⊢
  refine ⟨_, rfl, h6, ?_⟩
  rw [parseHeader_eq, varUInt_bind hp h1 hb, varUInt_bind (State.nextByte_after h1) h2 hn,
    State.seek_seek, varUInt_bind (State.nextByte_after h2) h3 hc, State.seek_seek, zigZag_bind (State.nextByte_after h3) h4 hf,
    State.seek_seek, zigZag_bind (State.nextByte_after h4) h5 hm, State.seek_seek]

/-! ## The checks -/

theorem headerRest_run (esize bs nmb vcb : Nat) (fv md : Int) (s : State) (n : Nat) :
    headerRest esize bs nmb vcb fv md (s.seek n) =
      if nmb = 0 then .error .formatError (s.seek n)
      else if s.params.maxMiniBlocks < nmb then .error .capacityError (s.seek n)
      else if bs = 0 ∨ bs % nmb ≠ 0 then .error .formatError (s.seek n)
      else headerWidths esize bs nmb vcb fv md (s.seek n) := by
  unfold headerRest
  rw [raiseIf_bind, look_bind, raiseIf_bind, raiseIf_bind, State.seek_params]
  simp only [decide_eq_true_eq, Bool.or_eq_true, gt_iff_lt]

/-- Where R162's checks of the counts pass, the width bytes are read next. -/
theorem headerRest_checked (hone : 1 ≤ nmb) (hmost : nmb ≤ s.params.maxMiniBlocks) (hbs : bs ≠ 0) (hdvd : bs % nmb = 0) :
    headerRest esize bs nmb vcb fv md (s.seek n) = headerWidths esize bs nmb vcb fv md (s.seek n) := by
  rw [headerRest_run, if_neg (by omega), if_neg (by omega), if_neg (by omega)]

theorem inRange_iff (v : Int) (esize : Nat) :
    inRange v esize = true ↔ -(2 ^ (8 * esize - 1) : Int) ≤ v ∧ v < (2 ^ (8 * esize - 1) : Int) := by
  rw [inRange, decide_eq_true_eq]

/-! ## The width bytes -/

/-- Reading one width byte. -/
theorem readWidths_byte {w : Byte} (hp : s.nextByte = p) (h : s.streamHolds p [w]) : readWidths (n + 1) s =
    if 64 < w.toNat then .error .formatError (s.seek (8 * (p + 1)))
    else (readWidths n >>= fun ws => pure (w :: ws)) (s.seek (8 * (p + 1))) := by
  rw [readWidths, Sub.bind_of_ok (alignedByte_holds hp h), raiseIf_bind]
  simp only [decide_eq_true_eq, gt_iff_lt, BitVec.ofNat_toNat, BitVec.setWidth_eq]

/-- Width bytes up to 64 are read as they stand. -/
theorem readWidths_holds (hq : 8 * q < 2 ^ 64) (h : s.streamHolds q ws) (hws : ∀ w ∈ ws, w.toNat ≤ 64) :
    readWidths ws.length (s.seek (8 * q)) = .ok ws (s.seek (8 * (q + ws.length))) := by
  induction ws generalizing q with
  | nil => rfl
  | cons w ws ih =>
    obtain ⟨hw, hrest⟩ := State.streamHolds_cons.1 h
    have hfit : 8 * (q + 1) < 2 ^ 64 := State.streamHolds_fits hw
    have hle := hws w List.mem_cons_self
    rw [List.length_cons, readWidths_byte (State.nextByte_seek hq s) hw, if_neg (by omega), State.seek_seek,
      Sub.bind_of_ok (ih hfit hrest fun x hx => hws x (List.mem_cons_of_mem _ hx)), Nat.add_assoc, Nat.add_comm 1]
    rfl

/-- An error after some width bytes is the error of the read. -/
theorem readWidths_after (hq : 8 * q < 2 ^ 64) (h : s.streamHolds q us) (hus : ∀ u ∈ us, u.toNat ≤ 64)
    (hstop : ∃ t, readWidths n (s.seek (8 * (q + us.length))) = .error e t) :
    ∃ t, readWidths (us.length + n) (s.seek (8 * q)) = .error e t := by
  induction us generalizing q with
  | nil => simpa using hstop
  | cons u us ih =>
    obtain ⟨hu, hrest⟩ := State.streamHolds_cons.1 h
    have hfit : 8 * (q + 1) < 2 ^ 64 := State.streamHolds_fits hu
    have hle := hus u List.mem_cons_self
    obtain ⟨t, ht⟩ := ih hfit hrest (fun x hx => hus x (List.mem_cons_of_mem _ hx))
      (by rwa [List.length_cons, Nat.add_comm us.length, ← Nat.add_assoc] at hstop)
    rw [List.length_cons, Nat.add_right_comm, readWidths_byte (State.nextByte_seek hq s) hu,
      if_neg (by omega), State.seek_seek]
    exact ⟨t, Sub.bind_of_error ht⟩

/-- Settles O37: the fields, the checks, the width bytes, and the context that `withHeader` leaves. -/
theorem headerRead : Obligations.HeaderRead := by
  intro esize s bytes ws bs nmb vcb fv md p _ hh hp hbytes hlen hfit hnmb hone hmost hbs hdvd hws hlo hhi
  subst hnmb
  have hstream : s.streamHolds p bytes := ⟨hbytes, hlen, hfit⟩
  obtain ⟨q, hend, hwidths, hrun⟩ := parseHeader_fields hp.symm hstream hh
  have hrange : (!inRange fv esize) = false := by rw [(inRange_iff fv esize).2 ⟨hlo, hhi⟩]; rfl
  rw [hrun, headerRest_checked hone hmost hbs hdvd, headerWidths,
    Sub.bind_of_ok (readWidths_holds (by omega) hwidths hws), hrange, hend]
  rfl

/-! ## The errors (R231, R234) -/

/-- A sub-step that begins by reading `n` varints. -/
def Sub.ReadsVarints {α : Type} : Nat → Sub α → Prop
  | 0, _ => True
  | n + 1, m => ∃ f, m = (varUInt >>= f) ∧ ∀ v, Sub.ReadsVarints n (f v)

theorem parseHeader_readsVarints (esize : Nat) : Sub.ReadsVarints 5 (parseHeader esize) :=
  ⟨_, rfl, fun _ => ⟨_, rfl, fun _ => ⟨_, rfl, fun _ => ⟨_, zigZag_bind_eq _, fun _ => ⟨_, zigZag_bind_eq _, fun _ =>
    trivial⟩⟩⟩⟩⟩

/-- Where fewer varints are whole than a sub-step reads, the error of the next one is its error. -/
theorem Sub.ReadsVarints.stops {α : Type} {m : Sub α} {whole : List (List Byte)} {r : List Byte} (hm : Sub.ReadsVarints n m)
    (hlen : whole.length < n) (hwhole : ∀ f ∈ whole, ∃ v, IsVarint f v) (hp : s.nextByte = p)
    (h : s.streamHolds p (whole.flatten ++ r)) (hmore : ∀ i (hi : i < r.length), i < 9 → 0x80 ≤ r[i].toNat)
    (he : s.varintStops (p + whole.flatten.length) r e) : ∃ t, m s = .error e t := by
  induction whole generalizing s p n m with
  | nil =>
    obtain ⟨n, rfl⟩ := Nat.exists_eq_add_of_lt hlen
    obtain ⟨f, rfl, -⟩ := hm
    obtain ⟨t, ht⟩ := varUInt_stops hp h hmore he
    exact ⟨t, Sub.bind_of_error ht⟩
  | cons b whole ih =>
    obtain ⟨n, rfl⟩ := Nat.exists_eq_add_of_lt (Nat.zero_lt_of_lt hlen)
    rw [Nat.zero_add] at hm
    obtain ⟨f, rfl, hf⟩ := hm
    obtain ⟨v, hv⟩ := hwhole b List.mem_cons_self
    rw [List.flatten_cons, List.append_assoc, State.streamHolds_append] at h
    obtain ⟨hb, hrest⟩ := h
    rw [varUInt_bind hp hb hv]
    rw [List.flatten_cons, List.length_append, ← Nat.add_assoc] at he
    rw [List.length_cons] at hlen
    exact ih (hf v) (by omega) (fun x hx => hwhole x (List.mem_cons_of_mem _ hx)) (State.nextByte_after hb) hrest he

/-- Where a width byte cannot be had. -/
theorem readWidths_cut (hq : 8 * q < 2 ^ 64) (h : s.streamHolds q ws) (hws : ∀ w ∈ ws, w.toNat ≤ 64) (hn : ws.length < n)
    (he : s.cutAt (q + ws.length) e) : ∃ t, readWidths n (s.seek (8 * q)) = .error e t := by
  obtain ⟨k, rfl⟩ := Nat.exists_eq_add_of_lt hn
  rw [Nat.add_assoc]
  exact readWidths_after hq h hws ⟨_, Sub.bind_of_error (alignedByte_cut (State.nextByte_after h) he)⟩

/-- A width byte above 64, the first such. -/
theorem readWidths_wide {w : Byte} (hq : 8 * q < 2 ^ 64) (h : s.streamHolds q (us ++ [w])) (hus : ∀ u ∈ us, u.toNat ≤ 64)
    (hw : 64 < w.toNat) (hn : us.length < n) : ∃ t, readWidths n (s.seek (8 * q)) = .error .formatError t := by
  obtain ⟨k, rfl⟩ := Nat.exists_eq_add_of_lt hn
  obtain ⟨hu, hlast⟩ := State.streamHolds_append.1 h
  rw [Nat.add_assoc]
  exact readWidths_after hq hu hus ⟨_, by rw [readWidths_byte (State.nextByte_after hu) hlast, if_pos hw]⟩

/-- Settles O38: an error of a varint by `Sub.ReadsVarints.stops`; then the checks in their order, and the width bytes. -/
theorem headerErrors : Obligations.HeaderErrors := by
  refine ⟨?_, ?_⟩
  · intro esize s whole r p q e _ hwhole hvar hp hbytes hq hlen hfit hmore he
    subst hq
    rw [List.length_append, ← Nat.add_assoc] at he
    have hcause : s.varintStops (p + whole.flatten.length) r e := by
      rcases he with ⟨hten, hcut⟩ | ⟨hten, hcut⟩ | hlong
      · exact .inl ⟨hten, .inl hcut⟩
      · exact .inl ⟨hten, .inr hcut⟩
      · exact .inr hlong
    exact (parseHeader_readsVarints esize).stops hwhole hvar hp.symm ⟨hbytes, hlen, hfit⟩ hmore hcause
  · intro esize s bytes ws bs nmb vcb fv md p e _ hh hp hbytes hlen hfit he
    obtain ⟨q, hend, hwidths, hrun⟩ := parseHeader_fields (esize := esize) hp.symm ⟨hbytes, hlen, hfit⟩ hh
    rw [hrun]
    have hq : 8 * q < 2 ^ 64 := by omega
    rcases he with ⟨hzero, rfl⟩ | ⟨hmost, rfl⟩ | ⟨hone, hmost, hbs, rfl⟩ | ⟨hone, hmost, hbs, hdvd, hshort, hws, he⟩ |
      ⟨hone, hmost, hbs, hdvd, hle, ⟨w, us, rfl, hus, hw⟩, rfl⟩ | ⟨hone, hmost, hbs, hdvd, hall, hws, hrange, rfl⟩
    · exact ⟨_, by rw [headerRest_run, if_pos hzero]⟩
    · exact ⟨_, by rw [headerRest_run, if_neg (by omega), if_pos hmost]⟩
    · exact ⟨_, by rw [headerRest_run, if_neg (by omega), if_neg (not_lt.2 hmost), if_pos hbs]⟩
    · rw [headerRest_checked hone hmost hbs hdvd]
      rw [← hend] at he
      obtain ⟨t, ht⟩ := readWidths_cut hq hwidths hws hshort he
      exact ⟨t, Sub.bind_of_error ht⟩
    · rw [headerRest_checked hone hmost hbs hdvd]
      rw [List.length_append, List.length_singleton] at hle
      obtain ⟨t, ht⟩ := readWidths_wide hq hwidths hus hw (n := nmb) (by omega)
      exact ⟨t, Sub.bind_of_error ht⟩
    · subst hall
      rw [← inRange_iff, Bool.not_eq_true] at hrange
      rw [headerRest_checked hone hmost hbs hdvd, headerWidths, Sub.bind_of_ok (readWidths_holds hq hwidths hws), hrange]
      exact ⟨_, rfl⟩

end

end Sys2Proof.Machine

namespace Sys2Proof.Machine

/-! # The suffix record (R203) -/

section
variable {s : State} {a : Word} {n : Nat}

/-- A byte of a string that cannot be read ends the read (R11, R231); those before it, racing or not, have changed nothing. -/
theorem memReadBytes_unreadable (h : ∃ i < n, memOk s.params (a + BitVec.ofNat 64 i) .read = false) :
    memReadBytes a n s = .error .busError s := by
  induction n generalizing a with
  | zero => obtain ⟨i, hi, -⟩ := h; omega
  | succ n ih =>
    obtain ⟨i, hi, hbad⟩ := h
    unfold memReadBytes
    cases h0 : memOk s.params a .read with
    | false => exact Sub.bind_of_error (readByte_error_iff.2 ⟨h0, rfl, rfl⟩)
    | true =>
      obtain ⟨j, rfl⟩ : ∃ j, i = j + 1 := Nat.exists_eq_succ_of_ne_zero fun e => by
        rw [e, BitVec.add_zero, h0] at hbad; cases hbad
      rw [Sub.bind_of_ok (readByte_ok_iff.2 ⟨h0, rfl, rfl⟩)]
      refine Sub.bind_of_error (ih ⟨j, by omega, ?_⟩)
      rwa [Nat.add_comm, BitVec.ofNat_add, ← BitVec.add_assoc] at hbad

theorem memRead_unreadable (h : ∃ i < n, memOk s.params (a + BitVec.ofNat 64 i) .read = false) :
    memRead a n s = .error .busError s :=
  Sub.bind_of_error (memReadBytes_unreadable h)

/-- What R203 does once it has the length `m` of the suffix, `pos` being SUF_POS and `size` SUF_LEN: the second bound check, the suffix,
the cursor. -/
def suffixBytes (pos size : Nat) (base : Word) (m : Nat) : Sub (List Byte) := do
  raiseIf (decide (pos + 4 + m > size)) .eofError
  let suf ← memReadBytes (base + BitVec.ofNat 64 (pos + 4)) m
  update fun s => { s with bctx := { s.bctx with sufPos := BitVec.ofNat 64 (pos + 4 + m) } }
  pure suf

/-- The first bound check of a suffix record, and its length. -/
theorem suffixNext_run (s : State) : suffixNext s =
    if s.bctx.sufLen.toNat < s.bctx.sufPos.toNat + 4 then .error .eofError s
    else (memRead (s.bctx.sufBase + BitVec.ofNat 64 s.bctx.sufPos.toNat) 4 >>=
      suffixBytes s.bctx.sufPos.toNat s.bctx.sufLen.toNat s.bctx.sufBase) s := by
  unfold suffixNext
  simp only [look_bind, raiseIf_bind, decide_eq_true_eq]
  rfl

theorem suffixBytes_short {pos size m : Nat} (h : size < pos + 4 + m) (base : Word) :
    suffixBytes pos size base m s = .error .eofError s := by
  rw [suffixBytes, raiseIf_bind, if_pos (decide_eq_true h)]

/-- Where the suffix lies in the sub-stream, its bytes follow those of its length. -/
theorem suffixBytes_fits {pos size m : Nat} (h : pos + 4 + m ≤ size) (base : Word) :
    suffixBytes pos size base m s = (memReadBytes (base + BitVec.ofNat 64 pos + 4) m >>= fun suf =>
      update (fun s => { s with bctx := { s.bctx with sufPos := BitVec.ofNat 64 (pos + 4 + m) } }) >>= fun _ => pure suf) s := by
  have haddr : base + BitVec.ofNat 64 (pos + 4) = base + BitVec.ofNat 64 pos + 4 := by
    rw [BitVec.ofNat_add, ← BitVec.add_assoc]; rfl
  rw [suffixBytes, raiseIf_bind, if_neg (by simpa using h), haddr]

/-- Settles O48: the first check, the length, the second check, the suffix, each with what can go wrong. -/
theorem suffixRecord : Obligations.SuffixRecord := by
  rintro s pos len a rfl rfl rfl
  refine ⟨fun hshort => by rw [suffixNext_run, if_pos hshort], fun hlen => ?_⟩
  rw [suffixNext_run, if_neg (not_lt.2 hlen)]
  refine ⟨fun hbad => ⟨s, Sub.bind_of_error (memRead_unreadable hbad)⟩, fun ls h4 hls => ?_⟩
  rw [Sub.bind_of_ok (memRead_holds hls h4.symm)]
  refine ⟨fun hshort => suffixBytes_short hshort _, fun hfits => ?_⟩
  rw [suffixBytes_fits hfits]
  refine ⟨fun suf hm hsuf => ?_, fun hbad => ⟨s, Sub.bind_of_error (memReadBytes_unreadable hbad)⟩⟩
  rw [← hm, Sub.bind_of_ok (memReadBytes_holds hsuf)]
  rfl

end

end Sys2Proof.Machine

namespace Sys2Proof.Machine

/-! # A byte-array DECODE that completes (R200, R207, R208) -/

section
variable {s u : State} {cap : Word} {n : Nat} {vs : List (List Byte)}

/-- PREV is the last value found, and FIRST is 0 (R208). -/
theorem baValues_last {v : List Byte} (h : baValues cap n s = .ok vs u) (hv : vs.getLast? = some v) :
    u.bctx.prev = v ∧ u.bctx.first = false := by
  induction n generalizing s vs with
  | zero =>
    simp only [baValues, Sub.pure_run, EStateM.Result.ok.injEq] at h
    rw [← h.1] at hv
    cases hv
  | succ n ih =>
    unfold baValues at h
    obtain ⟨x, u1, -, h⟩ := Sub.bind_ok_iff.1 h
    simp only [update_bind, updatePrev] at h
    obtain ⟨xs, u2, h2, h⟩ := Sub.bind_ok_iff.1 h
    simp only [Sub.pure_run, EStateM.Result.ok.injEq] at h
    obtain ⟨rfl, rfl⟩ := h
    cases xs with
    | nil =>
      obtain rfl : n = 0 := (baValues_length h2).symm
      simp only [baValues, Sub.pure_run, EStateM.Result.ok.injEq] at h2
      rw [← h2.2]
      exact ⟨Option.some.inj hv, rfl⟩
    | cons y ys => exact ih h2 (by rwa [List.getLast?_cons_cons] at hv)

/-- The state in which a byte-array DECODE's loop begins: HEAP_USED is 0 (R200). -/
def State.heapCleared (s : State) : State := { s with bctx := { s.bctx with heapUsed := 0 } }

/-- A command that ends without error records that, and FAILED stays (R147, R232). -/
theorem State.finish_none (s : State) : s.finish .none = { s with errcode := .none, command := none } := by
  have hfailed : (s.failed || ErrKind.none.fatal) = s.failed := Bool.or_false _
  rw [State.finish, hfailed]

/-- The state after a byte-array DECODE whose loop ends in the contexts of `u`. -/
theorem decodeBA_completes {w : State} (hm : s.mode = .byteArray) (hf : s.failed = false) (hap : s.regionsApart)
    (hloop : decodeBALoop s.arg1 s.arg2 s.arg3 s.baCount 0 s.begin.heapCleared = .ok () w) (htwin : Twin u w) :
    exec .decode s = .next { s with
      ictx := u.ictx
      bctx := { u.bctx with baVrem := s.bctx.baVrem - BitVec.ofNat 64 s.baCount }
      mem := w.mem, writes := w.writes, draws := u.draws, result := BitVec.ofNat 64 s.baCount, errcode := .none,
      command := none } := by
  have hw : OnlyBADecode s.begin.heapCleared w := (decodeBALoop_leaves _ _ _ _ _ _).1 _ _ hloop
  have hbody := (decodeBody_ba (s := s.begin) hm).trans ((decodeBA_run s.begin).trans (Sub.bind_of_ok hloop))
  rw [decode_runs (by rw [hm]; decide) hf hap, complete_of_ok hbody, State.finish_none, ← htwin.ictx, ← htwin.bctx,
    ← htwin.draws]
  unfold OnlyBADecode at hw
  rw [hw]
  rfl

/-- The loop of a byte-array DECODE follows the values that are found (R200, R207): `decodeBALoop_follows` from slot 0 and an empty heap,
the regions being apart. -/
theorem decodeBALoop_completes (hm : s.mode = .byteArray) (hwf : s.mem.wf) (hap : s.regionsApart) (hbuf : BufferInvariant s)
    (hwd : s.writable s.descArray) (hwh : s.writable s.heapArea)
    (hvs : baValues s.arg3 s.baCount s.heapCleared = .ok vs u) :
    ∃ w, decodeBALoop s.arg1 s.arg2 s.arg3 s.baCount 0 s.begin.heapCleared = .ok () w ∧ Twin u w ∧
      (∀ k (h : k < vs.length), w.bytesAt (s.arg2 + BitVec.ofNat 64 (lengthsBefore vs k)) vs[k] ∧
        w.bytesAt (s.arg1 + BitVec.ofNat 64 (16 * k))
          (descriptorBytes (s.arg2 + BitVec.ofNat 64 (lengthsBefore vs k)) vs[k].length)) ∧
      ∀ a, s.descArray.contains a = false → Region.contains ⟨s.arg2, lengthsBefore vs vs.length⟩ a = false →
        w.mem.read a.toNat = s.mem.read a.toNat := by
  simp only [State.regionsApart, hm, List.pairwise_cons, List.forall_mem_cons] at hap
  obtain ⟨⟨hdescHeap, hdescBound, hdescWindow, -⟩, ⟨hheapBound, -⟩, -⟩ := hap
  have hstart : (⟨s.arg1 + BitVec.ofNat 64 (16 * 0), 16 * s.baCount⟩ : Region) = s.descArray := by simp [State.descArray]
  have hempty : s.heapCleared.bctx.heapUsed.toNat = 0 := rfl
  have hfit := (baValues_fit hvs (Nat.zero_le _)).2
  have hread (a : Word) (ha : s.heapCleared.readArea a) : s.bound.contains a = true := hbuf.readArea ha
  obtain ⟨w, hloop, htwin, -, -, hbytes, hframe⟩ := decodeBALoop_follows (s := s.begin.heapCleared) (k := 0) (desc := s.arg1)
    (heap := s.arg2) (s₀ := s.heapCleared) ⟨rfl, rfl, rfl, rfl, rfl, fun _ _ => rfl⟩ hwf
    (Region.apart_len hdescWindow (by simp [windowRegion])) (Nat.zero_le _) (by rw [hstart]; exact hwd)
    (fun a ha => hwh a (Region.contains_iff.2 ((Region.contains_iff.1 ha).trans_le hfit))) (by rw [hstart]; exact hdescHeap)
    (by rw [hstart]; exact fun a ha hra => hdescBound a ⟨ha, hread a hra⟩) (fun a ha hra => hheapBound a ⟨ha, hread a hra⟩) hvs
  simp only [hempty, hstart, Nat.zero_add, BitVec.add_zero] at hbytes hframe
  exact ⟨w, hloop, htwin, hbytes, hframe⟩

/-- Settles O50: the loop follows the values that are found, and the command ends as `decodeBA_completes` says. -/
theorem decodeByteArrayCompletes : Obligations.DecodeByteArrayCompletes := by
  intro s u vs hm hf hwf hap hbuf hwd hwh hvs
  change baValues s.arg3 s.baCount s.heapCleared = .ok vs u at hvs
  obtain ⟨w, hloop, htwin, hbytes, hframe⟩ := decodeBALoop_completes hm hwf hap hbuf hwd hwh hvs
  have hused : u.bctx.heapUsed.toNat = lengthsBefore vs vs.length :=
    (baValues_fit hvs (Nat.zero_le _)).1.trans (Nat.zero_add _)
  refine ⟨baValues_length hvs, _, decodeBA_completes hm hf hap hloop htwin, rfl, ?_, fun v hv => (baValues_last hvs hv :), hbytes,
    hframe⟩
  rw [← hused, word_ofNat_toNat]

end

end Sys2Proof.Machine

namespace Sys2Proof.Machine

/-! # A byte and no bits: `AlignedByte()` and `ReadBits(0)` (R122, R123, R163) -/

section
variable {s u : State} {esize raw : Nat}

/-! ## The byte that `AlignedByte()` takes (R123) -/

/-- One byte is held where it is readable and the host has not overwritten it. -/
theorem State.holds_read {a : Word} (hok : memOk s.params a .read = true) (hst : staleAt s a = []) :
    s.holds a [s.mem.read a.toNat] := by
  intro i hi
  obtain rfl : i = 0 := by simpa using hi
  simpa using And.intro hok hst

/-- A byte inside the buffer that cannot be read (R231). -/
theorem alignedByte_unreadable (hlt : s.nextByte < s.ictx.bufLen.toNat)
    (hbad : memOk s.params (s.ictx.bufBase + BitVec.ofNat 64 s.nextByte) .read = false) :
    alignedByte s = .error .busError s := by
  have h := alignedByte_cut (n := s.ictx.bitpos.toNat) (e := .busError) rfl
    (by rw [s.seek_self]; exact .inr ⟨hlt, hbad, rfl⟩)
  rwa [s.seek_self] at h

/-- Settles O31: the bound check of `alignedByte_run`; then the byte is unreadable, or the buffer holds it. -/
theorem alignedByte_spec : Obligations.AlignedByte := by
  rintro s p rfl
  change (8 * s.ictx.bufLen.toNat < 8 * s.nextByte + 8 → _) ∧ (8 * s.nextByte + 8 ≤ 8 * s.ictx.bufLen.toNat → _)
  refine ⟨fun hend => by rw [alignedByte_run, if_pos (by omega)], fun hin a ha => ?_⟩
  obtain rfl : a = s.ictx.bufBase + BitVec.ofNat 64 s.nextByte := by
    rw [ha, Nat.mul_div_cancel_left _ (by omega)]
    rfl
  exact ⟨alignedByte_unreadable (by omega), fun hok hst hfit =>
    alignedByte_holds rfl ⟨State.holds_read hok hst, Nat.le_of_mul_le_mul_left hin (by omega), hfit⟩⟩

/-! ## No bits (R122) -/

/-- With no bit to read the bound check holds and the cursor stays. -/
theorem readBits_zero (hcur : s.ictx.bitpos.toNat ≤ 8 * s.ictx.bufLen.toNat) : readBits 0 s = .ok 0 s := by
  rw [readBits_run, if_neg (by omega)]
  show (setBitpos s.ictx.bitpos.toNat >>= fun _ => pure 0) s = .ok 0 s
  rw [Sub.bind_of_ok (setBitpos_fits s.ictx.bitpos.isLt s), s.seek_self]
  rfl

/-- A delta read whose raw value is read and whose running value is in range (R163 to R165). -/
theorem nextDelta_of_readBits (hraw : readBits s.ictx.bitw.toNat s = .ok raw u)
    (hrange : inRange (u.ictx.sum raw) esize = true) :
    nextDelta esize s = .ok (u.ictx.sum raw)
      { u with ictx := { u.ictx with last := BitVec.ofInt 64 (u.ictx.sum raw), vcmb := u.ictx.vcmb - 1 } } := by
  unfold nextDelta
  rw [look_bind, Sub.bind_of_ok hraw, look_bind, hrange]
  rfl

/-- Settles O30: `readBits_zero`, and the delta of the raw value 0. -/
theorem readBitsOfWidthZero : Obligations.ReadBitsOfWidthZero := by
  refine ⟨fun s => readBits_zero, fun esize s v _ hwidth hcur hv hlow hhigh => ?_⟩
  obtain rfl : v = s.ictx.sum 0 := by simpa [IntContext.sum] using hv
  refine nextDelta_of_readBits ?_ (decide_eq_true ⟨hlow, hhigh⟩)
  rw [hwidth]
  exact readBits_zero hcur

end

end Sys2Proof.Machine

namespace Sys2Proof.Machine

/-! # SETDATA's other answers, and the error kinds of every command (R140, R143 to R147, R230) -/

section
variable {s t : State}

/-! ## The errors of SETDATA in BYTE_ARRAY mode (R145, R234) -/

/-- The state from which `SetDataBA` reads the length, and which it leaves where it raises: both contexts and BA_EMPTY cleared
(R145). -/
def State.cleared (s : State) : State := { (s.clearInt 0 0 0).clearBA with baEmpty := false }

/-- A buffer too short to hold the length. -/
theorem setDataBA_short {len : Word} (hpos : 0 < len.toNat) (hlen : len.toNat < 4) (count base : Word) (s : State) :
    setDataBA count base len s = .error .eofError s.cleared := by
  unfold setDataBA
  rw [update_bind, if_neg (by omega), raiseIf_bind, if_pos (by simpa using hlen)]
  rfl

/-- A length that cannot be read. -/
theorem setDataBA_unreadable {base len : Word} (hlen : 4 ≤ len.toNat)
    (hbad : ∃ i < 4, memOk s.params (base + BitVec.ofNat 64 i) .read = false) (count : Word) :
    setDataBA count base len s = .error .busError s.cleared := by
  unfold setDataBA
  rw [update_bind, if_neg (by omega), raiseIf_bind, if_neg (by simpa using hlen)]
  exact Sub.bind_of_error (memRead_unreadable (s := s.cleared) hbad)

/-- A length beyond the buffer. -/
theorem setDataBA_beyond {base len : Word} {bs : List Byte} (hlen : 4 ≤ len.toNat) (h4 : bs.length = 4) (hbs : s.holds base bs)
    (hl : len.toNat - 4 < leValue bs) (count : Word) :
    setDataBA count base len s = .error .eofError s.cleared := by
  have hread : memRead base 4 s.cleared = .ok (leValue bs) _ := memRead_holds (s := s.cleared) hbs h4.symm
  unfold setDataBA
  rw [update_bind, if_neg (by omega), raiseIf_bind, if_neg (by simpa using hlen)]
  exact (Sub.bind_of_ok hread).trans (by rw [raiseIf_bind, if_pos (by simpa using hl)])

/-- A SETDATA in BYTE_ARRAY mode whose body raises a fatal kind (R145, R147). -/
theorem exec_setdata_error {e : ErrKind} (hm : s.mode = .byteArray) (ha : s.bufferAllowed) (he : e.fatal = true)
    (herr : setDataBA s.arg0 s.arg1 s.arg2 s.rebound = .error e s.rebound.cleared) :
    exec .setdata s = .next { s with
      ictx := IntContext.zero s.params, bctx := ByteArrayContext.zero, baEmpty := false, failed := true,
      bound := ⟨s.arg1, s.arg2.toNat⟩, errcode := e, result := 0, command := none } := by
  rw [setdata_runs (by rw [hm]; decide) ha, complete_of_error ((setdataBody_ba hm).trans herr), State.finish, he, Bool.or_true]
  rfl

/-- Settles O21: the three ways in which `setDataBA` raises, each recorded as `exec_setdata_error` says. -/
theorem setdataByteArrayErrors : Obligations.SetdataByteArrayErrors := by
  rintro s hm ha e (⟨⟨hpos, hlen⟩, rfl⟩ | ⟨hlen, hbad, rfl⟩ | ⟨hlen, rfl, bs, h4, hbs, hl⟩)
  · exact exec_setdata_error hm ha rfl (setDataBA_short hpos hlen _ _ _)
  · exact exec_setdata_error hm ha rfl (setDataBA_unreadable (s := s.rebound) hlen hbad _)
  · exact exec_setdata_error hm ha rfl (setDataBA_beyond (s := s.rebound) hlen h4 hbs hl _)

/-! ## SETDATA in the integer modes, and STATE_ERROR (R140, R144, R146) -/

/-- Settles O19: SETDATA runs its body, which is `clearInt` in the integer modes. -/
theorem setdataInt : Obligations.SetdataInt := by
  intro s hm ha
  have hmode : s.mode ≠ .none := by rcases hm with h | h <;> rw [h] <;> decide
  rw [setdata_runs hmode ha, complete_of_ok (setdataBody_int hm)]
  rfl

/-- STATE_ERROR is not fatal: FAILED stays (R232). -/
theorem State.begin_finish_stateError (s : State) :
    s.begin.finish .stateError = { s with result := 0, errcode := .stateError, command := none } := by
  have hfailed : (s.begin.failed || ErrKind.stateError.fatal) = s.failed := Bool.or_false _
  rw [State.finish, hfailed]
  rfl

/-- Settles O22: mode NONE is the first guard of both commands, FAILED the second of DECODE. -/
theorem stateErrors : Obligations.StateErrors := by
  intro i s h
  rw [← s.begin_finish_stateError]
  rcases h with ⟨rfl | rfl, hm⟩ | ⟨rfl, hf⟩
  · rcases exec_setdata_cases s with ⟨-, e⟩ | ⟨hne, -⟩ | ⟨hne, -⟩ | ⟨hne, -⟩
    · exact e
    all_goals exact absurd hm hne
  · rw [exec_decode_eq, if_pos (.inl hm)]
  · rw [exec_decode_eq, if_pos (.inr hf)]

/-! ## Which kinds each command ends with (R230, R232) -/

/-- What SETDATA's body raises (R145). -/
def SetdataKind (e : ErrKind) : Prop := e = .eofError ∨ e = .busError

theorem setDataBA_raises_setdataKind (count base len : Word) : Sub.Raises SetdataKind (setDataBA count base len) := by
  refine .bind (.update _) fun _ => ?_
  split_ifs
  · exact .update _
  · exact .bind (.raiseIf (.inl rfl)) fun _ => .bind (fun _ _ _ h => .inr (memRead_error h)) fun _ =>
      .bind (.raiseIf (.inl rfl)) fun _ => .bind (.update _) fun _ => .update _

/-- How SETDATA's body ends: without error, or with one of its kinds, from a state in which it has cleared FAILED (R143). -/
theorem complete_setdataBody (hm : s.mode ≠ .none) :
    ∃ (e : ErrKind) (u : State), (e = .none ∨ SetdataKind e) ∧ u.failed = false ∧ complete setdataBody s = u.finish e := by
  have hint (h : s.mode = .int32 ∨ s.mode = .int64) := complete_of_ok (setdataBody_int h)
  cases hmode : s.mode with
  | none => exact absurd hmode hm
  | int32 => exact ⟨_, _, .inl rfl, rfl, hint (.inl hmode)⟩
  | int64 => exact ⟨_, _, .inl rfl, rfl, hint (.inr hmode)⟩
  | byteArray =>
    have hrun := setdataBody_ba hmode
    rcases setDataBA_cases s.arg0 s.arg1 s.arg2 s.rebound with ⟨-, h⟩ | ⟨e, -, h⟩ | ⟨l, -, h⟩
    · exact ⟨_, _, .inl rfl, rfl, complete_of_ok (hrun.trans h)⟩
    · exact ⟨e, _, .inr (setDataBA_raises_setdataKind _ _ _ _ _ _ h), rfl, complete_of_error (hrun.trans h)⟩
    · exact ⟨_, _, .inl rfl, rfl, complete_of_ok (hrun.trans h)⟩

theorem OnlyDecode.failed (h : OnlyDecode s t) : t.failed = s.failed := by unfold OnlyDecode at h; rw [h]

/-- How DECODE's body ends: without error, or with a fatal kind, FAILED being as it was. -/
theorem complete_decodeBody (s : State) :
    ∃ (e : ErrKind) (u : State), (e = .none ∨ SlotKind e) ∧ u.failed = s.failed ∧ complete decodeBody s = u.finish e := by
  rcases complete_cases decodeBody s with ⟨u, hu, h⟩ | ⟨e, u, hu, h⟩
  · exact ⟨_, u, .inl rfl, ((decodeBody_onlyDecode _).1 _ _ hu).failed, h⟩
  · exact ⟨e, u, .inr (decodeBody_raises _ _ _ hu), ((decodeBody_onlyDecode _).2 _ _ hu).failed, h⟩

theorem exec_config_kinds {ty : Byte} (h : exec (.config ty) s = .next t) :
    (t.errcode = .none ∨ t.errcode = .typeError) ∧ t.failed = false := by
  obtain ⟨m, e, rfl, rfl | ⟨rfl, -⟩⟩ := exec_config_next h
  · exact ⟨.inl rfl, rfl⟩
  · exact ⟨.inr rfl, rfl⟩

theorem exec_setdata_kinds (h : exec .setdata s = .next t) :
    (t.errcode = .stateError ∧ s.mode = .none ∧ t.failed = s.failed) ∨ (t.errcode = .none ∧ t.failed = false) ∨
      (SetdataKind t.errcode ∧ t.failed = true) := by
  rcases exec_setdata_next h with ⟨hm, rfl⟩ | ⟨hm, rfl⟩
  · exact .inl ⟨rfl, hm, Bool.or_false _⟩
  · obtain ⟨e, u, rfl | he, hu, hend⟩ := complete_setdataBody hm <;> rw [hend, State.finish_failed, hu]
    · exact .inr (.inl ⟨rfl, rfl⟩)
    · exact .inr (.inr ⟨he, by rcases he with rfl | rfl <;> rfl⟩)

theorem exec_decode_kinds (h : exec .decode s = .next t) :
    (t.errcode = .stateError ∧ (s.mode = .none ∨ s.failed = true)) ∨
    (¬ (s.mode = .none ∨ s.failed = true) ∧
      ((t.errcode = .none ∧ t.failed = false) ∨ (SlotKind t.errcode ∧ t.failed = true))) := by
  rcases exec_decode_next h with ⟨hguard, rfl⟩ | ⟨hm, hf, rfl⟩
  · exact .inl ⟨rfl, hguard⟩
  · refine .inr ⟨by simp [hm, hf], ?_⟩
    obtain ⟨e, u, rfl | he, hu, hend⟩ := complete_decodeBody s <;> rw [hend, State.finish_failed, hu, hf]
    · exact .inl ⟨rfl, rfl⟩
    · exact .inr ⟨he, (slotKind_fatal he).2.2.2⟩

/-- Settles O25: `exec_config_kinds`, `exec_setdata_kinds` and `exec_decode_kinds`. -/
theorem errorKindsOfEachCommand : Obligations.ErrorKindsOfEachCommand := by
  refine fun s t => ⟨fun ty h => exec_config_kinds h, fun h => ?_, fun h => ?_⟩
  · rcases exec_setdata_kinds h with ⟨he, hm, hf⟩ | ⟨he, hf⟩ | ⟨he | he, hf⟩ <;> simp [*]
  · rcases exec_decode_kinds h with ⟨he, hguard⟩ | ⟨hguard, ⟨he, hf⟩ | ⟨(he | he | he) | he | he, hf⟩⟩ <;> simp [*]

end

end Sys2Proof.Machine

namespace Sys2Proof.Machine

/-! # One slot of the integer context (R161, R163 to R165) -/

section
variable {s u : State} {esize raw : Nat} {e : ErrKind}

/-! ## A delta (R163 to R165) -/

theorem readBits_settled {w : Nat} (hin : s.ictx.bitpos.toNat + w ≤ 8 * s.ictx.bufLen.toNat)
    (hfit : s.ictx.bitpos.toNat + w < 2 ^ 64)
    (hbits : ∀ q, s.ictx.bitpos.toNat ≤ q → q < s.ictx.bitpos.toNat + w →
      memOk s.params (s.bitAddr q) .read = true ∧ staleAt s (s.bitAddr q) = []) :
    readBits w s = .ok (s.rawAt s.ictx.bitpos.toNat w) (s.seek (s.ictx.bitpos.toNat + w)) :=
  (((readBits_spec s w).2 hin hfit).1 hbits).1

/-- An error of the raw value is the error of the delta. -/
theorem nextDelta_of_error (hraw : readBits s.ictx.bitw.toNat s = .error e u) : nextDelta esize s = .error e u := by
  unfold nextDelta
  rw [look_bind, Sub.bind_of_error hraw]

/-- A running value out of range raises with the cursor moved and nothing else changed (R165). -/
theorem nextDelta_overflows (hraw : readBits s.ictx.bitw.toNat s = .ok raw u)
    (hrange : inRange (u.ictx.sum raw) esize = false) : nextDelta esize s = .error .overflowError u := by
  unfold nextDelta
  rw [look_bind, Sub.bind_of_ok hraw, look_bind, hrange]
  rfl

/-- Settles O35: the raw value by `readBits_run`, then the range of the sum. -/
theorem deltaRead : Obligations.DeltaRead := by
  rintro esize s w v - rfl
  refine ⟨fun hend => nextDelta_of_error (by rw [readBits_run, if_pos hend]), fun hin hfit hbits hv => ?_, fun hin hbad => ?_⟩
  · have hraw := readBits_settled hin hfit hbits
    rw [← inRange_iff]
    refine ⟨fun hrange => ?_, fun hrange => ⟨_, nextDelta_overflows hraw ?_, rfl, rfl⟩⟩
    · subst hv
      exact nextDelta_of_readBits hraw hrange
    · rw [Bool.not_eq_true, hv] at hrange
      exact hrange
  · refine nextDelta_of_error ?_
    rw [readBits_run, if_neg (by omega)]
    exact Sub.bind_of_error (bitsFrom_unreadable hbad)

/-! ## Which way a slot goes (R161) -/

theorem toNat_add_one {x : Word} (h : x.toNat + 1 < 2 ^ 64) : (x + 1).toNat = x.toNat + 1 := BitVec.toNat_add_of_lt h

/-- The state in which the next mini-block is entered (R161). -/
def State.enterNext (s : State) : State := { s with ictx := { s.ictx with
  mbidx := s.ictx.mbidx + 1
  bitw := (s.ictx.width.getD (s.ictx.mbidx.toNat + 1) 0).setWidth 7
  vcmb := s.ictx.vpmb } }

theorem ideNext_inside (h : s.ictx.vcmb ≠ 0) : ideNext esize s = nextDelta esize s := by
  rw [ideNext_cases, if_pos h]

/-- The context that `IdeNext` loads on entry, with the index of the width as a number. -/
theorem enter_eq_enterNext (hfit : s.ictx.mbidx.toNat + 1 < 2 ^ 64) :
    { s with ictx := { s.ictx with mbidx := s.ictx.mbidx + 1 }.enter } = s.enterNext := by
  unfold IntContext.enter State.enterNext
  simp only [toNat_add_one hfit]
  rfl

theorem ideNext_enters (hend : s.ictx.vcmb = 0) (hmore : s.ictx.mbidx.toNat + 1 < s.ictx.nmb.toNat) :
    ideNext esize s = nextDelta esize s.enterNext := by
  have hfit : s.ictx.mbidx.toNat + 1 < 2 ^ 64 := hmore.trans s.ictx.nmb.isLt
  rw [ideNext_cases, if_neg (not_not.2 hend), if_pos (by rwa [toNat_add_one hfit]), enter_eq_enterNext hfit]

theorem ideNext_parses (hend : s.ictx.vcmb = 0) (hfit : s.ictx.mbidx.toNat + 1 < 2 ^ 64)
    (hlast : s.ictx.nmb.toNat ≤ s.ictx.mbidx.toNat + 1) :
    ideNext esize s = parseHeader esize { s with ictx := { s.ictx with mbidx := s.ictx.mbidx + 1 } } := by
  rw [ideNext_cases, if_neg (not_not.2 hend), if_neg (by rw [toNat_add_one hfit]; omega)]

/-- Settles O36: the branches of `ideNext_cases`. -/
theorem slotGoesOneOfThreeWays : Obligations.SlotGoesOneOfThreeWays := fun _ _ =>
  ⟨ideNext_inside, ideNext_enters, ideNext_parses⟩

end

end Sys2Proof.Machine

namespace Sys2Proof.Machine

/-! # Integer DECODE as a command (R160, R166, R233, R236) -/

section
variable {s t u w : State} {n k : Nat} {vs : List Int}

/-! ## No values (R160, R200) -/

theorem intCount_eq_zero (h : s.arg0 = 0 ∨ s.ictx.vrem = 0) : s.intCount = 0 := by
  unfold State.intCount State.opMax
  rcases h with h | h <;> rw [h]
  · exact Nat.zero_min _
  · exact Nat.min_zero _

theorem baCount_eq_zero (h : s.arg0 = 0 ∨ s.bctx.baVrem = 0) : s.baCount = 0 := by
  unfold State.baCount State.opMax
  rcases h with h | h <;> rw [h]
  · exact Nat.zero_min _
  · exact Nat.min_zero _

theorem int_mode_ne_none (hm : s.mode = .int32 ∨ s.mode = .int64) : s.mode ≠ .none := by
  rcases hm with h | h <;> rw [h] <;> decide

theorem OnlyIntDecode.stale (h : OnlyIntDecode s t) : t.stale = s.stale := by unfold OnlyIntDecode at h; rw [h]

/-! ## How the command ends, by how its loop ends -/

/-- The state after an integer DECODE that goes through: the context of `u`, which reading the values leaves, and the memory of `w`,
which writing them leaves (R147, R160). -/
def State.afterDecode (s u w : State) : State := { s with
  ictx := { u.ictx with vrem := s.ictx.vrem - BitVec.ofNat 64 s.intCount }
  mem := w.mem, writes := w.writes, draws := u.draws, result := BitVec.ofNat 64 s.intCount, errcode := .none, command := none }

theorem decodeInt_completes (hm : s.mode = .int32 ∨ s.mode = .int64) (hf : s.failed = false) (hap : s.regionsApart)
    (hloop : decodeIntLoop s.mode.esize s.arg1 s.intCount 0 s.begin = .ok () w) (htwin : Twin u w) :
    exec .decode s = .next (s.afterDecode u w) := by
  have hw : OnlyIntDecode s.begin w := (decodeIntLoop_leaves _ _ _ _ _).1 _ _ hloop
  have hbody := (decodeBody_int (s := s.begin) hm).trans ((decodeInt_run s.begin).trans (Sub.bind_of_ok hloop))
  rw [decode_runs (int_mode_ne_none hm) hf hap, complete_of_ok hbody, State.finish_none, State.afterDecode, ← htwin.ictx,
    ← htwin.draws]
  unfold OnlyIntDecode at hw
  rw [hw]
  rfl

theorem decodeInt_fails {e : ErrKind} (hm : s.mode = .int32 ∨ s.mode = .int64) (hf : s.failed = false) (hap : s.regionsApart)
    (hloop : decodeIntLoop s.mode.esize s.arg1 s.intCount 0 s.begin = .error e w) :
    exec .decode s = .next (w.finish e) := by
  have hbody := (decodeBody_int (s := s.begin) hm).trans ((decodeInt_run s.begin).trans (Sub.bind_of_error hloop))
  rw [decode_runs (int_mode_ne_none hm) hf hap, complete_of_error hbody]

/-- Settles O28: the loop over no slots. -/
theorem decodeOfNoValues : Obligations.DecodeOfNoValues := by
  refine fun s hf hap => ⟨fun hm hnone => ?_, fun hm hnone => ?_⟩
  · have hcount := intCount_eq_zero hnone
    rw [decodeInt_completes hm hf hap (by rw [hcount]; rfl) (Twin.refl s.begin), State.afterDecode, hcount, BitVec.sub_zero]
    rfl
  · have hcount := baCount_eq_zero hnone
    rw [decodeBA_completes hm hf hap (by rw [hcount]; rfl) (Twin.refl s.begin.heapCleared), hcount, BitVec.sub_zero]
    rfl

/-! ## The frame (R160, R236) -/

/-- Settles O44: RESULT and the slots written, by `decodeIntLoop_ends`. -/
theorem decodeIntFrame : Obligations.DecodeIntFrame := by
  intro s t hm h
  have hlt := intCount_lt s
  have hstart : s.arg1 + BitVec.ofNat 64 (s.mode.esize * 0) = s.arg1 := BitVec.add_zero _
  refine ⟨decode_int_bctx hm h, ?_⟩
  rcases decode_int_cases hm h with ⟨-, rfl⟩ | ⟨-, -, u, hu, rfl⟩ | ⟨-, -, e, u, -, hu, rfl⟩
  · exact ⟨rfl, fun _ _ => rfl⟩
  · have hleaves := (decodeIntLoop_leaves _ _ _ _ s.begin).1 _ _ hu
    obtain ⟨-, hwritten⟩ := (decodeIntLoop_ends _ _ _ _ s.begin).1 u hu
    refine ⟨hleaves.stale, fun a ha => hwritten a ?_⟩
    change Region.contains ⟨s.arg1, s.mode.esize * ((BitVec.ofNat 64 s.intCount).toNat + 0)⟩ a = false at ha
    rw [toNat_ofNat_word hlt] at ha
    rw [hstart]
    exact Bool.eq_false_iff.1 ha
  · have hleaves := (decodeIntLoop_leaves _ _ _ _ s.begin).2 _ _ hu
    obtain ⟨j, hj, hresult, hwritten⟩ := (decodeIntLoop_ends _ _ _ _ s.begin).2 e u hu
    refine ⟨hleaves.stale, fun a ha => hwritten a ?_⟩
    have hr : u.result.toNat = j := by
      rw [hresult]
      split_ifs with h0
      · exact h0.symm
      · rw [Nat.zero_add, toNat_ofNat_word (hj.trans hlt)]
    change Region.contains ⟨s.arg1, s.mode.esize * (u.result.toNat + if e = .busError then 1 else 0)⟩ a = false at ha
    rw [hr] at ha
    rw [hstart]
    exact Bool.eq_false_iff.1 ha

/-! ## A DECODE that starts at a mini-block's end (R161, R177) -/

theorem Sub.bind_of_eq {α β : Type} {x : Sub α} {f : α → Sub β} (h : x t = x s) : (x >>= f) t = (x >>= f) s := by
  rw [Sub.bind_run, Sub.bind_run, h]

/-- What the next mini-block's entry changes is looked at by the first slot only (R161). -/
theorem ideNext_enterNext {esize : Nat} (hend : s.ictx.vcmb = 0) (hmore : s.ictx.mbidx.toNat + 1 < s.ictx.nmb.toNat)
    (hvalues : s.ictx.vpmb ≠ 0) : ideNext esize s.enterNext = ideNext esize s := by
  rw [ideNext_enters hend hmore, ideNext_inside (s := s.enterNext) hvalues]

theorem decodeIntLoop_of_ideNext {esize : Nat} {out : Word} (h : ideNext esize t = ideNext esize s) (n k : Nat) :
    decodeIntLoop esize out (n + 1) k t = decodeIntLoop esize out (n + 1) k s := by
  rw [decodeIntLoop_succ, decodeIntLoop_succ, Sub.bind_run, Sub.bind_run, h]

/-- Past the guards of STATE_ERROR only the regions decide whether DECODE runs (R73, R146). -/
theorem exec_decode_guarded (hm : s.mode ≠ .none) (hf : s.failed = false) : exec .decode s =
    if anyOverlap s.decodeRegions then .refused .regionsOverlap else .next (complete decodeBody s) := by
  rw [exec_decode_eq, if_neg (by simp [hm, hf])]

/-- Settles O39: the guards do not look at the context, and the first slot goes alike. -/
theorem decodeEntersTheNextMiniBlock : Obligations.DecodeEntersTheNextMiniBlock := by
  intro s hm hmax hleft hend hmore hvalues hf
  obtain ⟨n, hn⟩ : ∃ n, s.intCount = n + 1 := by
    have hmax : s.arg0.toNat ≠ 0 := fun h => hmax (BitVec.eq_of_toNat_eq h)
    have hleft : s.ictx.vrem.toNat ≠ 0 := fun h => hleft (BitVec.eq_of_toNat_eq h)
    exact Nat.exists_eq_succ_of_ne_zero (by unfold State.intCount State.opMax; omega)
  have hloop : decodeIntLoop s.mode.esize s.arg1 s.intCount 0 s.begin.enterNext =
      decodeIntLoop s.mode.esize s.arg1 s.intCount 0 s.begin := by
    rw [hn]
    exact decodeIntLoop_of_ideNext (ideNext_enterNext (s := s.begin) hend hmore hvalues) n 0
  have hbody : decodeBody s.enterNext.begin = decodeBody s.begin := by
    rw [decodeBody_int (s := s.enterNext.begin) hm, decodeBody_int (s := s.begin) hm]
    exact ((decodeInt_run s.enterNext.begin).trans (Sub.bind_of_eq hloop)).trans (decodeInt_run s.begin).symm
  show exec .decode s = exec .decode s.enterNext
  have hmode := int_mode_ne_none hm
  rw [exec_decode_guarded hmode hf, exec_decode_guarded (s := s.enterNext) hmode hf, complete, complete, hbody]
  rfl

end

end Sys2Proof.Machine

namespace Sys2Proof.Machine

/-! # The values of an integer DECODE and the slots that it writes (R160, R166, R233) -/

section
variable {s t u w : State} {esize n k : Nat} {out : Word} {v : Int} {vs : List Int}

/-! ## The output array -/

/-- The bytes of an output element (R9, R166). -/
def element (esize : Nat) (v : Int) : List Byte := leBytes esize (trunc (8 * esize) v)

/-- Slot `k` of the array at `out` holds value `k`, for each value of the list (R166). -/
def State.slotsHold (t : State) (esize : Nat) (out : Word) (vs : List Int) : Prop :=
  ∀ k (h : k < vs.length), t.bytesAt (out + BitVec.ofNat 64 (esize * k)) (element esize vs[k])

theorem esize_cases (hm : s.mode = .int32 ∨ s.mode = .int64) : s.mode.esize = 4 ∨ s.mode.esize = 8 := by
  rcases hm with h | h <;> rw [h] <;> simp [Mode.esize]

/-- The output array of an integer DECODE is apart from the bound buffer and fits the address space (R73). -/
theorem outArray_apart (hm : s.mode = .int32 ∨ s.mode = .int64) (hap : s.regionsApart) :
    s.outArray.apart s.bound ∧ s.outArray.len ≤ 2 ^ 64 := by
  have hpair : [s.outArray, s.bound, windowRegion s.params].Pairwise Region.apart := by
    rcases hm with h | h <;> simpa only [State.regionsApart, h] using hap
  simp only [List.pairwise_cons, List.forall_mem_cons] at hpair
  obtain ⟨⟨hbound, hwindow, -⟩, -⟩ := hpair
  exact ⟨hbound, Region.apart_len hwindow (by simp [windowRegion])⟩

theorem Region.contains_longer {b a : Word} {m n : Nat} (h : m ≤ n) (ha : Region.contains ⟨b, m⟩ a = true) :
    Region.contains ⟨b, n⟩ a = true :=
  Region.contains_iff.2 ((Region.contains_iff.1 ha).trans_le h)

/-- No slot reads what the output array holds (R73, R128). -/
theorem not_readArea_of_outArray (hm : s.mode = .int32 ∨ s.mode = .int64) (hap : s.regionsApart) (hbuf : BufferInvariant s)
    {a : Word} (ha : s.outArray.contains a = true) : ¬ s.readArea a := fun hra =>
  (outArray_apart hm hap).1 a ⟨ha, hbuf.readArea hra⟩

/-- The first `n` slots of an integer DECODE, where their values can be read and they can be written: `decodeIntLoop_follows` from slot
0, the output array being apart from the buffer. -/
theorem decodeIntLoop_slots (hm : s.mode = .int32 ∨ s.mode = .int64) (hwf : s.mem.wf) (hap : s.regionsApart)
    (hbuf : BufferInvariant s) (hn : n ≤ s.intCount) (hw : s.writable ⟨s.arg1, s.mode.esize * n⟩)
    (hvs : intValues s.mode.esize n s = .ok vs u) :
    ∃ w, decodeIntLoop s.mode.esize s.arg1 n 0 s.begin = .ok () w ∧ Twin u w ∧ w.mem.wf ∧ w.result = BitVec.ofNat 64 n ∧
      w.slotsHold s.mode.esize s.arg1 vs ∧
      ∀ a, Region.contains ⟨s.arg1, s.mode.esize * n⟩ a = false → w.mem.read a.toNat = s.mem.read a.toNat := by
  have hle : s.mode.esize * n ≤ s.mode.esize * s.intCount := Nat.mul_le_mul_left _ hn
  have hstart : (⟨s.arg1 + BitVec.ofNat 64 (s.mode.esize * 0), s.mode.esize * n⟩ : Region) = ⟨s.arg1, s.mode.esize * n⟩ := by simp
  obtain ⟨w, hloop, htwin, hwfw, hresult, hbytes, hframe⟩ := decodeIntLoop_follows (s := s.begin) (k := 0) (out := s.arg1)
    (s₀ := s) ⟨rfl, rfl, rfl, rfl, rfl, fun _ _ => rfl⟩ hwf (hle.trans (outArray_apart hm hap).2) (by rw [hstart]; exact hw)
    (by rw [hstart]; exact fun a ha => not_readArea_of_outArray hm hap hbuf (Region.contains_longer hle ha)) hvs
  simp only [hstart, Nat.zero_add] at hresult hbytes hframe
  refine ⟨w, hloop, htwin, hwfw, ?_, hbytes, hframe⟩
  rw [hresult]
  split_ifs with h0
  · rw [h0]; rfl
  · rfl

/-- An integer DECODE whose values can be read and whose array can be written. -/
theorem decodeInt_follows (hm : s.mode = .int32 ∨ s.mode = .int64) (hf : s.failed = false) (hwf : s.mem.wf)
    (hap : s.regionsApart) (hbuf : BufferInvariant s) (hw : s.writable s.outArray)
    (hvs : intValues s.mode.esize s.intCount s = .ok vs u) :
    ∃ t, exec .decode s = .next t ∧ t = s.afterDecode u t ∧ t.slotsHold s.mode.esize s.arg1 vs ∧
      ∀ a, s.outArray.contains a = false → t.mem.read a.toNat = s.mem.read a.toNat := by
  obtain ⟨w, hloop, htwin, -, -, hbytes, hframe⟩ := decodeIntLoop_slots hm hwf hap hbuf le_rfl hw hvs
  exact ⟨s.afterDecode u w, decodeInt_completes hm hf hap hloop htwin, rfl, hbytes, hframe⟩

/-- Settles O42: `intValues_length` and `decodeInt_follows`. -/
theorem decodeIntCompletes : Obligations.DecodeIntCompletes := fun _ _ _ hm hf hwf hap hbuf hw hvs =>
  ⟨intValues_length hvs, decodeInt_follows hm hf hwf hap hbuf hw hvs⟩

/-! ## A first value (R162, R167) -/

theorem intValues_one (h : ideNext esize s = .ok v u) : intValues esize 1 s = .ok [v] u := by
  unfold intValues
  rw [Sub.bind_of_ok h]
  rfl

/-- Settles O40: `headerRead` gives the one value, and the context. -/
theorem decodeOfAFirstValue : Obligations.DecodeOfAFirstValue := by
  intro s bytes ws bs nmb vcb fv md p hm hf hwf hap hbuf hw hone hend hfit hlast hh hp hbytes hlen hfits hws hnmb hmost hbs hdvd
    hwidths hlow hhigh
  have hslot := (ideNext_parses hend hfit hlast).trans (headerRead s.mode.esize
    { s with ictx := { s.ictx with mbidx := s.ictx.mbidx + 1 } } bytes ws bs nmb vcb fv md p (esize_cases hm) hh hp hbytes hlen
    hfits hws hnmb hmost hbs hdvd hwidths hlow hhigh)
  obtain ⟨t, hrun, ht, hslots, hframe⟩ := decodeInt_follows hm hf hwf hap hbuf hw (by rw [hone]; exact intValues_one hslot)
  refine ⟨t, hrun, ?_, ?_, hframe⟩
  · rw [State.afterDecode, hone] at ht
    exact ht
  · have h0 := hslots 0 Nat.one_pos
    rwa [Nat.mul_zero, BitVec.add_zero] at h0

/-! ## Values inside a mini-block (R163, R164, R167) -/

/-- LAST replaced by a running value. -/
def State.withLast (v : Int) (s : State) : State := { s with ictx := { s.ictx with last := BitVec.ofInt 64 v } }

/-- The cursor and VCMB as `k` deltas of the current mini-block leave them. -/
def State.deltaAt (k : Nat) (s : State) : State := { s with ictx := { s.ictx with
  bitpos := BitVec.ofNat 64 (s.ictx.bitpos.toNat + k * s.ictx.bitw.toNat)
  vcmb := s.ictx.vcmb - BitVec.ofNat 64 k } }

theorem State.deltaAt_zero (s : State) : s.deltaAt 0 = s := by
  unfold State.deltaAt
  rw [Nat.zero_mul, Nat.add_zero, word_ofNat_toNat, BitVec.sub_zero]

/-- The bits of the stream depend on memory and on where the buffer lies only. -/
theorem State.rawAt_of_same (hmem : t.mem = s.mem) (hbase : t.ictx.bufBase = s.ictx.bufBase) (p w : Nat) :
    t.rawAt p w = s.rawAt p w := by
  induction w generalizing p with
  | zero => rfl
  | succ w ih => rw [State.rawAt, State.rawAt, ih, State.bitAt, State.bitAddr, hmem, hbase]; rfl

/-- The raw value of delta `k` from here. -/
def State.rawDelta (s : State) (k : Nat) : Nat := s.rawAt (s.ictx.bitpos.toNat + k * s.ictx.bitw.toNat) s.ictx.bitw.toNat

/-- Delta `k` of the current mini-block, where its bits can be read and the running value is in range. -/
theorem ideNext_deltaAt (hleft : k < s.ictx.vcmb.toNat)
    (hinside : s.ictx.bitpos.toNat + (k + 1) * s.ictx.bitw.toNat ≤ 8 * s.ictx.bufLen.toNat)
    (hfits : s.ictx.bitpos.toNat + (k + 1) * s.ictx.bitw.toNat < 2 ^ 64)
    (hbits : ∀ q, s.ictx.bitpos.toNat + k * s.ictx.bitw.toNat ≤ q → q < s.ictx.bitpos.toNat + (k + 1) * s.ictx.bitw.toNat →
      memOk s.params (s.bitAddr q) .read = true ∧ staleAt s (s.bitAddr q) = [])
    (hrange : inRange (s.ictx.sum (s.rawDelta k)) esize = true) :
    ideNext esize (s.deltaAt k) =
      .ok (s.ictx.sum (s.rawDelta k)) ((s.withLast (s.ictx.sum (s.rawDelta k))).deltaAt (k + 1)) := by
  have hstep : (k + 1) * s.ictx.bitw.toNat = k * s.ictx.bitw.toNat + s.ictx.bitw.toNat := Nat.succ_mul ..
  rw [hstep, ← Nat.add_assoc] at hinside hfits hbits
  have hpos : (s.deltaAt k).ictx.bitpos.toNat = s.ictx.bitpos.toNat + k * s.ictx.bitw.toNat := toNat_ofNat_word (by omega)
  have hvcmb : (s.deltaAt k).ictx.vcmb ≠ 0 := fun h0 => by
    have hzero : (s.ictx.vcmb - BitVec.ofNat 64 k).toNat = 0 := congrArg BitVec.toNat h0
    rw [toNat_sub_ofNat (by omega)] at hzero
    omega
  have hraw : readBits s.ictx.bitw.toNat (s.deltaAt k) = _ :=
    readBits_settled (by rw [hpos]; exact hinside) (by rw [hpos]; exact hfits) (by rw [hpos]; exact hbits)
  rw [hpos, State.rawAt_of_same (t := s.deltaAt k) (s := s) rfl rfl] at hraw
  have hcount : s.ictx.vcmb - BitVec.ofNat 64 (k + 1) = s.ictx.vcmb - BitVec.ofNat 64 k - 1 := by
    rw [sub_sub, BitVec.ofNat_add]
    rfl
  have hnext (t : State) (ht : t = s.withLast (s.ictx.sum (s.rawDelta k))) : t.deltaAt (k + 1) = { t with ictx := { t.ictx with
      bitpos := BitVec.ofNat 64 (s.ictx.bitpos.toNat + k * s.ictx.bitw.toNat + s.ictx.bitw.toNat)
      vcmb := s.ictx.vcmb - BitVec.ofNat 64 k - 1 } } := by
    subst ht
    rw [← hcount, Nat.add_assoc, ← hstep]
    rfl
  rw [ideNext_inside hvcmb, nextDelta_of_readBits hraw hrange, hnext _ rfl]
  rfl

/-- The state after `k` deltas of the current mini-block, read and not written anywhere. -/
def State.afterDeltas (s : State) (k : Nat) : State := (s.withLast (s.running k)).deltaAt k

theorem State.withLast_running_zero (s : State) : s.withLast (s.running 0) = s := by
  unfold State.withLast State.running
  rw [BitVec.ofInt_toInt]

theorem State.afterDeltas_zero (s : State) : s.afterDeltas 0 = s := by
  rw [State.afterDeltas, State.deltaAt_zero, State.withLast_running_zero]

/-- A value in an element's range is an s64. -/
theorem toInt_ofInt_inRange (he : esize = 4 ∨ esize = 8) (h : inRange v esize = true) : (BitVec.ofInt 64 v).toInt = v := by
  rw [inRange_iff] at h
  rw [BitVec.toInt_ofInt]
  rcases he with rfl | rfl <;> norm_num at h <;> exact Int.bmod_eq_of_le (by omega) (by omega)

/-- The next `n` values are deltas of the current mini-block that can be read, and the running values are in range. -/
structure State.DeltasReady (s : State) (esize n : Nat) : Prop where
  left : n ≤ s.ictx.vcmb.toNat
  inside : s.ictx.bitpos.toNat + n * s.ictx.bitw.toNat ≤ 8 * s.ictx.bufLen.toNat
  fits : s.ictx.bitpos.toNat + n * s.ictx.bitw.toNat < 2 ^ 64
  bits : ∀ q, q < 8 * s.ictx.bufLen.toNat → memOk s.params (s.bitAddr q) .read = true ∧ staleAt s (s.bitAddr q) = []
  range : ∀ k < n, inRange (s.running (k + 1)) esize = true

/-- LAST is the running value: each is in range. -/
theorem State.DeltasReady.last (he : esize = 4 ∨ esize = 8) (h : s.DeltasReady esize n) (hk : k < n) :
    (BitVec.ofInt 64 (s.running k)).toInt = s.running k := by
  cases k with
  | zero => rw [State.running, BitVec.ofInt_toInt]
  | succ k => exact toInt_ofInt_inRange he (h.range k (by omega))

/-- One more delta. -/
theorem ideNext_afterDeltas (he : esize = 4 ∨ esize = 8) (h : s.DeltasReady esize n) (hk : k < n) :
    ideNext esize (s.afterDeltas k) = .ok (s.running (k + 1)) (s.afterDeltas (k + 1)) := by
  have hle : (k + 1) * s.ictx.bitw.toNat ≤ n * s.ictx.bitw.toNat := Nat.mul_le_mul_right _ hk
  have hinside := h.inside
  have hfits := h.fits
  have hsum : (s.withLast (s.running k)).ictx.sum ((s.withLast (s.running k)).rawDelta k) = s.running (k + 1) := by
    rw [State.rawDelta, State.rawAt_of_same (t := s.withLast (s.running k)) (s := s) rfl rfl, State.running, IntContext.sum]
    show (BitVec.ofInt 64 (s.running k)).toInt + _ + _ = _
    rw [h.last he hk]
    rfl
  have hslot := ideNext_deltaAt (s := s.withLast (s.running k)) (hk.trans_le h.left)
    (show s.ictx.bitpos.toNat + (k + 1) * s.ictx.bitw.toNat ≤ 8 * s.ictx.bufLen.toNat by omega)
    (show s.ictx.bitpos.toNat + (k + 1) * s.ictx.bitw.toNat < 2 ^ 64 by omega)
    (fun q _ (hq : q < s.ictx.bitpos.toNat + (k + 1) * s.ictx.bitw.toNat) => h.bits q (by omega))
    (by rw [hsum]; exact h.range k hk)
  rw [hsum] at hslot
  exact hslot

/-- The values of a mini-block are its running values (R167). -/
theorem intValues_afterDeltas {m : Nat} (he : esize = 4 ∨ esize = 8) (h : s.DeltasReady esize n) (hk : k + m = n) :
    intValues esize m (s.afterDeltas k) = .ok ((List.range m).map fun j => s.running (k + j + 1)) (s.afterDeltas n) := by
  induction m generalizing k with
  | zero =>
    rw [Nat.add_zero] at hk
    rw [hk]
    rfl
  | succ m ih =>
    unfold intValues
    rw [Sub.bind_of_ok (ideNext_afterDeltas he h (by omega)), Sub.bind_of_ok (ih (by omega)), List.range_succ_eq_map,
      List.map_cons, List.map_map]
    simp only [Function.comp_def, Nat.succ_eq_add_one, Nat.add_zero, Nat.add_right_comm k 1, ← Nat.add_assoc]
    rfl

/-- Where the buffer is the bound one, every bit of it can be read. -/
theorem readable_bits (hbuf : BufferInvariant s) (hr : s.readable s.bound) {q : Nat} (hq : q < 8 * s.ictx.bufLen.toNat) :
    memOk s.params (s.bitAddr q) .read = true ∧ staleAt s (s.bitAddr q) = [] :=
  hr _ (hbuf.readArea (State.bitAddr_area hq))

/-- Settles O41: the running values are the stream's values, and `decodeInt_follows` writes them. -/
theorem decodeInsideAMiniBlock : Obligations.DecodeInsideAMiniBlock := by
  rintro s n w hm hf hwf hap hbuf rfl rfl hleft hinside hfits hr hw hrange
  have hready : s.DeltasReady s.mode.esize s.intCount :=
    ⟨hleft, hinside, hfits, fun q => readable_bits hbuf hr, fun k hk => (inRange_iff _ _).2 (hrange k hk)⟩
  have hvs := intValues_afterDeltas (k := 0) (esize_cases hm) hready (Nat.zero_add _)
  rw [s.afterDeltas_zero] at hvs
  obtain ⟨t, hrun, ht, hslots, hframe⟩ := decodeInt_follows hm hf hwf hap hbuf hw hvs
  refine ⟨t, hrun, ht, fun k hk => ?_, hframe⟩
  have hslot := hslots k (by simpa using hk)
  simpa [element] using hslot

end

end Sys2Proof.Machine

namespace Sys2Proof.Machine

/-! # An integer DECODE that fails at a slot (R233, R236) -/

section
variable {s u w x : State} {esize n k j m : Nat} {out : Word} {v : Int} {vs us : List Int} {e : ErrKind} {bs : List Byte}

/-- Slot `k` stops the loop with `e`, from each state that has the context of `u`: the slot then holds the bytes `bs`, nothing else in
memory has changed, and RESULT neither (R233, R236). -/
def SlotStops (esize : Nat) (out : Word) (k : Nat) (e : ErrKind) (bs : List Byte) (u : State) : Prop :=
  ∀ w m, Twin u w → w.mem.wf → ∃ x, decodeIntLoop esize out (m + 1) k w = .error e x ∧ x.result = w.result ∧
    x.bytesAt (out + BitVec.ofNat 64 (esize * k)) bs ∧
    ∀ a, Region.contains ⟨out + BitVec.ofNat 64 (esize * k), bs.length⟩ a = false → x.mem.read a.toNat = w.mem.read a.toNat

/-- A value that cannot be read: nothing of the slot is written. -/
theorem slotStops_of_read (h : ideNext esize u = .error e x) : SlotStops esize out k e [] u := by
  intro w m htwin _
  obtain ⟨y, hy, -⟩ := (htwin.ideNext esize).of_error h
  have hkept : OnlyIntSlot w y := (ideNext_leaves esize w).2 _ _ hy
  refine ⟨y, ?_, ?_, nofun, fun _ _ => by rw [hkept.mem]⟩
  · rw [decodeIntLoop_succ, Sub.bind_of_error hy]
  · unfold OnlyIntSlot at hkept
    rw [hkept]

/-- A byte of the element that cannot be written: the bytes before it are. -/
theorem slotStops_of_write (hv : ideNext esize u = .ok v x) (hj : j < esize) (he : esize ≤ 2 ^ 64)
    (hok : ∀ i < j, memOk u.params (out + BitVec.ofNat 64 (esize * k + i)) .write = true)
    (hbad : memOk u.params (out + BitVec.ofNat 64 (esize * k + j)) .write = false) :
    SlotStops esize out k .busError ((element esize v).take j) u := by
  intro w m htwin hwf
  simp only [BitVec.ofNat_add, ← BitVec.add_assoc] at hok hbad
  obtain ⟨y, hy, -⟩ := (htwin.ideNext esize).of_ok hv
  have hkept : OnlyIntSlot w y := (ideNext_leaves esize w).1 _ _ hy
  have hparams : y.params = u.params := by
    rw [← htwin.params]
    unfold OnlyIntSlot at hkept
    rw [hkept]
  have hlen : (element esize v).length = esize := leBytes_length ..
  obtain ⟨z, hz, hbytes, hframe⟩ := memWriteBytes_stops (bs := element esize v) (s := y) (hkept.mem ▸ hwf) (by rwa [hlen]) j
    (hlen.symm ▸ hj) (hparams ▸ hok) (hparams ▸ hbad)
  have hwrote : OnlyMemory y z := (memWriteBytes_leaves _ _ y).2 _ _ hz
  refine ⟨z, ?_, ?_, hbytes, fun a ha => ?_⟩
  · rw [decodeIntLoop_succ, Sub.bind_of_ok hy]
    exact Sub.bind_of_error hz
  · unfold OnlyMemory at hwrote
    unfold OnlyIntSlot at hkept
    rw [hwrote, hkept]
  · rw [List.length_take, hlen, Nat.min_eq_left hj.le] at ha
    rw [hframe a ha, hkept.mem]

/-- The slots before the one that stops are written, and of that one the bytes before the one that stops. -/
theorem decodeInt_stops (hm : s.mode = .int32 ∨ s.mode = .int64) (hf : s.failed = false) (hwf : s.mem.wf) (hap : s.regionsApart)
    (hbuf : BufferInvariant s) (hk : k < s.intCount) (hbs : bs.length ≤ s.mode.esize)
    (hw : s.writable ⟨s.arg1, s.mode.esize * k + bs.length⟩) (hus : intValues s.mode.esize k s = .ok us u)
    (hstop : SlotStops s.mode.esize s.arg1 k e bs u) :
    ∃ t, exec .decode s = .next t ∧ t.errcode = e ∧ t.failed = true ∧ t.result = BitVec.ofNat 64 k ∧
      t.slotsHold s.mode.esize s.arg1 us ∧ t.bytesAt (s.arg1 + BitVec.ofNat 64 (s.mode.esize * k)) bs ∧
      ∀ a, Region.contains ⟨s.arg1, s.mode.esize * k + bs.length⟩ a = false → t.mem.read a.toNat = s.mem.read a.toNat := by
  have hsize := (outArray_apart hm hap).2
  have hnext : s.mode.esize * (k + 1) ≤ s.mode.esize * s.intCount := Nat.mul_le_mul_left _ hk
  change s.mode.esize * s.intCount ≤ 2 ^ 64 at hsize
  rw [Nat.mul_succ] at hnext
  obtain ⟨w, hloop, htwin, hwfw, hresult, hslots, hbefore⟩ := decodeIntLoop_slots hm hwf hap hbuf hk.le
    (fun a ha => hw a (Region.contains_longer (Nat.le_add_right ..) ha)) hus
  obtain ⟨m, hcount⟩ : ∃ m, s.intCount = k + (m + 1) := ⟨s.intCount - k - 1, by omega⟩
  obtain ⟨x, hx, hresultx, hbytes, hframe⟩ := hstop w m htwin hwfw
  have hall : decodeIntLoop s.mode.esize s.arg1 s.intCount 0 s.begin = .error e x := by
    rw [hcount, decodeIntLoop_add, Sub.bind_of_ok hloop, Nat.zero_add, hx]
  have hfatal := (slotKind_fatal (decodeIntLoop_raises _ _ _ _ _ _ _ hall)).2.2.2
  refine ⟨x.finish e, decodeInt_fails hm hf hap hall, rfl, ?_, hresultx.trans hresult, fun i hi => ?_, hbytes, fun a ha => ?_⟩
  · rw [State.finish_failed, hfatal, Bool.or_true]
  · have hik : s.mode.esize * (i + 1) ≤ s.mode.esize * k :=
      Nat.mul_le_mul_left _ (by have := intValues_length hus; omega)
    rw [Nat.mul_succ] at hik
    refine State.bytesAt_of_outside (s := w) (hslots i hi) (Region.parts_apart _ ?_ (by omega)) hframe
    rw [element, leBytes_length]
    exact hik
  · rw [← hbefore a ?_]
    · refine hframe a (Region.not_contains_part (r := ⟨s.arg1, s.mode.esize * k + bs.length⟩) le_rfl ha)
    · rw [Region.not_contains_iff] at ha ⊢
      exact (Nat.le_add_right ..).trans ha

/-- Values read in two parts (R169). -/
theorem intValues_add (esize m n : Nat) (s : State) : intValues esize (m + n) s =
    (intValues esize m >>= fun vs => intValues esize n >>= fun ws => pure (vs ++ ws)) s := by
  induction m generalizing s with
  | zero =>
    rw [Nat.zero_add]
    show _ = (intValues esize n >>= fun ws => pure ws) s
    rw [bind_pure]
  | succ m ih =>
    rw [Nat.succ_add]
    simp only [intValues, Sub.bind_run]
    cases ideNext esize s with
    | error e t => rfl
    | ok v t =>
      simp only [ih, Sub.bind_run]
      cases intValues esize m t with
      | error e t => rfl
      | ok vs t =>
        simp only [Sub.pure_run]
        cases intValues esize n t <;> rfl

/-- Reading one value more. -/
theorem intValues_succ_ok (h : intValues esize (k + 1) s = .ok vs u) :
    ∃ us y v, intValues esize k s = .ok us y ∧ ideNext esize y = .ok v u ∧ vs = us ++ [v] := by
  rw [intValues_add] at h
  obtain ⟨us, y, hus, h⟩ := Sub.bind_ok_iff.1 h
  obtain ⟨ws, z, hws, h⟩ := Sub.bind_ok_iff.1 h
  obtain ⟨v, z', hv, hws⟩ := Sub.bind_ok_iff.1 hws
  cases hws
  cases h
  exact ⟨us, y, v, hus, hv, rfl⟩

/-- Settles O43: `decodeInt_stops` at a value that cannot be read, or at a byte that cannot be written. -/
theorem decodeIntIsPrecise : Obligations.DecodeIntIsPrecise := by
  rintro s u vs k j e hm hf hwf hap hbuf hk hw (⟨hvs, ⟨x, hx⟩, rfl⟩ | ⟨hvs, hj, rfl, hbad⟩)
  · have hlen := intValues_length hvs
    obtain ⟨t, hrun, he, hfailed, hresult, hslots, hbytes, hframe⟩ := decodeInt_stops (bs := []) hm hf hwf hap hbuf hk
      (Nat.zero_le _) hw hvs (slotStops_of_read hx)
    refine ⟨t, hrun, he, hfailed, hresult, fun i hi v hv => ?_, fun v hv => by simpa using hbytes, hlen.ge, hframe⟩
    obtain ⟨hi, rfl⟩ := List.getElem?_eq_some_iff.1 hv
    exact hslots i hi
  · obtain ⟨us, y, v, hus, hv, rfl⟩ := intValues_succ_ok hvs
    have hlen := intValues_length hus
    have hkept : OnlyIntSlot s y := (intValues_leaves _ k s).1 _ _ hus
    have hparams : y.params = s.params := by
      unfold OnlyIntSlot at hkept
      rw [hkept]
    have htake : ((element s.mode.esize v).take j).length = j := by
      rw [List.length_take, element, leBytes_length, Nat.min_eq_left hj.le]
    have hstop : SlotStops s.mode.esize s.arg1 k .busError ((element s.mode.esize v).take j) y :=
      slotStops_of_write hv hj (by rcases esize_cases hm with h | h <;> omega)
        (hparams ▸ fun i hi => hw _ (Region.contains_offset (r := ⟨s.arg1, s.mode.esize * k + j⟩) (Nat.add_lt_add_left hi _)))
        (hparams ▸ hbad)
    obtain ⟨t, hrun, he, hfailed, hresult, hslots, hbytes, hframe⟩ := decodeInt_stops hm hf hwf hap hbuf hk (by omega)
      (by rw [htake]; exact hw) hus hstop
    rw [htake] at hframe
    refine ⟨t, hrun, he, hfailed, hresult, fun i hi x hx => ?_, fun x hx => ?_, by simp; omega, hframe⟩
    · rw [List.getElem?_append_left (by omega)] at hx
      obtain ⟨hi, rfl⟩ := List.getElem?_eq_some_iff.1 hx
      exact hslots i hi
    · rw [← hlen, List.getElem?_concat_length] at hx
      cases hx
      exact hbytes
end

end Sys2Proof.Machine

namespace Sys2Proof.Machine

/-! # A stream decoded in two pieces (R169) -/

section
variable {α β : Type} {s s₀ t u w : State} {esize n k : Nat} {out : Word} {vs : List Int}

/-! ## Sub-steps that a change of the state goes through -/

/-- The same result, in the changed state. -/
def mapState (f : State → State) : EStateM.Result ErrKind State α → EStateM.Result ErrKind State α
  | .ok a s => .ok a (f s)
  | .error e s => .error e (f s)

/-- The sub-step neither looks at what `f` changes nor changes it. -/
def Sub.Commutes (f : State → State) (m : Sub α) : Prop := ∀ s, m (f s) = mapState f (m s)

section
variable {f : State → State}

theorem Sub.Commutes.pure (a : α) : Sub.Commutes f (pure a : Sub α) := fun _ => rfl

theorem Sub.Commutes.bind {x : Sub α} {g : α → Sub β} (hx : Sub.Commutes f x) (hg : ∀ a, Sub.Commutes f (g a)) :
    Sub.Commutes f (x >>= g) := fun s => by
  rw [Sub.bind_run, Sub.bind_run, hx s]
  cases x s with
  | ok a t => exact hg a t
  | error e t => rfl

theorem Sub.Commutes.look {g : State → α} (h : ∀ s, g (f s) = g s) : Sub.Commutes f (look g) := fun s => by
  rw [look_run, look_run, h]
  rfl

theorem Sub.Commutes.update {g : State → State} (h : ∀ s, g (f s) = f (g s)) : Sub.Commutes f (update g) := fun s => by
  rw [update_run, update_run, h]
  rfl

theorem Sub.Commutes.raiseIf (c : Bool) (e : ErrKind) : Sub.Commutes f (raiseIf c e) := fun _ => by cases c <;> rfl

theorem Sub.Commutes.ite (c : Bool) {x y : Sub α} (hx : Sub.Commutes f x) (hy : Sub.Commutes f y) :
    Sub.Commutes f (if c = true then x else y) := by cases c <;> assumption

end

/-! ## No slot looks at VREM (R161 to R163) -/

/-- VREM replaced. -/
def State.setVrem (r : Word) (s : State) : State := { s with ictx := { s.ictx with vrem := r } }

variable {r : Word}

theorem readByte_commutes (k : Nat) (a : Word) : Sub.Commutes (State.setVrem r) (readByte k a) := fun s => by
  unfold readByte
  cases h : memOk s.params a .read <;> simp only [State.setVrem, h] <;> rfl

theorem setBitpos_commutes (n : Nat) : Sub.Commutes (State.setVrem r) (setBitpos n) := fun s => by
  unfold setBitpos
  split_ifs <;> rfl

theorem bitsFrom_commutes (p w : Nat) : Sub.Commutes (State.setVrem r) (bitsFrom p w) := by
  induction w generalizing p with
  | zero => exact .pure _
  | succ w ih =>
    exact .bind (.bind (.look fun _ => rfl) fun _ => .bind (readByte_commutes _ _) fun _ => .pure _) fun _ =>
      .bind (ih _) fun _ => .pure _

theorem readBits_commutes (w : Nat) : Sub.Commutes (State.setVrem r) (readBits w) :=
  .bind (.look fun _ => rfl) fun _ => .bind (.look fun _ => rfl) fun _ => .bind (.raiseIf _ _) fun _ =>
    .bind (bitsFrom_commutes _ _) fun _ => .bind (setBitpos_commutes _) fun _ => .pure _

theorem alignedByte_commutes : Sub.Commutes (State.setVrem r) alignedByte :=
  .bind (.look fun _ => rfl) fun _ => .bind (.look fun _ => rfl) fun _ => .bind (.raiseIf _ _) fun _ =>
    .bind (.look fun _ => rfl) fun _ => .bind (readByte_commutes _ _) fun _ => .bind (setBitpos_commutes _) fun _ => .pure _

theorem varUIntFrom_commutes (left v : Nat) : Sub.Commutes (State.setVrem r) (varUIntFrom left v) := by
  induction left generalizing v with
  | zero => exact .pure _
  | succ left ih =>
    refine .bind alignedByte_commutes fun b => .bind (.raiseIf _ _) fun _ => ?_
    split_ifs
    · exact .pure _
    · exact ih _

theorem zigZag_commutes : Sub.Commutes (State.setVrem r) zigZag := .bind (varUIntFrom_commutes 10 0) fun _ => .pure _

theorem readWidths_commutes (n : Nat) : Sub.Commutes (State.setVrem r) (readWidths n) := by
  induction n with
  | zero => exact .pure _
  | succ n ih =>
    exact .bind alignedByte_commutes fun _ => .bind (.raiseIf _ _) fun _ => .bind ih fun _ => .pure _

theorem parseHeader_commutes (esize : Nat) : Sub.Commutes (State.setVrem r) (parseHeader esize) :=
  .bind (varUIntFrom_commutes 10 0) fun _ => .bind (varUIntFrom_commutes 10 0) fun nmb => .bind (varUIntFrom_commutes 10 0) fun _ =>
    .bind zigZag_commutes fun _ => .bind zigZag_commutes fun _ => .bind (.raiseIf _ _) fun _ => .bind (.look fun _ => rfl) fun _ =>
    .bind (.raiseIf _ _) fun _ => .bind (.raiseIf _ _) fun _ => .bind (readWidths_commutes nmb) fun _ =>
    .bind (.raiseIf _ _) fun _ => .bind (.update fun _ => rfl) fun _ => .pure _

theorem nextDelta_commutes (esize : Nat) : Sub.Commutes (State.setVrem r) (nextDelta esize) :=
  .bind (.look fun _ => rfl) fun w => .bind (readBits_commutes w) fun _ => .bind (.look fun _ => rfl) fun _ =>
    .bind (.raiseIf _ _) fun _ => .bind (.update fun _ => rfl) fun _ => .pure _

theorem ideNext_commutes (esize : Nat) : Sub.Commutes (State.setVrem r) (ideNext esize) :=
  .bind (.look fun _ => rfl) fun b => .ite b
    (.bind (.update fun _ => rfl) fun _ => .bind (.look fun _ => rfl) fun more => .ite more
      (.bind (.update fun _ => rfl) fun _ => nextDelta_commutes esize) (parseHeader_commutes esize))
    (nextDelta_commutes esize)

theorem intValues_commutes (esize n : Nat) : Sub.Commutes (State.setVrem r) (intValues esize n) := by
  induction n with
  | zero => exact .pure _
  | succ n ih => exact .bind (ideNext_commutes esize) fun _ => .bind ih fun _ => .pure _

theorem Twin.intValues (h : Twin s t) (esize n : Nat) : Matched (intValues esize n s) (intValues esize n t) := by
  induction n generalizing s t with
  | zero => exact Matched.pure h _
  | succ n ih =>
    exact Matched.bind (h.ideNext esize) fun _ _ _ _ h => Matched.bind (ih h) fun _ _ _ _ h => Matched.pure h _

/-! ## A DECODE that went through has read the stream's values and written them -/

theorem memWriteBytes_writable {a : Word} {bs : List Byte} {x : Unit} (h : memWriteBytes a bs s = .ok x t) :
    ∀ i < bs.length, memOk s.params (a + BitVec.ofNat 64 i) .write = true := by
  induction bs generalizing a s with
  | nil => exact fun i hi => absurd hi (Nat.not_lt_zero _)
  | cons b bs ih =>
    obtain ⟨_, u, hu, h⟩ := Sub.bind_ok_iff.1 h
    obtain ⟨hok, rfl⟩ := writeByte_ok_iff.1 hu
    intro i hi
    cases i with
    | zero => rwa [BitVec.add_zero]
    | succ i =>
      rw [Nat.add_comm, BitVec.ofNat_add, ← BitVec.add_assoc]
      exact ih h i (Nat.lt_of_succ_lt_succ hi)

/-- One slot of a loop that went through. -/
theorem decodeIntLoop_succ_ok {x : Unit} (h : decodeIntLoop esize out (n + 1) k s = .ok x t) :
    ∃ v y z, ideNext esize s = .ok v y ∧ memWrite (out + BitVec.ofNat 64 (esize * k)) esize (trunc (8 * esize) v) y = .ok () z ∧
      decodeIntLoop esize out n (k + 1) { z with result := BitVec.ofNat 64 (k + 1) } = .ok x t := by
  rw [decodeIntLoop_succ] at h
  obtain ⟨v, y, hv, h⟩ := Sub.bind_ok_iff.1 h
  obtain ⟨_, z, hz, h⟩ := Sub.bind_ok_iff.1 h
  exact ⟨v, y, z, hv, hz, h⟩

theorem decodeIntLoop_writable {x : Unit} (h : decodeIntLoop esize out n k s = .ok x t) :
    ∀ i < esize * n, memOk s.params (out + BitVec.ofNat 64 (esize * k + i)) .write = true := by
  induction n generalizing k s with
  | zero => exact fun i hi => absurd hi (Nat.not_lt_zero _)
  | succ n ih =>
    obtain ⟨v, y, z, hv, hz, h⟩ := decodeIntLoop_succ_ok h
    have hy : OnlyIntSlot s y := (ideNext_leaves esize s).1 _ _ hv
    have hyz : OnlyMemory y z := (memWrite_leaves _ _ _ y).1 _ _ hz
    have hparams : y.params = s.params := by unfold OnlyIntSlot at hy; rw [hy]
    have hparamsz : z.params = y.params := by unfold OnlyMemory at hyz; rw [hyz]
    intro i hi
    by_cases hfirst : i < esize
    · rw [BitVec.ofNat_add, ← BitVec.add_assoc, ← hparams]
      exact memWriteBytes_writable hz i (by rwa [leBytes_length])
    · have hrest := ih h (i - esize) (by rw [Nat.mul_succ] at hi; omega)
      rw [Nat.mul_succ, Nat.add_assoc, Nat.add_sub_cancel' (by omega)] at hrest
      rw [← hparams, ← hparamsz]
      exact hrest

/-- The values that a loop has written can be read without writing them, the slots being outside what is read. -/
theorem intValues_of_decodeIntLoop {x : Unit} (htwin : Twin s₀ s)
    (hr : ∀ i < esize * n, ¬ s₀.readArea (out + BitVec.ofNat 64 (esize * k + i))) (h : decodeIntLoop esize out n k s = .ok x t) :
    ∃ vs u, intValues esize n s₀ = .ok vs u := by
  induction n generalizing k s₀ s with
  | zero => exact ⟨[], s₀, rfl⟩
  | succ n ih =>
    obtain ⟨v, y, z, hv, hz, h⟩ := decodeIntLoop_succ_ok h
    obtain ⟨y₀, hv₀, hy⟩ := (htwin.symm.ideNext esize).of_ok hv
    have harea : ∀ a, y₀.readArea a ↔ s₀.readArea a := ((ideNext_leaves esize s₀).1 _ _ hv₀).readArea
    have hyz : OnlyMemory y z := (memWrite_leaves _ _ _ y).1 _ _ hz
    have hout : OnlyAt (fun a => ¬ s₀.readArea a) y z := (memWriteBytes_onlyAt (fun i hi => by
      rw [BitVec.add_assoc, ← BitVec.ofNat_add]
      rw [leBytes_length] at hi
      exact hr i (by rw [Nat.mul_succ]; omega)) y).1 _ _ hz
    have hz₀ : Twin y₀ { z with result := BitVec.ofNat 64 (k + 1) } :=
      hy.symm.of_write (by unfold OnlyMemory at hyz; rw [hyz]) fun a ha => hout a (not_not.2 ((harea a).1 ha))
    obtain ⟨us, u, hus⟩ := ih hz₀ (fun i hi hra => by
      refine hr (esize + i) (by rw [Nat.mul_succ]; omega) ?_
      rw [← Nat.add_assoc, ← Nat.mul_succ]
      exact (harea _).1 hra) h
    refine ⟨v :: us, u, ?_⟩
    unfold intValues
    rw [Sub.bind_of_ok hv₀, Sub.bind_of_ok hus]
    rfl

/-- What an integer DECODE from `s` that completes in `s.afterDecode u w` has done: reading the values `vs` leaves the context of `u`,
and writing them the memory of `w`, where the stream's own bytes are as they were. -/
structure DecodesTo (s u w : State) (vs : List Int) : Prop where
  values : intValues s.mode.esize s.intCount s = .ok vs u
  slots : w.slotsHold s.mode.esize s.arg1 vs
  wf : w.mem.wf
  stream : ∀ a, s.readArea a → w.mem.read a.toNat = s.mem.read a.toNat

/-- An integer DECODE that completed without error. -/
theorem decodesTo_of_completed (hm : s.mode = .int32 ∨ s.mode = .int64) (hwf : s.mem.wf) (hbuf : BufferInvariant s)
    (h : exec .decode s = .next t) (he : t.errcode = .none) : ∃ vs u w, t = s.afterDecode u w ∧ DecodesTo s u w vs := by
  rcases decode_int_cases hm h with ⟨-, rfl⟩ | ⟨hf, hap, x, hloop, -⟩ | ⟨-, -, e, x, hkind, -, rfl⟩
  · cases he
  · have hstart (i : Nat) : s.arg1 + BitVec.ofNat 64 (s.mode.esize * 0 + i) = s.arg1 + BitVec.ofNat 64 i := by
      rw [Nat.mul_zero, Nat.zero_add]
    have hw : s.writable s.outArray := State.writable_of_offsets fun i hi => hstart i ▸ decodeIntLoop_writable hloop i hi
    obtain ⟨vs, u, hvs⟩ := intValues_of_decodeIntLoop (s₀ := s) (s := s.begin) ⟨rfl, rfl, rfl, rfl, rfl, fun _ _ => rfl⟩
      (fun i hi => by rw [hstart]; exact not_readArea_of_outArray hm hap hbuf (Region.contains_offset (r := s.outArray) hi)) hloop
    obtain ⟨w, hloop, htwin, hwfw, -, hslots, hframe⟩ := decodeIntLoop_slots hm hwf hap hbuf le_rfl hw hvs
    refine ⟨vs, u, w, Host.Outcome.next.inj (h.symm.trans (decodeInt_completes hm hf hap hloop htwin)), hvs, hslots, hwfw,
      fun a ha => hframe a (Bool.eq_false_iff.2 fun hc => not_readArea_of_outArray hm hap hbuf hc ha)⟩
  · exact absurd he (slotKind_fatal hkind).1

/-! ## The two pieces -/

theorem BufferInvariant.afterDecode (h : BufferInvariant s) (hu : OnlyIntSlot s u) :
    BufferInvariant (s.afterDecode u w) := by
  unfold OnlyIntSlot at hu
  rw [hu]
  exact h

/-- After a DECODE, with VREM as it was, slots find what they find after the reading of its values alone. -/
theorem DecodesTo.twin {m a : Word} (h : DecodesTo s u w vs) :
    Twin (((s.afterDecode u w).withOperands m a).setVrem s.ictx.vrem) u := by
  have hu : OnlyIntSlot s u := (intValues_leaves _ _ s).1 _ _ h.values
  have harea : ∀ a, s.readArea a → u.mem.read a.toNat = w.mem.read a.toNat := fun a ha => by rw [hu.mem, h.stream a ha]
  unfold OnlyIntSlot at hu
  rw [hu] at harea ⊢
  exact ⟨rfl, rfl, rfl, rfl, rfl, harea⟩

/-- Values read in two parts, the second from a state that differs in VREM. -/
theorem intValues_pieces {x u1 u2 : State} {n1 n2 : Nat} {vs1 vs2 : List Int} {r : Word} (hst : Twin s t)
    (h1 : intValues esize n1 s = .ok vs1 u1) (hx : Twin (x.setVrem r) u1) (h2 : intValues esize n2 x = .ok vs2 u2) :
    ∃ y, intValues esize (n1 + n2) t = .ok (vs1 ++ vs2) y ∧ y.ictx = { u2.ictx with vrem := r } ∧ y.draws = u2.draws := by
  have h2 : intValues esize n2 (x.setVrem r) = .ok vs2 (u2.setVrem r) := by rw [intValues_commutes, h2]; rfl
  obtain ⟨t1, ht1, htwin1⟩ := (hst.intValues esize n1).of_ok h1
  obtain ⟨y1, hy1, hty1⟩ := (hx.intValues esize n2).of_ok h2
  obtain ⟨y, hy, hty⟩ := (htwin1.intValues esize n2).of_ok hy1
  refine ⟨y, ?_, hty.ictx.trans hty1.ictx, hty.draws.trans hty1.draws⟩
  rw [intValues_add, Sub.bind_of_ok ht1, Sub.bind_of_ok hy]
  rfl

/-- Slots of one value, in two arrays, hold the same bytes. -/
theorem State.slotsHold.same {out' : Word} {vs' : List Int} {l i : Nat} (ht : t.slotsHold esize out vs)
    (hw : w.slotsHold esize out' vs') (hk : k < vs.length) (hl : l < vs'.length) (hv : vs[k] = vs'[l]) (hi : i < esize) :
    t.mem.read (out + BitVec.ofNat 64 (esize * k + i)).toNat = w.mem.read (out' + BitVec.ofNat 64 (esize * l + i)).toNat := by
  have hlen : (element esize vs[k]).length = esize := leBytes_length ..
  have htk := ht k hk i (by rwa [hlen])
  have hwl := hw l hl i (by rwa [← hv, hlen])
  simp only [← hv] at hwl
  rw [BitVec.ofNat_add, BitVec.ofNat_add, ← BitVec.add_assoc, ← BitVec.add_assoc, htk, hwl]

/-- The counts of the two pieces make the count of one (R160). -/
theorem intCount_pieces {m1 m2 a b c : Word} (hmax : m1.toNat + m2.toNat < 2 ^ 64) :
    (s.withOperands (m1 + m2) c).intCount = (s.withOperands m1 a).intCount +
      (((s.withOperands m1 a).afterDecode u w).withOperands m2 b).intCount := by
  have hcount1 : (s.withOperands m1 a).intCount = min m1.toNat s.ictx.vrem.toNat := rfl
  have hcount2 : (((s.withOperands m1 a).afterDecode u w).withOperands m2 b).intCount =
    min m2.toNat (s.ictx.vrem - BitVec.ofNat 64 (s.withOperands m1 a).intCount).toNat := rfl
  rw [hcount2, toNat_sub_ofNat (by omega), hcount1]
  show min (m1 + m2).toNat s.ictx.vrem.toNat = _
  rw [BitVec.toNat_add_of_lt hmax]
  omega

/-- Settles O45: `intValues_pieces`, each DECODE being its values and the slots that hold them. -/
theorem incrementalDecoding : Obligations.IncrementalDecoding := by
  intro s s1 s2 t m1 m2 a b c hm hwf hbuf hmax h1 he1 h2 he2 h he
  obtain ⟨vs1, u1, w1, rfl, d1⟩ := decodesTo_of_completed (s := s.withOperands m1 a) hm hwf hbuf h1 he1
  have hu1 : OnlyIntSlot (s.withOperands m1 a) u1 := (intValues_leaves _ _ _).1 _ _ d1.values
  obtain ⟨vs2, u2, w2, rfl, d2⟩ := decodesTo_of_completed (s := ((s.withOperands m1 a).afterDecode u1 w1).withOperands m2 b) hm d1.wf
    (BufferInvariant.afterDecode (s := s.withOperands m1 a) (w := w1) hbuf hu1) h2 he2
  obtain ⟨vs, u, w, rfl, d⟩ := decodesTo_of_completed (s := s.withOperands (m1 + m2) c) hm hwf hbuf h he
  obtain ⟨y, hy, hictx, hdraws⟩ := intValues_pieces (s := s.withOperands m1 a) (t := s.withOperands (m1 + m2) c)
    ⟨rfl, rfl, rfl, rfl, rfl, fun _ _ => rfl⟩ d1.values d1.twin d2.values
  have hcount := intCount_pieces (s := s) (u := u1) (w := w1) (a := a) (b := b) (c := c) hmax
  have hlen1 := intValues_length d1.values
  have hlen2 := intValues_length d2.values
  have hr1 : (BitVec.ofNat 64 (s.withOperands m1 a).intCount).toNat = _ := toNat_ofNat_word (intCount_lt _)
  have hr2 : (BitVec.ofNat 64 (((s.withOperands m1 a).afterDecode u1 w1).withOperands m2 b).intCount).toNat = _ :=
    toNat_ofNat_word (intCount_lt _)
  have hr : (BitVec.ofNat 64 (s.withOperands (m1 + m2) c).intCount).toNat = _ := toNat_ofNat_word (intCount_lt _)
  rw [← hcount] at hy
  cases d.values.symm.trans hy
  have hlen : (vs1 ++ vs2).length = vs1.length + vs2.length := List.length_append
  refine ⟨hr.trans (hcount.trans (congrArg₂ _ hr1.symm hr2.symm)), ?_, hdraws, fun k i hk hi => ?_, fun k i hk hi => ?_⟩
  · show { u.ictx with vrem := s.ictx.vrem - BitVec.ofNat 64 (s.withOperands (m1 + m2) c).intCount } = _
    rw [hictx, hcount, BitVec.ofNat_add, ← sub_sub]
    rfl
  · have hk : k < vs1.length := hlen1 ▸ hr1 ▸ hk
    exact d.slots.same d1.slots (by omega) hk (List.getElem_append_left hk) hi
  · have hk : k < vs2.length := hlen2 ▸ hr2 ▸ hk
    rw [show ((s.withOperands m1 a).afterDecode u1 w1).result.toNat = vs1.length from hr1.trans hlen1.symm]
    refine d.slots.same d2.slots (by omega) hk ?_ hi
    rw [List.getElem_append_right (Nat.le_add_right _ _)]
    simp only [Nat.add_sub_cancel_left]

end

end Sys2Proof.Machine

namespace Sys2Proof.Machine

/-! # The fast path (R170 to R175) -/

section
variable {s t : State} {base out : Word} {w i k n x p q : Nat} {bs : List Byte}

/-! ## Bits of a little-endian number (R61, R94) -/

/-- Bit `k` of a little-endian number is a bit of its byte `k / 8`. -/
theorem leValue_bit (h : k < 8 * bs.length) : leValue bs / 2 ^ k % 2 = (bs.getD (k / 8) 0).toNat / 2 ^ (k % 8) % 2 := by
  induction bs generalizing k with
  | nil => exact absurd h (Nat.not_lt_zero _)
  | cons b bs ih =>
    by_cases hk : k < 8
    · have hpow : 256 = 2 ^ k * (2 * 2 ^ (7 - k)) := by
        rw [← Nat.pow_succ', show (7 - k).succ = 8 - k by omega, pow_mul_pow_sub 2 hk.le]
        rfl
      rw [Nat.div_eq_of_lt hk, Nat.mod_eq_of_lt hk, leValue, hpow, Nat.mul_assoc, Nat.add_mul_div_left _ _ (Nat.two_pow_pos k),
        Nat.mul_assoc, Nat.add_mul_mod_self_left]
      rfl
    · obtain ⟨j, rfl⟩ : ∃ j, k = 8 + j := ⟨k - 8, by omega⟩
      have hpow : 2 ^ (8 + j) = 256 * 2 ^ j := by rw [Nat.pow_add]
      have hfirst : (b.toNat + 256 * leValue bs) / 256 = leValue bs := by have := b.isLt; omega
      rw [leValue, hpow, ← Nat.div_div_eq_div_mul, hfirst, ih (by rw [List.length_cons] at h; omega),
        show (8 + j) / 8 = j / 8 + 1 by omega, Nat.add_mod_left]
      rfl

/-- A number whose bits from `k` on are the stream's bits from `q` on. -/
theorem rawAt_of_bits {N : Nat} (h : ∀ j < w, N / 2 ^ (k + j) % 2 = s.bitAt (q + j)) : N / 2 ^ k % 2 ^ w = s.rawAt q w := by
  induction w generalizing k q with
  | zero => exact Nat.mod_one _
  | succ w ih =>
    have hfirst : N / 2 ^ k % 2 = s.bitAt q := h 0 (Nat.succ_pos w)
    have hrest := ih (k := k + 1) (q := q + 1) fun j hj => by
      have := h (j + 1) (by omega)
      rwa [← Nat.add_assoc, Nat.add_right_comm, ← Nat.add_assoc, Nat.add_right_comm q] at this
    rw [State.rawAt, ← hfirst, ← hrest, Nat.pow_succ', Nat.mod_mul, Nat.div_div_eq_div_mul, ← Nat.pow_succ]

/-! ## The unpack of a value (R172) -/

/-- `B(x)` as memory holds it: the byte of the run, 0 beyond it. -/
def State.runByte (s : State) (base : Word) (w x : Nat) : Byte :=
  if x < 4 * w then s.mem.read (base + BitVec.ofNat 64 x).toNat else 0

/-- Bytes `x` to `x + n` of the run can be read and the host has not overwritten them. -/
def State.runSettled (s : State) (base : Word) (w x n : Nat) : Prop :=
  ∀ y, x ≤ y → y < x + n → y < 4 * w →
    memOk s.params (base + BitVec.ofNat 64 y) .read = true ∧ staleAt s (base + BitVec.ofNat 64 y) = []

theorem fastBytes_settled (h : s.runSettled base w x n) :
    fastBytes base w x n s = .ok ((List.range n).map fun j => s.runByte base w (x + j)) s := by
  induction n generalizing x with
  | zero => rfl
  | succ n ih =>
    have hfirst : fastByte base w x s = .ok (s.runByte base w x) s := by
      unfold fastByte State.runByte
      split_ifs with hx
      · obtain ⟨hok, hst⟩ := h x le_rfl (by omega) hx
        exact readByte_settled hok hst
      · rfl
    have hrest := ih (x := x + 1) fun y h1 h2 => h y (by omega) (by omega)
    unfold fastBytes
    rw [Sub.bind_of_ok hfirst, Sub.bind_of_ok hrest, List.range_succ_eq_map, List.map_cons, List.map_map]
    simp only [Function.comp_def, Nat.succ_eq_add_one, Nat.add_assoc, Nat.add_comm 1]
    rfl

/-- Stream bit `k` after a byte boundary lies in byte `k / 8` after it (R37). -/
theorem bitAddr_run (hp : p % 8 = 0) (s : State) (k : Nat) : s.bitAddr (p + k) = s.bitAddr p + BitVec.ofNat 64 (k / 8) := by
  rw [State.bitAddr, State.bitAddr, BitVec.add_assoc, ← BitVec.ofNat_add]
  congr 2
  omega

/-- Bit `k` of the run is the stream's bit (R37, R94). -/
theorem runByte_bit (hp : p % 8 = 0) (hk : k < 32 * w) :
    (s.runByte (s.bitAddr p) w (k / 8)).toNat / 2 ^ (k % 8) % 2 = s.bitAt (p + k) := by
  rw [State.runByte, if_pos (by omega), State.bitAt, bitAddr_run hp, show (p + k) % 8 = k % 8 by omega]

/-- The eight bytes from a value's first on hold all its bits (R170, R172). -/
theorem leValue_run (hw : fastWidthOk w) (hi : i < 32) (hp : p % 8 = 0) :
    leValue ((List.range 8).map fun j => s.runByte (s.bitAddr p) w (fastOff w i + j)) / 2 ^ fastShift w i % 2 ^ w =
      s.rawAt (p + i * w) w := by
  obtain ⟨-, -, -, hword⟩ := hw
  have hshift := hword i hi
  have hrun : i * w + w ≤ 32 * w := by rw [← Nat.succ_mul]; exact Nat.mul_le_mul_right w hi
  refine rawAt_of_bits fun j hj => ?_
  rw [fastShift, leValue_bit (by simp; omega), Nat.add_assoc, ← runByte_bit hp (w := w) (by omega), fastOff]
  rw [List.getD_eq_getElem _ _ (by simp; omega), List.getElem_map, List.getElem_range]
  rw [show i * w / 8 + (i * w % 8 + j) / 8 = (i * w + j) / 8 by omega, show (i * w % 8 + j) % 8 = (i * w + j) % 8 by omega]

theorem fastRaw_settled (hw : fastWidthOk w) (hi : i < 32) (hp : p % 8 = 0) (h : s.runSettled (s.bitAddr p) w (fastOff w i) 8) :
    fastRaw (s.bitAddr p) w i s = .ok (s.rawAt (p + i * w) w) s := by
  unfold fastRaw
  rw [Sub.bind_of_ok (fastBytes_settled h), ← leValue_run hw hi hp]
  rfl

/-- Settles O46: every byte of the run is settled, so those of value `i` are. -/
theorem fastUnpack : Obligations.FastUnpack := fun _ _ _ _ hw hi hp h =>
  fastRaw_settled hw hi hp fun y _ _ hy => h y hy

/-! ## A run that the fast path has read (R173, R174) -/

theorem staleAt_nil (h : s.stale = []) (a : Word) : staleAt s a = [] := by unfold staleAt; rw [h]; rfl

theorem fastByte_ok {b : Byte} (h : fastByte base w x s = .ok b t) :
    t = s ∧ (x < 4 * w → memOk s.params (base + BitVec.ofNat 64 x) .read = true) := by
  unfold fastByte at h
  split_ifs at h with hx
  · obtain ⟨hok, -, rfl⟩ := readByte_ok_iff.1 h
    exact ⟨rfl, fun _ => hok⟩
  · cases h
    exact ⟨rfl, fun hc => absurd hc hx⟩

theorem runSettled_of_fastBytes (hst : s.stale = []) (h : fastBytes base w x n s = .ok bs t) : s.runSettled base w x n := by
  induction n generalizing x bs t with
  | zero => exact fun y h1 h2 => by omega
  | succ n ih =>
    obtain ⟨b, u, hb, h⟩ := Sub.bind_ok_iff.1 h
    obtain ⟨cs, v, hcs, -⟩ := Sub.bind_ok_iff.1 h
    obtain ⟨rfl, hok⟩ := fastByte_ok hb
    intro y h1 h2 hy
    by_cases hfirst : y = x
    · subst hfirst
      exact ⟨hok hy, staleAt_nil hst _⟩
    · exact ih hcs y (by omega) (by omega) hy

/-- The bits of value `i` lie in the bytes that its unpack reads (R170, R172). -/
theorem State.runSettled.bits (h : s.runSettled (s.bitAddr p) w (fastOff w i) 8) (hw : fastWidthOk w) (hi : i < 32)
    (hp : p % 8 = 0) (h1 : p + i * w ≤ q) (h2 : q < p + i * w + w) :
    memOk s.params (s.bitAddr q) .read = true ∧ staleAt s (s.bitAddr q) = [] := by
  obtain ⟨-, -, -, hword⟩ := hw
  have hshift := hword i hi
  have hrun : i * w + w ≤ 32 * w := by rw [← Nat.succ_mul]; exact Nat.mul_le_mul_right w hi
  obtain ⟨k, rfl⟩ : ∃ k, q = p + k := ⟨q - p, by omega⟩
  rw [bitAddr_run hp]
  exact h (k / 8) (by unfold fastOff; omega) (by unfold fastOff; omega) (by omega)

/-! ## The general loop beside the fast one (R173, R175) -/

variable {f g f' : State} {esize : Nat} {r : Word}

/-- RESULT replaced. -/
def State.withResult (r : Word) (f : State) : State := { f with result := r }

/-- Where the general loop stands when the fast one is at slot `i` in state `f`: the cursor and VCMB have moved, which the fast path
does at its end, and RESULT is some count. -/
def State.generalAt (i : Nat) (r : Word) (f : State) : State := (f.withResult r).deltaAt i

/-- What the fast loop changes: LAST, and memory. -/
def OnlyLast (f g : State) : Prop :=
  g = { f with ictx := { f.ictx with last := g.ictx.last }, mem := g.mem, writes := g.writes }

theorem onlyLast_chains : Chains OnlyLast where
  refl _ := rfl
  trans {s t u} h1 h2 := by unfold OnlyLast at *; rw [h2, h1]

/-- The conditions of R171 on the context, and no racing bytes. -/
structure FastReady (f : State) : Prop where
  width : fastWidthOk f.ictx.bitw.toNat
  left : 32 ≤ f.ictx.vcmb.toNat
  byte : f.ictx.bitpos.toNat % 8 = 0
  inside : f.ictx.bitpos.toNat + 32 * f.ictx.bitw.toNat ≤ 8 * f.ictx.bufLen.toNat
  fits : 8 * f.ictx.bufLen.toNat < 2 ^ 64
  settled : f.stale = []

theorem FastReady.onlyLast (h : FastReady f) (hg : OnlyLast f g) : FastReady g := by
  unfold OnlyLast at hg
  rw [hg]
  exact ⟨h.width, h.left, h.byte, h.inside, h.fits, h.settled⟩

/-- An unpack that goes through has found the stream's bits, and they can be read. -/
theorem FastReady.fastRaw_ok {raw : Nat} (h : FastReady f) (hi : i < 32)
    (hraw : fastRaw f.currentBytePointer f.ictx.bitw.toNat i f = .ok raw g) :
    g = f ∧ raw = f.rawDelta i ∧ f.runSettled (f.bitAddr f.ictx.bitpos.toNat) f.ictx.bitw.toNat (fastOff f.ictx.bitw.toNat i) 8 := by
  obtain ⟨bs, u, hbs, -⟩ := Sub.bind_ok_iff.1 hraw
  have hrun := runSettled_of_fastBytes h.settled hbs
  cases hraw.symm.trans (fastRaw_settled h.width hi h.byte hrun)
  exact ⟨rfl, rfl, hrun⟩

/-- A slot of the general path, where the fast path has unpacked its value. -/
theorem FastReady.ideNext {raw : Nat} (h : FastReady f) (hi : i < 32)
    (hraw : fastRaw f.currentBytePointer f.ictx.bitw.toNat i f = .ok raw g) (hrange : inRange (f.ictx.sum raw) esize = true) :
    ideNext esize (f.generalAt i r) = .ok (f.ictx.sum raw) ((f.withLast (f.ictx.sum raw)).generalAt (i + 1) r) := by
  obtain ⟨-, rfl, hrun⟩ := h.fastRaw_ok hi hraw
  have hle : (i + 1) * f.ictx.bitw.toNat ≤ 32 * f.ictx.bitw.toNat := Nat.mul_le_mul_right _ hi
  have hinside := h.inside
  have hfits := h.fits
  have hsame : (f.withResult r).rawDelta i = f.rawDelta i := State.rawAt_of_same (t := f.withResult r) (s := f) rfl rfl _ _
  have hslot := ideNext_deltaAt (s := f.withResult r) (k := i) (esize := esize) (hi.trans_le h.left)
    (show f.ictx.bitpos.toNat + (i + 1) * f.ictx.bitw.toNat ≤ 8 * f.ictx.bufLen.toNat by omega)
    (show f.ictx.bitpos.toNat + (i + 1) * f.ictx.bitw.toNat < 2 ^ 64 by omega)
    (fun q h1 h2 => hrun.bits h.width hi h.byte h1 (by rwa [Nat.succ_mul, ← Nat.add_assoc] at h2)) (by rw [hsame]; exact hrange)
  rw [hsame] at hslot
  exact hslot

theorem memWrite_generalAt (i : Nat) (r : Word) (a : Word) (n v : Nat) : Sub.Commutes (State.generalAt i r) (memWrite a n v) := by
  unfold memWrite
  generalize leBytes n v = bs
  induction bs generalizing a with
  | nil => exact .pure _
  | cons b bs ih =>
    refine .bind (fun s => ?_) fun _ => ih _
    unfold writeByte
    cases h : memOk s.params a .write <;> simp only [State.generalAt, State.withResult, State.deltaAt, h] <;> rfl

/-- One slot of the fast loop that went through (R173). -/
theorem fastLoop_succ_ok {x : Unit} (h : fastLoop base out w esize (n + 1) i f = .ok x f') :
    ∃ raw y z, fastRaw base w i f = .ok raw y ∧ inRange (y.ictx.sum raw) esize = true ∧
      memWrite (out + BitVec.ofNat 64 (esize * i)) esize (trunc (8 * esize) (y.ictx.sum raw)) (y.withLast (y.ictx.sum raw)) =
        .ok () z ∧ fastLoop base out w esize n (i + 1) z = .ok x f' := by
  obtain ⟨raw, y, hraw, h⟩ := Sub.bind_ok_iff.1 h
  rw [look_bind, raiseIf_bind_ok_iff, update_bind] at h
  obtain ⟨hrange, h⟩ := h
  obtain ⟨_, z, hz, h⟩ := Sub.bind_ok_iff.1 h
  exact ⟨raw, y, z, hraw, by simpa using hrange, hz, h⟩

/-- Where the fast loop goes through, the general loop goes through beside it. -/
theorem FastReady.decodeIntLoop {x : Unit} (h : FastReady f) (hn : i + n = 32)
    (hfast : fastLoop f.currentBytePointer out f.ictx.bitw.toNat esize n i f = .ok x f') :
    OnlyLast f f' ∧ ∃ r', decodeIntLoop esize out n i (f.generalAt i r) = .ok () (f'.generalAt 32 r') := by
  induction n generalizing f i r with
  | zero =>
    cases hfast
    exact ⟨rfl, r, by rw [← hn]; rfl⟩
  | succ n ih =>
    obtain ⟨raw, y, z, hraw, hrange, hz, hrest⟩ := fastLoop_succ_ok hfast
    obtain ⟨rfl, -⟩ := h.fastRaw_ok (i := i) (by omega) hraw
    have hyz : OnlyLast y z := by
      have hwrote : OnlyMemory (y.withLast (y.ictx.sum raw)) z := (memWrite_leaves _ _ _ _).1 _ _ hz
      unfold OnlyMemory at hwrote
      rw [hwrote]
      rfl
    have hpointer : z.currentBytePointer = y.currentBytePointer ∧ z.ictx.bitw = y.ictx.bitw := by
      unfold OnlyLast at hyz
      rw [hyz]
      exact ⟨rfl, rfl⟩
    have hslot := h.ideNext (r := r) (i := i) (by omega) hraw hrange
    have hwrite := memWrite_generalAt (i + 1) r (out + BitVec.ofNat 64 (esize * i)) esize (trunc (8 * esize) (y.ictx.sum raw))
      (y.withLast (y.ictx.sum raw))
    rw [hz] at hwrite
    obtain ⟨hzf, r', hloop⟩ := ih (i := i + 1) (r := BitVec.ofNat 64 (i + 1)) (h.onlyLast hyz) (by omega)
      (by rw [hpointer.1, hpointer.2]; exact hrest)
    refine ⟨onlyLast_chains.trans hyz hzf, r', ?_⟩
    rw [decodeIntLoop_succ, Sub.bind_of_ok hslot, Sub.bind_of_ok hwrite]
    exact hloop

/-! ## The whole command -/

/-- Where the fast path starts: in the mini-block that slot 0 reads in (R171, R173). -/
def State.fastStart (s : State) : State := if s.ictx.vcmb = 0 then s.enterNext else s

theorem fastWidthOk_of_isFastWidth {p : Params} (hp : p.WellFormed) (h : p.isFastWidth w = true) : fastWidthOk w := by
  obtain ⟨-, -, ⟨ha, hb, -⟩, -⟩ := hp
  rw [Params.isFastWidth, Bool.or_eq_true, beq_iff_eq, beq_iff_eq] at h
  rcases h with rfl | rfl
  · exact ha
  · exact hb

/-- Eligibility (R171), of the state in which the fast path starts; where that is not the first state, slot 0 enters a mini-block. -/
theorem fastReady_of_eligible (hp : s.params.WellFormed) (h : fastEligible s = true) (hfits : 8 * s.ictx.bufLen.toNat < 2 ^ 64)
    (hst : s.stale = []) : s.intCount = 32 ∧ FastReady s.fastStart ∧
      (s.ictx.vcmb = 0 → s.ictx.mbidx.toNat + 1 < s.ictx.nmb.toNat ∧ s.ictx.vpmb ≠ 0) := by
  unfold fastEligible IntContext.fastRun at h
  unfold State.fastStart
  by_cases hvcmb : s.ictx.vcmb = 0
  · by_cases hmore : s.ictx.mbidx.toNat + 1 < s.ictx.nmb.toNat
    · rw [if_neg (not_not.2 hvcmb), if_pos hmore] at h
      simp only [Bool.and_eq_true, decide_eq_true_eq] at h
      obtain ⟨⟨⟨⟨hcount, hfast⟩, hleft⟩, hbyte⟩, hinside⟩ := h
      have hwidth := fastWidthOk_of_isFastWidth hp hfast
      have hbitw : s.enterNext.ictx.bitw.toNat = (s.ictx.widthAt (s.ictx.mbidx.toNat + 1)).toNat := bitw_of_width hwidth.2.1
      rw [if_pos hvcmb]
      refine ⟨hcount, ⟨hbitw ▸ hwidth, hleft, hbyte, ?_, hfits, hst⟩, fun _ => ⟨hmore, fun h0 => ?_⟩⟩
      · rw [hbitw]
        exact hinside
      · rw [h0] at hleft
        exact absurd hleft (by decide)
    · rw [if_neg (not_not.2 hvcmb), if_neg hmore] at h
      cases h
  · rw [if_pos hvcmb] at h
    simp only [Bool.and_eq_true, decide_eq_true_eq] at h
    obtain ⟨⟨⟨⟨hcount, hfast⟩, hleft⟩, hbyte⟩, hinside⟩ := h
    rw [if_neg hvcmb]
    exact ⟨hcount, ⟨fastWidthOk_of_isFastWidth hp hfast, hleft, hbyte, hinside, hfits, hst⟩, fun h0 => absurd h0 hvcmb⟩

/-- The general loop goes alike from where the fast path starts (R161). -/
theorem decodeIntLoop_fastStart (h : s.ictx.vcmb = 0 → s.ictx.mbidx.toNat + 1 < s.ictx.nmb.toNat ∧ s.ictx.vpmb ≠ 0) (n : Nat) :
    decodeIntLoop esize out (n + 1) 0 s.fastStart = decodeIntLoop esize out (n + 1) 0 s := by
  unfold State.fastStart
  split_ifs with hend
  · obtain ⟨hmore, hvalues⟩ := h hend
    exact decodeIntLoop_of_ideNext (ideNext_enterNext hend hmore hvalues) n 0
  · rfl

/-- The fast path, from where it starts (R173). -/
theorem fastDecode32_run (h : s.ictx.vcmb = 0 → s.ictx.mbidx.toNat + 1 < s.ictx.nmb.toNat ∧ s.ictx.vpmb ≠ 0) :
    fastDecode32 s = (fastLoop s.fastStart.currentBytePointer s.arg1 s.fastStart.ictx.bitw.toNat s.mode.esize 32 0 >>= fun _ =>
      skipBytes (4 * s.fastStart.ictx.bitw.toNat) >>= fun _ => update fun t => { t with
        ictx := { t.ictx with vcmb := t.ictx.vcmb - 32, vrem := t.ictx.vrem - 32 }
        result := 32 }) s.fastStart := by
  have hstart : (if s.ictx.vcmb = 0 then { s with ictx := { s.ictx with mbidx := s.ictx.mbidx + 1 }.enter } else s) =
      s.fastStart := by
    unfold State.fastStart
    split_ifs with hend
    · exact enter_eq_enterNext ((h hend).1.trans s.ictx.nmb.isLt)
    · rfl
  unfold fastDecode32
  rw [look_bind, look_bind, update_bind, hstart]
  rfl

theorem OnlyLast.reader (h : OnlyLast f g) : g.ictx.bitpos = f.ictx.bitpos ∧ g.ictx.bitw = f.ictx.bitw := by
  unfold OnlyLast at h
  rw [h]
  exact ⟨rfl, rfl⟩

/-- The last lines of the fast path bring the cursor and VCMB to where the general loop has them (R126, R173). -/
theorem skipBytes_generalAt (hfits : f.ictx.bitpos.toNat + 32 * f.ictx.bitw.toNat < 2 ^ 64) (r : Word) :
    (skipBytes (4 * f.ictx.bitw.toNat) >>= fun _ => update fun t => { t with
      ictx := { t.ictx with vcmb := t.ictx.vcmb - 32, vrem := t.ictx.vrem - 32 }
      result := 32 }) f =
    .ok () { f.generalAt 32 r with
      ictx := { (f.generalAt 32 r).ictx with vrem := (f.generalAt 32 r).ictx.vrem - BitVec.ofNat 64 32 }
      result := BitVec.ofNat 64 32 } := by
  have hskip : skipBytes (4 * f.ictx.bitw.toNat) f = .ok () (f.seek (f.ictx.bitpos.toNat + 32 * f.ictx.bitw.toNat)) := by
    unfold skipBytes
    rw [look_bind, ← Nat.mul_assoc, setBitpos_fits hfits]
  rw [Sub.bind_of_ok hskip]
  rfl

/-- Settles O47: both loops from `fastStart`, and the last lines of both. -/
theorem fastPathEquivalence : Obligations.FastPathEquivalence := by
  intro s t hp _ helig hfits hst hfast
  obtain ⟨hcount, hready, hnext⟩ := fastReady_of_eligible hp helig hfits hst
  rw [fastDecode32_run hnext] at hfast
  obtain ⟨_, f', hloop, hend⟩ := Sub.bind_ok_iff.1 hfast
  obtain ⟨hlast, r, hgeneral⟩ := hready.decodeIntLoop (r := s.fastStart.result) rfl hloop
  obtain ⟨hbitpos, hbitw⟩ := hlast.reader
  have hinside := hready.inside
  have hends := hready.fits
  rw [← hbitpos, ← hbitw] at hinside
  rw [← hbitw, skipBytes_generalAt (by omega) r] at hend
  have hstart : s.fastStart.generalAt 0 s.fastStart.result = s.fastStart := State.deltaAt_zero s.fastStart
  rw [hstart] at hgeneral
  have hloops : decodeIntLoop s.mode.esize s.arg1 32 0 s = .ok () (f'.generalAt 32 r) :=
    (decodeIntLoop_fastStart hnext 31).symm.trans hgeneral
  rw [decodeInt_run, hcount, Sub.bind_of_ok hloops]
  exact hend

end

end Sys2Proof.Machine

namespace Sys2Proof.Machine

/-! # The value of a byte-array slot (R201, R204 to R206) -/

section
variable {s u w : State} {cap : Word} {e : ErrKind} {p : Int} {suf v : List Byte} {l : Nat}

/-- `PrefixNext()` has taken its slot from the nested decoder's count (R201). -/
def State.prefixTaken (u : State) : State := { u with ictx := { u.ictx with vrem := u.ictx.vrem - 1 } }

theorem prefixNext_of_slot (h : ideNext 4 s = .ok p u) : prefixNext s = .ok p u.prefixTaken := by
  unfold prefixNext
  rw [Sub.bind_of_ok h]
  rfl

theorem baValue_of_prefix_error (h : ideNext 4 s = .error e u) : baValue cap s = .error e u :=
  Sub.bind_of_error (Sub.bind_of_error h)

theorem baValue_of_suffix_error (hp : ideNext 4 s = .ok p u) (hs : suffixNext u.prefixTaken = .error e w) :
    baValue cap s = .error e w := by
  unfold baValue
  rw [Sub.bind_of_ok (prefixNext_of_slot hp), Sub.bind_of_error hs]

/-- Where `PrefixNext()` and `SuffixNext()` have read their parts, the two are put together and the capacities are checked. -/
theorem baValue_of_parts (hp : ideNext 4 s = .ok p u) (hs : suffixNext u.prefixTaken = .ok suf w) : baValue cap s =
    (reconstruct p suf >>= fun v => checkCapacity v.length cap >>= fun _ => pure v) w := by
  unfold baValue
  rw [Sub.bind_of_ok (prefixNext_of_slot hp), Sub.bind_of_ok hs]

/-- More bytes asked of PREV than it has, or fewer than none (R204). -/
theorem reconstruct_bad (hfirst : s.bctx.first = false) (hp : p < 0 ∨ (s.bctx.prev.length : Int) < p) :
    reconstruct p suf s = .error .formatError s := by
  have hbad : (decide (p < 0) || decide (p > (s.bctx.prev.length : Int))) = true := by simpa using hp
  unfold reconstruct
  rw [look_bind, look_bind, hfirst, hbad]
  rfl

/-- The value put together: the suffix, for the first value, or so many bytes of PREV and the suffix (R204, R205). -/
theorem reconstruct_good (h : (s.bctx.first = true ∧ v = suf) ∨
    (s.bctx.first = false ∧ 0 ≤ p ∧ p ≤ (s.bctx.prev.length : Int) ∧ v = s.bctx.prev.take p.toNat ++ suf)) :
    reconstruct p suf s = .ok v s := by
  unfold reconstruct
  rw [look_bind, look_bind]
  rcases h with ⟨hfirst, rfl⟩ | ⟨hfirst, hlow, hhigh, rfl⟩ <;> rw [hfirst]
  · rfl
  · have hgood : (decide (p < 0) || decide (p > (s.bctx.prev.length : Int))) = false := by simpa using ⟨hlow, hhigh⟩
    rw [hgood]
    rfl

theorem checkCapacity_run (l : Nat) (cap : Word) (s : State) : checkCapacity l cap s =
    if s.params.prevCap < l ∨ cap.toNat < s.bctx.heapUsed.toNat + l then .error .capacityError s else .ok () s := by
  unfold checkCapacity
  simp only [look_bind, raiseIf_bind, raiseIf_run, decide_eq_true_eq, gt_iff_lt, ite_or]

/-- Settles O49: the parts in their order, then `reconstruct` and `checkCapacity` by their cases. -/
theorem valueOfASlot : Obligations.ValueOfASlot := by
  refine fun s cap => ⟨fun e u h => baValue_of_prefix_error h, fun p u e w hp hs => baValue_of_suffix_error hp hs,
    fun u w p suf hp hs => ?_⟩
  rw [baValue_of_parts hp hs]
  refine ⟨fun hfirst hbad => Sub.bind_of_error (reconstruct_bad hfirst hbad), fun v hv => ?_⟩
  rw [Sub.bind_of_ok (reconstruct_good hv), Sub.bind_run, checkCapacity_run]
  refine ⟨fun hbig => ?_, fun hprev hheap => ?_⟩
  · rw [if_pos hbig]
  · rw [if_neg (by omega)]
    rfl

end

end Sys2Proof.Machine

namespace Sys2Proof.Machine

/-! # The frame of a byte-array DECODE (R207, R236) -/

section
variable {s t : State}

theorem OnlyBADecode.stale (h : OnlyBADecode s t) : t.stale = s.stale := by unfold OnlyBADecode at h; rw [h]

/-- RESULT as a loop that started at 0 leaves it after `j` slots (R233). -/
theorem toNat_slotCount {j : Nat} (h : j < 2 ^ 64) : (if j = 0 then (0 : Word) else BitVec.ofNat 64 (0 + j)).toNat = j := by
  split_ifs with h0
  · exact h0.symm
  · rw [Nat.zero_add, toNat_ofNat_word h]

/-- Settles O53: RESULT and the slots written, by `decodeBALoop_ends`. -/
theorem decodeByteArrayFrame : Obligations.DecodeByteArrayFrame := by
  intro s t hm h
  have hstart : s.arg1 + BitVec.ofNat 64 (16 * 0) = s.arg1 := BitVec.add_zero _
  rcases decode_ba_cases hm h with ⟨-, rfl⟩ | ⟨-, -, u, hu, rfl⟩ | ⟨-, -, e, u, -, hu, rfl⟩
  · exact ⟨rfl, fun _ _ _ => rfl⟩
  · have hleaves := (decodeBALoop_leaves _ _ _ _ _ s.begin.heapCleared).1 _ _ hu
    obtain ⟨-, hwritten⟩ := (decodeBALoop_ends _ _ _ _ _ s.begin.heapCleared).1 u hu
    refine ⟨hleaves.stale, fun a hheap hdesc => hwritten a ?_⟩
    change Region.contains ⟨s.arg1, 16 * ((BitVec.ofNat 64 s.baCount).toNat + 0)⟩ a = false at hdesc
    rw [toNat_ofNat_word (baCount_lt s)] at hdesc
    rw [hstart]
    exact not_or.2 ⟨Bool.eq_false_iff.1 hheap, Bool.eq_false_iff.1 hdesc⟩
  · have hleaves := (decodeBALoop_leaves _ _ _ _ _ s.begin.heapCleared).2 _ _ hu
    obtain ⟨j, hj, hresult, hwritten⟩ := (decodeBALoop_ends _ _ _ _ _ s.begin.heapCleared).2 e u hu
    refine ⟨hleaves.stale, fun a hheap hdesc => hwritten a ?_⟩
    have hr : u.result.toNat = j := (congrArg BitVec.toNat hresult).trans (toNat_slotCount (hj.trans (baCount_lt s)))
    change Region.contains ⟨s.arg1, 16 * (u.result.toNat + if e = .busError then 1 else 0)⟩ a = false at hdesc
    rw [hr] at hdesc
    rw [hstart]
    exact not_or.2 ⟨Bool.eq_false_iff.1 hheap, Bool.eq_false_iff.1 hdesc⟩

end

end Sys2Proof.Machine

namespace Sys2Proof.Machine

/-! # The values of a byte-array DECODE and the slots that it writes (R200, R207, R208) -/

section
variable {s t u w : State} {cap desc heap : Word} {n k : Nat} {v : List Byte} {vs ws : List (List Byte)}

/-- An offset in two parts (R60). -/
theorem add_ofNat_add (a : Word) (i j : Nat) : a + BitVec.ofNat 64 i + BitVec.ofNat 64 j = a + BitVec.ofNat 64 (i + j) := by
  rw [BitVec.add_assoc, ← BitVec.ofNat_add]

/-! ## The values -/

/-- A value has been found and takes its place in the heap: HEAP_USED, PREV and FIRST (R207, R208). -/
def State.valueTaken (v : List Byte) (s : State) : State := { s with
  bctx := { s.bctx with heapUsed := s.bctx.heapUsed + BitVec.ofNat 64 v.length, prev := v, first := false } }

theorem baValues_succ (cap : Word) (n : Nat) : baValues cap (n + 1) = (baValue cap >>= fun v =>
    update (State.valueTaken v) >>= fun _ => baValues cap n >>= fun vs => pure (v :: vs)) := rfl

theorem baValues_cons (hv : baValue cap s = .ok v t) (hvs : baValues cap n (t.valueTaken v) = .ok vs u) :
    baValues cap (n + 1) s = .ok (v :: vs) u := by
  rw [baValues_succ, Sub.bind_of_ok hv, update_bind, Sub.bind_of_ok hvs]
  rfl

theorem baValues_succ_ok (h : baValues cap (n + 1) s = .ok vs u) :
    ∃ v t ws, baValue cap s = .ok v t ∧ baValues cap n (t.valueTaken v) = .ok ws u ∧ vs = v :: ws := by
  rw [baValues_succ] at h
  obtain ⟨v, t, hv, h⟩ := Sub.bind_ok_iff.1 h
  rw [update_bind] at h
  obtain ⟨ws, u', hws, h⟩ := Sub.bind_ok_iff.1 h
  cases h
  exact ⟨v, t, ws, hv, hws, rfl⟩

/-- What the finding of a value leaves alone, and its place in the heap too, the finding of any number leaves alone. -/
theorem baValues_leaves {R : State → State → Prop} (hR : Chains R) (hv : Sub.Leaves R (baValue cap))
    (htaken : ∀ v s, R s (s.valueTaken v)) (n : Nat) : Sub.Leaves R (baValues cap n) := by
  induction n with
  | zero => exact .pure hR _
  | succ n ih =>
    rw [baValues_succ]
    exact .bind hR hv fun v => .bind hR (.update (htaken v)) fun _ => .bind hR ih fun _ => .pure hR _

theorem baValues_onlyContexts (h : baValues cap n s = .ok vs u) : OnlyContexts s u :=
  (baValues_leaves onlyContexts_chains (baValue_onlyContexts cap) (fun _ _ => rfl) n s).1 _ _ h

theorem baValues_onlyBADecode (h : baValues cap n s = .ok vs u) : OnlyBADecode s u :=
  (baValues_leaves onlyBADecode_chains (baValue_leaves cap) (fun _ _ => rfl) n s).1 _ _ h

theorem OnlyContexts.params (h : OnlyContexts s t) : t.params = s.params := by unfold OnlyContexts at h; rw [h]

theorem lengthsBefore_length (vs : List (List Byte)) : lengthsBefore vs vs.length = vs.flatten.length := by
  simp [lengthsBefore, List.length_flatten]

/-- Each value lies in the heap before the bytes of those that follow it. -/
theorem lengthsBefore_getElem_le (h : k < vs.length) : lengthsBefore vs k + vs[k].length ≤ lengthsBefore vs vs.length := by
  induction vs generalizing k with
  | nil => exact absurd h (Nat.not_lt_zero _)
  | cons v vs ih =>
    cases k with
    | zero => rw [List.length_cons, lengthsBefore_cons, lengthsBefore_zero, Nat.zero_add]; exact Nat.le_add_right ..
    | succ k =>
      have hrest := ih (Nat.lt_of_succ_lt_succ h)
      rw [List.length_cons, lengthsBefore_cons, lengthsBefore_cons, List.getElem_cons_succ]
      omega

/-- From an empty heap on, HEAP_USED is the length of the values found, which fit the heap (R206, R207). -/
theorem baValues_used (h : baValues cap n s.heapCleared = .ok vs u) :
    u.bctx.heapUsed = BitVec.ofNat 64 (lengthsBefore vs vs.length) ∧ lengthsBefore vs vs.length ≤ cap.toNat := by
  obtain ⟨hused, hfit⟩ := baValues_fit h (Nat.zero_le _)
  have hzero : s.heapCleared.bctx.heapUsed.toNat = 0 := rfl
  rw [hzero, Nat.zero_add] at hused hfit
  exact ⟨by rw [← hused, word_ofNat_toNat], hfit⟩

/-! ## The slots -/

theorem descriptorBytes_length (a : Word) (len : Nat) : (descriptorBytes a len).length = 16 := by simp [descriptorBytes]

/-- The values lie one after another in the heap, and slot `k`'s descriptor is that of value `k` (R100, R207). -/
def State.valuesHold (t : State) (desc heap : Word) (vs : List (List Byte)) : Prop :=
  ∀ k (h : k < vs.length), t.bytesAt (heap + BitVec.ofNat 64 (lengthsBefore vs k)) vs[k] ∧
    t.bytesAt (desc + BitVec.ofNat 64 (16 * k)) (descriptorBytes (heap + BitVec.ofNat 64 (lengthsBefore vs k)) vs[k].length)

/-- Where the regions of a byte-array DECODE lie (R73): its outputs are apart from each other and from the bound buffer, and the
descriptors fit the address space. -/
structure OutputsApart (s : State) : Prop where
  outputs : s.descArray.apart s.heapArea
  descBound : s.descArray.apart s.bound
  heapBound : s.heapArea.apart s.bound
  descFits : s.descArray.len ≤ 2 ^ 64

theorem outputsApart (hm : s.mode = .byteArray) (hap : s.regionsApart) : OutputsApart s := by
  simp only [State.regionsApart, hm, List.pairwise_cons, List.forall_mem_cons] at hap
  obtain ⟨⟨houtputs, hdescBound, hdescWindow, -⟩, ⟨hheapBound, -⟩, -⟩ := hap
  exact ⟨houtputs, hdescBound, hheapBound, Region.apart_len hdescWindow (by simp [windowRegion])⟩

/-- No slot reads what the descriptor array holds, or the heap (R73, R203). -/
theorem OutputsApart.not_readArea_of_desc (h : OutputsApart s) (hbuf : BufferInvariant s) {a : Word}
    (ha : s.descArray.contains a = true) : ¬ s.readArea a := fun hra => h.descBound a ⟨ha, hbuf.readArea hra⟩

theorem OutputsApart.not_readArea_of_heap (h : OutputsApart s) (hbuf : BufferInvariant s) {a : Word}
    (ha : s.heapArea.contains a = true) : ¬ s.readArea a := fun hra => h.heapBound a ⟨ha, hbuf.readArea hra⟩

/-- The first `n` slots of a byte-array DECODE, where their values can be found and written: `decodeBALoop_follows` from slot 0 and an
empty heap, the regions being apart. -/
theorem decodeBALoop_slots (hwf : s.mem.wf) (hap : OutputsApart s) (hbuf : BufferInvariant s) (hn : n ≤ s.baCount)
    (hwd : s.writable ⟨s.arg1, 16 * n⟩) (hwh : s.writable ⟨s.arg2, lengthsBefore vs vs.length⟩)
    (hvs : baValues s.arg3 n s.heapCleared = .ok vs u) :
    ∃ w, decodeBALoop s.arg1 s.arg2 s.arg3 n 0 s.begin.heapCleared = .ok () w ∧ Twin u w ∧ w.mem.wf ∧
      w.result = BitVec.ofNat 64 n ∧ w.valuesHold s.arg1 s.arg2 vs ∧
      ∀ a, Region.contains ⟨s.arg1, 16 * n⟩ a = false → Region.contains ⟨s.arg2, lengthsBefore vs vs.length⟩ a = false →
        w.mem.read a.toNat = s.mem.read a.toNat := by
  have hle : 16 * n ≤ 16 * s.baCount := Nat.mul_le_mul_left _ hn
  have hstart : (⟨s.arg1 + BitVec.ofNat 64 (16 * 0), 16 * n⟩ : Region) = ⟨s.arg1, 16 * n⟩ := by simp
  have hempty : s.heapCleared.bctx.heapUsed.toNat = 0 := rfl
  have hpart (a : Word) (ha : Region.contains ⟨s.arg1, 16 * n⟩ a = true) : s.descArray.contains a = true :=
    Region.contains_longer hle ha
  obtain ⟨w, hloop, htwin, hwfw, hresult, hbytes, hframe⟩ := decodeBALoop_follows (s := s.begin.heapCleared) (k := 0)
    (desc := s.arg1) (heap := s.arg2) (s₀ := s.heapCleared) ⟨rfl, rfl, rfl, rfl, rfl, fun _ _ => rfl⟩ hwf
    (hle.trans hap.descFits) (Nat.zero_le _) (by rw [hstart]; exact hwd) (by rw [hempty, Nat.zero_add]; exact hwh)
    (by rw [hstart]; exact Region.apart_mono hap.outputs hpart fun _ => id)
    (by rw [hstart]; exact fun a ha => hap.not_readArea_of_desc hbuf (hpart a ha))
    (fun a ha => hap.not_readArea_of_heap hbuf ha) hvs
  simp only [hempty, hstart, Nat.zero_add, BitVec.add_zero] at hresult hbytes hframe
  refine ⟨w, hloop, htwin, hwfw, ?_, hbytes, hframe⟩
  rw [hresult]
  split_ifs with h0
  · rw [h0]; rfl
  · rfl

end

end Sys2Proof.Machine

namespace Sys2Proof.Machine

/-! # A byte-array DECODE that fails at a slot (R233, R236) -/

section
variable {s t u w x y : State} {cap desc heap a b : Word} {n k j : Nat} {v bs cs : List Byte} {vs : List (List Byte)} {e : ErrKind}

/-- From `s` to `t` the bytes `bs` have been written at `a` and `cs` at `b`, and memory is otherwise the same. -/
structure Wrote (a : Word) (bs : List Byte) (b : Word) (cs : List Byte) (s t : State) : Prop where
  first : t.bytesAt a bs
  second : t.bytesAt b cs
  frame : ∀ x, Region.contains ⟨a, bs.length⟩ x = false → Region.contains ⟨b, cs.length⟩ x = false →
    t.mem.read x.toNat = s.mem.read x.toNat

/-- Bytes apart from what is written stay. -/
theorem Wrote.bytesAt {c : Word} {ds : List Byte} (h : Wrote a bs b cs s t) (ha : Region.apart ⟨c, ds.length⟩ ⟨a, bs.length⟩)
    (hb : Region.apart ⟨c, ds.length⟩ ⟨b, cs.length⟩) (hs : s.bytesAt c ds) : t.bytesAt c ds := fun i hi => by
  have hin : Region.contains ⟨c, ds.length⟩ (c + BitVec.ofNat 64 i) = true := Region.contains_offset (r := ⟨c, ds.length⟩) hi
  rw [h.frame _ (Region.not_contains_of_apart ha hin) (Region.not_contains_of_apart hb hin)]
  exact hs i hi

/-- The writing of a value stops with BUS_ERROR, and has written the bytes `bs` to the heap and `cs` to the descriptor. -/
def EmitStops (v : List Byte) (desc heap : Word) (k : Nat) (bs cs : List Byte) (s : State) : Prop :=
  ∃ t, emitValue v desc heap k s = .error .busError t ∧
    Wrote (heap + s.bctx.heapUsed) bs (desc + BitVec.ofNat 64 (16 * k)) cs s t

/-- A byte of the value that cannot be written: those before it are. -/
theorem emitStops_in_heap (hwf : s.mem.wf) (hv : v.length ≤ 2 ^ 64) (hj : j < v.length)
    (hok : ∀ i < j, memOk s.params (heap + s.bctx.heapUsed + BitVec.ofNat 64 i) .write = true)
    (hbad : memOk s.params (heap + s.bctx.heapUsed + BitVec.ofNat 64 j) .write = false) :
    EmitStops v desc heap k (v.take j) [] s := by
  obtain ⟨t, ht, hbytes, hframe⟩ := memWriteBytes_stops hwf hv j hj hok hbad
  refine ⟨t, by rw [emitValue_run, Sub.bind_of_error ht], hbytes, nofun, fun a ha _ => hframe a ?_⟩
  rwa [List.length_take, Nat.min_eq_left hj.le] at ha

/-- A byte of the descriptor that cannot be written: the value is, and the bytes before that one. -/
theorem emitStops_in_descriptor (hwf : s.mem.wf) (hv : v.length ≤ 2 ^ 64) (hj : j < 16)
    (hap : Region.apart ⟨heap + s.bctx.heapUsed, v.length⟩ ⟨desc + BitVec.ofNat 64 (16 * k), j⟩)
    (hwv : s.writable ⟨heap + s.bctx.heapUsed, v.length⟩)
    (hok : ∀ i < j, memOk s.params (desc + BitVec.ofNat 64 (16 * k) + BitVec.ofNat 64 i) .write = true)
    (hbad : memOk s.params (desc + BitVec.ofNat 64 (16 * k) + BitVec.ofNat 64 j) .write = false) :
    EmitStops v desc heap k v ((descriptorBytes (heap + s.bctx.heapUsed) v.length).take j) s := by
  have h16 := descriptorBytes_length (heap + s.bctx.heapUsed) v.length
  obtain ⟨y, hy, hsame, hwfy, hvalue, hframeValue⟩ := memWriteBytes_ok hwv hwf hv
  have hparams : y.params = s.params := by rw [hsame]
  obtain ⟨t, ht, hdesc, hframe⟩ := memWriteBytes_stops (bs := descriptorBytes (heap + s.bctx.heapUsed) v.length) hwfy
    (by omega) j (by omega) (hparams ▸ hok) (hparams ▸ hbad)
  refine ⟨t, ?_, State.bytesAt_of_outside hvalue hap hframe, hdesc, fun a ha hd => ?_⟩
  · rw [emitValue_run, Sub.bind_of_ok hy, Sub.bind_of_error ht]
  · rw [List.length_take, h16, Nat.min_eq_left hj.le] at hd
    exact (hframe a hd).trans (hframeValue a ha)

/-- Slot `k` stops the loop with `e`, from each state that has the contexts of `u`: it has written the bytes `bs` to the heap and `cs` to
its descriptor, and RESULT is as before (R233, R236). -/
def BASlotStops (desc heap cap : Word) (k : Nat) (e : ErrKind) (bs cs : List Byte) (u : State) : Prop :=
  ∀ w n, Twin u w → w.mem.wf → ∃ x, decodeBALoop desc heap cap (n + 1) k w = .error e x ∧ x.result = w.result ∧
    Wrote (heap + u.bctx.heapUsed) bs (desc + BitVec.ofNat 64 (16 * k)) cs w x

/-- A value that cannot be found: nothing of the slot is written. -/
theorem baSlotStops_of_value (h : baValue cap u = .error e x) : BASlotStops desc heap cap k e [] [] u := by
  intro w n htwin _
  obtain ⟨y, hy, -⟩ := (htwin.baValue cap).of_error h
  refine ⟨y, ?_, (baValue_leavesResult cap w).2 _ _ hy, nofun, nofun, fun _ _ _ => by rw [(baValue_keepsMem cap w).2 _ _ hy]⟩
  rw [decodeBALoop_succ]
  exact Sub.bind_of_error (Sub.bind_of_error hy)

/-- A value that is found and cannot be written. -/
theorem baSlotStops_of_emit (hv : baValue cap u = .ok v x)
    (hstop : ∀ y, Twin x y → y.mem.wf → EmitStops v desc heap k bs cs y) : BASlotStops desc heap cap k .busError bs cs u := by
  intro w n htwin hwf
  obtain ⟨y, hy, hxy⟩ := (htwin.baValue cap).of_ok hv
  have hmem : y.mem = w.mem := (baValue_keepsMem cap w).1 _ _ hy
  have hused : y.bctx.heapUsed = u.bctx.heapUsed := by rw [hxy.bctx, (baValue_found hv).1]
  obtain ⟨z, hz, hwrote⟩ := hstop y hxy (hmem ▸ hwf)
  rw [hused] at hwrote
  refine ⟨z, ?_, ((emitValue_leavesResult _ _ _ _ y).2 _ _ hz).trans ((baValue_leavesResult cap w).1 _ _ hy), hwrote.first,
    hwrote.second, fun a ha hb => by rw [hwrote.frame a ha hb, hmem]⟩
  rw [decodeBALoop_succ]
  refine Sub.bind_of_error ?_
  unfold baSlot
  rw [Sub.bind_of_ok hy, Sub.bind_of_error hz]

theorem decodeBA_fails (hm : s.mode = .byteArray) (hf : s.failed = false) (hap : s.regionsApart)
    (hloop : decodeBALoop s.arg1 s.arg2 s.arg3 s.baCount 0 s.begin.heapCleared = .error e w) :
    exec .decode s = .next (w.finish e) := by
  have hbody := (decodeBody_ba (s := s.begin) hm).trans ((decodeBA_run s.begin).trans (Sub.bind_of_error hloop))
  rw [decode_runs (by rw [hm]; decide) hf hap, complete_of_error hbody]

/-- What is written of slot `k` leaves the slots before it as they are. -/
theorem Wrote.valuesHold (h : Wrote (heap + BitVec.ofNat 64 (lengthsBefore vs vs.length)) bs (desc + BitVec.ofNat 64 (16 * vs.length))
      cs w x)
    (hap : Region.apart ⟨desc, 16 * vs.length + cs.length⟩ ⟨heap, lengthsBefore vs vs.length + bs.length⟩)
    (hdesc : 16 * vs.length + cs.length ≤ 2 ^ 64) (hheap : lengthsBefore vs vs.length + bs.length ≤ 2 ^ 64)
    (hw : w.valuesHold desc heap vs) : x.valuesHold desc heap vs := by
  intro i hi
  obtain ⟨hvalue, hdescriptor⟩ := hw i hi
  have hbefore := lengthsBefore_getElem_le hi
  have h16 := descriptorBytes_length (heap + BitVec.ofNat 64 (lengthsBefore vs i)) vs[i].length
  have hdescPart {off len : Nat} (hl : off + len ≤ 16 * vs.length + cs.length) (a : Word) :=
    Region.contains_part (r := ⟨desc, 16 * vs.length + cs.length⟩) hl (a := a)
  have hheapPart {off len : Nat} (hl : off + len ≤ lengthsBefore vs vs.length + bs.length) (a : Word) :=
    Region.contains_part (r := ⟨heap, lengthsBefore vs vs.length + bs.length⟩) hl (a := a)
  refine ⟨h.bytesAt (Region.parts_apart _ hbefore hheap) ?_ hvalue, h.bytesAt ?_ (Region.parts_apart _ (by omega) hdesc) hdescriptor⟩
  · exact Region.apart_symm (Region.apart_mono hap (hdescPart le_rfl) (hheapPart (by omega)))
  · exact Region.apart_mono hap (hdescPart (by omega)) (hheapPart le_rfl)

/-- The slots before the one that stops are written, and of that one the bytes that it has written. -/
theorem decodeBA_stops (hm : s.mode = .byteArray) (hf : s.failed = false) (hwf : s.mem.wf) (hap : s.regionsApart)
    (hbuf : BufferInvariant s) (hk : vs.length < s.baCount) (hcs : cs.length ≤ 16)
    (hbs : lengthsBefore vs vs.length + bs.length ≤ s.arg3.toNat) (hwd : s.writable ⟨s.arg1, 16 * vs.length + cs.length⟩)
    (hwh : s.writable ⟨s.arg2, lengthsBefore vs vs.length + bs.length⟩)
    (hvs : baValues s.arg3 vs.length s.heapCleared = .ok vs u) (hstop : BASlotStops s.arg1 s.arg2 s.arg3 vs.length e bs cs u) :
    ∃ t, exec .decode s = .next t ∧ t.errcode = e ∧ t.failed = true ∧ t.result = BitVec.ofNat 64 vs.length ∧
      t.valuesHold s.arg1 s.arg2 vs ∧ t.bytesAt (s.arg2 + BitVec.ofNat 64 (lengthsBefore vs vs.length)) bs ∧
      t.bytesAt (s.arg1 + BitVec.ofNat 64 (16 * vs.length)) cs ∧
      ∀ a, Region.contains ⟨s.arg1, 16 * vs.length + cs.length⟩ a = false →
        Region.contains ⟨s.arg2, lengthsBefore vs vs.length + bs.length⟩ a = false → t.mem.read a.toNat = s.mem.read a.toNat := by
  have hregions := outputsApart hm hap
  have hlen : 16 * vs.length + cs.length ≤ 16 * s.baCount := by omega
  have hfits : 16 * s.baCount ≤ 2 ^ 64 := hregions.descFits
  have hcap := s.arg3.isLt
  obtain ⟨w, hloop, htwin, hwfw, hresult, hvalues, hbefore⟩ := decodeBALoop_slots hwf hregions hbuf hk.le
    (fun a ha => hwd a (Region.contains_longer (Nat.le_add_right ..) ha))
    (fun a ha => hwh a (Region.contains_longer (Nat.le_add_right ..) ha)) hvs
  obtain ⟨n, hcount⟩ : ∃ n, s.baCount = vs.length + (n + 1) := ⟨s.baCount - vs.length - 1, by omega⟩
  obtain ⟨x, hx, hresultx, hwrote⟩ := hstop w n htwin hwfw
  rw [(baValues_used hvs).1] at hwrote
  have hall : decodeBALoop s.arg1 s.arg2 s.arg3 s.baCount 0 s.begin.heapCleared = .error e x := by
    rw [hcount, decodeBALoop_add, Sub.bind_of_ok hloop, Nat.zero_add, hx]
  obtain ⟨-, -, -, hfatal⟩ := slotKind_fatal (decodeBALoop_raises _ _ _ _ _ _ _ _ hall)
  have hapart : Region.apart ⟨s.arg1, 16 * vs.length + cs.length⟩ ⟨s.arg2, lengthsBefore vs vs.length + bs.length⟩ :=
    Region.apart_mono hregions.outputs (fun _ => Region.contains_longer hlen) fun _ => Region.contains_longer hbs
  have hshorter {b c : Word} {m l : Nat} (hc : Region.contains ⟨b, m + l⟩ c = false) : Region.contains ⟨b, m⟩ c = false := by
    rw [Region.not_contains_iff] at hc ⊢
    exact (Nat.le_add_right ..).trans hc
  refine ⟨x.finish e, decodeBA_fails hm hf hap hall, rfl, ?_, hresultx.trans hresult,
    hwrote.valuesHold hapart (by omega) (by omega) hvalues, hwrote.first, hwrote.second, fun a ha hb => ?_⟩
  · rw [State.finish_failed, hfatal, Bool.or_true]
  · rw [← hbefore a (hshorter ha) (hshorter hb)]
    exact hwrote.frame a (Region.not_contains_part (r := ⟨s.arg2, lengthsBefore vs vs.length + bs.length⟩) le_rfl hb)
      (Region.not_contains_part (r := ⟨s.arg1, 16 * vs.length + cs.length⟩) le_rfl ha)

/-- A value found after others has room in the heap behind them (R206). -/
theorem baValue_room (hvs : baValues cap n s.heapCleared = .ok vs u) (hv : baValue cap u = .ok v x) :
    x.bctx.heapUsed = BitVec.ofNat 64 (lengthsBefore vs vs.length) ∧ lengthsBefore vs vs.length + v.length ≤ cap.toNat ∧
      x.params = s.params := by
  obtain ⟨hused, hfit⟩ := baValues_used hvs
  obtain ⟨hsame, -, hroom⟩ := baValue_found hv
  rw [hused, toNat_ofNat_word (hfit.trans_lt cap.isLt)] at hroom
  exact ⟨hsame.trans hused, hroom,
    ((baValue_onlyContexts cap u).1 _ _ hv).params.trans (baValues_onlyContexts (s := s.heapCleared) hvs).params⟩

/-- The slot after `vs`, where byte `j` of its value cannot be written. -/
theorem baSlotStops_in_heap (hvs : baValues cap n s.heapCleared = .ok vs u) (hv : baValue cap u = .ok v x) (hj : j < v.length)
    (hw : s.writable ⟨heap, lengthsBefore vs vs.length + j⟩)
    (hbad : memOk s.params (heap + BitVec.ofNat 64 (lengthsBefore vs vs.length + j)) .write = false) :
    BASlotStops desc heap cap k .busError (v.take j) [] u := by
  obtain ⟨hused, hroom, hparams⟩ := baValue_room hvs hv
  refine baSlotStops_of_emit hv fun y hxy hwf => emitStops_in_heap hwf (by have := cap.isLt; omega) hj ?_ ?_ <;>
    rw [hxy.params, hparams, hxy.bctx, hused]
  · intro i hi
    rw [add_ofNat_add]
    exact hw _ (Region.contains_offset (r := ⟨heap, _⟩) (Nat.add_lt_add_left hi _))
  · rwa [add_ofNat_add]

/-- The slot after `vs`, where byte `j` of its descriptor cannot be written. -/
theorem baSlotStops_in_descriptor (hvs : baValues cap n s.heapCleared = .ok vs u) (hv : baValue cap u = .ok v x) (hj : j < 16)
    (hap : Region.apart ⟨desc, 16 * k + j⟩ ⟨heap, cap.toNat⟩)
    (hwh : s.writable ⟨heap, lengthsBefore vs vs.length + v.length⟩) (hwd : s.writable ⟨desc, 16 * k + j⟩)
    (hbad : memOk s.params (desc + BitVec.ofNat 64 (16 * k + j)) .write = false) :
    BASlotStops desc heap cap k .busError v
      ((descriptorBytes (heap + BitVec.ofNat 64 (lengthsBefore vs vs.length)) v.length).take j) u := by
  obtain ⟨hused, hroom, hparams⟩ := baValue_room hvs hv
  have hdescPart (a : Word) := Region.contains_part (r := ⟨desc, 16 * k + j⟩) le_rfl (a := a)
  have hheapPart (a : Word) := Region.contains_part (r := ⟨heap, cap.toNat⟩) hroom (a := a)
  refine baSlotStops_of_emit hv fun y hxy hwf => ?_
  have hyused : y.bctx.heapUsed = BitVec.ofNat 64 (lengthsBefore vs vs.length) := by rw [hxy.bctx, hused]
  have hyparams : y.params = s.params := hxy.params.trans hparams
  rw [← hyused] at hheapPart ⊢
  refine emitStops_in_descriptor hwf (by have := cap.isLt; omega) hj
    (Region.apart_symm (Region.apart_mono hap hdescPart hheapPart)) ?_ (fun i hi => ?_) ?_
  · intro a ha
    rw [hyparams]
    rw [hyused] at ha
    exact hwh a (Region.contains_part (r := ⟨heap, _⟩) le_rfl ha)
  · rw [hyparams, add_ofNat_add]
    exact hwd _ (Region.contains_offset (r := ⟨desc, _⟩) (Nat.add_lt_add_left hi _))
  · rwa [hyparams, add_ofNat_add]

/-- Settles O51: `decodeBA_stops` at a value that cannot be found, or at a byte that cannot be written. -/
theorem decodeByteArrayIsPrecise : Obligations.DecodeByteArrayIsPrecise := by
  intro s u vs v k hj dj e hm hf hwf hap hbuf hk hvs hwd hwh hcase
  change baValues s.arg3 k s.heapCleared = .ok vs u at hvs
  obtain rfl := baValues_length hvs
  refine ⟨rfl, ?_⟩
  rcases hcase with ⟨⟨x, hx⟩, rfl, rfl, rfl⟩ | ⟨⟨x, hx⟩, rfl, hhj, rfl, hbad⟩ | ⟨⟨x, hx⟩, rfl, rfl, hdj, hbad⟩
  · exact decodeBA_stops (bs := []) (cs := []) hm hf hwf hap hbuf hk (Nat.zero_le _) (baValues_used hvs).2 hwd hwh hvs
      (baSlotStops_of_value hx)
  · obtain ⟨-, hroom, -⟩ := baValue_room hvs hx
    have hlen : (v.take hj).length = hj := by rw [List.length_take, Nat.min_eq_left hhj.le]
    have hstops := decodeBA_stops (bs := v.take hj) (cs := []) hm hf hwf hap hbuf hk (Nat.zero_le _) (by omega) hwd
      (by rw [hlen]; exact hwh) hvs (baSlotStops_in_heap hvs hx hhj hwh hbad)
    rw [hlen] at hstops
    exact hstops
  · obtain ⟨-, hroom, -⟩ := baValue_room hvs hx
    have hlen : ((descriptorBytes (s.arg2 + BitVec.ofNat 64 (lengthsBefore vs vs.length)) v.length).take dj).length = dj := by
      rw [List.length_take, descriptorBytes_length, Nat.min_eq_left hdj.le]
    have hapart : Region.apart ⟨s.arg1, 16 * vs.length + dj⟩ s.heapArea :=
      Region.apart_mono (outputsApart hm hap).outputs (fun _ => Region.contains_longer (by omega)) fun _ => id
    have hstops := decodeBA_stops hm hf hwf hap hbuf hk (by omega) hroom (by rw [hlen]; exact hwd) hwh hvs
      (baSlotStops_in_descriptor hvs hx hdj hapart hwh hwd hbad)
    rw [hlen] at hstops
    rw [List.take_length]
    exact hstops

end

end Sys2Proof.Machine

namespace Sys2Proof.Machine

/-! # A byte-array stream decoded in two pieces (R209) -/

section
variable {s s₀ t u w : State} {cap cap' desc heap p q : Word} {m n k : Nat} {v : List Byte} {vs ws : List (List Byte)}

/-! ## No slot's value depends on HEAP_USED or BA_VREM, which the checks and the count alone look at (R200, R206) -/

/-- HEAP_USED and BA_VREM replaced. -/
def State.setCounts (p q : Word) (s : State) : State := { s with bctx := { s.bctx with heapUsed := p, baVrem := q } }

theorem readByte_setCounts (k : Nat) (a : Word) : Sub.Commutes (State.setCounts p q) (readByte k a) := fun s => by
  unfold readByte
  cases h : memOk s.params a .read <;> simp only [State.setCounts, h] <;> rfl

theorem setBitpos_setCounts (n : Nat) : Sub.Commutes (State.setCounts p q) (setBitpos n) := fun s => by
  unfold setBitpos
  split_ifs <;> rfl

theorem bitsFrom_setCounts (b w : Nat) : Sub.Commutes (State.setCounts p q) (bitsFrom b w) := by
  induction w generalizing b with
  | zero => exact .pure _
  | succ w ih =>
    exact .bind (.bind (.look fun _ => rfl) fun _ => .bind (readByte_setCounts _ _) fun _ => .pure _) fun _ =>
      .bind (ih _) fun _ => .pure _

theorem readBits_setCounts (w : Nat) : Sub.Commutes (State.setCounts p q) (readBits w) :=
  .bind (.look fun _ => rfl) fun _ => .bind (.look fun _ => rfl) fun _ => .bind (.raiseIf _ _) fun _ =>
    .bind (bitsFrom_setCounts _ _) fun _ => .bind (setBitpos_setCounts _) fun _ => .pure _

theorem alignedByte_setCounts : Sub.Commutes (State.setCounts p q) alignedByte :=
  .bind (.look fun _ => rfl) fun _ => .bind (.look fun _ => rfl) fun _ => .bind (.raiseIf _ _) fun _ =>
    .bind (.look fun _ => rfl) fun _ => .bind (readByte_setCounts _ _) fun _ => .bind (setBitpos_setCounts _) fun _ => .pure _

theorem varUIntFrom_setCounts (left v : Nat) : Sub.Commutes (State.setCounts p q) (varUIntFrom left v) := by
  induction left generalizing v with
  | zero => exact .pure _
  | succ left ih =>
    refine .bind alignedByte_setCounts fun b => .bind (.raiseIf _ _) fun _ => ?_
    split_ifs
    · exact .pure _
    · exact ih _

theorem zigZag_setCounts : Sub.Commutes (State.setCounts p q) zigZag := .bind (varUIntFrom_setCounts 10 0) fun _ => .pure _

theorem readWidths_setCounts (n : Nat) : Sub.Commutes (State.setCounts p q) (readWidths n) := by
  induction n with
  | zero => exact .pure _
  | succ n ih => exact .bind alignedByte_setCounts fun _ => .bind (.raiseIf _ _) fun _ => .bind ih fun _ => .pure _

theorem parseHeader_setCounts (esize : Nat) : Sub.Commutes (State.setCounts p q) (parseHeader esize) :=
  .bind (varUIntFrom_setCounts 10 0) fun _ => .bind (varUIntFrom_setCounts 10 0) fun nmb =>
    .bind (varUIntFrom_setCounts 10 0) fun _ => .bind zigZag_setCounts fun _ => .bind zigZag_setCounts fun _ =>
    .bind (.raiseIf _ _) fun _ => .bind (.look fun _ => rfl) fun _ => .bind (.raiseIf _ _) fun _ => .bind (.raiseIf _ _) fun _ =>
    .bind (readWidths_setCounts nmb) fun _ => .bind (.raiseIf _ _) fun _ => .bind (.update fun _ => rfl) fun _ => .pure _

theorem nextDelta_setCounts (esize : Nat) : Sub.Commutes (State.setCounts p q) (nextDelta esize) :=
  .bind (.look fun _ => rfl) fun w => .bind (readBits_setCounts w) fun _ => .bind (.look fun _ => rfl) fun _ =>
    .bind (.raiseIf _ _) fun _ => .bind (.update fun _ => rfl) fun _ => .pure _

theorem ideNext_setCounts (esize : Nat) : Sub.Commutes (State.setCounts p q) (ideNext esize) :=
  .bind (.look fun _ => rfl) fun b => .ite b
    (.bind (.update fun _ => rfl) fun _ => .bind (.look fun _ => rfl) fun more => .ite more
      (.bind (.update fun _ => rfl) fun _ => nextDelta_setCounts esize) (parseHeader_setCounts esize))
    (nextDelta_setCounts esize)

theorem prefixNext_setCounts : Sub.Commutes (State.setCounts p q) prefixNext :=
  .bind (ideNext_setCounts 4) fun _ => .bind (.update fun _ => rfl) fun _ => .pure _

theorem memReadBytes_setCounts (a : Word) (n : Nat) : Sub.Commutes (State.setCounts p q) (memReadBytes a n) := by
  induction n generalizing a with
  | zero => exact .pure _
  | succ n ih => exact .bind (readByte_setCounts 0 a) fun _ => .bind (ih _) fun _ => .pure _

theorem suffixNext_setCounts : Sub.Commutes (State.setCounts p q) suffixNext :=
  .bind (.look fun _ => rfl) fun _ => .bind (.look fun _ => rfl) fun _ => .bind (.look fun _ => rfl) fun _ =>
    .bind (.raiseIf _ _) fun _ => .bind (.bind (memReadBytes_setCounts _ 4) fun _ => .pure _) fun m =>
    .bind (.raiseIf _ _) fun _ => .bind (memReadBytes_setCounts _ m) fun _ => .bind (.update fun _ => rfl) fun _ => .pure _

theorem reconstruct_setCounts (i : Int) (suf : List Byte) : Sub.Commutes (State.setCounts p q) (reconstruct i suf) :=
  .bind (.look fun _ => rfl) fun first => .bind (.look fun _ => rfl) fun _ => .ite first (.pure _)
    (.bind (.raiseIf _ _) fun _ => .pure _)

/-! ## The same values, whatever HEAP_USED, BA_VREM and the capacity are -/

/-- The value that two runs find in one slot, each within its capacity. -/
theorem baValue_same {v' : List Byte} {u' : State} (h : baValue cap s = .ok v u)
    (h' : baValue cap' (s.setCounts p q) = .ok v' u') : v' = v ∧ u' = u.setCounts p q := by
  obtain ⟨i, s1, suf, hprefix, hsuffix, hvalue, -⟩ := baValue_ok h
  obtain ⟨i', s1', suf', hprefix', hsuffix', hvalue', -⟩ := baValue_ok h'
  rw [prefixNext_setCounts, hprefix] at hprefix'
  cases hprefix'
  rw [suffixNext_setCounts, hsuffix] at hsuffix'
  cases hsuffix'
  rw [reconstruct_setCounts, hvalue] at hvalue'
  cases hvalue'
  exact ⟨rfl, rfl⟩

theorem baValues_same {vs' : List (List Byte)} {u' : State} (h : baValues cap n s = .ok vs u)
    (h' : baValues cap' n (s.setCounts p q) = .ok vs' u') : vs' = vs ∧ u' = u.setCounts u'.bctx.heapUsed q := by
  induction n generalizing s p vs vs' with
  | zero =>
    cases h
    cases h'
    exact ⟨rfl, rfl⟩
  | succ n ih =>
    obtain ⟨v, x, ws, hv, hws, rfl⟩ := baValues_succ_ok h
    obtain ⟨v', x', ws', hv', hws', rfl⟩ := baValues_succ_ok h'
    obtain ⟨rfl, rfl⟩ := baValue_same hv hv'
    obtain ⟨rfl, hu⟩ := ih (p := p + BitVec.ofNat 64 v'.length) hws hws'
    exact ⟨rfl, hu⟩

theorem Twin.trans (h1 : Twin s t) (h2 : Twin t u) : Twin s u where
  params := h2.params.trans h1.params
  ictx := h2.ictx.trans h1.ictx
  bctx := h2.bctx.trans h1.bctx
  stale := h2.stale.trans h1.stale
  draws := h2.draws.trans h1.draws
  mem a ha := (h2.mem a (by unfold State.readArea at *; rwa [h1.ictx, h1.bctx])).trans (h1.mem a ha)

/-- Twins stay so where the byte-array context changes alike, its buffer apart. -/
theorem Twin.mapContext (h : Twin s t) (f : ByteArrayContext → ByteArrayContext)
    (hf : ∀ c, (f c).sufBase = c.sufBase ∧ (f c).sufLen = c.sufLen) :
    Twin { s with bctx := f s.bctx } { t with bctx := f t.bctx } where
  params := h.params
  ictx := h.ictx
  bctx := congrArg f h.bctx
  stale := h.stale
  draws := h.draws
  mem a ha := h.mem a (by
    obtain ⟨hbase, hlen⟩ := hf s.bctx
    unfold State.readArea at *
    rwa [hbase, hlen] at ha)

theorem Twin.setCounts (h : Twin s t) (p q : Word) : Twin (s.setCounts p q) (t.setCounts p q) :=
  h.mapContext (fun c => { c with heapUsed := p, baVrem := q }) fun _ => ⟨rfl, rfl⟩

theorem Twin.valueTaken (h : Twin s t) (v : List Byte) : Twin (s.valueTaken v) (t.valueTaken v) :=
  h.mapContext (fun c => { c with heapUsed := c.heapUsed + BitVec.ofNat 64 v.length, prev := v, first := false })
    fun _ => ⟨rfl, rfl⟩

theorem Twin.baValues (h : Twin s t) (cap : Word) (n : Nat) : Matched (baValues cap n s) (baValues cap n t) := by
  induction n generalizing s t with
  | zero => exact Matched.pure h _
  | succ n ih =>
    rw [baValues_succ]
    refine Matched.bind (h.baValue cap) fun v x y _ hxy => ?_
    rw [update_bind, update_bind]
    exact Matched.bind (ih (hxy.valueTaken v)) fun _ _ _ _ h => Matched.pure h _

/-- Two runs over the same bytes and contexts, HEAP_USED, BA_VREM and the capacity apart, find the same values and leave the same
contexts. -/
theorem baValues_same_of_twin {vs' : List (List Byte)} {u' : State} (hst : Twin (s.setCounts p q) t) (h : baValues cap n s = .ok vs u)
    (h' : baValues cap' n t = .ok vs' u') : vs' = vs ∧ Twin (u.setCounts u'.bctx.heapUsed q) u' := by
  obtain ⟨y, hy, htwin⟩ := (hst.symm.baValues cap' n).of_ok h'
  obtain ⟨rfl, hu⟩ := baValues_same h hy
  rw [htwin.bctx] at hu
  exact ⟨rfl, hu ▸ htwin.symm⟩

/-- Values found in two parts (R209). -/
theorem baValues_add (cap : Word) (m n : Nat) (s : State) : baValues cap (m + n) s =
    (baValues cap m >>= fun vs => baValues cap n >>= fun ws => pure (vs ++ ws)) s := by
  induction m generalizing s with
  | zero =>
    rw [Nat.zero_add]
    show _ = (baValues cap n >>= fun ws => pure ws) s
    rw [bind_pure]
  | succ m ih =>
    rw [Nat.succ_add]
    simp only [baValues_succ, Sub.bind_run]
    cases baValue cap s with
    | error e t => rfl
    | ok v t =>
      simp only [update_run, ih, Sub.bind_run]
      cases baValues cap m (t.valueTaken v) with
      | error e t => rfl
      | ok vs t =>
        simp only [Sub.pure_run]
        cases baValues cap n t <;> rfl

theorem baValues_add_ok (h : baValues cap (m + n) s = .ok vs u) :
    ∃ us t ws, baValues cap m s = .ok us t ∧ baValues cap n t = .ok ws u ∧ vs = us ++ ws := by
  rw [baValues_add] at h
  obtain ⟨us, t, hus, h⟩ := Sub.bind_ok_iff.1 h
  obtain ⟨ws, x, hws, h⟩ := Sub.bind_ok_iff.1 h
  cases h
  exact ⟨us, t, ws, hus, hws, rfl⟩

/-! ## A DECODE that went through has found the stream's values and written them -/

/-- What has been written where a value's writes went through (R207). -/
theorem emitValue_went {x : Unit} (h : emitValue v desc heap k s = .ok x t) :
    (∀ i < v.length, memOk s.params (heap + s.bctx.heapUsed + BitVec.ofNat 64 i) .write = true) ∧
    (∀ i < 16, memOk s.params (desc + BitVec.ofNat 64 (16 * k + i)) .write = true) ∧
    t = { s with bctx := { s.bctx with heapUsed := s.bctx.heapUsed + BitVec.ofNat 64 v.length }, mem := t.mem, writes := t.writes } ∧
    ∀ P : Word → Prop, (∀ i < v.length, P (heap + s.bctx.heapUsed + BitVec.ofNat 64 i)) →
      (∀ i < 16, P (desc + BitVec.ofNat 64 (16 * k + i))) → OnlyAt P s t := by
  have h16 := descriptorBytes_length (heap + s.bctx.heapUsed) v.length
  rw [emitValue_run] at h
  obtain ⟨_, y, hy, h⟩ := Sub.bind_ok_iff.1 h
  obtain ⟨_, z, hz, h⟩ := Sub.bind_ok_iff.1 h
  cases h
  have hsy : OnlyMemory s y := (memWriteBytes_leaves _ _ s).1 _ _ hy
  have hyz : OnlyMemory y z := (memWriteBytes_leaves _ _ y).1 _ _ hz
  have hparams : y.params = s.params := by unfold OnlyMemory at hsy; rw [hsy]
  have hdesc := memWriteBytes_writable hz
  rw [h16, hparams] at hdesc
  refine ⟨memWriteBytes_writable hy, fun i hi => ?_, ?_, fun P hheap hslot => ?_⟩
  · rw [← add_ofNat_add]
    exact hdesc i hi
  · have hsz := onlyMemory_chains.trans hsy hyz
    unfold OnlyMemory at hsz
    rw [hsz]
  · have hyz : OnlyAt P y z := (memWriteBytes_onlyAt (fun i hi => by
      rw [add_ofNat_add]
      exact hslot i (h16 ▸ hi)) y).1 _ _ hz
    exact (onlyAt_chains P).trans ((memWriteBytes_onlyAt hheap s).1 _ _ hy) hyz

/-- A slot's value has been written: the state in which the loop goes on (R200, R208). -/
def State.slotDone (v : List Byte) (k : Nat) (s : State) : State :=
  { s with bctx := { s.bctx with prev := v, first := false }, result := BitVec.ofNat 64 (k + 1) }

/-- One slot of a loop that went through. -/
theorem decodeBALoop_succ_ok {x : Unit} (h : decodeBALoop desc heap cap (n + 1) k s = .ok x t) :
    ∃ v y z, baValue cap s = .ok v y ∧ emitValue v desc heap k y = .ok () z ∧
      decodeBALoop desc heap cap n (k + 1) (z.slotDone v k) = .ok x t := by
  rw [decodeBALoop_succ] at h
  obtain ⟨_, w, hslot, h⟩ := Sub.bind_ok_iff.1 h
  obtain ⟨v, y, hv, hslot⟩ := Sub.bind_ok_iff.1 hslot
  obtain ⟨_, z, hz, hslot⟩ := Sub.bind_ok_iff.1 hslot
  cases hslot
  exact ⟨v, y, z, hv, hz, h⟩

/-- The values that a loop has written can be found without writing them, and what it has written can be written, the outputs being outside
what is read. -/
theorem baValues_of_decodeBALoop {x : Unit} (htwin : Twin s₀ s)
    (hheap : ∀ a, Region.contains ⟨heap, cap.toNat⟩ a = true → ¬ s₀.readArea a)
    (hdesc : ∀ i < 16 * n, ¬ s₀.readArea (desc + BitVec.ofNat 64 (16 * k + i)))
    (h : decodeBALoop desc heap cap n k s = .ok x t) :
    ∃ vs u, baValues cap n s₀ = .ok vs u ∧
      (∀ i < 16 * n, memOk s₀.params (desc + BitVec.ofNat 64 (16 * k + i)) .write = true) ∧
      ∀ i < lengthsBefore vs vs.length, memOk s₀.params (heap + s₀.bctx.heapUsed + BitVec.ofNat 64 i) .write = true := by
  induction n generalizing k s₀ s with
  | zero => exact ⟨[], s₀, rfl, fun i hi => absurd hi (Nat.not_lt_zero _), fun i hi => absurd hi (Nat.not_lt_zero _)⟩
  | succ n ih =>
    obtain ⟨v, y, z, hv, hz, h⟩ := decodeBALoop_succ_ok h
    obtain ⟨y₀, hv₀, hy⟩ := (htwin.symm.baValue cap).of_ok hv
    obtain ⟨hused, -, hroom⟩ := baValue_found hv₀
    have hsame := (baValue_onlyContexts cap s₀).1 _ _ hv₀
    obtain ⟨hokValue, hokSlot, hyz, hout⟩ := emitValue_went hz
    have hyused : y.bctx.heapUsed = s₀.bctx.heapUsed := by rw [← hused, hy.bctx]
    rw [hyused] at hokValue hout
    rw [← hy.params, hsame.params] at hokValue hokSlot
    have hwrote : OnlyAt (fun a => ¬ s₀.readArea a) y z := hout _ (fun i hi => hheap _ (by
        rw [← word_ofNat_toNat s₀.bctx.heapUsed, add_ofNat_add]
        exact Region.contains_offset (r := ⟨heap, cap.toNat⟩) (by simp only; omega)))
      fun i hi => hdesc i (by omega)
    have hnext : Twin (y₀.valueTaken v) (z.slotDone v k) := (hy.symm.valueTaken v).of_write (by rw [hyz]; rfl)
      fun a ha => hwrote a (not_not.2 ((hsame.readArea a).1 ha))
    have hslot (i : Nat) : 16 * (k + 1) + i = 16 * k + (16 + i) := by omega
    obtain ⟨ws, u, hws, hokDesc, hokHeap⟩ := ih hnext (fun a ha hra => hheap a ha ((hsame.readArea a).1 hra))
      (fun i hi hra => hdesc (16 + i) (by omega) (hslot i ▸ (hsame.readArea _).1 hra)) h
    refine ⟨v :: ws, u, baValues_cons hv₀ hws, fun i hi => ?_, fun i hi => ?_⟩
    · by_cases hfirst : i < 16
      · exact hokSlot i hfirst
      · have hrest := hokDesc (i - 16) (by omega)
        rw [hslot, Nat.add_sub_cancel' (by omega)] at hrest
        exact hsame.params ▸ hrest
    · rw [List.length_cons, lengthsBefore_cons] at hi
      by_cases hfirst : i < v.length
      · exact hokValue i hfirst
      · have hrest := hokHeap (i - v.length) (by omega)
        have haddr : heap + (y₀.valueTaken v).bctx.heapUsed + BitVec.ofNat 64 (i - v.length) =
            heap + s₀.bctx.heapUsed + BitVec.ofNat 64 i := by
          show heap + (y₀.bctx.heapUsed + BitVec.ofNat 64 v.length) + _ = _
          rw [hused, ← BitVec.add_assoc, add_ofNat_add, Nat.add_sub_cancel' (by omega)]
        rw [haddr] at hrest
        exact hsame.params ▸ hrest

/-- The state after a byte-array DECODE that goes through: the contexts of `u`, which finding the values leaves, and the memory of `w`,
which writing them leaves (R147, R200). -/
def State.afterDecodeBA (s u w : State) : State := { s with
  ictx := u.ictx
  bctx := { u.bctx with baVrem := s.bctx.baVrem - BitVec.ofNat 64 s.baCount }
  mem := w.mem, writes := w.writes, draws := u.draws, result := BitVec.ofNat 64 s.baCount, errcode := .none, command := none }

/-- What a byte-array DECODE from `s` that completes in `s.afterDecodeBA u w` has done: finding the values `vs` leaves the contexts of
`u`, and writing them the memory of `w`, where the stream's own bytes are as they were. -/
structure DecodesToBA (s u w : State) (vs : List (List Byte)) : Prop where
  values : baValues s.arg3 s.baCount s.heapCleared = .ok vs u
  held : w.valuesHold s.arg1 s.arg2 vs
  wf : w.mem.wf
  stream : ∀ a, s.readArea a → w.mem.read a.toNat = s.mem.read a.toNat

/-- A byte-array DECODE that completed without error. -/
theorem decodesToBA_of_completed (hm : s.mode = .byteArray) (hwf : s.mem.wf) (hbuf : BufferInvariant s)
    (h : exec .decode s = .next t) (he : t.errcode = .none) : ∃ vs u w, t = s.afterDecodeBA u w ∧ DecodesToBA s u w vs := by
  rcases decode_ba_cases hm h with ⟨-, rfl⟩ | ⟨hf, hap, x, hloop, -⟩ | ⟨-, -, e, x, hkind, -, rfl⟩
  · cases he
  · have hregions := outputsApart hm hap
    have hstart (i : Nat) : s.arg1 + BitVec.ofNat 64 (16 * 0 + i) = s.arg1 + BitVec.ofNat 64 i := by rw [Nat.mul_zero, Nat.zero_add]
    obtain ⟨vs, u, hvs, hokDesc, hokHeap⟩ := baValues_of_decodeBALoop (s₀ := s.heapCleared) (s := s.begin.heapCleared)
      ⟨rfl, rfl, rfl, rfl, rfl, fun _ _ => rfl⟩ (fun a ha => hregions.not_readArea_of_heap hbuf ha)
      (fun i hi => by
        rw [hstart]
        exact hregions.not_readArea_of_desc hbuf (Region.contains_offset (r := s.descArray) hi)) hloop
    have hwd : s.writable s.descArray := State.writable_of_offsets fun i hi => hstart i ▸ hokDesc i hi
    have hwh : s.writable ⟨s.arg2, lengthsBefore vs vs.length⟩ := State.writable_of_offsets fun i hi => by
      have hzero : s.arg2 + s.heapCleared.bctx.heapUsed = s.arg2 := BitVec.add_zero _
      exact hzero ▸ hokHeap i hi
    obtain ⟨w, hloop, htwin, hwfw, -, hheld, hframe⟩ := decodeBALoop_slots hwf hregions hbuf le_rfl hwd hwh hvs
    refine ⟨vs, u, w, Host.Outcome.next.inj (h.symm.trans (decodeBA_completes hm hf hap hloop htwin)), hvs, hheld, hwfw,
      fun a ha => hframe a (Bool.eq_false_iff.2 fun hc => hregions.not_readArea_of_desc hbuf hc ha)
        (Bool.eq_false_iff.2 fun hc => hregions.not_readArea_of_heap hbuf (Region.contains_longer (baValues_used hvs).2 hc) ha)⟩
  · exact absurd he (slotKind_fatal hkind).1

/-! ## What the arrays hold -/

theorem State.bytesAt_parts {a : Word} {bs cs : List Byte} (h : t.bytesAt a (bs ++ cs)) :
    t.bytesAt a bs ∧ t.bytesAt (a + BitVec.ofNat 64 bs.length) cs := by
  refine ⟨fun i hi => ?_, fun i hi => ?_⟩
  · rw [h i (by rw [List.length_append]; omega), List.getElem_append_left hi]
  · rw [add_ofNat_add, h _ (by rw [List.length_append]; omega),
      List.getElem_append_right (Nat.le_add_right _ _)]
    simp only [Nat.add_sub_cancel_left]

/-- The values, one after another, are one byte string in the heap (R207). -/
theorem State.bytesAt_flatten {a : Word} (h : ∀ k (hk : k < vs.length), t.bytesAt (a + BitVec.ofNat 64 (lengthsBefore vs k)) vs[k]) :
    t.bytesAt a vs.flatten := by
  induction vs generalizing a with
  | nil => exact nofun
  | cons v vs ih =>
    rw [List.flatten_cons]
    refine State.bytesAt_append ?_ (ih fun k hk => ?_)
    · have hfirst := h 0 (Nat.succ_pos _)
      rwa [lengthsBefore_zero, BitVec.add_zero] at hfirst
    · have hrest := h (k + 1) (Nat.succ_lt_succ hk)
      rwa [lengthsBefore_cons, ← add_ofNat_add] at hrest

theorem State.valuesHold.heapBytes (h : t.valuesHold desc heap vs) : t.bytesAt heap vs.flatten :=
  State.bytesAt_flatten fun k hk => (h k hk).1

/-- The upper half of a descriptor is the value's length alone (R100). -/
theorem descriptorBytes_upper (a b : Word) (len : Nat) {i : Nat} (hi : 8 ≤ i) :
    (descriptorBytes a len)[i]? = (descriptorBytes b len)[i]? := by
  have hhalf (c : Word) : (descriptorBytes c len)[i]? = (leBytes 4 len ++ leBytes 4 0)[i - 8]? := by
    rw [descriptorBytes, List.append_assoc, List.getElem?_append_right (by rwa [leBytes_length]), leBytes_length]
  rw [hhalf, hhalf]

/-- Descriptors of one value, in two arrays, have the same upper halves. -/
theorem State.valuesHold.descriptor {desc' heap' : Word} {l i : Nat} (ht : t.valuesHold desc heap vs)
    (hw : w.valuesHold desc' heap' ws) (hk : k < vs.length) (hl : l < ws.length) (hv : vs[k] = ws[l]) (hlow : 8 ≤ i) (hi : i < 16) :
    t.mem.read (desc + BitVec.ofNat 64 (16 * k + i)).toNat = w.mem.read (desc' + BitVec.ofNat 64 (16 * l + i)).toNat := by
  have htk := (ht k hk).2 i (by rwa [descriptorBytes_length])
  have hwl := (hw l hl).2 i (by rwa [descriptorBytes_length])
  have hsame := descriptorBytes_upper (heap + BitVec.ofNat 64 (lengthsBefore vs k)) (heap' + BitVec.ofNat 64 (lengthsBefore ws l))
    vs[k].length hlow
  rw [List.getElem?_eq_getElem (by rwa [descriptorBytes_length]), List.getElem?_eq_getElem (by rwa [descriptorBytes_length])] at hsame
  rw [← add_ofNat_add, ← add_ofNat_add, htk, hwl, Option.some.inj hsame]
  simp only [hv]

/-! ## The two pieces -/

theorem BufferInvariant.afterDecodeBA (h : BufferInvariant s) (hu : OnlyContexts s.heapCleared u) :
    BufferInvariant (s.afterDecodeBA u w) := by
  unfold OnlyContexts at hu
  rw [hu]
  exact h

/-- After a DECODE, HEAP_USED and BA_VREM apart, slots find what they find after the finding of its values alone. -/
theorem DecodesToBA.twin {m d h c : Word} (hd : DecodesToBA s u w vs) (p q : Word) :
    Twin (((s.afterDecodeBA u w).withByteArrayOperands m d h c).heapCleared.setCounts p q) (u.setCounts p q) := by
  have hu : OnlyContexts s.heapCleared u := baValues_onlyContexts hd.values
  have harea : ∀ a, s.readArea a → u.mem.read a.toNat = w.mem.read a.toNat := fun a ha => by rw [hu.mem, hd.stream a ha]; rfl
  unfold OnlyContexts at hu
  rw [hu] at harea ⊢
  exact ⟨rfl, rfl, rfl, rfl, rfl, harea⟩

/-- The counts of the two pieces make the count of one (R200). -/
theorem baCount_pieces {m1 m2 d1 h1 c1 d2 h2 c2 d h c : Word} (hmax : m1.toNat + m2.toNat < 2 ^ 64) :
    (s.withByteArrayOperands (m1 + m2) d h c).baCount = (s.withByteArrayOperands m1 d1 h1 c1).baCount +
      (((s.withByteArrayOperands m1 d1 h1 c1).afterDecodeBA u w).withByteArrayOperands m2 d2 h2 c2).baCount := by
  have hcount1 : (s.withByteArrayOperands m1 d1 h1 c1).baCount = min m1.toNat s.bctx.baVrem.toNat := rfl
  have hcount2 : (((s.withByteArrayOperands m1 d1 h1 c1).afterDecodeBA u w).withByteArrayOperands m2 d2 h2 c2).baCount =
    min m2.toNat (s.bctx.baVrem - BitVec.ofNat 64 (s.withByteArrayOperands m1 d1 h1 c1).baCount).toNat := rfl
  rw [hcount2, toNat_sub_ofNat (by omega), hcount1]
  show min (m1 + m2).toNat s.bctx.baVrem.toNat = _
  rw [BitVec.toNat_add_of_lt hmax]
  omega

theorem DecodesToBA.count (h : DecodesToBA s u w vs) : s.baCount = vs.length := (baValues_length h.values).symm

theorem DecodesToBA.result (h : DecodesToBA s u w vs) : (s.afterDecodeBA u w).result.toNat = vs.length :=
  (toNat_ofNat_word (baCount_lt s)).trans h.count

/-- HEAP_USED after a DECODE is the length of its values (R206, R207). -/
theorem DecodesToBA.used (h : DecodesToBA s u w vs) :
    u.bctx.heapUsed = BitVec.ofNat 64 vs.flatten.length ∧ u.bctx.heapUsed.toNat = vs.flatten.length := by
  obtain ⟨hused, hfit⟩ := baValues_used h.values
  rw [lengthsBefore_length] at hused hfit
  exact ⟨hused, by rw [hused, toNat_ofNat_word (hfit.trans_lt s.arg3.isLt)]⟩

/-- The values of one DECODE are those of two, and its contexts the second one's, HEAP_USED and BA_VREM apart. -/
theorem decodesToBA_pieces {m1 m2 d1 h1 c1 d2 h2 c2 d h c : Word} {u1 w1 u2 w2 : State} {vs1 vs2 : List (List Byte)}
    (hmax : m1.toNat + m2.toNat < 2 ^ 64) (dec1 : DecodesToBA (s.withByteArrayOperands m1 d1 h1 c1) u1 w1 vs1)
    (dec2 : DecodesToBA (((s.withByteArrayOperands m1 d1 h1 c1).afterDecodeBA u1 w1).withByteArrayOperands m2 d2 h2 c2) u2 w2 vs2)
    (dec : DecodesToBA (s.withByteArrayOperands (m1 + m2) d h c) u w vs) :
    vs = vs1 ++ vs2 ∧ Twin (u2.setCounts u.bctx.heapUsed s.bctx.baVrem) u := by
  have hvalues := dec.values
  rw [baCount_pieces (u := u1) (w := w1) (d1 := d1) (h1 := h1) (c1 := c1) (d2 := d2) (h2 := h2) (c2 := c2) hmax] at hvalues
  obtain ⟨us1, x, us2, hus1, hus2, rfl⟩ := baValues_add_ok hvalues
  have hstart : Twin ((s.withByteArrayOperands m1 d1 h1 c1).heapCleared.setCounts 0 s.bctx.baVrem)
    (s.withByteArrayOperands (m1 + m2) d h c).heapCleared := ⟨rfl, rfl, rfl, rfl, rfl, fun _ _ => rfl⟩
  obtain ⟨rfl, hx⟩ := baValues_same_of_twin hstart dec1.values hus1
  obtain ⟨rfl, hu⟩ := baValues_same_of_twin ((dec1.twin _ _).trans hx) dec2.values hus2
  exact ⟨rfl, hu⟩

/-- Settles O52: `decodesToBA_pieces`, each DECODE being its values and the arrays that hold them. -/
theorem incrementalByteArrayDecoding : Obligations.IncrementalByteArrayDecoding := by
  intro s s1 s2 t m1 m2 d1 h1 c1 d2 h2 c2 d h c hm hwf hbuf hmax hrun1 he1 hrun2 he2 hrun he
  obtain ⟨vs1, u1, w1, rfl, dec1⟩ := decodesToBA_of_completed (s := s.withByteArrayOperands m1 d1 h1 c1) hm hwf hbuf hrun1 he1
  obtain ⟨vs2, u2, w2, rfl, dec2⟩ := decodesToBA_of_completed
    (s := ((s.withByteArrayOperands m1 d1 h1 c1).afterDecodeBA u1 w1).withByteArrayOperands m2 d2 h2 c2) hm dec1.wf
    (BufferInvariant.afterDecodeBA (s := s.withByteArrayOperands m1 d1 h1 c1) (u := u1) (w := w1) hbuf
      (baValues_onlyContexts dec1.values)) hrun2 he2
  obtain ⟨vs, u, w, rfl, dec⟩ := decodesToBA_of_completed (s := s.withByteArrayOperands (m1 + m2) d h c) hm hwf hbuf hrun he
  obtain ⟨rfl, hu⟩ := decodesToBA_pieces hmax dec1 dec2 dec
  obtain ⟨hused1, hlen1⟩ := dec1.used
  obtain ⟨hused2, hlen2⟩ := dec2.used
  obtain ⟨hused, -⟩ := dec.used
  have hlen : (vs1 ++ vs2).length = vs1.length + vs2.length := List.length_append
  have hheap := dec.held.heapBytes
  rw [List.flatten_append] at hheap hused
  rw [List.length_append, BitVec.ofNat_add, ← hused1, ← hused2] at hused
  obtain ⟨hheap1, hheap2⟩ := State.bytesAt_parts hheap
  rw [← hused1] at hheap2
  refine ⟨?_, hu.ictx, ?_, fun i hi => ?_, fun i hi => ?_, fun k i hk hlow hi => ?_, fun k i hk hlow hi => ?_⟩
  · rw [dec.result, dec1.result, dec2.result, hlen]
  · show { u.bctx with baVrem := s.bctx.baVrem - BitVec.ofNat 64 (s.withByteArrayOperands (m1 + m2) d h c).baCount } = _
    rw [hu.bctx, hused, dec.count, hlen, ← dec1.count, ← dec2.count, BitVec.ofNat_add, ← sub_sub]
    rfl
  · have hi : i < vs1.flatten.length := hlen1 ▸ hi
    exact (hheap1 i hi).trans (dec1.held.heapBytes i hi).symm
  · have hi : i < vs2.flatten.length := hlen2 ▸ hi
    exact (hheap2 i hi).trans (dec2.held.heapBytes i hi).symm
  · rw [dec1.result] at hk
    exact dec.held.descriptor dec1.held (by omega) hk (List.getElem_append_left hk) hlow hi
  · rw [dec2.result] at hk
    rw [dec1.result]
    refine dec.held.descriptor dec2.held (by omega) hk ?_ hlow hi
    rw [List.getElem_append_right (Nat.le_add_right _ _)]
    simp only [Nat.add_sub_cancel_left]

end

end Sys2Proof.Machine
